-- ==== Sys2Proof/Word.lean ====
section
/-! DEFINITION. The words of the machine: the integer types of 00_scope.md R12 and R14. -/

namespace Sys2Proof

/-- `u8`: a byte on the bus, in a FIFO or in a memory. -/
abbrev Byte := BitVec 8

/-- `u32`: a register value, a flash address, a host address. -/
abbrev Word := BitVec 32

/-- `u24`: an identifier, and the COUNT field of a counter register (10_state.md R38). -/
abbrev Word24 := BitVec 24

end Sys2Proof
end

