-- ==== Sys2Proof/Config.lean ====
section
/-! DEFINITION. What is fixed for a run (00_scope.md R11, 10_state.md R31), the records it is made of, and the free values. -/

namespace Sys2Proof

/-- The controller generation, a build-time property (00_scope.md R3). -/
inductive Variant where
  | genA
  | genB
deriving DecidableEq, Repr

/-- The kind of flash attached, a build-time property (00_scope.md R4). -/
inductive StorageKind where
  | nor
  | nand
deriving DecidableEq, Repr

/-- The FlashGeometry record (44_chip_registry.md R290). -/
structure FlashGeometry where
  name : String
  jedecId : Word24
  pageSizeShift : Byte
  pageIndexMask : Word
  columnMask : Word
  columnShift : Byte
deriving DecidableEq, Repr

/-- The outcome of `resolve` (44_chip_registry.md R292). -/
inductive Resolution where
  | known (g : FlashGeometry)
  | genericFallback (g : FlashGeometry)
  | unknown
  | noChip
deriving DecidableEq, Repr

/-- The error kinds `bootAttempt` returns (60_exceptions.md R360), and the FIT collaborator's own
failure (70_reset_and_hazards.md R412). `TransportFault` is a hang, not a returned error (R362). -/
inductive ErrorKind where
  | noChipDetected
  | unsupportedChip
  | checksumInvalid
  | imageParseError
  | fitLoadFailed
deriving DecidableEq, Repr

/-- What `bootAttempt` returns (70_reset_and_hazards.md R410). -/
inductive BootResult where
  | ok
  | error (kind : ErrorKind)
deriving DecidableEq, Repr

/-- What the FIT collaborator does with one header (70_reset_and_hazards.md R412, R414): calls of the load
descriptor's `read` and writes of its own, in an order that may depend on the bytes the reads deliver, and
whether it succeeds. It is a tree, so that it is plain data (log 20). -/
inductive FitRun where
  /-- It returns. -/
  | done (succeeds : Bool)
  /-- It writes a byte into a buffer it supplies. -/
  | write (addr : Word) (value : Byte) (next : FitRun)
  /-- It calls `desc.read`. -/
  | read (sector : Word) (count : Nat) (buffer : Word) (next : FitRun)
  /-- It looks at the bytes its last `read` left in the buffer. -/
  | ifDelivered (bytes : List Byte) (yes no : FitRun)
deriving DecidableEq, Repr

/-- A range of host addresses. -/
structure HostRegion where
  base : Nat
  size : Nat
deriving DecidableEq, Repr

/-- What `RawParse` returns for a header that is not malformed (70_reset_and_hazards.md R414). -/
structure RawImage where
  loadAddress : Word
  size : Word
deriving DecidableEq, Repr

/-- The external collaborators' contracts (70_reset_and_hazards.md R414), as tables over the 64-byte
headers. DESIGN CHOICE (log 20). -/
structure Collaborators where
  /-- The headers for which `HeaderValid` answers true. -/
  validHeaders : List (List Byte)
  /-- The headers for which `IsFitHeader` answers true. -/
  fitHeaders : List (List Byte)
  /-- `RawParse`: a header that is not listed is malformed. -/
  rawImages : List (List Byte × RawImage)
  /-- `FitLoad`: a header that is not listed is loaded with no effect and fails. -/
  fitRuns : List (List Byte × FitRun)
  /-- The buffers of `FitLoad` with their extents, where a buffer is more than the bytes one of its reads asks for:
  the spec gives a buffer no length (DESIGN CHOICE, log 33). -/
  fitBuffers : List HostRegion
deriving DecidableEq, Repr

/-- The parameters of 00_scope.md R11 that the spec leaves OPEN or that a build chooses, with the
device's page length and the collaborators. A field of the state that no step changes (log 7). -/
structure Params where
  variant : Variant
  storageKind : StorageKind
  /-- `SPI0_BASE`, OPEN. The spec gives a physical address no width (R11, R206); 32 bits are the model's own
  (DESIGN CHOICE, log 31). -/
  spi0Base : Word
  clkDiv : Word
  pinSet : List Nat
  pinFunctionSpi0 : Nat
  pinFunctionInert : Nat
  ownImageSize : Word
  configuredImageOffset : Word
  allowGenericFallback : Bool
  allowFit : Bool
  /-- `KNOWN_CHIPS`: it must contain the entry of 44_chip_registry.md R293, and no identifier 0 or twice (R291);
  `chipTableOk` and `paramsOk` hold it to that. -/
  knownChips : List FlashGeometry
  /-- `DELAY_NS`, in [100, 200] (70_reset_and_hazards.md R430); `paramsOk` holds it to that. -/
  delayNs : Nat
  delayGranularity : Nat
  hdrBuf : Word
  /-- `ERR_STATUS`, negative (60_exceptions.md R361); `paramsOk` holds it to that. -/
  errStatus : Int
  /-- Not observable at the byte level (00_scope.md R11, R23). -/
  spiMode : Nat
  /-- Not observable at the byte level (00_scope.md R11, R23). -/
  bitOrder : Nat
  /-- Not observable at the byte level (00_scope.md R11, R23). -/
  sclkHz : Nat
  /-- Whether the host performs its cache maintenance after a load: the host's duty, no rule of the
  block reads it (20_memory.md R101). -/
  postLoadMaintenance : Bool
  /-- The number of columns of one page of the NAND device (43_flash_commands.md R273, log 13). -/
  nandPageSize : Nat
  /-- The platform's memory map: the host addresses that exist (20_memory.md R84, 93_implementation_defined.md
  U20, log 32). -/
  hostMap : List HostRegion
  collab : Collaborators
deriving DecidableEq, Repr

/-- The free values: the word the spec's n-th draw gives (93_implementation_defined.md U1, U2, U5,
U11, U18). It has no body, so nothing is known of any value of it (log 8). -/
opaque Config.draw : Nat → Word

/-- How many polls of drawn status bits a NOR board's ready poll makes before the model gives the
wait up as hung, a free value (log 27). -/
opaque Config.freePolls : Nat → Nat

end Sys2Proof
end

