-- ==== Sys2Proof/Machine/Flags.lean ====
section
/-! DEFINITION. The layouts of the register words (30_encoding.md R112) and every status flag a program polls (10_state.md R36, R48, R49). -/

namespace Sys2Proof.Machine

/-- ENABLE, in GenA CTL and GenB GCR (00_scope.md R11; PRESUMED, log 10). -/
def bitEnable : Nat := 0

/-- MASTER, in GenA CTL and GenB GCR (00_scope.md R11; PRESUMED, log 10). -/
def bitMaster : Nat := 1

/-- TF_RST of GenA CTL (00_scope.md R11; PRESUMED, log 10). -/
def bitTfRst : Nat := 8

/-- RF_RST of GenA CTL (00_scope.md R11; PRESUMED, log 10). -/
def bitRfRst : Nat := 9

/-- XCH of GenA CTL (00_scope.md R11; PRESUMED, log 10). -/
def bitXchA : Nat := 10

/-- SRST of GenB GCR (00_scope.md R11; PRESUMED, log 10). -/
def bitSrst : Nat := 31

/-- XCH of GenB TCR (00_scope.md R11; PRESUMED, log 10). -/
def bitXchB : Nat := 31

/-- The word with bit `n` equal to `b` and every other bit 0. -/
def bitWord (n : Nat) (b : Bool) : Word := if b then 1#32 <<< n else 0#32

/-- `1 << n`. -/
def mask (n : Nat) : Word := bitWord n true

/-- The five named bits of GenA CTL (10_state.md R36). -/
def ctlNamed : Word := mask bitEnable ||| mask bitMaster ||| mask bitTfRst ||| mask bitRfRst ||| mask bitXchA

/-- The three named bits of GenB GCR (10_state.md R36). -/
def gcrNamed : Word := mask bitEnable ||| mask bitMaster ||| mask bitSrst

/-- The named bit of GenB TCR (10_state.md R36). -/
def tcrNamed : Word := mask bitXchB

/-- GenA CTL as it reads: TF_RST and RF_RST read 0, XCH reads `busy` (40_registers.md R152). -/
def ctlWord (other : Word) (enable master busy : Bool) : Word :=
  (other &&& ~~~ctlNamed) ||| bitWord bitEnable enable ||| bitWord bitMaster master ||| bitWord bitXchA busy

/-- GenB GCR as it reads: SRST reads `srstBusy` (40_registers.md R160). -/
def gcrWord (other : Word) (enable master srstBusy : Bool) : Word :=
  (other &&& ~~~gcrNamed) ||| bitWord bitEnable enable ||| bitWord bitMaster master ||| bitWord bitSrst srstBusy

/-- GenB TCR as it reads: XCH reads `busy` (40_registers.md R162). -/
def tcrWord (other : Word) (busy : Bool) : Word :=
  (other &&& ~~~tcrNamed) ||| bitWord bitXchB busy

/-- The width mask of the two count fields of FIFO_STA: 7 bits in GenA, 8 bits in GenB (00_scope.md
R11; PRESUMED, log 10). -/
def countMask : Variant → Word
  | .genA => 0x7F#32
  | .genB => 0xFF#32

/-- RX_CNT of a FIFO_STA value, at bit 0 (42_protocol_engine.md R230). -/
def rxCnt (v : Variant) (w : Word) : Word := w &&& countMask v

/-- TX_CNT of a FIFO_STA value, at bit 16 (42_protocol_engine.md R230). -/
def txCnt (v : Variant) (w : Word) : Word := (w >>> 16) &&& countMask v

/-- FIFO_STA as it reads: the two counts, every other bit from the draw `d` (40_registers.md R157,
R164). -/
def fifoStaWord (v : Variant) (d : Word) (rx tx : Nat) : Word :=
  (d &&& ~~~(countMask v ||| countMask v <<< 16)) ||| (BitVec.ofNat 32 rx &&& countMask v)
    ||| (BitVec.ofNat 32 tx &&& countMask v) <<< 16

/-- The start-transfer bit of `XCH_REG` (42_protocol_engine.md R230). -/
def xchBit : Variant → Nat
  | .genA => bitXchA
  | .genB => bitXchB

/-- OIP, bit 0 of the NAND status byte: 1 while the device is busy (43_flash_commands.md R263). -/
def oip (status : Byte) : Bool := status.getLsbD 0

/-- The status byte: bit 0 is OIP, bits 7:1 come from the draw `d` (43_flash_commands.md R274). -/
def statusByte (d : Byte) (busy : Bool) : Byte := (d &&& 0xFE#8) ||| (if busy then 1#8 else 0#8)

end Sys2Proof.Machine
end

