-- ==== Sys2Proof/Syntax.lean ====
section
/-! DEFINITION. The instructions: one constructor for each row of spec/opcode_table.json, and the form in which the Host's requests stand in the queue. -/

namespace Sys2Proof

/-- The three layers of 00_scope.md R2: the register accesses of each generation, the flash commands
and the sequencer calls. -/
inductive Instr where
  /-- `R8 0x00`: pop the RX FIFO (40_registers.md R150). -/
  | genARxRead
  /-- `W8 0x04, v`: push the TX FIFO (R151). -/
  | genATxWrite (v : Byte)
  /-- `R32 0x08` (R152). -/
  | genACtlRead
  /-- `W32 0x08, v` (R153). -/
  | genACtlWrite (v : Word)
  /-- `R32 0x1C` (R154). -/
  | genACctlRead
  /-- `W32 0x1C, v` (R154). -/
  | genACctlWrite (v : Word)
  /-- `R32 0x20` (R155). -/
  | genABcRead
  /-- `W32 0x20, v` (R155). -/
  | genABcWrite (v : Word)
  /-- `R32 0x24` (R156). -/
  | genATcRead
  /-- `W32 0x24, v` (R156). -/
  | genATcWrite (v : Word)
  /-- `R32 0x28` (R157). -/
  | genAFifoStaRead
  /-- `R32 0x04` (R160). -/
  | genBGcrRead
  /-- `W32 0x04, v` (R161). -/
  | genBGcrWrite (v : Word)
  /-- `R32 0x08` (R162). -/
  | genBTcrRead
  /-- `W32 0x08, v` (R163). -/
  | genBTcrWrite (v : Word)
  /-- `R32 0x1C` (R164). -/
  | genBFifoStaRead
  /-- `R32 0x24` (R165). -/
  | genBCctlRead
  /-- `W32 0x24, v` (R165). -/
  | genBCctlWrite (v : Word)
  /-- `R32 0x30` (R166). -/
  | genBMbcRead
  /-- `W32 0x30, v` (R166). -/
  | genBMbcWrite (v : Word)
  /-- `R32 0x34` (R167). -/
  | genBMtcRead
  /-- `W32 0x34, v` (R167). -/
  | genBMtcWrite (v : Word)
  /-- `R32 0x38` (R168). -/
  | genBBccRead
  /-- `W32 0x38, v` (R168). -/
  | genBBccWrite (v : Word)
  /-- `W8 0x200, v`: push the TX FIFO (R169). -/
  | genBTxdWrite (v : Byte)
  /-- `R8 0x300`: pop the RX FIFO (R170). -/
  | genBRxdRead
  /-- Flash command 0x9F (43_flash_commands.md R260). -/
  | readId
  /-- Flash command 0x03 at flash address `a`, `n` payload bytes (R261). -/
  | norReadData (a : Word) (n : Nat)
  /-- Flash command 0x13 with row address `r` (R262). -/
  | pageReadToCache (r : Word)
  /-- Flash command pair 0x0F, 0xC0 (R263). -/
  | readStatus
  /-- Flash command 0x0B at column `c`, `n` payload bytes (R264). -/
  | readFromCache (c : Word) (n : Nat)
  /-- Transport `init()` (41_transport.md R201). -/
  | init
  /-- Transport `deinit()` (R202). -/
  | deinit
  /-- Transport `enableClock()` (R203). -/
  | enableClock
  /-- Transport `disableClock()` (R204). -/
  | disableClock
  /-- Transport `configurePins(function)` (R205). -/
  | configurePins (function : Nat)
  /-- Transport `baseAddress()` (R206). -/
  | baseAddress
  /-- Transport `isGenB()` (R207). -/
  | isGenB
  /-- The protocol primitive (42_protocol_engine.md R232). -/
  | exchange (op : Byte) (addr : List Byte) (dummy : Nat) (rxLen : Nat)
  /-- Chip registry lookup (44_chip_registry.md R295). -/
  | resolve (id : Word24)
  /-- Chunked reader (45_chunked_reader.md R321). -/
  | read (addr : Word) (len : Nat) (dst : Word)
  /-- NOR reader (R330). -/
  | norRead (addr : Word) (len : Nat) (dst : Word)
  /-- NAND reader (R340). -/
  | nandRead (addr : Word) (len : Nat) (dst : Word)
  /-- NAND page load and ready poll (R341). -/
  | loadPage (r : Word)
  /-- NAND ready poll (R344). -/
  | waitReady
  /-- FIT load callback (R348). -/
  | fitRead (sector : Word) (count : Nat) (buffer : Word)
  /-- The boot sequence (70_reset_and_hazards.md R410). -/
  | bootAttempt
deriving DecidableEq, Repr

/-- The row formats of 30_encoding.md R142. A register access also says its width, which is no part
of the access key (R111). -/
inductive Format where
  | accessByte
  | accessWord
  | frame
  | call
deriving DecidableEq, Repr

/-- One request of the Host: a format, and the bytes of the row's word followed by its operands. The
hardware fetches no instructions (10_state.md R33): this is the model's own form (log 5). -/
structure Request where
  format : Format
  bytes : List Byte
deriving DecidableEq, Repr

end Sys2Proof
end

