-- ==== Sys2Proof/WellFormed.lean ====
section
/-! DEFINITION. Which instructions the encoding admits: the operand ranges of 30_encoding.md R115 and R117, and of the operand fields of a request (log 5). -/

namespace Sys2Proof

/-- The operands fit the fields that carry them. A flash command carries the address bytes that are
sent (30_encoding.md R117) and a payload length in the range of 30_encoding.md R115; a sequencer
call carries natural numbers in fixed fields of a request (log 5). -/
def wellFormed : Instr → Bool
  | .genARxRead | .genACtlRead | .genACctlRead | .genABcRead | .genATcRead | .genAFifoStaRead => true
  | .genATxWrite _ | .genACtlWrite _ | .genACctlWrite _ | .genABcWrite _ | .genATcWrite _ => true
  | .genBGcrRead | .genBTcrRead | .genBFifoStaRead | .genBCctlRead | .genBMbcRead => true
  | .genBMtcRead | .genBBccRead | .genBRxdRead => true
  | .genBGcrWrite _ | .genBTcrWrite _ | .genBCctlWrite _ | .genBMbcWrite _ | .genBMtcWrite _ => true
  | .genBBccWrite _ | .genBTxdWrite _ => true
  | .readId | .readStatus => true
  | .norReadData a n => a.toNat < 2 ^ 24 && 1 ≤ n && n ≤ 60
  | .pageReadToCache r => r.toNat < 2 ^ 24
  | .readFromCache c n => c.toNat < 2 ^ 16 && 1 ≤ n && n ≤ 60
  | .init | .deinit | .enableClock | .disableClock | .baseAddress | .isGenB => true
  | .configurePins f => f < 2 ^ 32
  | .exchange _ addr d n => addr.length < 2 ^ 8 && d < 2 ^ 8 && n < 2 ^ 32
  | .resolve _ | .loadPage _ | .waitReady | .bootAttempt => true
  | .read _ len _ | .norRead _ len _ | .nandRead _ len _ => len < 2 ^ 64
  | .fitRead _ count _ => count < 2 ^ 64

/-- `i` is an instruction the encoding admits. -/
abbrev WellFormed (i : Instr) : Prop := wellFormed i = true

end Sys2Proof
end

