-- ==== Sys2Proof/Decode.lean ====
section
/-! DEFINITION. Decoding of the Host's requests (30_encoding.md R110 to R120, R142), total and rejecting by name; then the encoder, and the opcode table's words. -/

namespace Sys2Proof

/-- Why a request has no instruction. -/
inductive DecodeError where
  /-- No row of 20_memory.md R92 for the variant has this direction, offset and width (40_registers.md R179). -/
  | undecodedAccess
  /-- The frame is none of the five formats (30_encoding.md R130). -/
  | unknownFrame
  /-- The call number is none of 0x01 to 0x10 (30_encoding.md R142). -/
  | unknownCall
deriving DecidableEq, Repr

/-! ### Fields of a request -/

/-- The next byte of a request; a byte that is not there is 0. -/
def takeByte : List Byte → Byte × List Byte
  | [] => (0#8, [])
  | b :: rest => (b, rest)

/-- The next `k` bytes as a number, the first byte least significant. -/
def takeNat : Nat → List Byte → Nat × List Byte
  | 0, l => (0, l)
  | k + 1, l =>
    let (b, l) := takeByte l
    let (n, l) := takeNat k l
    (b.toNat + 256 * n, l)

/-- The next `k` bytes, in order. -/
def takeBytes : Nat → List Byte → List Byte × List Byte
  | 0, l => ([], l)
  | k + 1, l =>
    let (b, l) := takeByte l
    let (bs, l) := takeBytes k l
    (b :: bs, l)

/-- A number as `k` bytes, the first byte least significant. -/
def natBytes : Nat → Nat → List Byte
  | 0, _ => []
  | k + 1, n => BitVec.ofNat 8 n :: natBytes k (n / 256)

/-- The next 32 bits of a request. -/
def takeWord (l : List Byte) : Word × List Byte :=
  let (n, l) := takeNat 4 l
  (BitVec.ofNat 32 n, l)

/-! ### Register accesses (30_encoding.md R110, R111) -/

/-- GenA's 8-bit accesses by key, with the request's operand bytes (20_memory.md R92). -/
def decodeByteA (key : Nat) (rest : List Byte) : Option Instr :=
  if key = 0x0000 then some .genARxRead
  else if key = 0x1004 then some (.genATxWrite (takeByte rest).1)
  else none

/-- GenA's 32-bit accesses by key (20_memory.md R92). -/
def decodeWordA (key : Nat) (rest : List Byte) : Option Instr :=
  if key = 0x0008 then some .genACtlRead
  else if key = 0x1008 then some (.genACtlWrite (takeWord rest).1)
  else if key = 0x001C then some .genACctlRead
  else if key = 0x101C then some (.genACctlWrite (takeWord rest).1)
  else if key = 0x0020 then some .genABcRead
  else if key = 0x1020 then some (.genABcWrite (takeWord rest).1)
  else if key = 0x0024 then some .genATcRead
  else if key = 0x1024 then some (.genATcWrite (takeWord rest).1)
  else if key = 0x0028 then some .genAFifoStaRead
  else none

/-- GenB's 8-bit accesses by key (20_memory.md R92). -/
def decodeByteB (key : Nat) (rest : List Byte) : Option Instr :=
  if key = 0x1200 then some (.genBTxdWrite (takeByte rest).1)
  else if key = 0x0300 then some .genBRxdRead
  else none

/-- GenB's 32-bit accesses by key (20_memory.md R92). -/
def decodeWordB (key : Nat) (rest : List Byte) : Option Instr :=
  if key = 0x0004 then some .genBGcrRead
  else if key = 0x1004 then some (.genBGcrWrite (takeWord rest).1)
  else if key = 0x0008 then some .genBTcrRead
  else if key = 0x1008 then some (.genBTcrWrite (takeWord rest).1)
  else if key = 0x001C then some .genBFifoStaRead
  else if key = 0x0024 then some .genBCctlRead
  else if key = 0x1024 then some (.genBCctlWrite (takeWord rest).1)
  else if key = 0x0030 then some .genBMbcRead
  else if key = 0x1030 then some (.genBMbcWrite (takeWord rest).1)
  else if key = 0x0034 then some .genBMtcRead
  else if key = 0x1034 then some (.genBMtcWrite (takeWord rest).1)
  else if key = 0x0038 then some .genBBccRead
  else if key = 0x1038 then some (.genBBccWrite (takeWord rest).1)
  else none

/-- A register access of the configured variant: the 13-bit key stands in the first two bytes, and
the table's mask 0x1FFF leaves their upper three bits out of the match (30_encoding.md R111). -/
def decodeAccess (v : Variant) (wide : Bool) (bytes : List Byte) : Option Instr :=
  let (w, rest) := takeNat 2 bytes
  let key := w % 2 ^ 13
  match v, wide with
  | .genA, false => decodeByteA key rest
  | .genA, true => decodeWordA key rest
  | .genB, false => decodeByteB key rest
  | .genB, true => decodeWordB key rest

/-! ### Flash command frames (30_encoding.md R115, R120) -/

/-- The header bytes of a frame decide the command; a data read's payload length, which is no byte of
the frame (30_encoding.md R118), stands behind the header in the request. -/
def decodeFrame (bytes : List Byte) : Option Instr :=
  let (op, l) := takeByte bytes
  let (b1, l) := takeByte l
  let (b2, l) := takeByte l
  let (b3, l) := takeByte l
  let n := (takeByte l).1.toNat
  if op = 0x9F#8 then
    if b1 = 0x00#8 then some .readId else none
  else if op = 0x03#8 then some (.norReadData (0#8 ++ b1 ++ b2 ++ b3) n)
  else if op = 0x13#8 then some (.pageReadToCache (0#8 ++ b1 ++ b2 ++ b3))
  else if op = 0x0F#8 then
    if b1 = 0xC0#8 then some .readStatus else none
  else if op = 0x0B#8 then
    if b3 = 0x00#8 then some (.readFromCache (0#16 ++ b1 ++ b2) n) else none
  else none

/-! ### Sequencer calls (30_encoding.md R142) -/

/-- The operands of a read: flash address, length, destination. -/
def takeRead (l : List Byte) : Word × Nat × Word :=
  let (a, l) := takeWord l
  let (n, l) := takeNat 8 l
  (a, n, (takeWord l).1)

/-- The call number stands in the first byte, the operands behind it (log 5). -/
def decodeCall (bytes : List Byte) : Option Instr :=
  let (c, l) := takeByte bytes
  if c = 0x01#8 then some .init
  else if c = 0x02#8 then some .deinit
  else if c = 0x03#8 then some .enableClock
  else if c = 0x04#8 then some .disableClock
  else if c = 0x05#8 then some (.configurePins (takeNat 4 l).1)
  else if c = 0x06#8 then some .baseAddress
  else if c = 0x07#8 then some .isGenB
  else if c = 0x08#8 then
    let (op, l) := takeByte l
    let (k, l) := takeByte l
    let (d, l) := takeByte l
    let (n, l) := takeNat 4 l
    some (.exchange op (takeBytes k.toNat l).1 d.toNat n)
  else if c = 0x09#8 then some (.resolve (BitVec.ofNat 24 (takeNat 3 l).1))
  else if c = 0x0A#8 then let (a, n, d) := takeRead l; some (.read a n d)
  else if c = 0x0B#8 then let (a, n, d) := takeRead l; some (.norRead a n d)
  else if c = 0x0C#8 then let (a, n, d) := takeRead l; some (.nandRead a n d)
  else if c = 0x0D#8 then some (.loadPage (takeWord l).1)
  else if c = 0x0E#8 then some .waitReady
  else if c = 0x0F#8 then let (a, n, d) := takeRead l; some (.fitRead a n d)
  else if c = 0x10#8 then some .bootAttempt
  else none

/-! ### The decoder -/

/-- A request's result, or the reason there is none. -/
def orElseReject (o : Option Instr) (e : DecodeError) : Except DecodeError Instr :=
  match o with
  | some i => .ok i
  | none => .error e

/-- The instruction a request stands for in a machine of variant `v`. -/
def decode (v : Variant) (r : Request) : Except DecodeError Instr :=
  match r.format with
  | .accessByte => orElseReject (decodeAccess v false r.bytes) .undecodedAccess
  | .accessWord => orElseReject (decodeAccess v true r.bytes) .undecodedAccess
  | .frame => orElseReject (decodeFrame r.bytes) .unknownFrame
  | .call => orElseReject (decodeCall r.bytes) .unknownCall

/-! ### The encoder -/

/-- A read access: the key `off`. -/
def encodeRead (f : Format) (off : Nat) : Request := ⟨f, natBytes 2 off⟩

/-- A 32-bit write access: the key `1 << 12 | off`, then the value. -/
def encodeWrite (off : Nat) (v : Word) : Request := ⟨.accessWord, natBytes 2 (0x1000 + off) ++ natBytes 4 v.toNat⟩

/-- An 8-bit write access: the key `1 << 12 | off`, then the byte. -/
def encodePush (off : Nat) (v : Byte) : Request := ⟨.accessByte, natBytes 2 (0x1000 + off) ++ [v]⟩

/-- A three-byte wire address, most significant byte first (20_memory.md R86). -/
def wire3 (a : Word) : List Byte := [a.extractLsb' 16 8, a.extractLsb' 8 8, a.extractLsb' 0 8]

/-- A two-byte wire column, most significant byte first (20_memory.md R86). -/
def wire2 (c : Word) : List Byte := [c.extractLsb' 8 8, c.extractLsb' 0 8]

/-- A read call: number, flash address, length, destination. -/
def encodeReadCall (c : Byte) (a : Word) (n : Nat) (d : Word) : Request :=
  ⟨.call, c :: (natBytes 4 a.toNat ++ natBytes 8 n ++ natBytes 4 d.toNat)⟩

/-- The request that stands for an instruction. -/
def encode : Instr → Request
  | .genARxRead => encodeRead .accessByte 0x000
  | .genATxWrite v => encodePush 0x004 v
  | .genACtlRead => encodeRead .accessWord 0x008
  | .genACtlWrite v => encodeWrite 0x008 v
  | .genACctlRead => encodeRead .accessWord 0x01C
  | .genACctlWrite v => encodeWrite 0x01C v
  | .genABcRead => encodeRead .accessWord 0x020
  | .genABcWrite v => encodeWrite 0x020 v
  | .genATcRead => encodeRead .accessWord 0x024
  | .genATcWrite v => encodeWrite 0x024 v
  | .genAFifoStaRead => encodeRead .accessWord 0x028
  | .genBGcrRead => encodeRead .accessWord 0x004
  | .genBGcrWrite v => encodeWrite 0x004 v
  | .genBTcrRead => encodeRead .accessWord 0x008
  | .genBTcrWrite v => encodeWrite 0x008 v
  | .genBFifoStaRead => encodeRead .accessWord 0x01C
  | .genBCctlRead => encodeRead .accessWord 0x024
  | .genBCctlWrite v => encodeWrite 0x024 v
  | .genBMbcRead => encodeRead .accessWord 0x030
  | .genBMbcWrite v => encodeWrite 0x030 v
  | .genBMtcRead => encodeRead .accessWord 0x034
  | .genBMtcWrite v => encodeWrite 0x034 v
  | .genBBccRead => encodeRead .accessWord 0x038
  | .genBBccWrite v => encodeWrite 0x038 v
  | .genBTxdWrite v => encodePush 0x200 v
  | .genBRxdRead => encodeRead .accessByte 0x300
  | .readId => ⟨.frame, [0x9F#8, 0x00#8]⟩
  | .norReadData a n => ⟨.frame, 0x03#8 :: (wire3 a ++ [BitVec.ofNat 8 n])⟩
  | .pageReadToCache r => ⟨.frame, 0x13#8 :: wire3 r⟩
  | .readStatus => ⟨.frame, [0x0F#8, 0xC0#8]⟩
  | .readFromCache c n => ⟨.frame, 0x0B#8 :: (wire2 c ++ [0x00#8, BitVec.ofNat 8 n])⟩
  | .init => ⟨.call, [0x01#8]⟩
  | .deinit => ⟨.call, [0x02#8]⟩
  | .enableClock => ⟨.call, [0x03#8]⟩
  | .disableClock => ⟨.call, [0x04#8]⟩
  | .configurePins f => ⟨.call, 0x05#8 :: natBytes 4 f⟩
  | .baseAddress => ⟨.call, [0x06#8]⟩
  | .isGenB => ⟨.call, [0x07#8]⟩
  | .exchange op addr d n =>
    ⟨.call, 0x08#8 :: op :: BitVec.ofNat 8 addr.length :: BitVec.ofNat 8 d :: (natBytes 4 n ++ addr)⟩
  | .resolve id => ⟨.call, 0x09#8 :: natBytes 3 id.toNat⟩
  | .read a n d => encodeReadCall 0x0A#8 a n d
  | .norRead a n d => encodeReadCall 0x0B#8 a n d
  | .nandRead a n d => encodeReadCall 0x0C#8 a n d
  | .loadPage r => ⟨.call, 0x0D#8 :: natBytes 4 r.toNat⟩
  | .waitReady => ⟨.call, [0x0E#8]⟩
  | .fitRead a n d => encodeReadCall 0x0F#8 a n d
  | .bootAttempt => ⟨.call, [0x10#8]⟩

/-! ### The opcode table's words (30_encoding.md R111, R142, log 6) -/

/-- The variant whose row an instruction is, for a register access. -/
def rowVariant : Instr → Option Variant
  | .genARxRead | .genATxWrite _ | .genACtlRead | .genACtlWrite _ | .genACctlRead | .genACctlWrite _ => some .genA
  | .genABcRead | .genABcWrite _ | .genATcRead | .genATcWrite _ | .genAFifoStaRead => some .genA
  | .genBGcrRead | .genBGcrWrite _ | .genBTcrRead | .genBTcrWrite _ | .genBFifoStaRead => some .genB
  | .genBCctlRead | .genBCctlWrite _ | .genBMbcRead | .genBMbcWrite _ | .genBMtcRead => some .genB
  | .genBMtcWrite _ | .genBBccRead | .genBBccWrite _ | .genBTxdWrite _ | .genBRxdRead => some .genB
  | .readId | .norReadData _ _ | .pageReadToCache _ | .readStatus | .readFromCache _ _ => none
  | .init | .deinit | .enableClock | .disableClock | .configurePins _ | .baseAddress | .isGenB => none
  | .exchange _ _ _ _ | .resolve _ | .read _ _ _ | .norRead _ _ _ | .nandRead _ _ _ => none
  | .loadPage _ | .waitReady | .fitRead _ _ _ | .bootAttempt => none

/-- The first request of a list that some variant decodes, with that variant. -/
def firstDecoded : List (Variant × Request) → Option (Variant × Request)
  | [] => none
  | (v, r) :: rest =>
    match decode v r with
    | .ok _ => some (v, r)
    | .error _ => firstDecoded rest

/-- The requests a table word of `nbits` bits may be, in the order in which they are tried: the
table's word does not say its row's format, and some words are words of two rows (log 6). A frame's
word has its first byte in its upper bits (30_encoding.md R142). -/
def tableCandidates (nbits w : Nat) : List (Variant × Request) :=
  let le := natBytes ((nbits + 7) / 8) w
  let frame : Variant × Request := (.genA, ⟨.frame, le.reverse⟩)
  let call : Variant × Request := (.genA, ⟨.call, le⟩)
  if nbits ≤ 8 then
    if w % 256 ≤ 7 then [call, frame] else [frame, call]
  else if nbits ≤ 16 then
    [(.genA, ⟨.accessByte, le⟩), (.genA, ⟨.accessWord, le⟩), (.genB, ⟨.accessByte, le⟩), (.genB, ⟨.accessWord, le⟩),
      frame, call]
  else [call]

/-- The request, and the variant to decode it in, that a word of the opcode table stands for. -/
def tableRequest (nbits w : Nat) : Option (Variant × Request) := firstDecoded (tableCandidates nbits w)

/-- The instruction the decoder reads from a word of the opcode table, every bit above `nbits` zero. -/
def decodeTableWord (nbits w : Nat) : Option Instr :=
  match tableRequest nbits w with
  | none => none
  | some (v, r) =>
    match decode v r with
    | .ok i => some i
    | .error _ => none

end Sys2Proof
end

