-- ==== Sys2Proof/Machine/Operands.lean ====
section
/-! DEFINITION. The constants of 00_scope.md R11, frame headers and operand assembly (30_encoding.md R113 to R117), and the address arithmetic of the chunked reader (45_chunked_reader.md R320 to R328). -/

namespace Sys2Proof.Machine

/-- `FIFO_DEPTH` (00_scope.md R11). -/
def fifoDepth : Nat := 64

/-- `READ_HDR_LEN` (00_scope.md R11). -/
def readHdrLen : Nat := 4

/-- `FIFO_CAP = FIFO_DEPTH - READ_HDR_LEN`, the payload of one reader burst (45_chunked_reader.md R320). -/
def fifoCap : Nat := fifoDepth - readHdrLen

/-- `BOOT_HDR_LEN` (00_scope.md R11). -/
def bootHdrLen : Nat := 64

/-! ### Headers -/

/-- The header of an exchange: opcode, address bytes, and one 0x00 if there is a dummy byte
(42_protocol_engine.md R231). -/
def header (op : Byte) (addr : List Byte) (dummy : Nat) : List Byte :=
  op :: (addr ++ if dummy = 1 then [0x00#8] else [])

/-- Whether a header is one of the five formats of 30_encoding.md R115, by its bytes (log 16). -/
def knownHeader : List Byte → Bool
  | [op, b1] => (op == 0x9F#8 && b1 == 0x00#8) || (op == 0x0F#8 && b1 == 0xC0#8)
  | [op, _, _, b3] => op == 0x03#8 || op == 0x13#8 || (op == 0x0B#8 && b3 == 0x00#8)
  | _ => false

/-- The opcodes with which the device's family programs, erases, enables writes, resets or sets a feature
(30_encoding.md R131). The spec gives the reset's 0xFF (43_flash_commands.md R277); the others are the family's
(PRESUMED, log 30). -/
def modifyingOpcodes : StorageKind → List Byte
  | .nor =>
    [0x01#8, 0x02#8, 0x06#8, 0x11#8, 0x20#8, 0x31#8, 0x32#8, 0x38#8, 0x50#8, 0x52#8, 0x60#8, 0x66#8, 0x99#8, 0xC7#8, 0xD8#8, 0xFF#8]
  | .nand => [0x02#8, 0x06#8, 0x10#8, 0x1F#8, 0x32#8, 0x34#8, 0x84#8, 0xD8#8, 0xFF#8]

/-- Whether the header bytes of a burst are of a command that would do more than read: its first byte selects the
command (30_encoding.md R120, R131). -/
def modifyingHeader (k : StorageKind) : List Byte → Bool
  | [] => false
  | op :: _ => (modifyingOpcodes k).contains op

/-- The identifier of the three bytes received, the first most significant (20_memory.md R87). -/
def jedecOf (r : List Byte) : Word24 := r.getD 0 0 ++ r.getD 1 0 ++ r.getD 2 0

/-! ### Address arithmetic -/

/-- The row address, or page index, of a flash address (45_chunked_reader.md R325). -/
def rowOf (g : FlashGeometry) (addr : Word) : Word := (addr >>> g.pageSizeShift.toNat) &&& g.pageIndexMask

/-- The column address of a flash address (R326). -/
def colOf (g : FlashGeometry) (addr : Word) : Word := (addr >>> g.columnShift.toNat) &&& g.columnMask

/-- The first address of the next page, in natural numbers (R327). -/
def boundaryOf (g : FlashGeometry) (addr : Nat) : Nat := (addr >>> g.pageSizeShift.toNat + 1) <<< g.pageSizeShift.toNat

/-- The length of a NOR burst (R324). -/
def norChunk (remaining : Nat) : Nat := min remaining fifoCap

/-- The length of a NAND burst: never past the page boundary (R328). -/
def nandChunk (g : FlashGeometry) (addr remaining : Nat) : Nat := min (min remaining fifoCap) (boundaryOf g addr - addr)

/-! ### The chip registry's entries -/

/-- The one table entry the source gives, with the spec's two filled fields (44_chip_registry.md R293, log 25). -/
def mx35lf1ge4ab : FlashGeometry :=
  { name := "MX35LF1GE4AB", jedecId := 0xC212C2#24, pageSizeShift := 11#8, pageIndexMask := 0x00FFFFFF#32,
    columnMask := 0x7FF#32, columnShift := 0#8 }

/-- The generic fallback geometry, under the identifier that was resolved (44_chip_registry.md R294). -/
def genericGeometry (id : Word24) : FlashGeometry :=
  { name := "generic", jedecId := id, pageSizeShift := 11#8, pageIndexMask := 0x00FFFFFF#32,
    columnMask := 0x7FF#32, columnShift := 0#8 }

/-- No entry has identifier 0 and no two entries have the same (44_chip_registry.md R291). -/
def chipTableOk : List FlashGeometry → Bool
  | [] => true
  | e :: rest => e.jedecId != 0 && rest.all (fun x => x.jedecId != e.jedecId) && chipTableOk rest

/-- A range of host addresses holds an address. -/
def regionHolds (r : HostRegion) (a : Nat) : Bool := decide (r.base ≤ a) && decide (a < r.base + r.size)

/-- An address is in a buffer the FIT collaborator supplies, where `reads` are the address and count of each read it
makes: it is one of the bytes a read asks for, or in a buffer of `bufs` that holds the address given to a read
(70_reset_and_hazards.md R414; how far a buffer extends is the collaborator's own, DESIGN CHOICE, log 33). -/
def inSuppliedBuffer (bufs reads : List HostRegion) (a : Nat) : Bool :=
  reads.any fun r => regionHolds r a || bufs.any fun b => regionHolds b r.base && regionHolds b a

/-- On every way through its run the FIT collaborator writes only into buffers it supplies on that way, before the
write or after it (70_reset_and_hazards.md R414): `reads` and `writes` are those made so far. -/
def fitWritesOk (bufs : List HostRegion) : List HostRegion → List Nat → FitRun → Bool
  | reads, writes, .done _ => writes.all (inSuppliedBuffer bufs reads)
  | reads, writes, .write a _ next => fitWritesOk bufs reads (a.toNat :: writes) next
  | reads, writes, .read _ count buffer next => fitWritesOk bufs ({ base := buffer.toNat, size := count } :: reads) writes next
  | reads, writes, .ifDelivered _ yes no => fitWritesOk bufs reads writes yes && fitWritesOk bufs reads writes no

/-- The limits the spec sets to the parameters: DELAY_NS in [100, 200], ERR_STATUS negative, the entry of
44_chip_registry.md R293 in KNOWN_CHIPS (00_scope.md R11), and the FIT collaborator's contract
(70_reset_and_hazards.md R414). -/
def paramsOk (p : Params) : Bool :=
  decide (100 ≤ p.delayNs) && decide (p.delayNs ≤ 200) && decide (p.errStatus < 0) && p.knownChips.contains mx35lf1ge4ab
    && p.collab.fitRuns.all (fun r => fitWritesOk p.collab.fitBuffers [] [] r.2)

/-- The platform backs a host address with memory (20_memory.md R84, 93_implementation_defined.md U20). -/
def hostBacked (p : Params) (a : Nat) : Bool := p.hostMap.any fun r => regionHolds r a

/-- The first entry with the identifier (44_chip_registry.md R295). -/
def findChip (id : Word24) : List FlashGeometry → Option FlashGeometry
  | [] => none
  | e :: rest => if e.jedecId = id then some e else findChip id rest

/-- The offset of the boot header in flash (70_reset_and_hazards.md R410). -/
def bootOffset (p : Params) : Word := if p.ownImageSize < p.configuredImageOffset then p.configuredImageOffset else p.ownImageSize

/-- The code of an error kind (60_exceptions.md R360); the FIT loader's own failure has none. -/
def errorCode : ErrorKind → Option Nat
  | .noChipDetected => some 1
  | .unsupportedChip => some 2
  | .checksumInvalid => some 3
  | .imageParseError => some 4
  | .fitLoadFailed => none

end Sys2Proof.Machine
end

