-- ==== Sys2Proof/Machine/State.lean ====
section
/-! DEFINITION. The state of the machine (10_state.md), the reasons a step can stop, and the state after reset. -/

namespace Sys2Proof.Machine

/-- A memory: (address, byte) pairs, addresses strictly rising, no byte equal to what an unlisted
address reads as (Machine/Memory.lean, log 12). -/
abbrev Memory := List Host.Cell

/-- The function of the SPI0 pin group (10_state.md R42). -/
inductive PinFn where
  | spi0
  | inert
  | unknown
deriving DecidableEq, Repr

/-- The state of a NAND read session (10_state.md R46). -/
inductive NandState where
  | pageLoading
  | cacheReadable
deriving DecidableEq, Repr

/-- The ReadCursor (10_state.md R44); its arithmetic is in natural numbers (45_chunked_reader.md
R322, log 21). -/
structure Cursor where
  addr : Nat
  remaining : Nat
  dst : Nat
deriving DecidableEq, Repr

/-- The register block of both generations (10_state.md R34 to R39). -/
structure RegBlock where
  enable : Bool
  master : Bool
  ctlOther : Word
  gcrOther : Word
  tcrOther : Word
  cctl : Word
  burstCnt : Word24
  xferCnt : Word24
  bcc : Word24
  txFifo : List Byte
  rxFifo : List Byte
deriving DecidableEq, Repr

/-- The burst engine, and the GenB soft reset in progress (10_state.md R40, R41). -/
structure BurstEngine where
  busy : Bool
  bRemain : Nat
  tRemain : Nat
  cs : Bool
  frame : List Byte
  srstBusy : Bool
deriving DecidableEq, Repr

/-- The platform controls outside the register block (10_state.md R42). -/
structure Platform where
  clkOn : Bool
  pinFn : PinFn
deriving DecidableEq, Repr

/-- The sequencer's variables (10_state.md R43 to R47). -/
structure Sequencer where
  handle : Bool
  cursor : Option Cursor
  cachedPage : Option Word
  nandState : Option NandState
  geometry : Option FlashGeometry
deriving DecidableEq, Repr

/-- The attached flash device (10_state.md R51). The NAND array's byte at row `r`, column `c` stands
at `nandKey r c` of `nandMem` (Machine/Memory.lean); a column is any natural number. -/
structure FlashDevice where
  norMem : Memory
  nandMem : Memory
  nandCache : Memory
  nandCachedRow : Option Word24
  nandBusy : Bool
  pendingRow : Word24
  idBytes : List Byte
deriving DecidableEq, Repr

/-- An agent other than the Host that takes a turn (10_state.md R30). -/
inductive Turn where
  | engine
  | flash
deriving DecidableEq, Repr

/-- When the Engine and the Flash take their turns (10_state.md R30, 70_reset_and_hazards.md R431,
log 2). -/
structure Environment where
  /-- The turns taken before each of the next steps and polls of the Host. -/
  sched : List (List Turn)
  /-- HW_PROGRESS (40_registers.md R180): after `sched` is used up the Engine still takes its turns. -/
  hwProgress : Bool
  /-- FLASH_PROGRESS (60_exceptions.md R362): after `sched` is used up the Flash still takes its turns. -/
  flashProgress : Bool
deriving DecidableEq, Repr

/-- What an operation returned to the Host (log 18). -/
inductive Returned where
  | nothing
  | byte (b : Byte)
  | word (w : Word)
  | bytes (l : List Byte)
  | identifier (id : Word24)
  | bool (b : Bool)
  | resolution (r : Resolution)
  | count (n : Nat)
  /-- The boot attempt's result, and the numeric status of an error (60_exceptions.md R361). -/
  | boot (r : BootResult) (status : Option Int)
deriving DecidableEq, Repr

/-- What can be seen from outside the block (log 18). -/
inductive Event where
  /-- A burst has completed: the bytes the controller sent, with chip select asserted throughout. -/
  | frame (bytes : List Byte)
  /-- `init` returned. -/
  | initDone
  /-- `deinit` returned. -/
  | deinitDone
  /-- A delay of `DELAY_NS`, in units of `DELAY_GRANULARITY` (00_scope.md R18). -/
  | delay (ns granularity : Nat)
  /-- A call of the reporting facility (70_reset_and_hazards.md R410). -/
  | report (message : String)
  /-- A call of the FIT collaborator with the header and the descriptor's block length (R412). -/
  | fitLoad (hdr : List Byte) (blockLength : Nat)
deriving DecidableEq, Repr

/-- Everything the spec gives the machine, and the model's own fields (INVENTORY.md, State). -/
structure State where
  /-- Fixed for the run (10_state.md R31). -/
  cfg : Params
  regs : RegBlock
  eng : BurstEngine
  plat : Platform
  seq : Sequencer
  flash : FlashDevice
  /-- Host memory (20_memory.md R84). -/
  hostMem : Memory
  /-- The Host's pending requests (log 4). -/
  program : List Request
  /-- What the last operation returned (log 18). -/
  result : Returned
  /-- The events seen so far, oldest first (log 18). -/
  trace : List Event
  env : Environment
  /-- How many free values have been drawn (log 8). -/
  draws : Nat
deriving DecidableEq, Repr

/-- Why the machine stops with a fault (60_exceptions.md R362, R363). -/
inductive Fault where
  /-- A pop of an empty RX FIFO (40_registers.md R150, R170). Safe: the spec raises it. -/
  | rxUnderflow
  /-- A push to a full TX FIFO (R151, R169). Safe: the spec raises it. -/
  | txOverflow
  /-- A received byte with a full RX FIFO (R176). Safe: the spec raises it. -/
  | rxOverflow
  /-- The hang of 60_exceptions.md R362: a busy poll whose condition never becomes true. Safe: the
  agent would spin for ever (log 3). -/
  | transportFault
deriving DecidableEq, Repr

/-- Why an action has no meaning: the complete list of 60_exceptions.md R364, and five of the
model's own. Safe, each: the model stops where the spec gives no meaning. -/
inductive Refusal where
  /-- An instruction with no meaning yet: raised by exec's refused arms. Safe. -/
  | notModelled (mnemonic : String)
  /-- A register access while the clock is gated (40_registers.md R178). Safe. -/
  | accessWhileGated
  /-- GenB: an access other than a GCR read during a soft reset (R178). Safe. -/
  | accessDuringSoftReset
  /-- An access that is no row of the configured variant (R179). Safe. -/
  | undecodedAccess
  /-- A TX push during a burst (R151, R169). Safe. -/
  | txWriteDuringBurst
  /-- An acting GenA CTL write during a burst (R153). Safe. -/
  | ctlActionDuringBurst
  /-- A GenB GCR write during a burst (R161). Safe. -/
  | gcrWriteDuringBurst
  /-- A GenB TCR write during a burst (R163). Safe. -/
  | tcrWriteDuringBurst
  /-- A CCTL write during a burst (R154, R165). Safe. -/
  | cctlWriteDuringBurst
  /-- A counter write during a burst (R155, R156, R166 to R168). Safe. -/
  | counterWriteDuringBurst
  /-- A counter write of 2^24 or more (R155, R156, R166 to R168). Safe. -/
  | counterTooWide
  /-- XCH set while ENABLE or MASTER is 0 (R175). Safe. -/
  | startWhileDisabled
  /-- XCH set while the pins are not SPI0's (R175). Safe. -/
  | pinsNotConfigured
  /-- GenB: XCH set while BCC differs from MTC (R175). Safe. -/
  | altCountMismatch
  /-- XCH set with a burst shape the engine does not take (R175). Safe. -/
  | burstShape
  /-- XCH set with a TX FIFO of another length than XFERCNT, or bytes in the RX FIFO (R175). Safe. -/
  | fifoNotPrepared
  /-- `init` with a live handle (41_transport.md R200). Safe. -/
  | handleAlreadyLive
  /-- `deinit`, an exchange or a read without a live handle (R200). Safe. -/
  | noHandle
  /-- `enableClock` while the clock is on (R203). Safe. -/
  | clockAlreadyOn
  /-- `disableClock` during a burst or soft reset (R204). Safe. -/
  | gateDuringActivity
  /-- `configurePins` with neither function code (R205). Safe. -/
  | badPinFunction
  /-- An exchange with more than 3 address bytes or more than 1 dummy byte (42_protocol_engine.md R233). Safe. -/
  | frameShape
  /-- An exchange of more than 64 bytes (R233). Safe. -/
  | frameTooLong
  /-- An exchange whose header is none of the five formats (R233, 30_encoding.md R130). Safe. -/
  | unknownFrame
  /-- A NAND read with no resolved geometry (45_chunked_reader.md R322). Safe. -/
  | noGeometry
  /-- A read past the end of an address space (R322). Safe. -/
  | addressOverflow
  /-- A known-chip table with a zero or repeated identifier (44_chip_registry.md R291): raised by a
  step of a machine so configured (log 19). Safe. -/
  | badChipTable
  /-- A parameter outside the limits of 00_scope.md R11 or 70_reset_and_hazards.md R414: raised by a step of a
  machine so configured (log 19). Safe. -/
  | badParameter
  /-- A register write that would start a burst with a program, erase, write-enable, reset or feature-set command in
  the TX FIFO (30_encoding.md R131, log 30). Safe. -/
  | modifyingCommand
  /-- A sequencer call whose number is none of 30_encoding.md R142 (log 5). Safe. -/
  | unknownCall
  /-- The Host has no request left and no other agent can move: the run is over (log 4). Safe. -/
  | hostIdle
deriving DecidableEq, Repr

/-- The configuration of the machine in `State.reset` (DESIGN CHOICE, log 7). -/
def resetParams : Params :=
  { variant := .genA, storageKind := .nand, spi0Base := 0#32, clkDiv := 0#32, pinSet := [], pinFunctionSpi0 := 1,
    pinFunctionInert := 0, ownImageSize := 0#32, configuredImageOffset := 0#32, allowGenericFallback := false,
    allowFit := false, knownChips := [mx35lf1ge4ab], delayNs := 200, delayGranularity := 1, hdrBuf := 0#32,
    errStatus := -1, spiMode := 0, bitOrder := 0, sclkHz := 0, postLoadMaintenance := false, nandPageSize := 2048,
    hostMap := [{ base := 0, size := 2 ^ 32 }],
    collab := { validHeaders := [], fitHeaders := [], rawImages := [], fitRuns := [], fitBuffers := [] } }

/-- The machine right after power-on (70_reset_and_hazards.md R401). -/
def State.reset : State :=
  { cfg := resetParams
    regs :=
      { enable := false, master := false, ctlOther := 0#32, gcrOther := 0#32, tcrOther := 0#32, cctl := 0#32,
        burstCnt := 0#24, xferCnt := 0#24, bcc := 0#24, txFifo := [], rxFifo := [] }
    eng := { busy := false, bRemain := 0, tRemain := 0, cs := false, frame := [], srstBusy := false }
    plat := { clkOn := false, pinFn := .unknown }
    seq := { handle := false, cursor := none, cachedPage := none, nandState := none, geometry := none }
    flash :=
      { norMem := [], nandMem := [], nandCache := [], nandCachedRow := none, nandBusy := false, pendingRow := 0#24,
        idBytes := [0xC2#8, 0x12#8, 0xC2#8] }
    hostMem := []
    program := []
    result := .nothing
    trace := []
    env := { sched := [], hwProgress := true, flashProgress := true }
    draws := 0 }

end Sys2Proof.Machine
end

