-- ==== Sys2Proof/Machine/Memory.lean ====
section
/-! DEFINITION. Memories (20_memory.md R80 to R84): reading and writing a byte, and the page of a NAND array. -/

namespace Sys2Proof.Machine

/-- What an address that is not listed reads as (DESIGN CHOICE, log 12). -/
def blankByte : Byte := 0xFF#8

/-- The byte at an address. -/
def readByte : Memory → Nat → Byte
  | [], _ => blankByte
  | (k, b) :: rest, a => if k = a then b else readByte rest a

/-- `MemWrite(addr, 1, b)` (00_scope.md R17). -/
def writeByte : Memory → Nat → Byte → Memory
  | [], a, b => if b = blankByte then [] else [(a, b)]
  | (k, x) :: rest, a, b =>
    if a < k then if b = blankByte then (k, x) :: rest else (a, b) :: (k, x) :: rest
    else if a = k then if b = blankByte then rest else (a, b) :: rest
    else (k, x) :: writeByte rest a b

/-- The canonical form: addresses strictly rising, and no listed byte that an unlisted address reads as. -/
def memoryOk : Memory → Bool
  | [] => true
  | (k, b) :: rest => b != blankByte && rest.all (fun c => k < c.1) && memoryOk rest

/-- A memory in canonical form. -/
abbrev Memory.wf (m : Memory) : Prop := memoryOk m = true

/-- The number of columns a 2-byte column address names (20_memory.md R83). -/
def columnSpan : Nat := 2 ^ 16

/-- The number of rows of a NAND array: a row is a `u24` (10_state.md R51). -/
def rowSpan : Nat := 2 ^ 24

/-- Where the byte of a row and a column stands in a NAND array's memory: one place for each row below `rowSpan`
and each natural number as column (10_state.md R51). -/
def nandKey (row col : Nat) : Nat := col * rowSpan + row

/-- The cells of one row of a NAND array, by column (43_flash_commands.md R275). -/
def pageOf : Memory → Nat → Memory
  | [], _ => []
  | (k, b) :: rest, row => if k % rowSpan = row then (k / rowSpan, b) :: pageOf rest row else pageOf rest row

end Sys2Proof.Machine
end

