-- ==== Sys2Proof/Machine/Registers.lean ====
section
/-! DEFINITION. One register access (40_registers.md): its preconditions, its effect on the register block, the start of a burst, and the free values it draws. -/

namespace Sys2Proof.Machine

/-- How an operation ends without a next state (00_scope.md R19). -/
inductive Stop where
  | fault (f : Fault)
  | refuse (r : Refusal)
deriving DecidableEq, Repr

/-- An operation's answer: what it returns, or why it stops. -/
abbrev Res (α : Type) := Except Stop α

/-- A meaning's outcome. -/
def finish (r : Res State) : Host.Outcome State Fault Refusal :=
  match r with
  | .ok s => .next s
  | .error (.fault f) => .fault f
  | .error (.refuse q) => .refused q

/-- `if b then raise Refuse(q)`. -/
def refuseIf (b : Bool) (q : Refusal) : Res Unit := if b then .error (.refuse q) else .ok ()

/-- `if b then raise Fault(f)`. -/
def faultIf (b : Bool) (f : Fault) : Res Unit := if b then .error (.fault f) else .ok ()

/-- `return v` to the Host. -/
def State.ret (s : State) (v : Returned) : State := { s with result := v }

/-- An event seen from outside. -/
def State.log (s : State) (e : Event) : State := { s with trace := s.trace ++ [e] }

/-- `n` free values have been drawn. -/
def State.drew (s : State) (n : Nat) : State := { s with draws := s.draws + n }

/-! ### Draws -/

/-- The `i`-th free value drawn by the present step of the machine (log 8). -/
def drawWord (s : State) (i : Nat) : Word := Config.draw (s.draws + i)

/-- A free byte. -/
def drawByte (s : State) (i : Nat) : Byte := (drawWord s i).setWidth 8

/-- A free counter value, below 2^24 (70_reset_and_hazards.md R401). -/
def drawCount (s : State) (i : Nat) : Word24 := (drawWord s i).setWidth 24

/-- A free bit. -/
def drawBit (s : State) (i : Nat) : Bool := (drawWord s i).getLsbD 0

/-! ### Preconditions (R178, R179) -/

/-- The checks made before every access: the clock gate, then a GenB soft reset in progress (R178). -/
def accessGate (gcrRead : Bool) (s : State) : Res Unit := do
  refuseIf (!s.plat.clkOn) .accessWhileGated
  refuseIf (s.cfg.variant == .genB && s.eng.srstBusy && !gcrRead) .accessDuringSoftReset

/-- The checks before an access that is a row of variant `v`: R178, then R179 (60_exceptions.md R367,
log 23). -/
def rowAccess (v : Variant) (gcrRead : Bool) (s : State) : Res Unit := do
  accessGate gcrRead s
  refuseIf (s.cfg.variant != v) .undecodedAccess

/-! ### Data registers -/

/-- A byte read of RXREG (R150, R170). -/
def popRx (s : State) : Res (Byte × State) :=
  match s.regs.rxFifo with
  | [] => .error (.fault .rxUnderflow)
  | b :: rest => .ok (b, { s with regs := { s.regs with rxFifo := rest } })

/-- A byte write of TXREG (R151, R169). -/
def pushTx (v : Byte) (s : State) : Res State := do
  refuseIf s.eng.busy .txWriteDuringBurst
  faultIf (decide (fifoDepth ≤ s.regs.txFifo.length)) .txOverflow
  pure { s with regs := { s.regs with txFifo := s.regs.txFifo ++ [v] } }

/-! ### Counters, clock control, FIFO status -/

/-- The checks of a counter write: no burst, a value below 2^24 (R155). -/
def counterWritable (v : Word) (s : State) : Res Unit := do
  refuseIf s.eng.busy .counterWriteDuringBurst
  refuseIf (decide (2 ^ 24 ≤ v.toNat)) .counterTooWide

/-- A write of BURSTCNT (R155, R166). -/
def writeBurstCnt (v : Word) (s : State) : Res State := do
  counterWritable v s
  pure { s with regs := { s.regs with burstCnt := v.setWidth 24 } }

/-- A write of XFERCNT (R156, R167). -/
def writeXferCnt (v : Word) (s : State) : Res State := do
  counterWritable v s
  pure { s with regs := { s.regs with xferCnt := v.setWidth 24 } }

/-- A write of BURSTCNT_ALT (R168). -/
def writeBcc (v : Word) (s : State) : Res State := do
  counterWritable v s
  pure { s with regs := { s.regs with bcc := v.setWidth 24 } }

/-- A counter as it reads (10_state.md R38). -/
def counterWord (c : Word24) : Word := c.setWidth 32

/-- A write of CCTL (R154, R165). -/
def writeCctl (v : Word) (s : State) : Res State := do
  refuseIf s.eng.busy .cctlWriteDuringBurst
  pure { s with regs := { s.regs with cctl := v } }

/-- A read of FIFO_STA: the counts, and a fresh draw (R157, R164). -/
def readFifoSta (s : State) : Word × State :=
  (fifoStaWord s.cfg.variant (drawWord s 0) s.regs.rxFifo.length s.regs.txFifo.length, s.drew 1)

/-! ### Control registers -/

/-- GenA CTL as it reads (R152). -/
def readCtl (s : State) : Word := ctlWord s.regs.ctlOther s.regs.enable s.regs.master s.eng.busy

/-- GenB GCR as it reads (R160). -/
def readGcr (s : State) : Word := gcrWord s.regs.gcrOther s.regs.enable s.regs.master s.eng.srstBusy

/-- GenB TCR as it reads (R162). -/
def readTcr (s : State) : Word := tcrWord s.regs.tcrOther s.eng.busy

/-- The start of a burst, its checks in their order (R175); and last, the write that would perform a program, an
erase, a write-enable, a reset or a feature-set is refused (30_encoding.md R131, 00_scope.md R8; the reason's name
and its place after R175's checks are the model's, log 30). Any other header runs. -/
def startBurst (s : State) : Res State := do
  refuseIf (!(s.regs.enable && s.regs.master)) .startWhileDisabled
  refuseIf (s.plat.pinFn != .spi0) .pinsNotConfigured
  refuseIf (s.cfg.variant == .genB && s.regs.bcc != s.regs.xferCnt) .altCountMismatch
  refuseIf (decide (s.regs.burstCnt.toNat = 0) || decide (s.regs.burstCnt.toNat < s.regs.xferCnt.toNat)
    || decide (fifoDepth < s.regs.burstCnt.toNat)) .burstShape
  refuseIf (s.regs.txFifo.length != s.regs.xferCnt.toNat || !s.regs.rxFifo.isEmpty) .fifoNotPrepared
  refuseIf (modifyingHeader s.cfg.storageKind s.regs.txFifo) .modifyingCommand
  pure { s with eng := { s.eng with busy := true, cs := true, bRemain := s.regs.burstCnt.toNat,
                                    tRemain := s.regs.xferCnt.toNat, frame := [] } }

/-- What a GenA CTL write asks for that a burst in progress does not allow (R153). -/
def ctlActs (v : Word) : Bool :=
  v.getLsbD bitXchA || v.getLsbD bitTfRst || v.getLsbD bitRfRst || !v.getLsbD bitEnable || !v.getLsbD bitMaster

/-- The register block after a GenA CTL write, before any burst start (R153). -/
def ctlWritten (v : Word) (r : RegBlock) : RegBlock :=
  { r with enable := v.getLsbD bitEnable, master := v.getLsbD bitMaster, ctlOther := v &&& ~~~ctlNamed,
           txFifo := if v.getLsbD bitTfRst then [] else r.txFifo,
           rxFifo := if v.getLsbD bitRfRst then [] else r.rxFifo }

/-- A write of GenA CTL (R153). -/
def writeCtl (v : Word) (s : State) : Res State := do
  refuseIf (s.eng.busy && ctlActs v) .ctlActionDuringBurst
  let s := { s with regs := ctlWritten v s.regs }
  if v.getLsbD bitXchA then startBurst s else pure s

/-- The GenB soft reset starts: both FIFOs empty, every register but CCTL a draw (R161). -/
def softReset (s : State) : State :=
  { s with
    regs := { s.regs with enable := drawBit s 0, master := drawBit s 1, gcrOther := drawWord s 2 &&& ~~~gcrNamed,
                          tcrOther := drawWord s 3 &&& ~~~tcrNamed, burstCnt := drawCount s 4,
                          xferCnt := drawCount s 5, bcc := drawCount s 6, txFifo := [], rxFifo := [] }
    eng := { s.eng with srstBusy := true }
    draws := s.draws + 7 }

/-- A write of GenB GCR (R161). -/
def writeGcr (v : Word) (s : State) : Res State := do
  refuseIf s.eng.busy .gcrWriteDuringBurst
  if v.getLsbD bitSrst then pure (softReset s)
  else pure { s with regs := { s.regs with enable := v.getLsbD bitEnable, master := v.getLsbD bitMaster,
                                           gcrOther := v &&& ~~~gcrNamed } }

/-- A write of GenB TCR (R163). -/
def writeTcr (v : Word) (s : State) : Res State := do
  refuseIf s.eng.busy .tcrWriteDuringBurst
  let s := { s with regs := { s.regs with tcrOther := v &&& ~~~tcrNamed } }
  if v.getLsbD bitXchB then startBurst s else pure s

/-- The register block and the engine in the power-on state: FIFOs empty, engine idle, every other
register a draw (70_reset_and_hazards.md R401). -/
def powerOnBlock (s : State) : State :=
  { s with
    regs := { enable := drawBit s 0, master := drawBit s 1, ctlOther := drawWord s 2 &&& ~~~ctlNamed,
              gcrOther := drawWord s 3 &&& ~~~gcrNamed, tcrOther := drawWord s 4 &&& ~~~tcrNamed,
              cctl := drawWord s 5, burstCnt := drawCount s 6, xferCnt := drawCount s 7, bcc := drawCount s 8,
              txFifo := [], rxFifo := [] }
    eng := { busy := false, bRemain := 0, tRemain := 0, cs := false, frame := [], srstBusy := false }
    draws := s.draws + 9 }

end Sys2Proof.Machine
end

