-- ==== Sys2Proof/Machine/Agents.lean ====
section
/-! DEFINITION. The agents beside the Host (10_state.md R30): the Engine's byte step and soft-reset completion (40_registers.md R161, R176, R177), the Flash's answers and page load (43_flash_commands.md R270 to R276), and how their turns fall before the Host's steps and polls (log 1, log 2). -/

namespace Sys2Proof.Machine

/-! ### What the flash answers -/

/-- The NOR byte at an offset from a 3-byte address, wrapping at 2^24 (43_flash_commands.md R271). -/
def norByte (f : FlashDevice) (a2 a1 a0 : Byte) (i : Nat) : Byte :=
  readByte f.norMem (((a2 ++ a1 ++ a0).toNat + i) % 2 ^ 24)

/-- The cache byte at an offset from a 2-byte column; `d` while the device is busy, while no page is
cached, and past the end of the page (R273). -/
def cacheByte (f : FlashDevice) (pageSize : Nat) (c1 c0 : Byte) (i : Nat) (d : Byte) : Byte :=
  let col := (c1 ++ c0).toNat + i
  if !f.nandBusy && f.nandCachedRow.isSome && decide (col < pageSize) then readByte f.nandCache col else d

/-- The byte the flash drives after the bytes `frame` of the burst; `d` is the draw taken where no
rule defines the answer (R270). A device of one kind has no rule for the other kind's commands (log 14). -/
def flashRespond (k : StorageKind) (pageSize : Nat) (f : FlashDevice) (frame : List Byte) (d : Byte) : Byte :=
  match frame with
  | op :: b1 :: rest =>
    if op = 0x9F#8 ∧ b1 = 0x00#8 then f.idBytes.getD rest.length d
    else if op = 0x0F#8 ∧ b1 = 0xC0#8 ∧ rest = [] ∧ k = .nand then statusByte d f.nandBusy
    else
      match rest with
      | b2 :: b3 :: more =>
        if op = 0x03#8 ∧ k = .nor then norByte f b1 b2 b3 more.length
        else if op = 0x0B#8 ∧ k = .nand then cacheByte f pageSize b1 b2 more.length d
        else d
      | _ => d
  | _ => d

/-- What the end of a frame does to the flash: a page load is noted, no other frame has an effect
(R275, R276). -/
def flashEndFrame (k : StorageKind) (f : FlashDevice) (frame : List Byte) : FlashDevice :=
  match frame with
  | op :: r2 :: r1 :: r0 :: _ =>
    if op = 0x13#8 ∧ k = .nand then { f with nandBusy := true, pendingRow := r2 ++ r1 ++ r0 } else f
  | _ => f

/-- The page load completes (R275). -/
def flashLoad (f : FlashDevice) : FlashDevice :=
  { f with nandCache := pageOf f.nandMem f.pendingRow.toNat, nandCachedRow := some f.pendingRow, nandBusy := false }

/-! ### Turns -/

/-- The byte sent in this engine step: the next header byte while there is one, then a draw
(40_registers.md R176). -/
def engineMosi (s : State) : Byte := if 0 < s.eng.tRemain then s.regs.txFifo.headD (drawByte s 0) else drawByte s 0

/-- The state after one byte has been clocked, before a completion (R176). A byte takes two draws,
whether the rules use them or not (log 15). -/
def byteClocked (s : State) : State :=
  let miso := flashRespond s.cfg.storageKind s.cfg.nandPageSize s.flash s.eng.frame (drawByte s 1)
  { s with
    regs := { s.regs with txFifo := if 0 < s.eng.tRemain then s.regs.txFifo.tail else s.regs.txFifo,
                          rxFifo := s.regs.rxFifo ++ [miso] }
    eng := { s.eng with tRemain := s.eng.tRemain - 1, bRemain := s.eng.bRemain - 1,
                        frame := s.eng.frame ++ [engineMosi s] }
    draws := s.draws + 2 }

/-- The completion of a burst (R177). -/
def completeBurst (s : State) : State :=
  { s with eng := { s.eng with busy := false, cs := false }
           flash := flashEndFrame s.cfg.storageKind s.flash s.eng.frame
           trace := s.trace ++ [.frame s.eng.frame] }

/-- The Engine's byte step (R176). -/
def byteStep (s : State) : Res State := do
  faultIf (decide (fifoDepth ≤ s.regs.rxFifo.length)) .rxOverflow
  let t := byteClocked s
  pure (if t.eng.bRemain = 0 then completeBurst t else t)

/-- Whether an Engine step is enabled (R180). -/
def engineEnabled (s : State) : Bool := s.eng.srstBusy || (s.eng.busy && decide (0 < s.eng.bRemain))

/-- A turn of the Engine: the completion of a soft reset (R161), or a byte step; nothing where
neither is enabled. -/
def engineTurn (s : State) : Res State :=
  if s.eng.srstBusy then .ok { s with eng := { s.eng with srstBusy := false } }
  else if s.eng.busy && decide (0 < s.eng.bRemain) then byteStep s
  else .ok s

/-- A turn of the Flash: the completion of a page load; nothing where none is in progress
(43_flash_commands.md R275). -/
def flashTurn (s : State) : State := if s.flash.nandBusy then { s with flash := flashLoad s.flash } else s

/-- One turn. -/
def takeTurn (t : Turn) (s : State) : Res State :=
  match t with
  | .engine => engineTurn s
  | .flash => .ok (flashTurn s)

/-- Turns, in order. -/
def takeTurns : List Turn → State → Res State
  | [], s => .ok s
  | t :: ts, s => do
    let s ← takeTurn t s
    takeTurns ts s

/-- The turns taken before the Host's next step. -/
def gap (s : State) : Res State :=
  match s.env.sched with
  | [] => .ok s
  | ts :: rest => takeTurns ts { s with env := { s.env with sched := rest } }

/-- One Host step inside a call, an access, a host-memory write, a delay or a platform control: the turns that
fall before it, then the step (10_state.md R30, 70_reset_and_hazards.md R431, log 1). -/
def hostStep {α : Type} (act : State → Res α) (s : State) : Res α := do
  let t ← gap s
  act t

/-- After `sched` is used up: one turn of each agent that still moves. -/
def fairRound (s : State) : Res State := do
  let s ← if s.env.hwProgress then engineTurn s else pure s
  pure (if s.env.flashProgress then flashTurn s else s)

/-! ### Busy polls (00_scope.md R18) -/

/-- A poll: one register read, the condition it gives, the state after it. -/
abbrev Poll := State → Res (Bool × State)

/-- A busy poll after `sched` is used up. If the condition is still false after every step the Engine
has left, it never becomes true: the hang of 60_exceptions.md R362 (log 3). -/
def waitFair (poll : Poll) : Nat → State → Res State
  | 0, s => do
    let (done, s) ← poll s
    if done then pure s else .error (.fault .transportFault)
  | k + 1, s => do
    let (done, s) ← poll s
    if done then pure s
    else do
      let s ← fairRound s
      waitFair poll k s

/-- A busy poll along `sched`: the turns of one entry, a poll, and again until the condition holds. -/
def waitSched (poll : Poll) : List (List Turn) → State → Res State
  | [], s => waitFair poll (s.eng.bRemain + 1) { s with env := { s.env with sched := [] } }
  | ts :: rest, s => do
    let s ← takeTurns ts { s with env := { s.env with sched := rest } }
    let (done, s) ← poll s
    if done then pure s else waitSched poll rest s

/-- `wait until P` (00_scope.md R18): unbounded; it ends when the condition holds (log 3). -/
def waitUntil (poll : Poll) (s : State) : Res State := waitSched poll s.env.sched s

end Sys2Proof.Machine
end

