-- ==== Sys2Proof/Machine/Ops.lean ====
section
/-! DEFINITION. The shared operations of the sequencer, every Host step of a call with the turns before it: register accesses by role (42_protocol_engine.md R230), the Transport (41_transport.md), the exchange primitive (42_protocol_engine.md R232), host-memory bytes (20_memory.md R84), and what takes the place of an exception's entry (60_exceptions.md R368). -/

namespace Sys2Proof.Machine

/-! ### Register accesses by role (42_protocol_engine.md R230) -/

/-- `MmioRead32(CTRL_EN)`: GenA CTL or GenB GCR. -/
def mmioReadCtrl (s : State) : Res Word := do
  accessGate true s
  pure (match s.cfg.variant with | .genA => readCtl s | .genB => readGcr s)

/-- `MmioWrite32(CTRL_EN, v)`. -/
def mmioWriteCtrl (v : Word) (s : State) : Res State := do
  accessGate false s
  match s.cfg.variant with
  | .genA => writeCtl v s
  | .genB => writeGcr v s

/-- `MmioRead32(XCH_REG)`: GenA CTL or GenB TCR. -/
def mmioReadXch (s : State) : Res Word := do
  accessGate false s
  pure (match s.cfg.variant with | .genA => readCtl s | .genB => readTcr s)

/-- `MmioWrite32(XCH_REG, v)`. -/
def mmioWriteXch (v : Word) (s : State) : Res State := do
  accessGate false s
  match s.cfg.variant with
  | .genA => writeCtl v s
  | .genB => writeTcr v s

/-- `SetBits32(CTRL_EN, m)`: a read, then a write, two Host steps (00_scope.md R16, 20_memory.md R93). -/
def setCtrl (m : Word) (s : State) : Res State := do
  let v ← mmioReadCtrl s
  hostStep (mmioWriteCtrl (v ||| m)) s

/-- `ClearBits32(CTRL_EN, m)`: a read, then a write, two Host steps. -/
def clearCtrl (m : Word) (s : State) : Res State := do
  let v ← mmioReadCtrl s
  hostStep (mmioWriteCtrl (v &&& ~~~m)) s

/-- `SetBits32(XCH_REG, m)`: a read, then a write, two Host steps. -/
def setXch (m : Word) (s : State) : Res State := do
  let v ← mmioReadXch s
  hostStep (mmioWriteXch (v ||| m)) s

/-- A poll of FIFO_STA for a condition on its value. -/
def pollFifo (p : Word → Bool) : Poll := fun s => do
  accessGate false s
  let (v, s) := readFifoSta s
  pure (p v, s)

/-- A poll of GenB GCR for SRST = 0. -/
def pollSrst : Poll := fun s => do
  let v ← mmioReadCtrl s
  pure (!v.getLsbD bitSrst, s)

/-! ### Transport (41_transport.md) -/

/-- `configurePins(function)` (R205). -/
def configurePinsOp (function : Nat) (s : State) : Res State :=
  if function = s.cfg.pinFunctionSpi0 then .ok { s with plat := { s.plat with pinFn := .spi0 } }
  else if function = s.cfg.pinFunctionInert then .ok { s with plat := { s.plat with pinFn := .inert } }
  else .error (.refuse .badPinFunction)

/-- An access that is neither a GCR read nor of the other variant: the gate, then its effect (40_registers.md R178). -/
def gated {α : Type} (act : State → Res α) (s : State) : Res α := do
  accessGate false s
  act s

/-- `enableClock()`: the gate opens on the power-on state, then the divider is written (R203). -/
def enableClockOp (s : State) : Res State := do
  refuseIf s.plat.clkOn .clockAlreadyOn
  hostStep (gated (writeCctl s.cfg.clkDiv)) (powerOnBlock { s with plat := { s.plat with clkOn := true } })

/-- `disableClock()` (R204). -/
def disableClockOp (s : State) : Res State := do
  refuseIf (s.eng.busy || s.eng.srstBusy) .gateDuringActivity
  pure { s with plat := { s.plat with clkOn := false } }

/-- The bits `init` sets last: ENABLE and MASTER, and on GenA both FIFO resets (R201). -/
def enableBits : Variant → Word
  | .genA => mask bitEnable ||| mask bitMaster ||| mask bitTfRst ||| mask bitRfRst
  | .genB => mask bitEnable ||| mask bitMaster

/-- The GenB soft-reset handshake of `init` (R201); GenA has none. -/
def resetHandshake (s : State) : Res State :=
  match s.cfg.variant with
  | .genA => .ok s
  | .genB => do
    let s ← hostStep (setCtrl (mask bitSrst)) s
    waitUntil pollSrst s

/-- `init()` (R201). -/
def initOp (s : State) : Res State := do
  refuseIf s.seq.handle .handleAlreadyLive
  let s ← hostStep (configurePinsOp s.cfg.pinFunctionSpi0) s
  let s ← hostStep enableClockOp s
  let s ← resetHandshake s
  let s ← hostStep (setCtrl (enableBits s.cfg.variant)) s
  pure (State.log { s with seq := { s.seq with handle := true } } .initDone)

/-- `deinit()` (R202). -/
def deinitOp (s : State) : Res State := do
  refuseIf (!s.seq.handle) .noHandle
  let s ← hostStep (clearCtrl (mask bitEnable ||| mask bitMaster)) s
  let s ← hostStep disableClockOp s
  let s ← hostStep (configurePinsOp s.cfg.pinFunctionInert) s
  pure (State.log { s with seq := { s.seq with handle := false } } .deinitDone)

/-! ### The exchange primitive (42_protocol_engine.md) -/

/-- `delay(DELAY_NS)`: no architectural effect (00_scope.md R18); the trace shows it. -/
def delayOp (s : State) : State := s.log (.delay s.cfg.delayNs s.cfg.delayGranularity)

/-- A delay is a Host step (10_state.md R30). -/
def delayStep (s : State) : Res State := hostStep (fun t => .ok (delayOp t)) s

/-- The well-formedness of an exchange, its checks in their order (R233, 60_exceptions.md R367). -/
def frameOk (op : Byte) (addr : List Byte) (dummy rxLen : Nat) : Res Unit := do
  refuseIf (decide (3 < addr.length) || decide (1 < dummy)) .frameShape
  refuseIf (decide (fifoDepth < (header op addr dummy).length + rxLen)) .frameTooLong
  refuseIf (!knownHeader (header op addr dummy)) .unknownFrame

/-- The counter writes of an exchange: BURSTCNT, XFERCNT, and on GenB BURSTCNT_ALT (R232). -/
def programCounters (total hdrLen : Nat) (s : State) : Res State := do
  let s ← hostStep (gated (writeBurstCnt (BitVec.ofNat 32 total))) s
  let s ← hostStep (gated (writeXferCnt (BitVec.ofNat 32 hdrLen))) s
  match s.cfg.variant with
  | .genA => pure s
  | .genB => hostStep (gated (writeBcc (BitVec.ofNat 32 hdrLen))) s

/-- The header bytes pushed into the TX FIFO, in order (R232). -/
def pushAll : List Byte → State → Res State
  | [], s => .ok s
  | b :: bs, s => do
    let s ← hostStep (gated (pushTx b)) s
    pushAll bs s

/-- `n` bytes popped from the RX FIFO, in order (R232). -/
def popAll : Nat → State → Res (List Byte × State)
  | 0, s => .ok ([], s)
  | n + 1, s => do
    let (b, s) ← hostStep (gated popRx) s
    let (bs, s) ← popAll n s
    pure (b :: bs, s)

/-- The two waits of an exchange: TX drained, then every byte of the burst received (R232, R235). -/
def awaitBurst (total : Nat) (s : State) : Res State := do
  let v := s.cfg.variant
  let s ← waitUntil (pollFifo (fun w => txCnt v w == 0)) s
  waitUntil (pollFifo (fun w => decide (total ≤ (rxCnt v w).toNat))) s

/-- `exchange(opcode, addressBytes, dummyBytes, rxLen)` (R232). -/
def exchangeOp (op : Byte) (addr : List Byte) (dummy rxLen : Nat) (s : State) : Res (List Byte × State) := do
  refuseIf (!s.seq.handle) .noHandle
  frameOk op addr dummy rxLen
  let hdr := header op addr dummy
  let s ← programCounters (hdr.length + rxLen) hdr.length s
  let s ← pushAll hdr s
  let s ← hostStep (setXch (mask (xchBit s.cfg.variant))) s
  let s ← awaitBurst (hdr.length + rxLen) s
  let (_, s) ← popAll hdr.length s
  let (out, s) ← popAll rxLen s
  let s ← delayStep s
  pure (out, s)

/-! ### Host memory (20_memory.md R84) -/

/-- `MemWrite(a, 1, b)`: an address the platform does not back keeps nothing, and the block does not check
(93_implementation_defined.md U20, log 32). -/
def memWrite (a : Nat) (b : Byte) (s : State) : Res State :=
  .ok { s with hostMem := if hostBacked s.cfg a then writeByte s.hostMem a b else s.hostMem }

/-- `MemWrite`s of bytes at rising addresses, each a Host step (45_chunked_reader.md R331). -/
def memWrites : Nat → List Byte → State → Res State
  | _, [], s => .ok s
  | a, b :: bs, s => do
    let s ← hostStep (memWrite a b) s
    memWrites (a + 1) bs s

/-- The byte the host reads at an address; a free value where the platform backs none (log 32). -/
def hostByte (s : State) (a i : Nat) : Byte := if hostBacked s.cfg a then readByte s.hostMem a else drawByte s i

/-- The `n` bytes from an address on, as the host reads them; a byte takes one draw, whether it is used or not. -/
def hostBytes (a n : Nat) (s : State) : List Byte × State := ((List.range n).map fun i => hostByte s (a + i) i, s.drew n)

/-! ### Errors (60_exceptions.md R368) -/

/-- The result of a boot attempt: an error carries the one numeric status ERR_STATUS (60_exceptions.md
R361). -/
def bootReturn (s : State) (r : BootResult) : State :=
  s.ret (.boot r (match r with | .ok => none | .error _ => some s.cfg.errStatus))

/-- The entry of a recoverable error: the Transport is torn down, the kind is returned, nothing is
saved (R368, R369). -/
def raiseError (kind : ErrorKind) (s : State) : Res State := do
  let s ← deinitOp s
  pure (bootReturn s (.error kind))

/-- The return of a boot attempt that succeeds: teardown, then `Ok` (70_reset_and_hazards.md R411, R413). -/
def returnOk (s : State) : Res State := do
  let s ← deinitOp s
  pure (bootReturn s .ok)

end Sys2Proof.Machine
end

