-- ==== Sys2Proof/Machine/FlashCommands.lean ====
section
/-! DEFINITION. The flash commands the block issues (43_flash_commands.md R260 to R264) and the exchange call (42_protocol_engine.md R232). -/

namespace Sys2Proof.Machine

/-- READ_ID as a command: the identifier the flash answers (R260). -/
def readIdOp (s : State) : Res (Word24 × State) := do
  let (r, s) ← exchangeOp 0x9F#8 [] 1 3 s
  pure (jedecOf r, s)

/-- NOR READ_DATA as a command (R261). -/
def norReadDataOp (a : Word) (n : Nat) (s : State) : Res (List Byte × State) := exchangeOp 0x03#8 (wire3 a) 0 n s

/-- NAND PAGE_READ_TO_CACHE as a command (R262). -/
def pageReadOp (r : Word) (s : State) : Res State := do
  let (_, s) ← exchangeOp 0x13#8 (wire3 r) 0 0 s
  pure s

/-- NAND READ_STATUS as a command: the status byte (R263). -/
def readStatusOp (s : State) : Res (Byte × State) := do
  let (r, s) ← exchangeOp 0x0F#8 [0xC0#8] 0 1 s
  pure (r.headD 0#8, s)

/-- NAND READ_FROM_CACHE as a command (R264). -/
def readFromCacheOp (c : Word) (n : Nat) (s : State) : Res (List Byte × State) := exchangeOp 0x0B#8 (wire2 c) 1 n s

/-- READ_ID (R260). -/
def execReadId (s : State) : Host.Outcome State Fault Refusal := finish do
  let (id, s) ← readIdOp s
  pure (s.ret (.identifier id))

/-- NOR READ_DATA (R261). -/
def execNorReadData (a : Word) (n : Nat) (s : State) : Host.Outcome State Fault Refusal := finish do
  let (out, s) ← norReadDataOp a n s
  pure (s.ret (.bytes out))

/-- NAND PAGE_READ_TO_CACHE (R262). -/
def execPageReadToCache (r : Word) (s : State) : Host.Outcome State Fault Refusal := finish do
  let s ← pageReadOp r s
  pure (s.ret .nothing)

/-- NAND READ_STATUS (R263). -/
def execReadStatus (s : State) : Host.Outcome State Fault Refusal := finish do
  let (b, s) ← readStatusOp s
  pure (s.ret (.byte b))

/-- NAND READ_FROM_CACHE (R264). -/
def execReadFromCache (c : Word) (n : Nat) (s : State) : Host.Outcome State Fault Refusal := finish do
  let (out, s) ← readFromCacheOp c n s
  pure (s.ret (.bytes out))

/-- `exchange` called as itself (42_protocol_engine.md R232). -/
def execExchange (op : Byte) (addr : List Byte) (dummy rxLen : Nat) (s : State) : Host.Outcome State Fault Refusal :=
  finish do
    let (out, s) ← exchangeOp op addr dummy rxLen s
    pure (s.ret (.bytes out))

end Sys2Proof.Machine
end

