-- ==== Sys2Proof/Machine/Reader.lean ====
section
/-! DEFINITION. The chunked reader and the NAND page-cache sequencer (45_chunked_reader.md R320 to R348). -/

namespace Sys2Proof.Machine

/-- The checks before any command of a read, in their order (R322). -/
def readChecks (nand : Bool) (addr : Word) (len : Nat) (dst : Word) (s : State) : Res Unit := do
  refuseIf (!s.seq.handle) .noHandle
  refuseIf (nand && s.seq.geometry.isNone) .noGeometry
  refuseIf (decide (2 ^ 32 < addr.toNat + len) || decide (2 ^ 32 < dst.toNat + len)) .addressOverflow

/-- The cursor after a burst of `n` bytes (R330, R340). -/
def advance (c : Cursor) (n : Nat) : Cursor := { addr := c.addr + n, remaining := c.remaining - n, dst := c.dst + n }

/-- The payload of a burst written to host memory at the cursor, and the cursor advanced (R331). -/
def deliver (c : Cursor) (data : List Byte) (n : Nat) (s : State) : Res State := do
  let s ← memWrites c.dst data s
  pure { s with seq := { s.seq with cursor := some (advance c n) } }

/-- The end of a read call: the cursor and the session state are no more (70_reset_and_hazards.md R401). -/
def endRead (s : State) : State := { s with seq := { s.seq with cursor := none, nandState := none } }

/-! ### NOR (R330) -/

/-- One chunk of a NOR read: the burst, then its bytes to host memory (R330). -/
def norStep (c : Cursor) (s : State) : Res State := do
  let n := norChunk c.remaining
  let (data, s) ← norReadDataOp (BitVec.ofNat 32 c.addr) n s
  deliver c data n s

/-- The chunks of a NOR read while the cursor has bytes left, at most `fuel` of them; every chunk has
a byte at least. -/
def norLoop : Nat → State → Res State
  | 0, s => .ok s
  | fuel + 1, s =>
    match s.seq.cursor with
    | none => .ok s
    | some c =>
      if c.remaining = 0 then .ok s
      else do
        let s ← norStep c s
        norLoop fuel s

/-- `norRead(addr, len, dst)` (R330, R323). -/
def norReadOp (addr : Word) (len : Nat) (dst : Word) (s : State) : Res State := do
  readChecks false addr len dst s
  if len = 0 then pure s
  else do
    let c : Cursor := { addr := addr.toNat, remaining := len, dst := dst.toNat }
    let s ← norLoop len { s with seq := { s.seq with cursor := some c } }
    pure (endRead s)

/-! ### NAND (R340 to R344) -/

/-- The ready poll, at most `fuel` times; a device still busy then never becomes ready (R344,
60_exceptions.md R362, log 3). -/
def readyLoop : Nat → State → Res State
  | 0, _ => .error (.fault .transportFault)
  | fuel + 1, s => do
    let s ← delayStep s
    let (status, s) ← readStatusOp s
    if oip status then readyLoop fuel s else pure s

/-- How many ready polls can matter: every one that takes turns from `sched`, and two more; on a NOR
board, whose status bits are draws, a free number more (log 3, log 27). -/
def readyFuel (s : State) : Nat :=
  (match s.cfg.storageKind with | .nand => 0 | .nor => Config.freePolls s.draws) + (s.env.sched.length + 2)

/-- `waitReady()` (R344). -/
def waitReadyOp (s : State) : Res State := readyLoop (readyFuel s) s

/-- `loadPage(r)` (R341). -/
def loadPageOp (r : Word) (s : State) : Res State := do
  let s ← pageReadOp r s
  waitReadyOp { s with seq := { s.seq with cachedPage := some r } }

/-- The page load that starts a chunk in the state PageLoading (R340). -/
def enterPage (g : FlashGeometry) (c : Cursor) (s : State) : Res State :=
  if s.seq.nandState = some .pageLoading then do
    let s ← loadPageOp (rowOf g (BitVec.ofNat 32 c.addr)) s
    pure { s with seq := { s.seq with nandState := some .cacheReadable } }
  else .ok s

/-- Whether the next chunk's page index exceeds the cached one (R343). -/
def mustReload (g : FlashGeometry) (c : Cursor) (cached : Option Word) : Bool :=
  decide (0 < c.remaining) &&
    (match cached with | some r => decide (r < rowOf g (BitVec.ofNat 32 c.addr)) | none => false)

/-- The session state after a chunk (R343). -/
def leaveChunk (g : FlashGeometry) (c : Cursor) (s : State) : State :=
  if mustReload g c s.seq.cachedPage then { s with seq := { s.seq with nandState := some .pageLoading } } else s

/-- One chunk of a NAND read: a page load where the session asks for one, the burst, its bytes to host
memory, and the session state for the next chunk (R340). -/
def nandStep (g : FlashGeometry) (c : Cursor) (s : State) : Res State := do
  let s ← enterPage g c s
  let n := nandChunk g c.addr c.remaining
  let (data, s) ← readFromCacheOp (colOf g (BitVec.ofNat 32 c.addr)) n s
  let s ← deliver c data n s
  pure (leaveChunk g (advance c n) s)

/-- The chunks of a NAND read while the cursor has bytes left, at most `fuel` of them; every chunk has
a byte at least (R340). -/
def nandLoop (g : FlashGeometry) : Nat → State → Res State
  | 0, s => .ok s
  | fuel + 1, s =>
    match s.seq.cursor with
    | none => .ok s
    | some c =>
      if c.remaining = 0 then .ok s
      else do
        let s ← nandStep g c s
        nandLoop g fuel s

/-- `nandRead(addr, len, dst)` (R340, R323). -/
def nandReadOp (addr : Word) (len : Nat) (dst : Word) (s : State) : Res State := do
  readChecks true addr len dst s
  match s.seq.geometry with
  | none => .error (.refuse .noGeometry)
  | some g =>
    if len = 0 then pure s
    else do
      let c : Cursor := { addr := addr.toNat, remaining := len, dst := dst.toNat }
      let s ← nandLoop g len
        { s with seq := { s.seq with cursor := some c, cachedPage := none, nandState := some .pageLoading } }
      pure (endRead s)

/-- `read(addr, len, dst)`: by the storage kind (R321). -/
def readOp (addr : Word) (len : Nat) (dst : Word) (s : State) : Res State :=
  match s.cfg.storageKind with
  | .nor => norReadOp addr len dst s
  | .nand => nandReadOp addr len dst s

/-! ### The calls -/

/-- `read` (R321). -/
def execRead (addr : Word) (len : Nat) (dst : Word) (s : State) : Host.Outcome State Fault Refusal := finish do
  let s ← readOp addr len dst s
  pure (s.ret .nothing)

/-- `norRead` (R330). -/
def execNorRead (addr : Word) (len : Nat) (dst : Word) (s : State) : Host.Outcome State Fault Refusal := finish do
  let s ← norReadOp addr len dst s
  pure (s.ret .nothing)

/-- `nandRead` (R340). -/
def execNandRead (addr : Word) (len : Nat) (dst : Word) (s : State) : Host.Outcome State Fault Refusal := finish do
  let s ← nandReadOp addr len dst s
  pure (s.ret .nothing)

/-- `loadPage` (R341). -/
def execLoadPage (r : Word) (s : State) : Host.Outcome State Fault Refusal := finish do
  let s ← loadPageOp r s
  pure (s.ret .nothing)

/-- `waitReady` (R344). -/
def execWaitReady (s : State) : Host.Outcome State Fault Refusal := finish do
  let s ← waitReadyOp s
  pure (s.ret .nothing)

/-- `fitRead`: a read that returns its count (R348). -/
def execFitRead (sector : Word) (count : Nat) (buffer : Word) (s : State) : Host.Outcome State Fault Refusal := finish do
  let s ← readOp sector count buffer s
  pure (s.ret (.count count))

end Sys2Proof.Machine
end

