-- ==== Sys2Proof/Machine/Registry.lean ====
section
/-! DEFINITION. The chip registry (44_chip_registry.md). -/

namespace Sys2Proof.Machine

/-- `resolve(jedecId)`: a zero identifier first, then the table, then the fallback (R295, R296). -/
def resolveId (p : Params) (id : Word24) : Resolution :=
  if id = 0#24 then .noChip
  else
    match findChip id p.knownChips with
    | some g => .known g
    | none => if p.allowGenericFallback then .genericFallback (genericGeometry id) else .unknown

/-- `resolve` as a call: pure (R297, log 22). -/
def execResolve (id : Word24) (s : State) : Host.Outcome State Fault Refusal := .next (s.ret (.resolution (resolveId s.cfg id)))

end Sys2Proof.Machine
end

