-- ==== Sys2Proof/Machine/Boot.lean ====
section
/-! DEFINITION. The boot sequence (70_reset_and_hazards.md R410 to R413). -/

namespace Sys2Proof.Machine

/-! ### The external collaborators (R414, log 20) -/

/-- `HeaderValid(hdr)`. -/
def headerValid (p : Params) (hdr : List Byte) : Bool := p.collab.validHeaders.contains hdr

/-- `IsFitHeader(hdr)`. -/
def isFitHeader (p : Params) (hdr : List Byte) : Bool := p.collab.fitHeaders.contains hdr

/-- `RawParse(hdr)`: none is `Malformed`. -/
def rawParse (p : Params) (hdr : List Byte) : Option RawImage := p.collab.rawImages.lookup hdr

/-- What `FitLoad(desc, hdr)` does. -/
def fitRunOf (p : Params) (hdr : List Byte) : FitRun :=
  (p.collab.fitRuns.lookup hdr).getD (.done false)

/-! ### The two load paths -/

/-- What the FIT collaborator does, with the bytes `got` its last `read` delivered: its calls of the descriptor's
`read`, after each of which it sees the buffer, its own writes, and its result. -/
def fitActs : FitRun → List Byte → State → Res (Bool × State)
  | .done succeeds, _, s => .ok (succeeds, s)
  | .write addr value next, got, s => do
    let s ← hostStep (memWrite addr.toNat value) s
    fitActs next got s
  | .read sector count buffer next, _, s => do
    let s ← readOp sector count buffer s
    let (got, s) := hostBytes buffer.toNat count s
    fitActs next got s
  | .ifDelivered bytes yes no, got, s => if got = bytes then fitActs yes got s else fitActs no got s

/-- `fitPath(offset, hdr)`: the collaborator is called once, its result is returned after teardown (R412). -/
def fitPath (hdr : List Byte) (s : State) : Res State := do
  let (succeeds, s) ← fitActs (fitRunOf s.cfg hdr) [] (s.log (.fitLoad hdr 1))
  if succeeds then returnOk s else raiseError .fitLoadFailed s

/-- `rawPath(offset, hdr)` (R411). -/
def rawPath (offset : Word) (hdr : List Byte) (s : State) : Res State :=
  match rawParse s.cfg hdr with
  | none => raiseError .imageParseError s
  | some img => do
    let s ← readOp offset img.size.toNat img.loadAddress s
    returnOk s

/-! ### The attempt (R410) -/

/-- The attempt from the validity check of the header on. -/
def loadImage (offset : Word) (s : State) : Res State := do
  let s ← readOp offset bootHdrLen s.cfg.hdrBuf s
  let (hdr, s) := hostBytes s.cfg.hdrBuf.toNat bootHdrLen s
  if headerValid s.cfg hdr then
    if isFitHeader s.cfg hdr && s.cfg.allowFit then fitPath hdr s else rawPath offset hdr s
  else raiseError .checksumInvalid (s.log (.report "image CRC error"))

/-- The geometry of a resolved chip is stored (10_state.md R47, 44_chip_registry.md R295). -/
def setGeometry (g : FlashGeometry) (s : State) : State := { s with seq := { s.seq with geometry := some g } }

/-- The attempt from the outcome of `resolve` on. -/
def bootResolved (r : Resolution) (s : State) : Res State :=
  match r with
  | .noChip => do
    let s ← raiseError .noChipDetected s
    pure (s.log (.report "no device attached"))
  | .unknown => do
    let s ← raiseError .unsupportedChip s
    pure (s.log (.report "unsupported chip"))
  | .known g => loadImage (bootOffset s.cfg) (setGeometry g s)
  | .genericFallback g => loadImage (bootOffset s.cfg) (setGeometry g s)

/-- `bootAttempt()` (R410). -/
def bootAttemptOp (s : State) : Res State := do
  let s ← initOp s
  let (id, s) ← readIdOp s
  bootResolved (resolveId s.cfg id) s

/-- `bootAttempt` (R410). -/
def execBootAttempt (s : State) : Host.Outcome State Fault Refusal := finish (bootAttemptOp s)

end Sys2Proof.Machine
end

