-- ==== Sys2Proof/Machine/GenA.lean ====
section
/-! DEFINITION. The GenA register accesses (40_registers.md R150 to R157). -/

namespace Sys2Proof.Machine

/-- GenA RX read (R150). -/
def execGenARxRead (s : State) : Host.Outcome State Fault Refusal := finish do
  rowAccess .genA false s
  let (b, s) ← popRx s
  pure (s.ret (.byte b))

/-- GenA TX write (R151). -/
def execGenATxWrite (v : Byte) (s : State) : Host.Outcome State Fault Refusal := finish do
  rowAccess .genA false s
  let s ← pushTx v s
  pure (s.ret .nothing)

/-- GenA CTL read (R152). -/
def execGenACtlRead (s : State) : Host.Outcome State Fault Refusal := finish do
  rowAccess .genA false s
  pure (s.ret (.word (readCtl s)))

/-- GenA CTL write (R153). -/
def execGenACtlWrite (v : Word) (s : State) : Host.Outcome State Fault Refusal := finish do
  rowAccess .genA false s
  let s ← writeCtl v s
  pure (s.ret .nothing)

/-- GenA CCTL read (R154). -/
def execGenACctlRead (s : State) : Host.Outcome State Fault Refusal := finish do
  rowAccess .genA false s
  pure (s.ret (.word s.regs.cctl))

/-- GenA CCTL write (R154). -/
def execGenACctlWrite (v : Word) (s : State) : Host.Outcome State Fault Refusal := finish do
  rowAccess .genA false s
  let s ← writeCctl v s
  pure (s.ret .nothing)

/-- GenA BC read (R155). -/
def execGenABcRead (s : State) : Host.Outcome State Fault Refusal := finish do
  rowAccess .genA false s
  pure (s.ret (.word (counterWord s.regs.burstCnt)))

/-- GenA BC write (R155). -/
def execGenABcWrite (v : Word) (s : State) : Host.Outcome State Fault Refusal := finish do
  rowAccess .genA false s
  let s ← writeBurstCnt v s
  pure (s.ret .nothing)

/-- GenA TC read (R156). -/
def execGenATcRead (s : State) : Host.Outcome State Fault Refusal := finish do
  rowAccess .genA false s
  pure (s.ret (.word (counterWord s.regs.xferCnt)))

/-- GenA TC write (R156). -/
def execGenATcWrite (v : Word) (s : State) : Host.Outcome State Fault Refusal := finish do
  rowAccess .genA false s
  let s ← writeXferCnt v s
  pure (s.ret .nothing)

/-- GenA FIFO_STA read (R157). -/
def execGenAFifoStaRead (s : State) : Host.Outcome State Fault Refusal := finish do
  rowAccess .genA false s
  let (v, s) := readFifoSta s
  pure (s.ret (.word v))

end Sys2Proof.Machine
end

