-- ==== Sys2Proof/Machine/GenB.lean ====
section
/-! DEFINITION. The GenB register accesses (40_registers.md R160 to R170). -/

namespace Sys2Proof.Machine

/-- GenB GCR read, the one access admitted during a soft reset (R160). -/
def execGenBGcrRead (s : State) : Host.Outcome State Fault Refusal := finish do
  rowAccess .genB true s
  pure (s.ret (.word (readGcr s)))

/-- GenB GCR write: a soft reset, or ENABLE, MASTER and the other bits (R161). -/
def execGenBGcrWrite (v : Word) (s : State) : Host.Outcome State Fault Refusal := finish do
  rowAccess .genB false s
  let s ← writeGcr v s
  pure (s.ret .nothing)

/-- GenB TCR read (R162). -/
def execGenBTcrRead (s : State) : Host.Outcome State Fault Refusal := finish do
  rowAccess .genB false s
  pure (s.ret (.word (readTcr s)))

/-- GenB TCR write (R163). -/
def execGenBTcrWrite (v : Word) (s : State) : Host.Outcome State Fault Refusal := finish do
  rowAccess .genB false s
  let s ← writeTcr v s
  pure (s.ret .nothing)

/-- GenB FIFO_STA read (R164). -/
def execGenBFifoStaRead (s : State) : Host.Outcome State Fault Refusal := finish do
  rowAccess .genB false s
  let (v, s) := readFifoSta s
  pure (s.ret (.word v))

/-- GenB CCTL read (R165). -/
def execGenBCctlRead (s : State) : Host.Outcome State Fault Refusal := finish do
  rowAccess .genB false s
  pure (s.ret (.word (s.regs.cctl)))

/-- GenB CCTL write (R165). -/
def execGenBCctlWrite (v : Word) (s : State) : Host.Outcome State Fault Refusal := finish do
  rowAccess .genB false s
  let s ← writeCctl v s
  pure (s.ret .nothing)

/-- GenB MBC read (R166). -/
def execGenBMbcRead (s : State) : Host.Outcome State Fault Refusal := finish do
  rowAccess .genB false s
  pure (s.ret (.word (counterWord s.regs.burstCnt)))

/-- GenB MBC write (R166). -/
def execGenBMbcWrite (v : Word) (s : State) : Host.Outcome State Fault Refusal := finish do
  rowAccess .genB false s
  let s ← writeBurstCnt v s
  pure (s.ret .nothing)

/-- GenB MTC read (R167). -/
def execGenBMtcRead (s : State) : Host.Outcome State Fault Refusal := finish do
  rowAccess .genB false s
  pure (s.ret (.word (counterWord s.regs.xferCnt)))

/-- GenB MTC write (R167). -/
def execGenBMtcWrite (v : Word) (s : State) : Host.Outcome State Fault Refusal := finish do
  rowAccess .genB false s
  let s ← writeXferCnt v s
  pure (s.ret .nothing)

/-- GenB BCC read (R168). -/
def execGenBBccRead (s : State) : Host.Outcome State Fault Refusal := finish do
  rowAccess .genB false s
  pure (s.ret (.word (counterWord s.regs.bcc)))

/-- GenB BCC write (R168). -/
def execGenBBccWrite (v : Word) (s : State) : Host.Outcome State Fault Refusal := finish do
  rowAccess .genB false s
  let s ← writeBcc v s
  pure (s.ret .nothing)

/-- GenB TXD write (R169). -/
def execGenBTxdWrite (v : Byte) (s : State) : Host.Outcome State Fault Refusal := finish do
  rowAccess .genB false s
  let s ← pushTx v s
  pure (s.ret .nothing)

/-- GenB RXD read (R170). -/
def execGenBRxdRead (s : State) : Host.Outcome State Fault Refusal := finish do
  rowAccess .genB false s
  let (b, s) ← popRx s
  pure (s.ret (.byte b))

end Sys2Proof.Machine
end

