-- ==== Sys2Proof/Machine/Transport.lean ====
section
/-! DEFINITION. The Transport calls (41_transport.md R201 to R207). -/

namespace Sys2Proof.Machine

/-- `init()` (R201). -/
def execInit (s : State) : Host.Outcome State Fault Refusal := finish do
  let s ← initOp s
  pure (s.ret .nothing)

/-- `deinit()` (R202). -/
def execDeinit (s : State) : Host.Outcome State Fault Refusal := finish do
  let s ← deinitOp s
  pure (s.ret .nothing)

/-- `enableClock()` (R203). -/
def execEnableClock (s : State) : Host.Outcome State Fault Refusal := finish do
  let s ← enableClockOp s
  pure (s.ret .nothing)

/-- `disableClock()` (R204). -/
def execDisableClock (s : State) : Host.Outcome State Fault Refusal := finish do
  let s ← disableClockOp s
  pure (s.ret .nothing)

/-- `configurePins(function)` (R205). -/
def execConfigurePins (function : Nat) (s : State) : Host.Outcome State Fault Refusal := finish do
  let s ← configurePinsOp function s
  pure (s.ret .nothing)

/-- `baseAddress()`: pure (R206). -/
def execBaseAddress (s : State) : Host.Outcome State Fault Refusal := .next (s.ret (.word s.cfg.spi0Base))

/-- `isGenB()`: pure (R207). -/
def execIsGenB (s : State) : Host.Outcome State Fault Refusal := .next (s.ret (.bool (s.cfg.variant == .genB)))

end Sys2Proof.Machine
end

