-- ==== Sys2Proof/Machine/Dispatch.lean ====
section
/-! DEFINITION. One arm for each constructor of Instr: the direct call of its meaning. -/

namespace Sys2Proof.Machine

def exec (i : Instr) (s : State) : Host.Outcome State Fault Refusal :=
  match i with
  | .genARxRead => Sys2Proof.Machine.execGenARxRead s
  | .genATxWrite v => Sys2Proof.Machine.execGenATxWrite v s
  | .genACtlRead => Sys2Proof.Machine.execGenACtlRead s
  | .genACtlWrite v => Sys2Proof.Machine.execGenACtlWrite v s
  | .genACctlRead => Sys2Proof.Machine.execGenACctlRead s
  | .genACctlWrite v => Sys2Proof.Machine.execGenACctlWrite v s
  | .genABcRead => Sys2Proof.Machine.execGenABcRead s
  | .genABcWrite v => Sys2Proof.Machine.execGenABcWrite v s
  | .genATcRead => Sys2Proof.Machine.execGenATcRead s
  | .genATcWrite v => Sys2Proof.Machine.execGenATcWrite v s
  | .genAFifoStaRead => Sys2Proof.Machine.execGenAFifoStaRead s
  | .genBGcrRead => Sys2Proof.Machine.execGenBGcrRead s
  | .genBGcrWrite v => Sys2Proof.Machine.execGenBGcrWrite v s
  | .genBTcrRead => Sys2Proof.Machine.execGenBTcrRead s
  | .genBTcrWrite v => Sys2Proof.Machine.execGenBTcrWrite v s
  | .genBFifoStaRead => Sys2Proof.Machine.execGenBFifoStaRead s
  | .genBCctlRead => Sys2Proof.Machine.execGenBCctlRead s
  | .genBCctlWrite v => Sys2Proof.Machine.execGenBCctlWrite v s
  | .genBMbcRead => Sys2Proof.Machine.execGenBMbcRead s
  | .genBMbcWrite v => Sys2Proof.Machine.execGenBMbcWrite v s
  | .genBMtcRead => Sys2Proof.Machine.execGenBMtcRead s
  | .genBMtcWrite v => Sys2Proof.Machine.execGenBMtcWrite v s
  | .genBBccRead => Sys2Proof.Machine.execGenBBccRead s
  | .genBBccWrite v => Sys2Proof.Machine.execGenBBccWrite v s
  | .genBTxdWrite v => Sys2Proof.Machine.execGenBTxdWrite v s
  | .genBRxdRead => Sys2Proof.Machine.execGenBRxdRead s
  | .readId => Sys2Proof.Machine.execReadId s
  | .norReadData a n => Sys2Proof.Machine.execNorReadData a n s
  | .pageReadToCache r => Sys2Proof.Machine.execPageReadToCache r s
  | .readStatus => Sys2Proof.Machine.execReadStatus s
  | .readFromCache c n => Sys2Proof.Machine.execReadFromCache c n s
  | .init => Sys2Proof.Machine.execInit s
  | .deinit => Sys2Proof.Machine.execDeinit s
  | .enableClock => Sys2Proof.Machine.execEnableClock s
  | .disableClock => Sys2Proof.Machine.execDisableClock s
  | .configurePins function => Sys2Proof.Machine.execConfigurePins function s
  | .baseAddress => Sys2Proof.Machine.execBaseAddress s
  | .isGenB => Sys2Proof.Machine.execIsGenB s
  | .exchange op addr dummy rxLen => Sys2Proof.Machine.execExchange op addr dummy rxLen s
  | .resolve id => Sys2Proof.Machine.execResolve id s
  | .read addr len dst => Sys2Proof.Machine.execRead addr len dst s
  | .norRead addr len dst => Sys2Proof.Machine.execNorRead addr len dst s
  | .nandRead addr len dst => Sys2Proof.Machine.execNandRead addr len dst s
  | .loadPage r => Sys2Proof.Machine.execLoadPage r s
  | .waitReady => Sys2Proof.Machine.execWaitReady s
  | .fitRead sector count buffer => Sys2Proof.Machine.execFitRead sector count buffer s
  | .bootAttempt => Sys2Proof.Machine.execBootAttempt s

end Sys2Proof.Machine
end

