-- ==== Sys2Proof/Machine/Fetch.lean ====
section
/-! DEFINITION. What a step does with the Host's queue: the request taken from it, a request without an instruction, and an empty queue (log 1, log 2, log 4). -/

namespace Sys2Proof.Machine

/-- A step with no request left: the turns that come, else a step the Engine or the Flash still
makes; the run is over when nothing can move (log 4). -/
def idleStep (s : State) : Host.Outcome State Fault Refusal :=
  if !s.env.sched.isEmpty then finish (gap s)
  else if s.env.hwProgress && engineEnabled s then finish (engineTurn s)
  else if s.env.flashProgress && s.flash.nandBusy then .next (flashTurn s)
  else .refused .hostIdle

/-- A request that has no instruction: an undecoded access is refused after the access
preconditions (40_registers.md R179, 60_exceptions.md R367), a frame outside the five formats after
the handle check (42_protocol_engine.md R233). -/
def rejectRequest (e : DecodeError) (s : State) : Host.Outcome State Fault Refusal :=
  match e with
  | .undecodedAccess =>
    finish do
      accessGate false s
      .error (.refuse .undecodedAccess)
  | .unknownFrame =>
    finish do
      refuseIf (!s.seq.handle) .noHandle
      .error (.refuse .unknownFrame)
  | .unknownCall => .refused .unknownCall

/-- The Host's request, taken from the queue. -/
def requestStep (r : Request) (s : State) : Host.Outcome State Fault Refusal :=
  match decode s.cfg.variant r with
  | .ok i => exec i s
  | .error e => rejectRequest e s

/-- The request a table word stands for, as the one pending request of a machine of the variant whose row it
is (log 4, log 6). -/
def placeWord (s : State) (nbits w : Nat) : State :=
  match tableRequest nbits w with
  | none => { s with program := [⟨.call, natBytes ((nbits + 7) / 8) w⟩] }
  | some (v, r) =>
    match r.format with
    | .accessByte => { s with program := [r], cfg := { s.cfg with variant := v } }
    | .accessWord => { s with program := [r], cfg := { s.cfg with variant := v } }
    | .frame => { s with program := [r] }
    | .call => { s with program := [r] }

end Sys2Proof.Machine
end

