-- ==== Sys2Proof/Machine/Step.lean ====
section
/-! DEFINITION. One step of the machine: the turns of the other agents that come first, then the Host's next request (log 1, log 2, log 4). -/

namespace Sys2Proof.Machine

/-- One step. A machine whose chip table is not valid has none (44_chip_registry.md R291), and neither has one
with a parameter outside its limits (00_scope.md R11, log 19). -/
def step (s : State) : Host.Outcome State Fault Refusal :=
  if !chipTableOk s.cfg.knownChips then .refused .badChipTable
  else if !paramsOk s.cfg then .refused .badParameter
  else
    match s.program with
    | [] => idleStep s
    | r :: rest =>
      match gap s with
      | .ok t => requestStep r { t with program := rest }
      | .error e => finish (.error e)

/-- The request a table word stands for becomes the one pending request (log 4, log 6). -/
def State.withFetchWord (s : State) (nbits w : Nat) : State := placeWord s nbits w

end Sys2Proof.Machine
end

