-- ==== Sys2Proof/Safety.lean ====
section
/-! DEFINITION. The terms in which claims about runs are written: the machine's invariant, the conditions of the spec's preconditions, and what the rules call quiescent and idle. -/

namespace Sys2Proof.Machine

/-! ### The invariant -/

/-- The burst engine agrees with itself and with the FIFOs (40_registers.md R175 to R177): while a
burst runs, the chip select is asserted, the TX FIFO holds exactly the header bytes still to send, and
the received bytes fit; otherwise nothing remains. -/
def burstOk (s : State) : Bool :=
  if s.eng.busy then
    s.eng.cs && !s.eng.srstBusy && s.plat.clkOn && s.regs.enable && s.regs.master && decide (0 < s.eng.bRemain)
      && decide (s.eng.tRemain ≤ s.eng.bRemain) && decide (s.regs.txFifo.length = s.eng.tRemain)
      && decide (s.regs.rxFifo.length + s.eng.bRemain ≤ fifoDepth)
      && decide (s.eng.frame.length + s.eng.bRemain ≤ fifoDepth)
  else
    !s.eng.cs && decide (s.eng.bRemain = 0) && decide (s.eng.tRemain = 0)
      && decide (s.regs.txFifo.length ≤ fifoDepth) && decide (s.regs.rxFifo.length ≤ fifoDepth)

/-- A soft reset runs only in a GenB controller whose clock is on (10_state.md R41). -/
def softResetOk (s : State) : Bool := !s.eng.srstBusy || (s.cfg.variant == .genB && s.plat.clkOn)

/-- The stored other bits leave the named bits clear (10_state.md R36). -/
def otherBitsOk (s : State) : Bool :=
  (s.regs.ctlOther &&& ctlNamed) == 0#32 && (s.regs.gcrOther &&& gcrNamed) == 0#32
    && (s.regs.tcrOther &&& tcrNamed) == 0#32

/-- Every memory is in canonical form (log 12). -/
def memoriesOk (s : State) : Bool :=
  memoryOk s.hostMem && memoryOk s.flash.norMem && memoryOk s.flash.nandMem && memoryOk s.flash.nandCache

/-- The cursor and the read-session state exist only during a read call (10_state.md R44, R46). -/
def sessionOk (s : State) : Bool := s.seq.cursor.isNone && s.seq.nandState.isNone

/-- The invariant every step keeps. -/
def stateOk (s : State) : Bool := burstOk s && softResetOk s && otherBitsOk s && memoriesOk s && sessionOk s

/-! ### Conditions -/

/-- A register access is admitted by 40_registers.md R178 and R179 for variant `v`. -/
def Accessible (v : Variant) (s : State) : Prop :=
  s.cfg.variant = v ∧ s.plat.clkOn = true ∧ (v = .genB → s.eng.srstBusy = false)

/-- The Engine is idle (10_state.md R40, R41). -/
def EngineIdle (s : State) : Prop :=
  s.eng.busy = false ∧ s.eng.bRemain = 0 ∧ s.eng.tRemain = 0 ∧ s.eng.cs = false ∧ s.eng.srstBusy = false

/-- Both FIFOs are empty. -/
def FifosEmpty (s : State) : Prop := s.regs.txFifo = [] ∧ s.regs.rxFifo = []

/-- The Transport is configured and clocked and nothing is in progress: the state after `init`
(70_reset_and_hazards.md R402) and after every exchange (42_protocol_engine.md R236). -/
def Ready (s : State) : Prop :=
  s.seq.handle = true ∧ s.plat.clkOn = true ∧ s.plat.pinFn = .spi0 ∧ s.regs.enable = true ∧ s.regs.master = true
    ∧ EngineIdle s ∧ FifosEmpty s

/-- The state after `deinit` (70_reset_and_hazards.md R403, 41_transport.md R209). -/
def Quiescent (s : State) : Prop :=
  s.seq.handle = false ∧ s.plat.clkOn = false ∧ s.plat.pinFn = .inert ∧ s.regs.enable = false ∧ s.regs.master = false
    ∧ s.eng.busy = false ∧ s.eng.srstBusy = false

/-- What no exchange changes: the configuration, the platform, the sequencer's variables, host memory
and the Host's requests. -/
def SameHost (s t : State) : Prop :=
  t.cfg = s.cfg ∧ t.plat = s.plat ∧ t.seq = s.seq ∧ t.hostMem = s.hostMem ∧ t.program = s.program
    ∧ t.env.hwProgress = s.env.hwProgress ∧ t.env.flashProgress = s.env.flashProgress

/-- What no exchange changes in the register block: ENABLE, MASTER, CCTL and the other bits of the control
registers (42_protocol_engine.md R232, 10_state.md R36). -/
def SameControl (r q : RegBlock) : Prop :=
  q.enable = r.enable ∧ q.master = r.master ∧ q.cctl = r.cctl ∧ q.gcrOther = r.gcrOther
    ∧ q.ctlOther &&& ~~~ctlNamed = r.ctlOther &&& ~~~ctlNamed ∧ q.tcrOther &&& ~~~tcrNamed = r.tcrOther &&& ~~~tcrNamed

/-- The device's contents, which nothing writes (00_scope.md R8). -/
def SameImage (f g : FlashDevice) : Prop := g.norMem = f.norMem ∧ g.nandMem = f.nandMem ∧ g.idBytes = f.idBytes

/-- The NOR byte a flash address names (20_memory.md R82). -/
def norByteAt (f : FlashDevice) (a : Nat) : Byte := readByte f.norMem (a % 2 ^ 24)

/-- The NAND byte a flash address names under a geometry: the row bits and column bits that are sent
(20_memory.md R83). -/
def nandByteAt (f : FlashDevice) (g : FlashGeometry) (a : Nat) : Byte :=
  readByte f.nandMem (nandKey ((rowOf g (BitVec.ofNat 32 a)).toNat % rowSpan) ((colOf g (BitVec.ofNat 32 a)).toNat % columnSpan))

/-- The premise of 45_chunked_reader.md R346 over a range of flash addresses: the geometry's row is the
page number and its column the offset in the page; and a page fits the columns sent and the device's page. -/
def GeometryFits (g : FlashGeometry) (pageSize addr len : Nat) : Prop :=
  g.pageSizeShift.toNat ≤ 16 ∧ 2 ^ g.pageSizeShift.toNat ≤ pageSize ∧
    ∀ a, addr ≤ a → a < addr + len →
      (rowOf g (BitVec.ofNat 32 a)).toNat = a / 2 ^ g.pageSizeShift.toNat
        ∧ (colOf g (BitVec.ofNat 32 a)).toNat = a % 2 ^ g.pageSizeShift.toNat

/-- The flash byte a read of the resolved geometry delivers for an address, by storage kind
(45_chunked_reader.md R332, R346). -/
def flashByteAt (k : StorageKind) (f : FlashDevice) (g : FlashGeometry) (a : Nat) : Byte :=
  match k with
  | .nor => norByteAt f a
  | .nand => nandByteAt f g a

/-- A command frame or a delay: what an exchange shows outside. -/
def isCommandEvent : Event → Bool
  | .frame _ | .delay _ _ => true
  | .initDone | .deinitDone | .report _ | .fitLoad _ _ => false

/-- A command frame. -/
def isFrame : Event → Bool
  | .frame _ => true
  | .delay _ _ | .initDone | .deinitDone | .report _ | .fitLoad _ _ => false

/-- What the device may become while no page load is issued: as it was, or with the page load in progress
completed (43_flash_commands.md R275, R276). -/
def FlashMay (f g : FlashDevice) : Prop := g = f ∨ (f.nandBusy = true ∧ g = flashLoad f)

/-- What any number of completed exchanges leave unchanged, and what they show outside
(42_protocol_engine.md R236): the sequencer's variables, host memory and the result are not spoken of. -/
def CommandFrame (s t : State) : Prop :=
  t.cfg = s.cfg ∧ t.plat = s.plat ∧ t.program = s.program ∧ t.env.hwProgress = s.env.hwProgress
    ∧ t.env.flashProgress = s.env.flashProgress ∧ t.env.sched <:+ s.env.sched ∧ Ready t ∧ SameControl s.regs t.regs
    ∧ (s.cfg.variant = .genA → t.regs.bcc = s.regs.bcc) ∧ SameImage s.flash t.flash
    ∧ ∃ ev, t.trace = s.trace ++ ev ∧ ∀ e ∈ ev, isCommandEvent e = true

/-- What one completed exchange with the header `hdr` and `n` payload bytes leaves: the counters of
42_protocol_engine.md R236, an idle engine, empty FIFOs, one frame and one delay on the trace, and
everything else as it was, but for the device and the result. -/
def ExchangeFrame (hdr : List Byte) (n : Nat) (s t : State) : Prop :=
  SameHost s t ∧ Ready t ∧ t.env.sched <:+ s.env.sched ∧ SameControl s.regs t.regs ∧ t.regs.burstCnt.toNat = hdr.length + n
    ∧ t.regs.xferCnt.toNat = hdr.length
    ∧ (match s.cfg.variant with | .genA => t.regs.bcc = s.regs.bcc | .genB => t.regs.bcc.toNat = hdr.length)
    ∧ SameImage s.flash t.flash
    ∧ ∃ pay, pay.length = n ∧ t.trace = s.trace ++ [.frame (hdr ++ pay), .delay s.cfg.delayNs s.cfg.delayGranularity]

/-- What a completed read of `len` bytes to `dst` leaves: byte `j` of the destination is `B j` where the platform
backs its address, and every other byte of host memory is as it was; no read session is left (45_chunked_reader.md
R321, R331; an address that is not backed keeps nothing, log 32). -/
def ReadFills (dst len : Nat) (B : Nat → Byte) (s t : State) : Prop :=
  CommandFrame s t ∧ t.seq.handle = s.seq.handle ∧ t.seq.geometry = s.seq.geometry ∧ t.seq.cursor = none
    ∧ t.seq.nandState = none ∧ Memory.wf t.hostMem
    ∧ ∀ x, readByte t.hostMem x = if (dst ≤ x ∧ x < dst + len) ∧ hostBacked s.cfg x = true then B (x - dst) else readByte s.hostMem x

/-! ### What a read shows outside -/

/-- The pieces of at most 60 bytes that the addresses from `a` to before `e` are cut into from `a` on: the first
address and the length of each (45_chunked_reader.md R324, R347). -/
def pieces60 (a e : Nat) : List (Nat × Nat) := (List.range ((e - a + 59) / 60)).map fun k => (a + 60 * k, min 60 (e - (a + 60 * k)))

/-- The numbers of the pages of `p` bytes that a range of addresses touches, rising (R347). -/
def pagesTouched (p addr len : Nat) : List Nat :=
  if len = 0 then [] else (List.range ((addr + len - 1) / p - addr / p + 1)).map fun k => addr / p + k

/-- The chunks of a range of addresses in its page `q`: the range cut at the page's ends, and then into pieces of at
most 60 bytes (R347). -/
def pageChunks (p addr len q : Nat) : List (Nat × Nat) := pieces60 (max addr (q * p)) (min (addr + len) ((q + 1) * p))

/-- A delay of the protocol engine (42_protocol_engine.md R237). -/
def delayEvent (c : Params) : Event := .delay c.delayNs c.delayGranularity

/-- What a NOR read of a range shows outside: for each piece of at most 60 bytes one read-data frame with the 24 address
bits sent, followed by the bytes `mosi` sent while the payload is received, and the delay of the exchange (R324, R330). -/
def norReadEvents (c : Params) (addr len : Nat) (mosi : Nat → List Byte) : List Event :=
  (pieces60 addr (addr + len)).flatMap fun k =>
    let a := BitVec.ofNat 32 k.1
    [.frame ([0x03#8, a.extractLsb' 16 8, a.extractLsb' 8 8, a.extractLsb' 0 8] ++ mosi k.1), delayEvent c]

/-- One iteration of the ready poll: the delay before it, the status frame with the byte `b` sent while the status is
received, and the delay of the exchange (45_chunked_reader.md R344). -/
def pollEvents (c : Params) (b : Byte) : List Event := [delayEvent c, .frame [0x0F#8, 0xC0#8, b], delayEvent c]

/-- A page load of a row: its frame, the delay of the exchange, and the ready poll (R341). -/
def loadEvents (c : Params) (row : Word) (polls : List Byte) : List Event :=
  [.frame [0x13#8, row.extractLsb' 16 8, row.extractLsb' 8 8, row.extractLsb' 0 8], delayEvent c] ++ polls.flatMap (pollEvents c)

/-- A cache read at a column: its frame, with the bytes `mosi` sent while the payload is received, and the delay of the
exchange (R342). -/
def cacheReadEvents (c : Params) (col : Word) (mosi : List Byte) : List Event :=
  [.frame ([0x0B#8, col.extractLsb' 8 8, col.extractLsb' 0 8, 0x00#8] ++ mosi), delayEvent c]

/-- What a NAND read of a range shows outside, on pages of `p` bytes: for each page the range touches, one page load
with its polls, and then one cache read for each chunk (R345, R347). -/
def nandReadEvents (c : Params) (p addr len : Nat) (polls : Nat → List Byte) (mosi : Nat → List Byte) : List Event :=
  (pagesTouched p addr len).flatMap fun q =>
    loadEvents c (BitVec.ofNat 32 q) (polls q) ++
      (pageChunks p addr len q).flatMap fun k => cacheReadEvents c (BitVec.ofNat 32 (k.1 % p)) (mosi k.1)

/-! ### Bursts and registers -/

/-- The five headers of 30_encoding.md R115. -/
def KnownFrame (hdr : List Byte) : Prop :=
  hdr = [0x9F#8, 0x00#8] ∨ hdr = [0x0F#8, 0xC0#8] ∨ (∃ a b c, hdr = [0x03#8, a, b, c]) ∨ (∃ a b c, hdr = [0x13#8, a, b, c])
    ∨ ∃ a b, hdr = [0x0B#8, a, b, 0x00#8]

/-- The header bytes of a burst start with the opcode of a command that would do more than read (30_encoding.md R131;
which opcodes those are is log 30's). -/
abbrev ModifyingHeader (k : StorageKind) (tx : List Byte) : Prop := tx ≠ [] ∧ tx.getD 0 0 ∈ modifyingOpcodes k

/-- The first check of a burst start that fails: those of 40_registers.md R175 in their order, and last the refusal
of a register write that performs an operation the block has not (30_encoding.md R131; its name and place are log 30's). -/
def startRefusal (s : State) : Option Refusal :=
  if ¬ (s.regs.enable = true ∧ s.regs.master = true) then some .startWhileDisabled
  else if s.plat.pinFn ≠ .spi0 then some .pinsNotConfigured
  else if s.cfg.variant = .genB ∧ s.regs.bcc ≠ s.regs.xferCnt then some .altCountMismatch
  else if s.regs.burstCnt.toNat = 0 ∨ s.regs.burstCnt.toNat < s.regs.xferCnt.toNat ∨ 64 < s.regs.burstCnt.toNat then
    some .burstShape
  else if s.regs.txFifo.length ≠ s.regs.xferCnt.toNat ∨ s.regs.rxFifo ≠ [] then some .fifoNotPrepared
  else if ModifyingHeader s.cfg.storageKind s.regs.txFifo then some .modifyingCommand
  else none

/-- The state in which a burst starts (40_registers.md R175). -/
def startedBurst (s : State) : State :=
  { s with eng := { s.eng with busy := true, cs := true, bRemain := s.regs.burstCnt.toNat, tRemain := s.regs.xferCnt.toNat,
                               frame := [] } }

/-- The keys of 20_memory.md R92 that each variant decodes, for 8-bit and for 32-bit accesses: the offset
for a read, 0x1000 and the offset for a write (30_encoding.md R111). -/
def legalKeys : Variant → Bool → List Nat
  | .genA, false => [0x0000, 0x1004]
  | .genA, true => [0x0008, 0x1008, 0x001C, 0x101C, 0x0020, 0x1020, 0x0024, 0x1024, 0x0028]
  | .genB, false => [0x1200, 0x0300]
  | .genB, true =>
    [0x0004, 0x1004, 0x0008, 0x1008, 0x001C, 0x0024, 0x1024, 0x0030, 0x1030, 0x0034, 0x1034, 0x0038, 0x1038]

/-- The row of `i` in the table of variant `v`: its width and its access key, and that the decoder reads `i`
from it (30_encoding.md R111, 20_memory.md R92). -/
def HasKey (v : Variant) (f : Format) (key : Nat) (i : Instr) : Prop :=
  (encode i).format = f ∧ (encode i).bytes.take 2 = natBytes 2 key ∧ decode v (encode i) = .ok i

/-- The rule of one counter register (40_registers.md R155): its offset, what its read returns, when its write
is refused, what its write stores, and that the value written is read back. -/
def CounterRule (v : Variant) (off : Nat) (rd : Instr) (wr : Word → Instr) (get : RegBlock → Word24) (set : RegBlock → Word24 → RegBlock) : Prop :=
  HasKey v .accessWord off rd ∧ (∀ w, HasKey v .accessWord (0x1000 + off) (wr w)) ∧ ∀ s, Accessible v s →
    exec rd s = .next { s with result := .word ((get s.regs).setWidth 32) } ∧
    ∀ w : Word,
      (s.eng.busy = true → exec (wr w) s = .refused .counterWriteDuringBurst) ∧
      (s.eng.busy = false → 2 ^ 24 ≤ w.toNat → exec (wr w) s = .refused .counterTooWide) ∧
      (s.eng.busy = false → w.toNat < 2 ^ 24 →
        exec (wr w) s = .next { s with regs := set s.regs (w.setWidth 24), result := .nothing } ∧
        exec rd { s with regs := set s.regs (w.setWidth 24), result := .nothing } =
          .next { s with regs := set s.regs (w.setWidth 24), result := .word w })

/-- A boot attempt may start (70_reset_and_hazards.md R414): no live handle, the clock gated, the board's
two pin codes different; and the Engine makes progress (60_exceptions.md R362). -/
def BootReady (s : State) : Prop :=
  s.seq.handle = false ∧ s.plat.clkOn = false ∧ s.cfg.pinFunctionInert ≠ s.cfg.pinFunctionSpi0 ∧ s.env.hwProgress = true

/-- What a boot attempt with a resolved geometry `g` needs to read `len` bytes from `addr` to `dst`: both
ranges inside 32-bit addresses and the destination in memory the platform has (70_reset_and_hazards.md R414);
for NAND, FLASH_PROGRESS and the premise of 45_chunked_reader.md R346. -/
def Readable (s : State) (g : FlashGeometry) (addr dst : Word) (len : Nat) : Prop :=
  addr.toNat + len ≤ 2 ^ 32 ∧ dst.toNat + len ≤ 2 ^ 32 ∧ (∀ x, dst.toNat ≤ x → x < dst.toNat + len → hostBacked s.cfg x = true) ∧
    (s.cfg.storageKind = .nand → s.env.flashProgress = true ∧ GeometryFits g s.cfg.nandPageSize addr.toNat len)

/-- The identifier the attached device answers to READ_ID (43_flash_commands.md R260, R272). -/
def deviceId (f : FlashDevice) : Word24 := jedecOf f.idBytes

/-- The geometry a boot attempt goes on with (44_chip_registry.md R298). -/
def BootsWith (s : State) (g : FlashGeometry) : Prop :=
  3 ≤ s.flash.idBytes.length ∧
    (resolveId s.cfg (deviceId s.flash) = .known g ∨ resolveId s.cfg (deviceId s.flash) = .genericFallback g)

/-- The 64 header bytes in flash (70_reset_and_hazards.md R410). -/
def flashHeader (s : State) (g : FlashGeometry) : List Byte :=
  (List.range 64).map fun j => flashByteAt s.cfg.storageKind s.flash g ((bootOffset s.cfg).toNat + j)

/-- The bytes of host memory with `len` bytes from `dst` on replaced: byte `j` is `B j`. -/
def filled (m : Nat → Byte) (dst len : Nat) (B : Nat → Byte) (x : Nat) : Byte :=
  if dst ≤ x ∧ x < dst + len then B (x - dst) else m x

/-- Host memory once the 64 header bytes are in the header buffer (70_reset_and_hazards.md R410). -/
def headerLoaded (s : State) (g : FlashGeometry) : Nat → Byte :=
  filled (readByte s.hostMem) s.cfg.hdrBuf.toNat 64 fun j => flashByteAt s.cfg.storageKind s.flash g ((bootOffset s.cfg).toNat + j)

/-- Host memory once a call of the descriptor's `read` has returned (45_chunked_reader.md R348). -/
def fitReadBytes (s : State) (g : FlashGeometry) (sector : Word) (count : Nat) (buffer : Word) (m : Nat → Byte) : Nat → Byte :=
  filled m buffer.toNat count fun j => flashByteAt s.cfg.storageKind s.flash g (sector.toNat + j)

/-- What a FIT collaborator does from host memory `m` on, with the bytes `got` its last read delivered: its result,
and host memory when it returns; its reads deliver the flash bytes (70_reset_and_hazards.md R412, R414). -/
def fitOutcome (s : State) (g : FlashGeometry) : FitRun → List Byte → (Nat → Byte) → Bool × (Nat → Byte)
  | .done succeeds, _, m => (succeeds, m)
  | .write addr value next, got, m => fitOutcome s g next got (filled m addr.toNat 1 fun _ => value)
  | .read sector count buffer next, _, m =>
    fitOutcome s g next ((List.range count).map fun j => fitReadBytes s g sector count buffer m (buffer.toNat + j))
      (fitReadBytes s g sector count buffer m)
  | .ifDelivered bytes yes no, got, m => if got = bytes then fitOutcome s g yes got m else fitOutcome s g no got m

/-- Every read the collaborator makes on the way it takes is `Readable`, and every byte it writes is in memory the
platform has (70_reset_and_hazards.md R414). -/
def FitReadable (s : State) (g : FlashGeometry) : FitRun → List Byte → (Nat → Byte) → Prop
  | .done _, _, _ => True
  | .write addr value next, got, m =>
    hostBacked s.cfg addr.toNat = true ∧ FitReadable s g next got (filled m addr.toNat 1 fun _ => value)
  | .read sector count buffer next, _, m =>
    Readable s g sector buffer count ∧
      FitReadable s g next ((List.range count).map fun j => fitReadBytes s g sector count buffer m (buffer.toNat + j))
        (fitReadBytes s g sector count buffer m)
  | .ifDelivered bytes yes no, got, m => if got = bytes then FitReadable s g yes got m else FitReadable s g no got m

/-- A call of the FIT collaborator. -/
def isFitLoad : Event → Bool
  | .fitLoad _ _ => true
  | .frame _ | .delay _ _ | .initDone | .deinitDone | .report _ => false

/-- The calls that may write host memory: the reads, and the boot attempt that makes reads (20_memory.md
R84, 41_transport.md R208). -/
def mayWriteHostMemory : Instr → Bool
  | .read _ _ _ | .norRead _ _ _ | .nandRead _ _ _ | .fitRead _ _ _ | .bootAttempt => true
  | .genARxRead | .genATxWrite _ | .genACtlRead | .genACtlWrite _ | .genACctlRead | .genACctlWrite _ => false
  | .genABcRead | .genABcWrite _ | .genATcRead | .genATcWrite _ | .genAFifoStaRead => false
  | .genBGcrRead | .genBGcrWrite _ | .genBTcrRead | .genBTcrWrite _ | .genBFifoStaRead => false
  | .genBCctlRead | .genBCctlWrite _ | .genBMbcRead | .genBMbcWrite _ | .genBMtcRead => false
  | .genBMtcWrite _ | .genBBccRead | .genBBccWrite _ | .genBTxdWrite _ | .genBRxdRead => false
  | .readId | .norReadData _ _ | .pageReadToCache _ | .readStatus | .readFromCache _ _ => false
  | .init | .deinit | .enableClock | .disableClock | .configurePins _ | .baseAddress | .isGenB => false
  | .exchange _ _ _ _ | .resolve _ | .loadPage _ | .waitReady => false

end Sys2Proof.Machine
end

