-- ==== Sys2Proof/Certificates/Slice0/Obligations.lean ====
section
/-! DEFINITION. The statements for the provers, one definition each (OBLIGATIONS.json lists them with the rules they formalise). -/

open Sys2Proof Sys2Proof.Machine

/-! ### Encoding and stepping -/

/-- Decoding the encoding of a well-formed instruction gives it back, with every operand, in the variant
whose row it is and in both variants where it is no register access (30_encoding.md R111, R115, R117, R142;
the places of a call's operands are the model's choice, log 5). -/
def Obligations.DecodeEncode : Prop :=
  ∀ (i : Instr) (v : Variant), WellFormed i → (rowVariant i = none ∨ rowVariant i = some v) → decode v (encode i) = .ok i

/-- Requests whose keys, frames and call numbers are written out from the spec's encodings decode to the instructions
they stand for (30_encoding.md R111, R115, R142; the bytes behind a key and the payload length behind a header stand
where the model's own request layout has them, log 5). -/
def Obligations.DecodedWords : Prop :=
  decode .genA ⟨.accessByte, [0x04#8, 0x10#8, 0x9F#8]⟩ = .ok (.genATxWrite 0x9F#8) ∧
  decode .genA ⟨.accessWord, [0x08#8, 0x10#8, 0x03#8, 0x03#8, 0x00#8, 0x00#8]⟩ = .ok (.genACtlWrite 0x303#32) ∧
  decode .genA ⟨.accessWord, [0x28#8, 0x00#8]⟩ = .ok .genAFifoStaRead ∧
  decode .genB ⟨.accessWord, [0x04#8, 0x10#8, 0x00#8, 0x00#8, 0x00#8, 0x80#8]⟩ = .ok (.genBGcrWrite 0x80000000#32) ∧
  decode .genB ⟨.accessByte, [0x00#8, 0x03#8]⟩ = .ok .genBRxdRead ∧
  decode .genA ⟨.frame, [0x9F#8, 0x00#8]⟩ = .ok .readId ∧
  decode .genB ⟨.frame, [0x03#8, 0x01#8, 0x23#8, 0x45#8, 0x02#8]⟩ = .ok (.norReadData 0x12345#32 2) ∧
  decode .genB ⟨.frame, [0x0B#8, 0x07#8, 0xF8#8, 0x00#8, 0x08#8]⟩ = .ok (.readFromCache 0x7F8#32 8) ∧
  decode .genA ⟨.frame, [0x0F#8, 0xC0#8]⟩ = .ok .readStatus ∧
  decode .genA ⟨.call, [0x01#8]⟩ = .ok .init ∧
  decode .genA ⟨.call, [0x10#8]⟩ = .ok .bootAttempt

/-- An access whose key is no row of 20_memory.md R92 for the variant and width is refused, after the clock
gate and the soft reset; a key that is a row decodes to an instruction of the variant (40_registers.md R178,
R179, 60_exceptions.md R367). -/
def Obligations.UndecodedAccessRefused : Prop :=
  ∀ (s : State) (wide : Bool) (b0 b1 : Byte) (operand : List Byte),
    let r : Request := ⟨if wide then .accessWord else .accessByte, b0 :: b1 :: operand⟩
    ((b0.toNat + 256 * b1.toNat) % 2 ^ 13 ∉ legalKeys s.cfg.variant wide →
      requestStep r s =
        if s.plat.clkOn = false then .refused .accessWhileGated
        else if s.cfg.variant = .genB ∧ s.eng.srstBusy = true then .refused .accessDuringSoftReset
        else .refused .undecodedAccess) ∧
    ((b0.toNat + 256 * b1.toNat) % 2 ^ 13 ∈ legalKeys s.cfg.variant wide →
      ∃ i, decode s.cfg.variant r = .ok i ∧ rowVariant i = some s.cfg.variant ∧ requestStep r s = exec i s)

/-- When the Host's next request decodes to a well-formed instruction, a step of a machine within its limits is that
instruction's meaning at the state after the turns that come first, the request taken from the queue; with no turns
scheduled that state is the state itself. -/
def Obligations.StepRunsDecoded : Prop :=
  ∀ (s t : State) (r : Request) (rest : List Request) (i : Instr), chipTableOk s.cfg.knownChips = true → paramsOk s.cfg = true →
    s.program = r :: rest → decode s.cfg.variant r = .ok i → WellFormed i →
    (gap s = .ok t → step s = exec i { t with program := rest }) ∧
    (s.env.sched = [] → step s = exec i { s with program := rest })

/-- A table with a zero or a repeated identifier makes the machine refuse every step, and with any other table no
step is refused for it (44_chip_registry.md R291; that a step raises the refusal is the model's choice, log 19). -/
def Obligations.BadChipTableRefused : Prop :=
  ∀ s : State,
    (¬ ((∀ e ∈ s.cfg.knownChips, e.jedecId ≠ 0#24) ∧ s.cfg.knownChips.Pairwise (fun a b => a.jedecId ≠ b.jedecId)) →
      step s = .refused .badChipTable) ∧
    ((∀ e ∈ s.cfg.knownChips, e.jedecId ≠ 0#24) ∧ s.cfg.knownChips.Pairwise (fun a b => a.jedecId ≠ b.jedecId) →
      step s ≠ .refused .badChipTable)

/-- With a good chip table, a delay outside 100 to 200 ns, an error status that is not negative, a table without the
entry of 44_chip_registry.md R293 or a FIT collaborator that writes outside the buffers it supplies makes the
machine refuse every step; within these limits no step is refused for them (00_scope.md R11, 70_reset_and_hazards.md
R414; that a step raises the refusal is the model's choice, log 19, log 20; so is how far a buffer extends, log 33). -/
def Obligations.ParameterLimits : Prop :=
  ∀ s : State, chipTableOk s.cfg.knownChips = true →
    (¬ (100 ≤ s.cfg.delayNs ∧ s.cfg.delayNs ≤ 200 ∧ s.cfg.errStatus < 0 ∧ mx35lf1ge4ab ∈ s.cfg.knownChips ∧
        ∀ r ∈ s.cfg.collab.fitRuns, fitWritesOk s.cfg.collab.fitBuffers [] [] r.2 = true) → step s = .refused .badParameter) ∧
    (100 ≤ s.cfg.delayNs ∧ s.cfg.delayNs ≤ 200 ∧ s.cfg.errStatus < 0 ∧ mx35lf1ge4ab ∈ s.cfg.knownChips ∧
        (∀ r ∈ s.cfg.collab.fitRuns, fitWritesOk s.cfg.collab.fitBuffers [] [] r.2 = true) → step s ≠ .refused .badParameter)

/-! ### Register accesses -/

/-- A byte read of RXREG returns and removes the oldest byte, and faults on an empty RX FIFO; during a burst
too (40_registers.md R150, R170). -/
def Obligations.RxPop : Prop :=
  HasKey .genA .accessByte 0x000 .genARxRead ∧ HasKey .genB .accessByte 0x300 .genBRxdRead ∧
  ∀ (s : State) (v : Variant) (i : Instr), (v = .genA ∧ i = .genARxRead ∨ v = .genB ∧ i = .genBRxdRead) → Accessible v s →
    (∀ b rest, s.regs.rxFifo = b :: rest →
      exec i s = .next { s with regs := { s.regs with rxFifo := rest }, result := .byte b }) ∧
    (s.regs.rxFifo = [] → exec i s = .fault .rxUnderflow)

/-- A byte write of TXREG is refused during a burst, faults at 64 entries, and otherwise appends the byte
(40_registers.md R151, R169). -/
def Obligations.TxPush : Prop :=
  (∀ b, HasKey .genA .accessByte 0x1004 (.genATxWrite b) ∧ HasKey .genB .accessByte 0x1200 (.genBTxdWrite b)) ∧
  ∀ (s : State) (v : Variant) (i : Byte → Instr), (v = .genA ∧ i = .genATxWrite ∨ v = .genB ∧ i = .genBTxdWrite) →
    Accessible v s → ∀ b : Byte,
    (s.eng.busy = true → exec (i b) s = .refused .txWriteDuringBurst) ∧
    (s.eng.busy = false → s.regs.txFifo.length = 64 → exec (i b) s = .fault .txOverflow) ∧
    (s.eng.busy = false → s.regs.txFifo.length < 64 →
      exec (i b) s = .next { s with regs := { s.regs with txFifo := s.regs.txFifo ++ [b] }, result := .nothing })

/-- The three control registers read, without changing anything: GenA CTL gives ENABLE, MASTER, 0, 0 and `busy`
in its named bits, GenB GCR gives ENABLE, MASTER and `srstBusy` (also while a soft reset runs), GenB TCR gives
`busy`; every other bit is the stored one (40_registers.md R152, R160, R162). -/
def Obligations.ControlReads : Prop :=
  HasKey .genA .accessWord 0x008 .genACtlRead ∧ HasKey .genB .accessWord 0x004 .genBGcrRead ∧
  HasKey .genB .accessWord 0x008 .genBTcrRead ∧
  ∀ s : State,
    (Accessible .genA s →
      ∃ w : Word, exec .genACtlRead s = .next { s with result := .word w } ∧
        w.getLsbD 0 = s.regs.enable ∧ w.getLsbD 1 = s.regs.master ∧ w.getLsbD 8 = false ∧ w.getLsbD 9 = false ∧
        w.getLsbD 10 = s.eng.busy ∧ ∀ i, i < 32 → i ∉ [0, 1, 8, 9, 10] → w.getLsbD i = s.regs.ctlOther.getLsbD i) ∧
    (s.cfg.variant = .genB → s.plat.clkOn = true →
      ∃ w : Word, exec .genBGcrRead s = .next { s with result := .word w } ∧
        w.getLsbD 0 = s.regs.enable ∧ w.getLsbD 1 = s.regs.master ∧ w.getLsbD 31 = s.eng.srstBusy ∧
        ∀ i, i < 32 → i ∉ [0, 1, 31] → w.getLsbD i = s.regs.gcrOther.getLsbD i) ∧
    (Accessible .genB s →
      ∃ w : Word, exec .genBTcrRead s = .next { s with result := .word w } ∧ w.getLsbD 31 = s.eng.busy ∧
        ∀ i, i < 31 → w.getLsbD i = s.regs.tcrOther.getLsbD i)

/-- A GenA CTL write: refused during a burst if it acts; otherwise it sets ENABLE, MASTER and the other bits,
empties the FIFOs whose reset bit is 1, and starts a burst if XCH is 1, with the refusals of the start
(40_registers.md R153, R175, 30_encoding.md R131; the last refusal's name, place and opcodes are the model's, log 30). -/
def Obligations.GenACtlWrites : Prop :=
  (∀ v, HasKey .genA .accessWord 0x1008 (.genACtlWrite v)) ∧
  ∀ s : State, Accessible .genA s → ∀ v : Word,
    (s.eng.busy = true →
      (v.getLsbD 10 = true ∨ v.getLsbD 8 = true ∨ v.getLsbD 9 = true ∨ v.getLsbD 0 = false ∨ v.getLsbD 1 = false) →
      exec (.genACtlWrite v) s = .refused .ctlActionDuringBurst) ∧
    (¬ (s.eng.busy = true ∧
        (v.getLsbD 10 = true ∨ v.getLsbD 8 = true ∨ v.getLsbD 9 = true ∨ v.getLsbD 0 = false ∨ v.getLsbD 1 = false)) →
      ∃ o : Word, (∀ i, i < 32 → o.getLsbD i = (v.getLsbD i && !decide (i ∈ [0, 1, 8, 9, 10]))) ∧
        ∀ w : State, w = { s with
            regs := { s.regs with enable := v.getLsbD 0, master := v.getLsbD 1, ctlOther := o,
                                  txFifo := if v.getLsbD 8 then [] else s.regs.txFifo,
                                  rxFifo := if v.getLsbD 9 then [] else s.regs.rxFifo },
            result := .nothing } →
          (v.getLsbD 10 = false → exec (.genACtlWrite v) s = .next w) ∧
          (v.getLsbD 10 = true → startRefusal w = none → exec (.genACtlWrite v) s = .next (startedBurst w)) ∧
          (v.getLsbD 10 = true → ∀ q, startRefusal w = some q → exec (.genACtlWrite v) s = .refused q))

/-- A GenB GCR write: refused during a burst; with SRST it empties both FIFOs, leaves the other registers but
CCTL at free values and starts a soft reset, which an Engine turn completes and nothing else changes by;
without SRST it sets ENABLE, MASTER and the other bits (40_registers.md R161; how many free values are drawn
is the model's own count, log 8). -/
def Obligations.GenBGcrWrites : Prop :=
  (∀ v, HasKey .genB .accessWord 0x1004 (.genBGcrWrite v)) ∧
  ∀ s : State, Accessible .genB s → ∀ v : Word,
    (s.eng.busy = true → exec (.genBGcrWrite v) s = .refused .gcrWriteDuringBurst) ∧
    (s.eng.busy = false → v.getLsbD 31 = true →
      ∃ (e m : Bool) (g t : Word) (b x c : Word24),
        exec (.genBGcrWrite v) s = .next { s with
          regs := { s.regs with enable := e, master := m, gcrOther := g, tcrOther := t, burstCnt := b, xferCnt := x, bcc := c,
                                txFifo := [], rxFifo := [] },
          eng := { s.eng with srstBusy := true }, result := .nothing, draws := s.draws + 7 }) ∧
    (s.eng.busy = false → v.getLsbD 31 = false →
      ∃ g : Word, (∀ i, i < 32 → g.getLsbD i = (v.getLsbD i && !decide (i ∈ [0, 1, 31]))) ∧
        exec (.genBGcrWrite v) s = .next { s with
          regs := { s.regs with enable := v.getLsbD 0, master := v.getLsbD 1, gcrOther := g }, result := .nothing }) ∧
    ∀ u : State, u.eng.srstBusy = true → engineTurn u = .ok { u with eng := { u.eng with srstBusy := false } }

/-- A GenB TCR write: refused during a burst; otherwise it sets the other bits, and with XCH starts a burst,
with the refusals of the start (40_registers.md R163, R175, 30_encoding.md R131; the last refusal's name, place and
opcodes are the model's, log 30). -/
def Obligations.GenBTcrWrites : Prop :=
  (∀ v, HasKey .genB .accessWord 0x1008 (.genBTcrWrite v)) ∧
  ∀ s : State, Accessible .genB s → ∀ v : Word,
    (s.eng.busy = true → exec (.genBTcrWrite v) s = .refused .tcrWriteDuringBurst) ∧
    (s.eng.busy = false →
      ∃ o : Word, (∀ i, i < 32 → o.getLsbD i = (v.getLsbD i && !decide (i = 31))) ∧
        ∀ w : State, w = { s with regs := { s.regs with tcrOther := o }, result := .nothing } →
          (v.getLsbD 31 = false → exec (.genBTcrWrite v) s = .next w) ∧
          (v.getLsbD 31 = true → startRefusal w = none → exec (.genBTcrWrite v) s = .next (startedBurst w)) ∧
          (v.getLsbD 31 = true → ∀ q, startRefusal w = some q → exec (.genBTcrWrite v) s = .refused q))

/-- CCTL of both variants: a write stores the value and is refused during a burst, a read returns it
(40_registers.md R154, R165). -/
def Obligations.ClockControl : Prop :=
  HasKey .genA .accessWord 0x01C .genACctlRead ∧ HasKey .genB .accessWord 0x024 .genBCctlRead ∧
  (∀ v, HasKey .genA .accessWord 0x101C (.genACctlWrite v) ∧ HasKey .genB .accessWord 0x1024 (.genBCctlWrite v)) ∧
  ∀ (s : State) (v : Variant) (rd : Instr) (wr : Word → Instr),
    (v = .genA ∧ rd = .genACctlRead ∧ wr = .genACctlWrite ∨ v = .genB ∧ rd = .genBCctlRead ∧ wr = .genBCctlWrite) →
    Accessible v s →
    exec rd s = .next { s with result := .word s.regs.cctl } ∧
    ∀ w : Word,
      (s.eng.busy = true → exec (wr w) s = .refused .cctlWriteDuringBurst) ∧
      (s.eng.busy = false → exec (wr w) s = .next { s with regs := { s.regs with cctl := w }, result := .nothing })

/-- The five counter registers: a read returns the counter; a write is refused during a burst or for a value
of 2^24 or more, and otherwise stores the value, which is then read back (40_registers.md R155, R156, R166
to R168). -/
def Obligations.Counters : Prop :=
  CounterRule .genA 0x020 .genABcRead .genABcWrite RegBlock.burstCnt (fun r c => { r with burstCnt := c }) ∧
  CounterRule .genA 0x024 .genATcRead .genATcWrite RegBlock.xferCnt (fun r c => { r with xferCnt := c }) ∧
  CounterRule .genB 0x030 .genBMbcRead .genBMbcWrite RegBlock.burstCnt (fun r c => { r with burstCnt := c }) ∧
  CounterRule .genB 0x034 .genBMtcRead .genBMtcWrite RegBlock.xferCnt (fun r c => { r with xferCnt := c }) ∧
  CounterRule .genB 0x038 .genBBccRead .genBBccWrite RegBlock.bcc (fun r c => { r with bcc := c })

/-- FIFO_STA reads the two counts in the variant's fields and a fresh free value in every other bit, and
changes nothing but the count of free values drawn (40_registers.md R157, R164; that a free value is `Config.draw`
at the counter, and that the counter moves by one, are the model's choice, log 8). -/
def Obligations.FifoStatus : Prop :=
  HasKey .genA .accessWord 0x028 .genAFifoStaRead ∧ HasKey .genB .accessWord 0x01C .genBFifoStaRead ∧
  ∀ (s : State) (v : Variant) (i : Instr) (k : Nat),
    (v = .genA ∧ i = .genAFifoStaRead ∧ k = 7 ∨ v = .genB ∧ i = .genBFifoStaRead ∧ k = 8) → Accessible v s →
    s.regs.rxFifo.length ≤ 64 → s.regs.txFifo.length ≤ 64 →
    ∃ w : Word, exec i s = .next { s with result := .word w, draws := s.draws + 1 } ∧
      w.toNat % 2 ^ k = s.regs.rxFifo.length ∧ (w.toNat / 2 ^ 16) % 2 ^ k = s.regs.txFifo.length ∧
      ∀ j, j < 32 → ¬ j < k → ¬ (16 ≤ j ∧ j < 16 + k) → w.getLsbD j = (Config.draw s.draws).getLsbD j

/-- Every register access is refused while the clock is gated; on GenB every access but a GCR read is refused
while a soft reset runs; then an access of the other variant is refused as undecoded, also where its key is a row of
this variant too (40_registers.md R178, R179; the order is 60_exceptions.md R367's; that the instruction of another
variant's row is no row of this machine is deduced, log 23). -/
def Obligations.AccessPreconditions : Prop :=
  ∀ (i : Instr) (v : Variant) (s : State), rowVariant i = some v →
    (s.plat.clkOn = false → exec i s = .refused .accessWhileGated) ∧
    (s.plat.clkOn = true → s.cfg.variant = .genB → s.eng.srstBusy = true → i ≠ .genBGcrRead →
      exec i s = .refused .accessDuringSoftReset) ∧
    (s.plat.clkOn = true → (s.cfg.variant = .genB → s.eng.srstBusy = false) → s.cfg.variant ≠ v →
      exec i s = .refused .undecodedAccess)

/-! ### The Engine and the Flash -/

/-- An Engine turn of a running burst: it faults on a full RX FIFO; otherwise it sends the next header byte
while there is one and then a free byte, pushes the flash's answer to the bytes sent before, and completes
the burst with its last byte (40_registers.md R176, R177; two free values a byte is the model's choice, log 15). -/
def Obligations.EngineByteStep : Prop :=
  ∀ s : State, s.eng.srstBusy = false → s.eng.busy = true → 0 < s.eng.bRemain →
    (s.regs.rxFifo.length = 64 → engineTurn s = .error (.fault .rxOverflow)) ∧
    (s.regs.rxFifo.length < 64 →
      ∃ (mosi d : Byte) (rest : List Byte),
        (0 < s.eng.tRemain → s.regs.txFifo ≠ [] → s.regs.txFifo = mosi :: rest) ∧ (s.eng.tRemain = 0 → rest = s.regs.txFifo) ∧
        ∀ t : State, t = { s with
            regs := { s.regs with txFifo := rest, rxFifo := s.regs.rxFifo ++
              [flashRespond s.cfg.storageKind s.cfg.nandPageSize s.flash s.eng.frame d] },
            eng := { s.eng with tRemain := s.eng.tRemain - 1, bRemain := s.eng.bRemain - 1, frame := s.eng.frame ++ [mosi] },
            draws := s.draws + 2 } →
          (1 < s.eng.bRemain → engineTurn s = .ok t) ∧
          (s.eng.bRemain = 1 → engineTurn s = .ok { t with
            eng := { t.eng with busy := false, cs := false },
            flash := flashEndFrame s.cfg.storageKind s.flash t.eng.frame,
            trace := s.trace ++ [.frame t.eng.frame] }))

/-- A burst of `B` bytes completes in `B` Engine turns: the header is the first of the bytes sent, the TX FIFO
is empty, the RX FIFO holds `B` bytes, and the flash sees one frame
(the spec's own inference in 40_registers.md R177). -/
def Obligations.BurstCompletes : Prop :=
  ∀ (s : State) (B : Nat), s.eng.srstBusy = false → s.eng.busy = true → s.eng.bRemain = B → 0 < B → B ≤ 64 →
    s.eng.tRemain ≤ B → s.regs.txFifo.length = s.eng.tRemain → s.regs.rxFifo = [] → s.eng.frame = [] →
    ∃ t, takeTurns (List.replicate B .engine) s = .ok t ∧
      t.eng.busy = false ∧ t.eng.cs = false ∧ t.eng.bRemain = 0 ∧ t.eng.tRemain = 0 ∧ t.regs.txFifo = [] ∧
      t.regs.rxFifo.length = B ∧ t.eng.frame.length = B ∧ t.eng.frame.take s.eng.tRemain = s.regs.txFifo ∧
      t.flash = flashEndFrame s.cfg.storageKind s.flash t.eng.frame ∧ t.trace = s.trace ++ [.frame t.eng.frame] ∧
      t.cfg = s.cfg ∧ t.plat = s.plat ∧ t.seq = s.seq ∧ t.hostMem = s.hostMem ∧
      t.regs = { s.regs with txFifo := [], rxFifo := t.regs.rxFifo }

/-- The end of a page-load frame makes a NAND device busy with the row sent; the end of any other frame, of any length and
on either kind of device, changes nothing; a Flash turn of a busy device puts the row's page into the cache, every column there is, and
ends the load; a Flash turn of any other device changes nothing
(43_flash_commands.md R275, R276; that a payload does not stop a page load is deduced, log 17; that a NOR device has no
page load is deduced, log 14). -/
def Obligations.FlashPageLoad : Prop :=
  (∀ (f : FlashDevice) (a b c : Byte) (more : List Byte),
    flashEndFrame .nand f (0x13#8 :: a :: b :: c :: more) = { f with nandBusy := true, pendingRow := a ++ b ++ c }) ∧
  (∀ (k : StorageKind) (f : FlashDevice) (fr : List Byte),
    ¬ (k = .nand ∧ ∃ (a b c : Byte) (more : List Byte), fr = 0x13#8 :: a :: b :: c :: more) → flashEndFrame k f fr = f) ∧
  (∀ s : State, s.flash.nandBusy = false → flashTurn s = s) ∧
  (∀ s : State, s.flash.nandBusy = true →
    ∃ c : Memory, flashTurn s = { s with flash := { s.flash with nandCache := c, nandCachedRow := some s.flash.pendingRow, nandBusy := false } } ∧
      ∀ col, readByte c col = readByte s.flash.nandMem (nandKey s.flash.pendingRow.toNat col))

/-- What the flash answers to a payload byte: the NOR bytes from the address on, wrapping at 2^24; the
identifier bytes; the cache bytes of a device that is not busy and has a page cached; the status byte, whose
bit 0 is `nandBusy` (43_flash_commands.md R271 to R274; the kind's own commands only, log 14). -/
def Obligations.FlashAnswers : Prop :=
  ∀ (f : FlashDevice) (page : Nat) (k : StorageKind) (pay : List Byte) (d : Byte),
    (∀ a2 a1 a0 : Byte, flashRespond .nor page f (0x03#8 :: a2 :: a1 :: a0 :: pay) d =
      readByte f.norMem ((a2.toNat * 2 ^ 16 + a1.toNat * 2 ^ 8 + a0.toNat + pay.length) % 2 ^ 24)) ∧
    (∀ h : pay.length < f.idBytes.length, flashRespond k page f (0x9F#8 :: 0x00#8 :: pay) d = f.idBytes[pay.length]) ∧
    (∀ c1 c0 x : Byte, f.nandBusy = false → f.nandCachedRow.isSome = true →
      c1.toNat * 2 ^ 8 + c0.toNat + pay.length < page →
      flashRespond .nand page f (0x0B#8 :: c1 :: c0 :: x :: pay) d =
        readByte f.nandCache (c1.toNat * 2 ^ 8 + c0.toNat + pay.length)) ∧
    (flashRespond .nand page f [0x0F#8, 0xC0#8] d).getLsbD 0 = f.nandBusy

/-! ### The Transport -/

/-- `init` completes from a gated clock with no live handle, on GenB under HW_PROGRESS, in a ready controller
with CCTL = CLK_DIV (the spec's own inference, 70_reset_and_hazards.md R402). -/
def Obligations.InitCompletes : Prop :=
  ∀ s : State, stateOk s = true → s.seq.handle = false → s.plat.clkOn = false → (s.cfg.variant = .genB → s.env.hwProgress = true) →
    ∃ t, exec .init s = .next t ∧ Ready t ∧ t.regs.cctl = s.cfg.clkDiv ∧ t.plat = { clkOn := true, pinFn := .spi0 } ∧
      t.seq = { s.seq with handle := true } ∧ t.cfg = s.cfg ∧ t.hostMem = s.hostMem ∧ t.program = s.program ∧
      FlashMay s.flash t.flash ∧ t.trace = s.trace ++ [.initDone] ∧ t.result = .nothing ∧
      t.env.sched <:+ s.env.sched ∧ t.env.hwProgress = s.env.hwProgress ∧ t.env.flashProgress = s.env.flashProgress

/-- `init` creates the handle and `deinit` destroys it; `init` with a live handle is refused, and so is `deinit`
and every protocol operation without one; the last where the machine's invariant holds, which a delay before the
handle check (`waitReady`, 45_chunked_reader.md R344) needs (41_transport.md R200; the invariant is `InvariantKept`'s). -/
def Obligations.HandleDiscipline : Prop :=
  ∀ s : State,
    (∀ t, exec .init s = .next t → s.seq.handle = false ∧ t.seq.handle = true) ∧
    (∀ t, exec .deinit s = .next t → s.seq.handle = true ∧ t.seq.handle = false) ∧
    (s.seq.handle = true → exec .init s = .refused .handleAlreadyLive) ∧
    (stateOk s = true → s.seq.handle = false → ∀ i : Instr,
      (i = .deinit ∨ (∃ op a d n, i = .exchange op a d n) ∨ i = .readId ∨ (∃ a n, i = .norReadData a n) ∨
        (∃ r, i = .pageReadToCache r) ∨ i = .readStatus ∨ (∃ c n, i = .readFromCache c n) ∨
        (∃ a n d, i = .norRead a n d) ∨ (∃ a n d, i = .nandRead a n d) ∨ (∃ a n d, i = .read a n d) ∨
        (∃ a n d, i = .fitRead a n d) ∨ (∃ r, i = .loadPage r) ∨ i = .waitReady) →
      exec i s = .refused .noHandle)

/-- `deinit` of an idle controller clears ENABLE and MASTER, gates the clock, makes the pins inert and ends the
handle; but for the device and the turns to come nothing else changes, and every register access is then refused;
`deinit` during a burst is refused, by the GenA CTL write or the GenB GCR write, where no Engine turn comes before that
write (41_transport.md R202, R209; that the gated register block keeps its other values, where no access can read them,
is the model's choice, log 28; the turns between its steps are log 1's). -/
def Obligations.DeinitQuiesces : Prop :=
  ∀ s : State, s.seq.handle = true → s.plat.clkOn = true → s.eng.srstBusy = false →
    (s.eng.busy = false → s.cfg.pinFunctionInert ≠ s.cfg.pinFunctionSpi0 →
      ∃ (q : RegBlock) (f : FlashDevice) (l : List (List Turn)),
        q = { s.regs with enable := false, master := false, ctlOther := q.ctlOther, gcrOther := q.gcrOther } ∧
        q.ctlOther &&& ~~~ctlNamed = s.regs.ctlOther &&& ~~~ctlNamed ∧ q.gcrOther &&& ~~~gcrNamed = s.regs.gcrOther &&& ~~~gcrNamed ∧
        FlashMay s.flash f ∧ l <:+ s.env.sched ∧ (s.env.sched = [] → f = s.flash) ∧
        ∀ t : State, t = { s with regs := q, plat := { clkOn := false, pinFn := .inert }, seq := { s.seq with handle := false },
                                  trace := s.trace ++ [.deinitDone], result := .nothing, flash := f, env := { s.env with sched := l } } →
          exec .deinit s = .next t ∧ ∀ (i : Instr) (v : Variant), rowVariant i = some v → exec i t = .refused .accessWhileGated) ∧
    (s.eng.busy = true → (∀ ts ∈ s.env.sched.take 2, Turn.engine ∉ ts) →
      exec .deinit s = .refused (match s.cfg.variant with | .genA => .ctlActionDuringBurst | .genB => .gcrWriteDuringBurst))

/-- `enableClock` is refused while the clock is on; otherwise it opens the gate, leaves the engine idle, the
FIFOs empty, CCTL = CLK_DIV and the other registers at free values, and but for the device and the turns to come
changes nothing else (41_transport.md R203; how many free values are drawn is the model's own count, log 8; the turns
before the divider's write are log 1's). -/
def Obligations.EnableClock : Prop :=
  ∀ s : State,
    (s.plat.clkOn = true → exec .enableClock s = .refused .clockAlreadyOn) ∧
    (s.plat.clkOn = false →
      ∃ (e m : Bool) (o g t : Word) (b x c : Word24) (f : FlashDevice) (l : List (List Turn)),
        FlashMay s.flash f ∧ l <:+ s.env.sched ∧ (s.env.sched = [] → f = s.flash) ∧
        exec .enableClock s = .next { s with
          regs := { enable := e, master := m, ctlOther := o, gcrOther := g, tcrOther := t, cctl := s.cfg.clkDiv,
                    burstCnt := b, xferCnt := x, bcc := c, txFifo := [], rxFifo := [] },
          eng := { busy := false, bRemain := 0, tRemain := 0, cs := false, frame := [], srstBusy := false },
          plat := { s.plat with clkOn := true }, result := .nothing, draws := s.draws + 9, flash := f,
          env := { s.env with sched := l } })

/-- `disableClock` is refused during a burst or a soft reset; otherwise it closes the gate and changes nothing
else, and every register access is then refused (41_transport.md R204; that the register values, which the rule calls
lost, stay where no access can read them is the model's choice, log 28). -/
def Obligations.DisableClock : Prop :=
  ∀ s : State,
    (s.eng.busy = true ∨ s.eng.srstBusy = true → exec .disableClock s = .refused .gateDuringActivity) ∧
    (s.eng.busy = false → s.eng.srstBusy = false →
      exec .disableClock s = .next { s with plat := { s.plat with clkOn := false }, result := .nothing } ∧
      ∀ (i : Instr) (v : Variant), rowVariant i = some v →
        exec i { s with plat := { s.plat with clkOn := false }, result := .nothing } = .refused .accessWhileGated)

/-- `configurePins` sets the pin function for the two codes, SPI0's first, and refuses any other code
(41_transport.md R205). -/
def Obligations.ConfigurePins : Prop :=
  ∀ (s : State) (f : Nat),
    (f = s.cfg.pinFunctionSpi0 →
      exec (.configurePins f) s = .next { s with plat := { s.plat with pinFn := .spi0 }, result := .nothing }) ∧
    (f ≠ s.cfg.pinFunctionSpi0 → f = s.cfg.pinFunctionInert →
      exec (.configurePins f) s = .next { s with plat := { s.plat with pinFn := .inert }, result := .nothing }) ∧
    (f ≠ s.cfg.pinFunctionSpi0 → f ≠ s.cfg.pinFunctionInert → exec (.configurePins f) s = .refused .badPinFunction)

/-- `baseAddress` returns SPI0_BASE and `isGenB` whether the variant is GenB; neither changes anything else
(41_transport.md R206, R207; that the base is a word of 32 bits is the model's choice, log 31). -/
def Obligations.PureTransport : Prop :=
  ∀ s : State, exec .baseAddress s = .next { s with result := .word s.cfg.spi0Base } ∧
    exec .isGenB s = .next { s with result := .bool (decide (s.cfg.variant = .genB)) }

/-! ### The exchange and the flash commands -/

/-- A well-formed exchange completes from a ready controller under HW_PROGRESS, whatever turns come: it
returns `n` bytes, each one that the flash answers after the header and the payload bytes before it, and
leaves the controller ready with the counters of the frame (42_protocol_engine.md R232; the state after it is the
spec's own inference, R236; any division of the header into opcode, address and dummy byte and any payload length
that fits are deduced, log 16, log 17). -/
def Obligations.ExchangeCompletes : Prop :=
  ∀ (s : State) (op : Byte) (addr : List Byte) (d n : Nat) (hdr : List Byte), Ready s → s.env.hwProgress = true →
    addr.length ≤ 3 → d ≤ 1 → hdr = op :: (addr ++ List.replicate d 0x00#8) → hdr.length + n ≤ 64 → KnownFrame hdr →
    ∃ (out : List Byte) (t : State), exec (.exchange op addr d n) s = .next t ∧ t.result = .bytes out ∧ out.length = n ∧
      (∀ i (h : i < out.length), ∃ (f : FlashDevice) (pay : List Byte) (x : Byte), FlashMay s.flash f ∧ pay.length = i ∧
        out[i] = flashRespond s.cfg.storageKind s.cfg.nandPageSize f (hdr ++ pay) x) ∧
      ExchangeFrame hdr n s t ∧ (op ≠ 0x13#8 → FlashMay s.flash t.flash)

/-- An exchange that is not well formed is refused for the first reason of 42_protocol_engine.md R233 that
holds, after the handle check (the order is 60_exceptions.md R367's). -/
def Obligations.ExchangeChecks : Prop :=
  ∀ (s : State) (op : Byte) (addr : List Byte) (d n : Nat), s.seq.handle = true →
    (3 < addr.length ∨ 1 < d → exec (.exchange op addr d n) s = .refused .frameShape) ∧
    (addr.length ≤ 3 → d ≤ 1 → 64 < 1 + addr.length + d + n → exec (.exchange op addr d n) s = .refused .frameTooLong) ∧
    (addr.length ≤ 3 → d ≤ 1 → 1 + addr.length + d + n ≤ 64 → ¬ KnownFrame (op :: (addr ++ List.replicate d 0x00#8)) →
      exec (.exchange op addr d n) s = .refused .unknownFrame)

/-- From a ready controller a well-formed exchange completes or hangs, with no premise on progress: it is
never refused, and reaches none of the three hardware faults (the spec's own inference, 60_exceptions.md R363; the hang
is R362's, and that it is the fault `transportFault` of the model is deduced, log 3). -/
def Obligations.ExchangeOnlyHangs : Prop :=
  ∀ (s : State) (op : Byte) (addr : List Byte) (d n : Nat) (hdr : List Byte), Ready s →
    addr.length ≤ 3 → d ≤ 1 → hdr = op :: (addr ++ List.replicate d 0x00#8) → hdr.length + n ≤ 64 → KnownFrame hdr →
    (∃ t, exec (.exchange op addr d n) s = .next t) ∨ exec (.exchange op addr d n) s = .fault .transportFault

/-- Where the Engine never takes a turn, `init` on GenB hangs in the soft-reset wait, and a well-formed exchange
hangs in its first wait (60_exceptions.md R362; a hang is a fault of the model, log 3). -/
def Obligations.HangsWithoutEngine : Prop :=
  ∀ s : State, s.env.hwProgress = false → (∀ ts ∈ s.env.sched, Turn.engine ∉ ts) →
    (s.cfg.variant = .genB → s.seq.handle = false → s.plat.clkOn = false → exec .init s = .fault .transportFault) ∧
    (Ready s → ∀ (op : Byte) (addr : List Byte) (d n : Nat) (hdr : List Byte),
      addr.length ≤ 3 → d ≤ 1 → hdr = op :: (addr ++ List.replicate d 0x00#8) → hdr.length + n ≤ 64 → KnownFrame hdr →
      exec (.exchange op addr d n) s = .fault .transportFault)

/-- The two generations differ only in the register block: a well-formed exchange returns the same, shows the
same frames and leaves the same device, whichever variant the machine is of, where the other agents' turns fall alike
(the spec's own inference, 42_protocol_engine.md R239; GenB makes one access more, before which no turn falls here, and
that the free bytes are the same ones is the model's claim, log 1, log 8). -/
def Obligations.SameOnBothGenerations : Prop :=
  ∀ (s : State) (op : Byte) (addr : List Byte) (d n : Nat) (hdr : List Byte), Ready s → s.env.hwProgress = true →
    addr.length ≤ 3 → d ≤ 1 → hdr = op :: (addr ++ List.replicate d 0x00#8) → hdr.length + n ≤ 64 → KnownFrame hdr →
    ∃ a b : State,
      exec (.exchange op addr d n) { s with cfg := { s.cfg with variant := .genA } } = .next a ∧
      exec (.exchange op addr d n) { s with
        cfg := { s.cfg with variant := .genB },
        env := { s.env with sched := s.env.sched.take 2 ++ [] :: s.env.sched.drop 2 } } = .next b ∧
      a.result = b.result ∧ a.trace = b.trace ∧ a.flash = b.flash ∧ a.hostMem = b.hostMem ∧ a.eng = b.eng ∧ a.seq = b.seq ∧
      a.regs.burstCnt = b.regs.burstCnt ∧ a.regs.xferCnt = b.regs.xferCnt ∧ a.draws = b.draws

/-- READ_ID completes and returns the device's three identifier bytes, the first most significant
(43_flash_commands.md R260, R272; the frame of other events is 42_protocol_engine.md R236's). -/
def Obligations.ReadIdReturns : Prop :=
  ∀ s : State, Ready s → s.env.hwProgress = true →
    ∃ (id : Word24) (t : State), exec .readId s = .next t ∧ t.result = .identifier id ∧
      (∀ b0 b1 b2 rest, s.flash.idBytes = b0 :: b1 :: b2 :: rest → id = b0 ++ b1 ++ b2) ∧
      ExchangeFrame [0x9F#8, 0x00#8] 3 s t ∧ FlashMay s.flash t.flash

/-- NOR READ_DATA completes for up to 60 payload bytes, which on a NOR board are the flash bytes from the
address on; a longer payload is refused (43_flash_commands.md R261, R271; a payload of no bytes runs, log 17). -/
def Obligations.NorReadDataReturns : Prop :=
  ∀ (s : State) (a : Word) (n : Nat), Ready s → s.env.hwProgress = true →
    (60 < n → exec (.norReadData a n) s = .refused .frameTooLong) ∧
    (n ≤ 60 → ∃ (out : List Byte) (t : State), exec (.norReadData a n) s = .next t ∧ t.result = .bytes out ∧ out.length = n ∧
      (s.cfg.storageKind = .nor → ∀ i (h : i < out.length), out[i] = readByte s.flash.norMem ((a.toNat + i) % 2 ^ 24)) ∧
      ExchangeFrame [0x03#8, a.extractLsb' 16 8, a.extractLsb' 8 8, a.extractLsb' 0 8] n s t ∧ FlashMay s.flash t.flash)

/-- PAGE_READ_TO_CACHE completes; a NAND device is then loading the row sent, or has loaded it; on a NOR board the frame
leaves the device as it was (43_flash_commands.md R262, R275; that a NOR device has no page load is deduced, log 14). -/
def Obligations.PageReadStartsLoad : Prop :=
  ∀ (s : State) (r : Word), Ready s → s.env.hwProgress = true →
    ∃ t : State, exec (.pageReadToCache r) s = .next t ∧ t.result = .nothing ∧
      ExchangeFrame [0x13#8, r.extractLsb' 16 8, r.extractLsb' 8 8, r.extractLsb' 0 8] 0 s t ∧
      (s.cfg.storageKind = .nand → ∃ f, FlashMay s.flash f ∧
        FlashMay { f with nandBusy := true, pendingRow := BitVec.ofNat 24 r.toNat } t.flash) ∧
      (s.cfg.storageKind = .nor → FlashMay s.flash t.flash)

/-- READ_STATUS completes; on a NAND board bit 0 of the byte is 0 only if no page load is in progress
afterwards, is 0 if none was in progress before, and is 1 if one was and no Flash turn can come (43_flash_commands.md R263, R274). -/
def Obligations.ReadStatusReturns : Prop :=
  ∀ s : State, Ready s → s.env.hwProgress = true →
    ∃ (b : Byte) (t : State), exec .readStatus s = .next t ∧ t.result = .byte b ∧
      ExchangeFrame [0x0F#8, 0xC0#8] 1 s t ∧ FlashMay s.flash t.flash ∧
      (s.cfg.storageKind = .nand →
        (b.getLsbD 0 = false → t.flash.nandBusy = false) ∧ (s.flash.nandBusy = false → b.getLsbD 0 = false) ∧
        (s.flash.nandBusy = true → s.env.flashProgress = false → (∀ ts ∈ s.env.sched, Turn.flash ∉ ts) →
          b.getLsbD 0 = true ∧ t.flash = s.flash))

/-- READ_FROM_CACHE completes for up to 60 payload bytes, which for a NAND device that is not busy and has a
page cached are the cache bytes from the column on, to the end of the page; a longer payload is refused
(43_flash_commands.md R264, R273; the page's length is a parameter, log 13; a payload of no bytes runs, log 17). -/
def Obligations.ReadFromCacheReturns : Prop :=
  ∀ (s : State) (c : Word) (n : Nat), Ready s → s.env.hwProgress = true →
    (60 < n → exec (.readFromCache c n) s = .refused .frameTooLong) ∧
    (n ≤ 60 → ∃ (out : List Byte) (t : State), exec (.readFromCache c n) s = .next t ∧ t.result = .bytes out ∧ out.length = n ∧
      (s.cfg.storageKind = .nand → s.flash.nandBusy = false → s.flash.nandCachedRow.isSome = true →
        ∀ i (h : i < out.length), c.toNat % 2 ^ 16 + i < s.cfg.nandPageSize →
          out[i] = readByte s.flash.nandCache (c.toNat % 2 ^ 16 + i)) ∧
      ExchangeFrame [0x0B#8, c.extractLsb' 8 8, c.extractLsb' 0 8, 0x00#8] n s t ∧ FlashMay s.flash t.flash)

/-! ### The registry -/

/-- `resolve`: a zero identifier is no chip; the first entry with the identifier is known; otherwise the
generic geometry if the fallback is allowed, else unknown. Nothing else changes (44_chip_registry.md R294 to R297; that
the call alone stores no geometry, where 10_state.md R47 has resolve write it, is deduced, log 22). -/
def Obligations.Resolve : Prop :=
  ∀ (s : State) (id : Word24),
    (id = 0#24 → exec (.resolve id) s = .next { s with result := .resolution .noChip }) ∧
    (id ≠ 0#24 → ∀ (before after : List FlashGeometry) (g : FlashGeometry), s.cfg.knownChips = before ++ g :: after →
      (∀ e ∈ before, e.jedecId ≠ id) → g.jedecId = id →
      exec (.resolve id) s = .next { s with result := .resolution (.known g) }) ∧
    (id ≠ 0#24 → (∀ e ∈ s.cfg.knownChips, e.jedecId ≠ id) →
      exec (.resolve id) s = .next { s with result := .resolution (if s.cfg.allowGenericFallback = true then
        .genericFallback { name := "generic", jedecId := id, pageSizeShift := 11#8, pageIndexMask := 0x00FFFFFF#32,
                           columnMask := 0x7FF#32, columnShift := 0#8 } else .unknown) })

/-! ### The chunked reader -/

/-- A read of no bytes with a live handle, a geometry where NAND needs one and addresses in range returns at
once with all state unchanged but the model's own `result` (45_chunked_reader.md R323, log 18). -/
def Obligations.ZeroLengthRead : Prop :=
  ∀ (s : State) (addr dst : Word), s.seq.handle = true →
    exec (.norRead addr 0 dst) s = .next { s with result := .nothing } ∧
    (s.seq.geometry ≠ none → exec (.nandRead addr 0 dst) s = .next { s with result := .nothing }) ∧
    (s.cfg.storageKind = .nor ∨ s.seq.geometry ≠ none →
      exec (.read addr 0 dst) s = .next { s with result := .nothing } ∧
      exec (.fitRead addr 0 dst) s = .next { s with result := .count 0 })

/-- The checks of a read, in their order: the handle, for NAND a geometry, then both address ranges (45_chunked_reader.md
R322). -/
def Obligations.ReadChecks : Prop :=
  ∀ (s : State) (addr dst : Word) (len : Nat) (i : Instr) (nand : Bool),
    (i = .norRead addr len dst ∧ nand = false ∨ i = .nandRead addr len dst ∧ nand = true ∨
      (i = .read addr len dst ∨ i = .fitRead addr len dst) ∧ nand = decide (s.cfg.storageKind = .nand)) →
    (s.seq.handle = false → exec i s = .refused .noHandle) ∧
    (s.seq.handle = true → nand = true → s.seq.geometry = none → exec i s = .refused .noGeometry) ∧
    (s.seq.handle = true → (nand = true → s.seq.geometry ≠ none) →
      2 ^ 32 < addr.toNat + len ∨ 2 ^ 32 < dst.toNat + len → exec i s = .refused .addressOverflow)

/-- A NOR read completes from a ready controller under HW_PROGRESS, whatever turns come: on a NOR board host byte
`dst + j` is the flash byte at `(addr + j) mod 2^24` where the platform backs its address, and no other byte changes;
what goes out is, for each piece of at most 60 bytes the range is cut into, one read-data frame with the 24 low bits of
its address and as many payload bytes, and the delay of the exchange, one frame for each 60 bytes begun (45_chunked_reader.md
R324, R330, and the spec's own inference R332); called on a NAND board it completes too, with bytes no rule fixes
(log 14); an address that is not backed keeps nothing (log 32). -/
def Obligations.NorReadFills : Prop :=
  ∀ (s : State) (addr dst : Word) (len : Nat), stateOk s = true → Ready s → s.env.hwProgress = true →
    addr.toNat + len ≤ 2 ^ 32 → dst.toNat + len ≤ 2 ^ 32 →
    ∃ (t : State) (B : Nat → Byte) (mosi : Nat → List Byte), ReadFills dst.toNat len B s t ∧ t.seq = s.seq ∧
      (∀ k ∈ pieces60 addr.toNat (addr.toNat + len), (mosi k.1).length = k.2) ∧
      t.trace = s.trace ++ norReadEvents s.cfg addr.toNat len mosi ∧
      ((norReadEvents s.cfg addr.toNat len mosi).filter isFrame).length = (len + 59) / 60 ∧
      exec (.norRead addr len dst) s = .next { t with result := .nothing } ∧
      (s.cfg.storageKind = .nor →
        (B = fun j => readByte s.flash.norMem ((addr.toNat + j) % 2 ^ 24)) ∧
        exec (.read addr len dst) s = .next { t with result := .nothing } ∧
        exec (.fitRead addr len dst) s = .next { t with result := .count len })

/-- A NAND read completes from a ready controller under HW_PROGRESS and FLASH_PROGRESS on a NAND board, whatever turns
come, where the geometry's row is the page number and its column the offset in the page: host byte `dst + j` is
the byte of the array at the row and column of `addr + j` where the platform backs its address (log 32), no other byte
changes, and what goes out is, for each page the range touches, one page load with its polls and then one cache read for
each piece of at most 60 bytes; the reader has then noted the row of the last byte's page, where it read any
(45_chunked_reader.md R341, 10_state.md R45, and the spec's own inferences R345 to R347; a premise is that a page
of the geometry fits the 16 column bits sent, a shift of at most 16, and the device's page, whose length is a
parameter, log 13). -/
def Obligations.NandReadFills : Prop :=
  ∀ (s : State) (g : FlashGeometry) (addr dst : Word) (len : Nat), stateOk s = true → Ready s → s.env.hwProgress = true →
    s.env.flashProgress = true → s.cfg.storageKind = .nand → s.seq.geometry = some g →
    addr.toNat + len ≤ 2 ^ 32 → dst.toNat + len ≤ 2 ^ 32 → GeometryFits g s.cfg.nandPageSize addr.toNat len →
    ∃ (t : State) (polls mosi : Nat → List Byte), ReadFills dst.toNat len (fun j => nandByteAt s.flash g (addr.toNat + j)) s t ∧
      (t.seq.cachedPage = if len = 0 then s.seq.cachedPage else some (rowOf g (BitVec.ofNat 32 (addr.toNat + len - 1)))) ∧
      (∀ q, polls q ≠ []) ∧
      (∀ q, ∀ k ∈ pageChunks (2 ^ g.pageSizeShift.toNat) addr.toNat len q, (mosi k.1).length = k.2) ∧
      t.trace = s.trace ++ nandReadEvents s.cfg (2 ^ g.pageSizeShift.toNat) addr.toNat len polls mosi ∧
      exec (.nandRead addr len dst) s = .next { t with result := .nothing } ∧
      exec (.read addr len dst) s = .next { t with result := .nothing } ∧
      exec (.fitRead addr len dst) s = .next { t with result := .count len }

/-- The geometry of the table's entry and the generic geometry satisfy the premise of a NAND read over every
range of 32-bit addresses, on a device with pages of at least 2048 bytes (the spec's own inference in
45_chunked_reader.md R346; the entry's mask and shift are the spec's choice, log 25). -/
def Obligations.TableGeometriesFit : Prop :=
  ∀ (id : Word24) (pageSize addr len : Nat), 2048 ≤ pageSize → addr + len ≤ 2 ^ 32 →
    GeometryFits mx35lf1ge4ab pageSize addr len ∧ GeometryFits (genericGeometry id) pageSize addr len

/-- A NAND burst has at least one byte while bytes remain, at most 60 and at most those that remain, and ends
at or before the first address of the next page; it ends there, at 60 bytes or with the last byte (the spec's own inferences,
45_chunked_reader.md R328, R333). -/
def Obligations.NandBurstInPage : Prop :=
  ∀ (g : FlashGeometry) (a r : Nat),
    (0 < r → 1 ≤ nandChunk g a r) ∧ nandChunk g a r ≤ 60 ∧ nandChunk g a r ≤ r ∧
    a + nandChunk g a r ≤ (a / 2 ^ g.pageSizeShift.toNat + 1) * 2 ^ g.pageSizeShift.toNat ∧
    (nandChunk g a r = r ∨ nandChunk g a r = 60 ∨
      a + nandChunk g a r = (a / 2 ^ g.pageSizeShift.toNat + 1) * 2 ^ g.pageSizeShift.toNat)

/-- The session state after a chunk becomes PageLoading exactly when another chunk follows and its row
exceeds the cached row; nothing else changes (45_chunked_reader.md R343). -/
def Obligations.ReloadCondition : Prop :=
  ∀ (g : FlashGeometry) (c : Cursor) (s : State) (r : Word), s.seq.cachedPage = some r →
    (0 < c.remaining → r.toNat < (rowOf g (BitVec.ofNat 32 c.addr)).toNat →
      leaveChunk g c s = { s with seq := { s.seq with nandState := some .pageLoading } }) ∧
    (c.remaining = 0 ∨ (rowOf g (BitVec.ofNat 32 c.addr)).toNat ≤ r.toNat → leaveChunk g c s = s)

/-- A page load completes on a NAND board under HW_PROGRESS and FLASH_PROGRESS: the device is not busy and its
cache is the page of the row's low 24 bits, the reader notes the row, and what goes out is one page-load frame and at
least one poll (45_chunked_reader.md R341, R344, 43_flash_commands.md R275). -/
def Obligations.LoadPageCompletes : Prop :=
  ∀ (s : State) (r : Word), Ready s → s.env.hwProgress = true → s.env.flashProgress = true → s.cfg.storageKind = .nand →
    ∃ t : State, exec (.loadPage r) s = .next t ∧ t.result = .nothing ∧ CommandFrame s t ∧ t.hostMem = s.hostMem ∧
      t.seq = { s.seq with cachedPage := some r } ∧ t.flash.nandBusy = false ∧
      t.flash.nandCachedRow = some (BitVec.ofNat 24 r.toNat) ∧
      (∀ col, readByte t.flash.nandCache col = readByte s.flash.nandMem (nandKey (r.toNat % 2 ^ 24) col)) ∧
      ∃ polls, polls ≠ [] ∧ t.trace = s.trace ++ loadEvents s.cfg r polls

/-- The ready poll of a NAND board completes where no page load is in progress, and under FLASH_PROGRESS where
one is, with the device not busy; it makes at least one poll, the fixed delay before each of them; where a load is in
progress and no Flash turn can come, it hangs (45_chunked_reader.md R344, 42_protocol_engine.md R237, 60_exceptions.md
R362; a hang is a fault of the model, log 3). -/
def Obligations.WaitReady : Prop :=
  ∀ s : State, Ready s → s.env.hwProgress = true → s.cfg.storageKind = .nand →
    (s.flash.nandBusy = false ∨ s.env.flashProgress = true →
      ∃ (t : State) (polls : List Byte), exec .waitReady s = .next t ∧ t.result = .nothing ∧ CommandFrame s t ∧ t.seq = s.seq ∧
        t.hostMem = s.hostMem ∧ t.flash.nandBusy = false ∧ FlashMay s.flash t.flash ∧ polls ≠ [] ∧
        t.trace = s.trace ++ polls.flatMap (pollEvents s.cfg)) ∧
    (s.flash.nandBusy = true → s.env.flashProgress = false → (∀ ts ∈ s.env.sched, Turn.flash ∉ ts) →
      exec .waitReady s = .fault .transportFault)

/-! ### The boot sequence -/

/-- A device that answers identifier 0: the attempt issues READ_ID, tears down, reports and returns
NoChipDetected; no read command follows (70_reset_and_hazards.md R410, 60_exceptions.md R360, R361). -/
def Obligations.BootNoChip : Prop :=
  ∀ s : State, stateOk s = true → BootReady s → s.flash.idBytes.take 3 = [0x00#8, 0x00#8, 0x00#8] →
    ∃ (t : State) (pay : List Byte), exec .bootAttempt s = .next t ∧
      t.result = .boot (.error .noChipDetected) (some s.cfg.errStatus) ∧ Quiescent t ∧ pay.length = 3 ∧
      t.trace = s.trace ++ [.initDone, .frame ([0x9F#8, 0x00#8] ++ pay), .delay s.cfg.delayNs s.cfg.delayGranularity, .deinitDone,
        .report "no device attached"] ∧
      t.hostMem = s.hostMem ∧ t.seq = s.seq ∧ t.cfg = s.cfg ∧ SameImage s.flash t.flash

/-- A device whose identifier is not 0, is in no table entry, and no fallback is allowed: UnsupportedChip
(70_reset_and_hazards.md R410). -/
def Obligations.BootUnsupportedChip : Prop :=
  ∀ s : State, stateOk s = true → BootReady s → 3 ≤ s.flash.idBytes.length → deviceId s.flash ≠ 0#24 →
    (∀ e ∈ s.cfg.knownChips, e.jedecId ≠ deviceId s.flash) → s.cfg.allowGenericFallback = false →
    ∃ (t : State) (pay : List Byte), exec .bootAttempt s = .next t ∧
      t.result = .boot (.error .unsupportedChip) (some s.cfg.errStatus) ∧ Quiescent t ∧ pay.length = 3 ∧
      t.trace = s.trace ++ [.initDone, .frame ([0x9F#8, 0x00#8] ++ pay), .delay s.cfg.delayNs s.cfg.delayGranularity, .deinitDone,
        .report "unsupported chip"] ∧
      t.hostMem = s.hostMem ∧ t.seq = s.seq ∧ t.cfg = s.cfg ∧ SameImage s.flash t.flash

/-- With a resolved geometry and a readable header, an invalid header gives ChecksumInvalid and a malformed
raw header ImageParseError, after teardown; only the 64 bytes of the header buffer are written
(70_reset_and_hazards.md R410, R411; the collaborators are tables, log 20). -/
def Obligations.BootHeaderErrors : Prop :=
  ∀ (s : State) (g : FlashGeometry), stateOk s = true → BootReady s → BootsWith s g →
    Readable s g (bootOffset s.cfg) s.cfg.hdrBuf 64 →
    ∀ kind : ErrorKind,
      (kind = .checksumInvalid ∧ headerValid s.cfg (flashHeader s g) = false ∨
        kind = .imageParseError ∧ headerValid s.cfg (flashHeader s g) = true ∧
          ¬ (isFitHeader s.cfg (flashHeader s g) = true ∧ s.cfg.allowFit = true) ∧ rawParse s.cfg (flashHeader s g) = none) →
      ∃ t : State, exec .bootAttempt s = .next t ∧ t.result = .boot (.error kind) (some s.cfg.errStatus) ∧ Quiescent t ∧
        t.cfg = s.cfg ∧ t.seq.geometry = some g ∧ SameImage s.flash t.flash ∧ ∀ x, readByte t.hostMem x = headerLoaded s g x

/-- The raw path: with a valid header that the parser accepts, the attempt returns Ok after teardown, the
image's bytes stand at the load address, the header's in the header buffer where the image does not cover
it, and no other byte of host memory changes (70_reset_and_hazards.md R411; the collaborators are tables, log 20). -/
def Obligations.BootRawImage : Prop :=
  ∀ (s : State) (g : FlashGeometry) (img : RawImage), stateOk s = true → BootReady s → BootsWith s g →
    Readable s g (bootOffset s.cfg) s.cfg.hdrBuf 64 → headerValid s.cfg (flashHeader s g) = true →
    ¬ (isFitHeader s.cfg (flashHeader s g) = true ∧ s.cfg.allowFit = true) →
    rawParse s.cfg (flashHeader s g) = some img → Readable s g (bootOffset s.cfg) img.loadAddress img.size.toNat →
    ∃ t : State, exec .bootAttempt s = .next t ∧ t.result = .boot .ok none ∧ Quiescent t ∧ t.cfg = s.cfg ∧
      t.seq.geometry = some g ∧ SameImage s.flash t.flash ∧
      ∀ x, readByte t.hostMem x = filled (headerLoaded s g) img.loadAddress.toNat img.size.toNat
        (fun j => flashByteAt s.cfg.storageKind s.flash g ((bootOffset s.cfg).toNat + j)) x

/-- The FIT path, for any collaborator whose reads the reader can serve and whose bytes go into memory the platform has:
it is called once, each of its reads, in its order, leaves the flash bytes in the buffer it names, what it does next may
depend on them, its own writes stand, and its result is returned after teardown (70_reset_and_hazards.md R412, R414,
45_chunked_reader.md R348; the collaborator is a tree of calls and writes, log 20). -/
def Obligations.BootFitImage : Prop :=
  ∀ (s : State) (g : FlashGeometry), stateOk s = true → BootReady s → BootsWith s g →
    Readable s g (bootOffset s.cfg) s.cfg.hdrBuf 64 → headerValid s.cfg (flashHeader s g) = true →
    isFitHeader s.cfg (flashHeader s g) = true → s.cfg.allowFit = true →
    FitReadable s g (fitRunOf s.cfg (flashHeader s g)) [] (headerLoaded s g) →
    ∀ out, out = fitOutcome s g (fitRunOf s.cfg (flashHeader s g)) [] (headerLoaded s g) →
    ∃ t : State, exec .bootAttempt s = .next t ∧ Quiescent t ∧ t.cfg = s.cfg ∧ t.seq.geometry = some g ∧ SameImage s.flash t.flash ∧
      t.result = (if out.1 = true then .boot .ok none else .boot (.error .fitLoadFailed) (some s.cfg.errStatus)) ∧
      (∃ ev, t.trace = s.trace ++ ev ∧ ev.filter isFitLoad = [.fitLoad (flashHeader s g) 1]) ∧
      ∀ x, readByte t.hostMem x = out.2 x

/-- Every boot attempt that returns, from any state, has torn the Transport down exactly once and issued no
command after that: the controller is quiescent, and its result is a boot result (the spec's own
inference, 70_reset_and_hazards.md R413). -/
def Obligations.TeardownOnce : Prop :=
  ∀ s t : State, s.cfg.pinFunctionInert ≠ s.cfg.pinFunctionSpi0 → exec .bootAttempt s = .next t →
    Quiescent t ∧ (∃ r st, t.result = .boot r st) ∧
    ∃ before after : List Event, t.trace = s.trace ++ before ++ .deinitDone :: after ∧ .deinitDone ∉ before ∧
      ∀ e ∈ after, isFrame e = false ∧ e ≠ .deinitDone

/-! ### Reset and the whole machine -/

/-- The machine right after power-on, in every field for which the spec gives a value (its own choice,
70_reset_and_hazards.md R401). -/
def Obligations.PowerOn : Prop :=
  State.reset.plat = { clkOn := false, pinFn := .unknown } ∧ State.reset.regs.txFifo = [] ∧ State.reset.regs.rxFifo = [] ∧
  State.reset.eng = { busy := false, bRemain := 0, tRemain := 0, cs := false, frame := [], srstBusy := false } ∧
  State.reset.seq = { handle := false, cursor := none, cachedPage := none, nandState := none, geometry := none }

/-- The machine's invariant holds at reset, with the values the model names there (log 7, log 9, log 24). -/
def Obligations.InvariantAtReset : Prop := stateOk State.reset = true

/-- Every step keeps the machine's invariant: the engine agrees with its FIFOs, a soft reset runs only in a
clocked GenB controller, the stored other bits leave the named bits clear, every memory is in canonical
form, and no read session outlives its call (10_state.md R36, R40, R41, R44, R46; the canonical form is the model's,
log 12). -/
def Obligations.InvariantKept : Prop :=
  ∀ s t : State, stateOk s = true → step s = .next t → stateOk t = true

/-- Where the invariant holds, no step faults with a received byte that finds the RX FIFO full (the spec's own inference,
60_exceptions.md R363). -/
def Obligations.RxOverflowUnreachable : Prop :=
  ∀ s : State, stateOk s = true → step s ≠ .fault .rxOverflow

/-- No step changes the configuration or what the flash holds, whatever bytes a burst has sent (10_state.md R31,
00_scope.md R8, 43_flash_commands.md R276; log 30 marks this unsafe for a burst whose header the Host has not written
whole, or whose opcode is none that the model refuses). -/
def Obligations.ConfigurationFixed : Prop :=
  ∀ s t : State, step s = .next t → t.cfg = s.cfg ∧ SameImage s.flash t.flash

/-- Only a read or a boot attempt writes host memory (20_memory.md R84, 41_transport.md R208). -/
def Obligations.HostMemoryOwners : Prop :=
  ∀ (i : Instr) (s t : State), mayWriteHostMemory i = false → exec i s = .next t → t.hostMem = s.hostMem

/-- `init` creates the handle, `deinit` destroys it, a boot attempt leaves none, and no other instruction
changes it; only a boot attempt changes the resolved geometry (41_transport.md R200, 10_state.md R43; that the call
resolve does not, where 10_state.md R47 has it write the geometry, is deduced, log 22). -/
def Obligations.HandleOwners : Prop :=
  ∀ (i : Instr) (s t : State), exec i s = .next t →
    (i = .init → t.seq.handle = true) ∧ (i = .deinit → t.seq.handle = false) ∧ (i = .bootAttempt → t.seq.handle = false) ∧
    (i ≠ .init → i ≠ .deinit → i ≠ .bootAttempt → t.seq.handle = s.seq.handle) ∧
    (i ≠ .bootAttempt → t.seq.geometry = s.seq.geometry)
end

