-- ==== Sys2Proof/Laws/State.lean ====
section
/-! SUPPORT. The small lemmas of the state's named updates, of outcomes and of checks. -/

namespace Sys2Proof.Machine

/-! ### Named updates -/

@[simp] theorem ret_cfg (s : State) (v : Returned) : (s.ret v).cfg = s.cfg := rfl
@[simp] theorem ret_regs (s : State) (v : Returned) : (s.ret v).regs = s.regs := rfl
@[simp] theorem ret_eng (s : State) (v : Returned) : (s.ret v).eng = s.eng := rfl
@[simp] theorem ret_plat (s : State) (v : Returned) : (s.ret v).plat = s.plat := rfl
@[simp] theorem ret_seq (s : State) (v : Returned) : (s.ret v).seq = s.seq := rfl
@[simp] theorem ret_flash (s : State) (v : Returned) : (s.ret v).flash = s.flash := rfl
@[simp] theorem ret_hostMem (s : State) (v : Returned) : (s.ret v).hostMem = s.hostMem := rfl
@[simp] theorem ret_program (s : State) (v : Returned) : (s.ret v).program = s.program := rfl
@[simp] theorem ret_result (s : State) (v : Returned) : (s.ret v).result = v := rfl
@[simp] theorem ret_trace (s : State) (v : Returned) : (s.ret v).trace = s.trace := rfl
@[simp] theorem ret_env (s : State) (v : Returned) : (s.ret v).env = s.env := rfl
@[simp] theorem ret_draws (s : State) (v : Returned) : (s.ret v).draws = s.draws := rfl

@[simp] theorem log_cfg (s : State) (e : Event) : (s.log e).cfg = s.cfg := rfl
@[simp] theorem log_regs (s : State) (e : Event) : (s.log e).regs = s.regs := rfl
@[simp] theorem log_eng (s : State) (e : Event) : (s.log e).eng = s.eng := rfl
@[simp] theorem log_plat (s : State) (e : Event) : (s.log e).plat = s.plat := rfl
@[simp] theorem log_seq (s : State) (e : Event) : (s.log e).seq = s.seq := rfl
@[simp] theorem log_flash (s : State) (e : Event) : (s.log e).flash = s.flash := rfl
@[simp] theorem log_hostMem (s : State) (e : Event) : (s.log e).hostMem = s.hostMem := rfl
@[simp] theorem log_program (s : State) (e : Event) : (s.log e).program = s.program := rfl
@[simp] theorem log_result (s : State) (e : Event) : (s.log e).result = s.result := rfl
@[simp] theorem log_trace (s : State) (e : Event) : (s.log e).trace = s.trace ++ [e] := rfl
@[simp] theorem log_env (s : State) (e : Event) : (s.log e).env = s.env := rfl
@[simp] theorem log_draws (s : State) (e : Event) : (s.log e).draws = s.draws := rfl

@[simp] theorem drew_cfg (s : State) (n : Nat) : (s.drew n).cfg = s.cfg := rfl
@[simp] theorem drew_regs (s : State) (n : Nat) : (s.drew n).regs = s.regs := rfl
@[simp] theorem drew_eng (s : State) (n : Nat) : (s.drew n).eng = s.eng := rfl
@[simp] theorem drew_plat (s : State) (n : Nat) : (s.drew n).plat = s.plat := rfl
@[simp] theorem drew_seq (s : State) (n : Nat) : (s.drew n).seq = s.seq := rfl
@[simp] theorem drew_flash (s : State) (n : Nat) : (s.drew n).flash = s.flash := rfl
@[simp] theorem drew_hostMem (s : State) (n : Nat) : (s.drew n).hostMem = s.hostMem := rfl
@[simp] theorem drew_program (s : State) (n : Nat) : (s.drew n).program = s.program := rfl
@[simp] theorem drew_result (s : State) (n : Nat) : (s.drew n).result = s.result := rfl
@[simp] theorem drew_trace (s : State) (n : Nat) : (s.drew n).trace = s.trace := rfl
@[simp] theorem drew_env (s : State) (n : Nat) : (s.drew n).env = s.env := rfl
@[simp] theorem drew_draws (s : State) (n : Nat) : (s.drew n).draws = s.draws + n := rfl

/-! ### Answers of operations -/

@[simp] theorem res_bind_ok {α β : Type} (a : α) (f : α → Res β) : (Except.ok a >>= f : Res β) = f a := rfl
@[simp] theorem res_bind_error {α β : Type} (e : Stop) (f : α → Res β) :
    ((Except.error e : Res α) >>= f : Res β) = .error e := rfl
@[simp] theorem res_pure {α : Type} (a : α) : (pure a : Res α) = .ok a := rfl

/-- A sequence answers exactly when both its parts do. -/
theorem res_bind_eq_ok {α β : Type} {x : Res α} {f : α → Res β} {b : β} :
    (x >>= f) = .ok b ↔ ∃ a, x = .ok a ∧ f a = .ok b := by
  cases x <;> simp

@[simp] theorem refuseIf_eq_ok {b : Bool} {q : Refusal} {u : Unit} : refuseIf b q = .ok u ↔ b = false := by
  cases b <;> simp [refuseIf]

@[simp] theorem faultIf_eq_ok {b : Bool} {f : Fault} {u : Unit} : faultIf b f = .ok u ↔ b = false := by
  cases b <;> simp [faultIf]

@[simp] theorem refuseIf_false (q : Refusal) : refuseIf false q = .ok () := rfl
@[simp] theorem refuseIf_true (q : Refusal) : refuseIf true q = .error (.refuse q) := rfl
@[simp] theorem faultIf_false (f : Fault) : faultIf false f = .ok () := rfl
@[simp] theorem faultIf_true (f : Fault) : faultIf true f = .error (.fault f) := rfl

@[simp] theorem finish_ok (s : State) : finish (.ok s) = .next s := rfl
@[simp] theorem finish_fault (f : Fault) : finish (.error (.fault f)) = .fault f := rfl
@[simp] theorem finish_refuse (q : Refusal) : finish (.error (.refuse q)) = .refused q := rfl

/-- A meaning answers a next state exactly when its operation does. -/
@[simp] theorem finish_eq_next {r : Res State} {t : State} : finish r = .next t ↔ r = .ok t := by
  rcases r with (f | q) | s <;> simp [finish]

/-! ### Access preconditions -/

/-- The gate lets an access through exactly under 40_registers.md R178. -/
theorem accessGate_eq_ok {g : Bool} {s : State} {u : Unit} :
    accessGate g s = .ok u ↔
      s.plat.clkOn = true ∧ (s.cfg.variant = .genB → s.eng.srstBusy = true → g = true) := by
  unfold accessGate
  cases hc : s.plat.clkOn <;> cases hv : s.cfg.variant <;> cases hb : s.eng.srstBusy <;> cases g <;> simp

/-- An accessible state passes the preconditions of a row of its variant. -/
theorem rowAccess_of_accessible {v : Variant} {g : Bool} {s : State} (h : Accessible v s) : rowAccess v g s = .ok () := by
  obtain ⟨hv, hc, hb⟩ := h
  have : accessGate g s = .ok () := accessGate_eq_ok.2 ⟨hc, fun e e' => by simp [hb (hv ▸ e)] at e'⟩
  simp [rowAccess, this, hv]

end Sys2Proof.Machine
end

