-- ==== Sys2Proof/Laws/Flags.lean ====
section
/-! SUPPORT. The bits of the register words: each field of a word as it reads, and each count of FIFO_STA. -/

namespace Sys2Proof.Machine

theorem getLsbD_bitWord (n i : Nat) (b : Bool) (hi : i < 32) : (bitWord n b).getLsbD i = (b && decide (i = n)) := by
  cases b
  · simp [bitWord]
  · simp only [bitWord, if_true, BitVec.getLsbD_shiftLeft, hi, decide_true, Bool.true_and]
    by_cases h : i < n
    · simp [h]; omega
    · by_cases e : i = n
      · subst e; simp
      · have : 1 ≤ i - n := by omega
        simp [h, e, BitVec.getLsbD_one]; omega

theorem getLsbD_mask (n i : Nat) (hi : i < 32) : (mask n).getLsbD i = decide (i = n) := by
  simp only [mask, getLsbD_bitWord n i true hi, Bool.true_and]

theorem getLsbD_ctlNamed (i : Nat) (hi : i < 32) :
    ctlNamed.getLsbD i = (decide (i = 0) || decide (i = 1) || decide (i = 8) || decide (i = 9) || decide (i = 10)) := by
  simp only [ctlNamed, BitVec.getLsbD_or, getLsbD_mask _ i hi, bitEnable, bitMaster, bitTfRst, bitRfRst, bitXchA]

theorem getLsbD_gcrNamed (i : Nat) (hi : i < 32) :
    gcrNamed.getLsbD i = (decide (i = 0) || decide (i = 1) || decide (i = 31)) := by
  simp only [gcrNamed, BitVec.getLsbD_or, getLsbD_mask _ i hi, bitEnable, bitMaster, bitSrst]

theorem getLsbD_tcrNamed (i : Nat) (hi : i < 32) : tcrNamed.getLsbD i = decide (i = 31) := by
  simp only [tcrNamed, getLsbD_mask _ i hi, bitXchB]

/-- Every bit of GenA CTL as it reads. -/
theorem getLsbD_ctlWord (o : Word) (e m b : Bool) (i : Nat) (hi : i < 32) :
    (ctlWord o e m b).getLsbD i =
      if i = 0 then e else if i = 1 then m else if i = 8 ∨ i = 9 then false else if i = 10 then b else o.getLsbD i := by
  simp only [ctlWord, BitVec.getLsbD_or, BitVec.getLsbD_and, BitVec.getLsbD_not, getLsbD_ctlNamed i hi,
    getLsbD_bitWord _ i _ hi, bitEnable, bitMaster, bitXchA, hi]
  rcases eq_or_ne i 0 with rfl | h0
  · simp
  rcases eq_or_ne i 1 with rfl | h1
  · simp
  rcases eq_or_ne i 8 with rfl | h8
  · simp
  rcases eq_or_ne i 9 with rfl | h9
  · simp
  rcases eq_or_ne i 10 with rfl | h10
  · simp
  simp [h0, h1, h8, h9, h10]

/-- Every bit of GenB GCR as it reads. -/
theorem getLsbD_gcrWord (o : Word) (e m b : Bool) (i : Nat) (hi : i < 32) :
    (gcrWord o e m b).getLsbD i = if i = 0 then e else if i = 1 then m else if i = 31 then b else o.getLsbD i := by
  simp only [gcrWord, BitVec.getLsbD_or, BitVec.getLsbD_and, BitVec.getLsbD_not, getLsbD_gcrNamed i hi,
    getLsbD_bitWord _ i _ hi, bitEnable, bitMaster, bitSrst, hi]
  rcases eq_or_ne i 0 with rfl | h0
  · simp
  rcases eq_or_ne i 1 with rfl | h1
  · simp
  rcases eq_or_ne i 31 with rfl | h31
  · simp
  simp [h0, h1, h31]

/-- Every bit of GenB TCR as it reads. -/
theorem getLsbD_tcrWord (o : Word) (b : Bool) (i : Nat) (hi : i < 32) :
    (tcrWord o b).getLsbD i = if i = 31 then b else o.getLsbD i := by
  simp only [tcrWord, BitVec.getLsbD_or, BitVec.getLsbD_and, BitVec.getLsbD_not, getLsbD_tcrNamed i hi,
    getLsbD_bitWord _ i _ hi, bitXchB, hi]
  rcases eq_or_ne i 31 with rfl | h31
  · simp
  simp [h31]

theorem getLsbD_or_mask (w : Word) (n i : Nat) (hi : i < 32) : (w ||| mask n).getLsbD i = (w.getLsbD i || decide (i = n)) := by
  simp only [BitVec.getLsbD_or, getLsbD_mask n i hi]

/-- Clearing the named bits of a word keeps its other bits and only them. -/
theorem and_not_ctlNamed_of_bits {v o : Word}
    (h : ∀ i, i < 32 → i ≠ 0 → i ≠ 1 → i ≠ 8 → i ≠ 9 → i ≠ 10 → v.getLsbD i = o.getLsbD i) :
    v &&& ~~~ctlNamed = o &&& ~~~ctlNamed := by
  apply BitVec.eq_of_getLsbD_eq
  intro i hi
  simp only [BitVec.getLsbD_and, BitVec.getLsbD_not, getLsbD_ctlNamed i hi, hi]
  by_cases hn : i = 0 ∨ i = 1 ∨ i = 8 ∨ i = 9 ∨ i = 10
  · rcases hn with rfl | rfl | rfl | rfl | rfl <;> simp
  · rw [h i hi (by tauto) (by tauto) (by tauto) (by tauto) (by tauto)]

theorem and_not_gcrNamed_of_bits {v o : Word}
    (h : ∀ i, i < 32 → i ≠ 0 → i ≠ 1 → i ≠ 31 → v.getLsbD i = o.getLsbD i) :
    v &&& ~~~gcrNamed = o &&& ~~~gcrNamed := by
  apply BitVec.eq_of_getLsbD_eq
  intro i hi
  simp only [BitVec.getLsbD_and, BitVec.getLsbD_not, getLsbD_gcrNamed i hi, hi]
  by_cases hn : i = 0 ∨ i = 1 ∨ i = 31
  · rcases hn with rfl | rfl | rfl <;> simp
  · rw [h i hi (by tauto) (by tauto) (by tauto)]

theorem and_not_tcrNamed_of_bits {v o : Word}
    (h : ∀ i, i < 32 → i ≠ 31 → v.getLsbD i = o.getLsbD i) : v &&& ~~~tcrNamed = o &&& ~~~tcrNamed := by
  apply BitVec.eq_of_getLsbD_eq
  intro i hi
  simp only [BitVec.getLsbD_and, BitVec.getLsbD_not, getLsbD_tcrNamed i hi, hi]
  by_cases hn : i = 31
  · subst hn; simp
  · rw [h i hi hn]

/-! ### FIFO_STA -/

theorem getLsbD_countMask (v : Variant) (i : Nat) (hi : i < 32) :
    (countMask v).getLsbD i = decide (i < (match v with | .genA => 7 | .genB => 8)) := by
  cases v <;> interval_cases i <;> decide

/-- RX_CNT of FIFO_STA is the RX FIFO's length (40_registers.md R157, R164). -/
theorem rxCnt_fifoStaWord (v : Variant) (d : Word) (rx tx : Nat) (h : rx ≤ fifoDepth) :
    (rxCnt v (fifoStaWord v d rx tx)).toNat = rx := by
  have key : rxCnt v (fifoStaWord v d rx tx) = BitVec.ofNat 32 rx &&& countMask v := by
    apply BitVec.eq_of_getLsbD_eq
    intro i hi
    simp only [rxCnt, fifoStaWord, BitVec.getLsbD_and, BitVec.getLsbD_or, BitVec.getLsbD_not,
      BitVec.getLsbD_shiftLeft, hi]
    cases hm : (countMask v).getLsbD i with
    | false => simp
    | true =>
      have hlt : i < 16 := by
        rw [getLsbD_countMask v i hi] at hm
        cases v <;> simp at hm <;> omega
      simp [hlt]
  rw [key]
  have h64 : rx ≤ 64 := h
  cases v
  · have : (BitVec.ofNat 32 rx &&& countMask .genA).toNat = rx % 2 ^ 32 % 2 ^ 7 := by
      rw [BitVec.toNat_and, BitVec.toNat_ofNat]
      exact Nat.and_two_pow_sub_one_eq_mod _ 7
    omega
  · have : (BitVec.ofNat 32 rx &&& countMask .genB).toNat = rx % 2 ^ 32 % 2 ^ 8 := by
      rw [BitVec.toNat_and, BitVec.toNat_ofNat]
      exact Nat.and_two_pow_sub_one_eq_mod _ 8
    omega

/-- TX_CNT of FIFO_STA is the TX FIFO's length (40_registers.md R157, R164). -/
theorem txCnt_fifoStaWord (v : Variant) (d : Word) (rx tx : Nat) (h : tx ≤ fifoDepth) :
    (txCnt v (fifoStaWord v d rx tx)).toNat = tx := by
  have key : txCnt v (fifoStaWord v d rx tx) = BitVec.ofNat 32 tx &&& countMask v := by
    apply BitVec.eq_of_getLsbD_eq
    intro i hi
    simp only [txCnt, fifoStaWord, BitVec.getLsbD_and, BitVec.getLsbD_or, BitVec.getLsbD_not,
      BitVec.getLsbD_shiftLeft, BitVec.getLsbD_ushiftRight]
    cases hm : (countMask v).getLsbD i with
    | false => simp
    | true =>
      have hlt : i < 8 := by
        rw [getLsbD_countMask v i hi] at hm
        cases v <;> simp at hm <;> omega
      have hm2 : (countMask v).getLsbD (16 + i) = false := by
        rw [getLsbD_countMask v _ (by omega)]
        cases v <;> simp <;> omega
      have h16 : ¬ (16 + i < 16) := by omega
      have h32 : 16 + i < 32 := by omega
      simp only [hm2, hm, h16, h32, decide_true, decide_false, Nat.add_sub_cancel_left, Bool.not_false, Bool.true_and,
        Bool.and_true, Bool.and_false, Bool.or_false, Bool.false_or, Bool.or_true, Bool.not_true]
  rw [key]
  have h64 : tx ≤ 64 := h
  cases v
  · have : (BitVec.ofNat 32 tx &&& countMask .genA).toNat = tx % 2 ^ 32 % 2 ^ 7 := by
      rw [BitVec.toNat_and, BitVec.toNat_ofNat]
      exact Nat.and_two_pow_sub_one_eq_mod _ 7
    omega
  · have : (BitVec.ofNat 32 tx &&& countMask .genB).toNat = tx % 2 ^ 32 % 2 ^ 8 := by
      rw [BitVec.toNat_and, BitVec.toNat_ofNat]
      exact Nat.and_two_pow_sub_one_eq_mod _ 8
    omega

/-- The status byte shows the busy bit and nothing else of the device. -/
@[simp] theorem oip_statusByte (d : Byte) (b : Bool) : oip (statusByte d b) = b := by
  cases b <;> simp [oip, statusByte]

end Sys2Proof.Machine
end

