-- ==== Sys2Proof/Laws/Memory.lean ====
section
/-! SUPPORT. What the memory operations do, and that each keeps the canonical form. -/

namespace Sys2Proof.Machine

@[simp] theorem readByte_nil (a : Nat) : readByte [] a = blankByte := rfl

/-- In a canonical memory no address below the first one is listed. -/
theorem readByte_of_all_lt {m : Memory} {a : Nat} (h : ∀ c ∈ m, a < c.1) : readByte m a = blankByte := by
  induction m with
  | nil => rfl
  | cons c rest ih =>
    obtain ⟨k, b⟩ := c
    have hk : a < k := h (k, b) (by simp)
    simp only [readByte, if_neg (Nat.ne_of_gt hk)]
    exact ih fun c hc => h c (List.mem_cons_of_mem _ hc)

theorem memoryOk_cons {k : Nat} {b : Byte} {m : Memory} :
    memoryOk ((k, b) :: m) = true ↔ b ≠ blankByte ∧ (∀ c ∈ m, k < c.1) ∧ memoryOk m = true := by
  simp [memoryOk, and_assoc]

/-- Every address a write lists is the written one or was listed. -/
theorem mem_writeByte {m : Memory} {a : Nat} {b : Byte} {c : Host.Cell} (h : c ∈ writeByte m a b) : c.1 = a ∨ c ∈ m := by
  induction m with
  | nil => by_cases hb : b = blankByte <;> simp [writeByte, hb] at h; simp [h]
  | cons d rest ih =>
    obtain ⟨k, x⟩ := d
    unfold writeByte at h
    split_ifs at h <;> simp only [List.mem_cons] at h ⊢
    · tauto
    · rcases h with h | h | h <;> simp [h]
    · tauto
    · rcases h with h | h <;> simp [h]
    · rcases h with h | h
      · tauto
      · have := ih h; tauto

/-- A write keeps the canonical form. -/
theorem memoryOk_writeByte {m : Memory} {a : Nat} {b : Byte} (h : memoryOk m = true) : memoryOk (writeByte m a b) = true := by
  induction m with
  | nil => by_cases hb : b = blankByte <;> simp [writeByte, memoryOk, hb]
  | cons d rest ih =>
    obtain ⟨k, x⟩ := d
    obtain ⟨hx, hlt, hrest⟩ := memoryOk_cons.1 h
    unfold writeByte
    split_ifs with h1 h2 h3 h4
    · exact h
    · exact memoryOk_cons.2 ⟨h2, fun c hc => by
        rcases List.mem_cons.1 hc with rfl | hc
        · exact h1
        · exact h1.trans (hlt c hc), h⟩
    · exact hrest
    · exact memoryOk_cons.2 ⟨h4, fun c hc => h3 ▸ hlt c hc, hrest⟩
    · refine memoryOk_cons.2 ⟨hx, fun c hc => ?_, ih hrest⟩
      rcases mem_writeByte hc with hc | hc
      · omega
      · exact hlt c hc

/-- A read after a write to the same address gives the byte written; every other address reads as
before. -/
theorem readByte_writeByte {m : Memory} (h : memoryOk m = true) (a : Nat) (b : Byte) (x : Nat) :
    readByte (writeByte m a b) x = if x = a then b else readByte m x := by
  induction m with
  | nil =>
    by_cases hb : b = blankByte <;> by_cases hx : a = x <;> simp [writeByte, readByte, hb, hx, eq_comm]
  | cons d rest ih =>
    obtain ⟨k, y⟩ := d
    obtain ⟨-, hlt, hrest⟩ := memoryOk_cons.1 h
    unfold writeByte
    split_ifs with h1 h2 h3 h4 h5 h6 h7 h8
    · subst h3; rw [h2]; exact readByte_of_all_lt fun c hc => by
        rcases List.mem_cons.1 hc with rfl | hc
        · exact h1
        · exact h1.trans (hlt c hc)
    · rfl
    · subst h4; simp [readByte]
    · simp [readByte, Ne.symm h4]
    · subst h7; rw [h6, h5]; exact readByte_of_all_lt hlt
    · have hk : ¬ k = x := by omega
      simp [readByte, hk]
    · subst h8; simp [readByte]
    · have hk : ¬ k = x := by omega
      have ha : ¬ a = x := by omega
      simp [readByte, hk, ha]
    · rename_i hxa
      have hk : ¬ k = x := by omega
      simp only [readByte, if_neg hk]
      rw [ih hrest, if_pos hxa]
    · rename_i hxa
      simp only [readByte]
      split_ifs
      · rfl
      · rw [ih hrest, if_neg hxa]

/-! ### Pages of a NAND array -/

theorem nandKey_mod {row : Nat} (h : row < rowSpan) (col : Nat) : nandKey row col % rowSpan = row := by
  rw [nandKey, Nat.add_comm, Nat.add_mul_mod_self_right, Nat.mod_eq_of_lt h]

theorem nandKey_div {row : Nat} (h : row < rowSpan) (col : Nat) : nandKey row col / rowSpan = col := by
  rw [nandKey, Nat.add_comm, Nat.add_mul_div_right _ _ (by decide), Nat.div_eq_of_lt h, Nat.zero_add]

/-- Every key is the key of one row and column. -/
theorem nandKey_eta (k : Nat) : nandKey (k % rowSpan) (k / rowSpan) = k := Nat.div_add_mod' k rowSpan

/-- A page holds, at every column, the array's byte of that row and column. -/
theorem readByte_pageOf (m : Memory) {row : Nat} (hr : row < rowSpan) (col : Nat) :
    readByte (pageOf m row) col = readByte m (nandKey row col) := by
  induction m with
  | nil => rfl
  | cons d rest ih =>
    obtain ⟨k, b⟩ := d
    simp only [pageOf]
    by_cases hk : k = nandKey row col
    · subst hk
      simp [readByte, nandKey_mod hr, nandKey_div hr]
    · split_ifs with hrow
      · have hc : ¬ k / rowSpan = col := fun h => hk (by rw [← nandKey_eta k, hrow, h])
        simp only [readByte, if_neg hk, if_neg hc, ih]
      · simp only [readByte, if_neg hk, ih]

theorem mem_pageOf {m : Memory} {row : Nat} {c : Host.Cell} (h : c ∈ pageOf m row) : (nandKey row c.1, c.2) ∈ m := by
  induction m with
  | nil => simp [pageOf] at h
  | cons d rest ih =>
    obtain ⟨k, b⟩ := d
    unfold pageOf at h
    split_ifs at h with hr
    · rcases List.mem_cons.1 h with rfl | h
      · simp [← hr, nandKey_eta]
      · exact List.mem_cons_of_mem _ (ih h)
    · exact List.mem_cons_of_mem _ (ih h)

/-- A page of a canonical array is canonical. -/
theorem memoryOk_pageOf {m : Memory} (row : Nat) (h : memoryOk m = true) : memoryOk (pageOf m row) = true := by
  induction m with
  | nil => rfl
  | cons d rest ih =>
    obtain ⟨k, b⟩ := d
    obtain ⟨hb, hlt, hrest⟩ := memoryOk_cons.1 h
    unfold pageOf
    split_ifs with hr
    · refine memoryOk_cons.2 ⟨hb, fun c hc => ?_, ih hrest⟩
      have hk : nandKey row (k / rowSpan) = k := by rw [← hr, nandKey_eta]
      have hlt' := hlt _ (mem_pageOf hc)
      rw [← hk] at hlt'
      simp only [nandKey, rowSpan] at hlt' ⊢
      omega
    · exact ih hrest

end Sys2Proof.Machine
end

