-- ==== Sys2Proof/Laws/Turns.lean ====
section
/-! SUPPORT. What the turns of the other agents do between two Host steps while the Engine has nothing to do: only the device and the turns to come can change (10_state.md R30). -/

namespace Sys2Proof.Machine

/-! ### The device under its own turns -/

/-- The device some turns after it was `f`: as it was, or with the page load in progress completed,
which takes a Flash turn (`m`: one can come). -/
def FlashAfter (m : Prop) (f g : FlashDevice) : Prop := g = f ∨ (m ∧ f.nandBusy = true ∧ g = flashLoad f)

/-- A Flash turn can still come. -/
def FlashMoves (e : Environment) : Prop := e.flashProgress = true ∨ ∃ ts ∈ e.sched, Turn.flash ∈ ts

theorem FlashAfter.load {m : Prop} {f g : FlashDevice} (h : FlashAfter m f g) (hm : m) (hb : g.nandBusy = true) :
    FlashAfter m f (flashLoad g) := by
  rcases h with rfl | ⟨-, -, rfl⟩
  · exact .inr ⟨hm, hb, rfl⟩
  · simp [flashLoad] at hb

theorem FlashAfter.refl (m : Prop) (f : FlashDevice) : FlashAfter m f f := .inl rfl

theorem FlashAfter.mono {m m' : Prop} {f g : FlashDevice} (h : FlashAfter m f g) (hm : m → m') : FlashAfter m' f g := by
  rcases h with h | ⟨a, b, c⟩
  · exact .inl h
  · exact .inr ⟨hm a, b, c⟩

theorem FlashAfter.trans {m : Prop} {f g h : FlashDevice} (h1 : FlashAfter m f g) (h2 : FlashAfter m g h) :
    FlashAfter m f h := by
  rcases h2 with rfl | ⟨hm, hb, rfl⟩
  · exact h1
  · exact h1.load hm hb

/-- A device with no page load in progress stays as it is. -/
theorem FlashAfter.eq_of_not_busy {m : Prop} {f g : FlashDevice} (h : FlashAfter m f g) (hb : f.nandBusy = false) : g = f := by
  rcases h with h | ⟨-, b, -⟩
  · exact h
  · simp [hb] at b

/-- Turns that can come out of the later part of a schedule could come out of the whole. -/
theorem FlashMoves.of_suffix {e : Environment} {l : List (List Turn)} (hl : l <:+ e.sched) (h : FlashMoves { e with sched := l }) :
    FlashMoves e := by
  rcases h with h | ⟨ts, hts, hf⟩
  · exact .inl h
  · exact .inr ⟨ts, hl.subset hts, hf⟩

theorem tail_suffix_tail {α : Type} {a b : List α} (h : a <:+ b) : a.tail <:+ b.tail := by
  obtain ⟨k, rfl⟩ := h
  cases k with
  | nil => exact List.suffix_refl _
  | cons x k => exact (List.tail_suffix a).trans (List.suffix_append k a)

/-! ### Turns while the Engine has nothing to do -/

/-- The Engine has nothing to do: no burst and no soft reset (40_registers.md R180). -/
def Still (s : State) : Prop := s.eng.busy = false ∧ s.eng.srstBusy = false

/-- `s` with the device `f`, and the turns `l` still to come. -/
def moved (s : State) (f : FlashDevice) (l : List (List Turn)) : State := { s with flash := f, env := { s.env with sched := l } }

@[simp] theorem moved_cfg (s : State) (f : FlashDevice) (l : List (List Turn)) : (moved s f l).cfg = s.cfg := rfl
@[simp] theorem moved_regs (s : State) (f : FlashDevice) (l : List (List Turn)) : (moved s f l).regs = s.regs := rfl
@[simp] theorem moved_eng (s : State) (f : FlashDevice) (l : List (List Turn)) : (moved s f l).eng = s.eng := rfl
@[simp] theorem moved_plat (s : State) (f : FlashDevice) (l : List (List Turn)) : (moved s f l).plat = s.plat := rfl
@[simp] theorem moved_seq (s : State) (f : FlashDevice) (l : List (List Turn)) : (moved s f l).seq = s.seq := rfl
@[simp] theorem moved_flash (s : State) (f : FlashDevice) (l : List (List Turn)) : (moved s f l).flash = f := rfl
@[simp] theorem moved_hostMem (s : State) (f : FlashDevice) (l : List (List Turn)) : (moved s f l).hostMem = s.hostMem := rfl
@[simp] theorem moved_program (s : State) (f : FlashDevice) (l : List (List Turn)) : (moved s f l).program = s.program := rfl
@[simp] theorem moved_result (s : State) (f : FlashDevice) (l : List (List Turn)) : (moved s f l).result = s.result := rfl
@[simp] theorem moved_trace (s : State) (f : FlashDevice) (l : List (List Turn)) : (moved s f l).trace = s.trace := rfl
@[simp] theorem moved_env (s : State) (f : FlashDevice) (l : List (List Turn)) : (moved s f l).env = { s.env with sched := l } := rfl
@[simp] theorem moved_draws (s : State) (f : FlashDevice) (l : List (List Turn)) : (moved s f l).draws = s.draws := rfl
@[simp] theorem moved_moved (s : State) (f f' : FlashDevice) (l l' : List (List Turn)) :
    moved (moved s f l) f' l' = moved s f' l' := rfl

/-- From the environment `e` and the device `f0`, turns lead to the device `f` with the turns `l` still to come. -/
structure Reaches (e : Environment) (f0 f : FlashDevice) (l : List (List Turn)) : Prop where
  flash : FlashAfter (FlashMoves e) f0 f
  sched : l <:+ e.sched

theorem Reaches.refl (e : Environment) (f : FlashDevice) : Reaches e f f e.sched := ⟨.refl _ _, List.suffix_refl _⟩

theorem Reaches.trans {e : Environment} {f0 f f' : FlashDevice} {l l' : List (List Turn)} (h : Reaches e f0 f l)
    (k : Reaches { e with sched := l } f f' l') : Reaches e f0 f' l' :=
  ⟨h.flash.trans (k.flash.mono (.of_suffix h.sched)), k.sched.trans h.sched⟩

theorem takeTurns_still {m : Prop} : ∀ (ts : List Turn) {s : State}, Still s → (Turn.flash ∈ ts → m) →
    ∃ f, FlashAfter m s.flash f ∧ takeTurns ts s = .ok { s with flash := f }
  | [], s, _, _ => ⟨s.flash, .refl _ _, rfl⟩
  | .engine :: ts, s, h, hm => by
    obtain ⟨f, hf, ht⟩ := takeTurns_still ts h fun hf => hm (List.mem_cons_of_mem _ hf)
    have he : engineTurn s = .ok s := by simp [engineTurn, h.1, h.2]
    exact ⟨f, hf, by simp only [takeTurns, takeTurn, he, res_bind_ok, ht]⟩
  | .flash :: ts, s, h, hm => by
    have hm0 := hm (by simp)
    by_cases hb : s.flash.nandBusy = true
    · obtain ⟨f, hf, ht⟩ := takeTurns_still (m := m) ts (s := { s with flash := flashLoad s.flash }) h fun _ => hm0
      exact ⟨f, (FlashAfter.load (.refl _ _) hm0 hb).trans hf, by simp only [takeTurns, takeTurn, flashTurn, hb, if_true, res_bind_ok, ht]⟩
    · obtain ⟨f, hf, ht⟩ := takeTurns_still (m := m) ts h fun _ => hm0
      exact ⟨f, hf, by simp only [takeTurns, takeTurn, flashTurn, hb, Bool.false_eq_true, if_false, res_bind_ok, ht]⟩

/-- **The turns before a Host step**, while the Engine has nothing to do: one entry of the schedule is used up, and
nothing changes but the device, by a page load completed. -/
theorem gap_still {s : State} (h : Still s) :
    ∃ f, Reaches s.env s.flash f s.env.sched.tail ∧ gap s = .ok (moved s f s.env.sched.tail) := by
  unfold gap
  cases hs : s.env.sched with
  | nil =>
    refine ⟨s.flash, ⟨.refl _ _, List.nil_suffix⟩, congrArg Except.ok ?_⟩
    rw [List.tail_nil, ← hs]
    rfl
  | cons ts rest =>
    have hsuf : rest <:+ s.env.sched := hs ▸ List.suffix_cons ts rest
    obtain ⟨f, hf, ht⟩ := takeTurns_still (m := FlashMoves s.env) ts (s := { s with env := { s.env with sched := rest } }) h
      fun hf => .inr ⟨ts, by simp [hs], hf⟩
    exact ⟨f, ⟨hf, hsuf⟩, ht⟩

/-- **A Host step inside a call**, while the Engine has nothing to do: the step, at the state the turns before it leave. -/
theorem hostStep_still {s : State} (h : Still s) :
    ∃ f, Reaches s.env s.flash f s.env.sched.tail ∧
      ∀ {α : Type} (act : State → Res α), hostStep act s = act (moved s f s.env.sched.tail) := by
  obtain ⟨f, hf, hg⟩ := gap_still h
  exact ⟨f, hf, fun act => by simp only [hostStep, hg, res_bind_ok]⟩

/-- With no turns scheduled a Host step inside a call is the step. -/
theorem hostStep_of_nil {s : State} (h : s.env.sched = []) {α : Type} (act : State → Res α) : hostStep act s = act s := by
  simp only [hostStep, gap, h, res_bind_ok]

end Sys2Proof.Machine
end

