-- ==== Sys2Proof/Laws/Burst.lean ====
section
/-! SUPPORT. What a burst does while the Host waits: the relation between the state at its start and every later state, kept by every turn and every poll, and the end of the two waits of an exchange. -/

namespace Sys2Proof.Machine

/-- `s` is a state of the burst that started in `s0` with the header `hdr` and `n` payload bytes;
the device has `P` while the burst runs, and payload byte `i` received is one that `A` allows for the
device as it stands (`dev`: the device `f` of the burst, or what followed its end). -/
structure InBurst (s0 : State) (hdr : List Byte) (n : Nat) (P : FlashDevice → Prop) (A : FlashDevice → Nat → Byte → Prop)
    (s : State) : Prop where
  cfg : s.cfg = s0.cfg
  plat : s.plat = s0.plat
  seq : s.seq = s0.seq
  hostMem : s.hostMem = s0.hostMem
  program : s.program = s0.program
  result : s.result = s0.result
  hw : s.env.hwProgress = s0.env.hwProgress
  fl : s.env.flashProgress = s0.env.flashProgress
  sched : s.env.sched <:+ s0.env.sched
  regs : s.regs = { s0.regs with txFifo := hdr.drop s.eng.frame.length, rxFifo := s.regs.rxFifo }
  rxLen : s.regs.rxFifo.length = s.eng.frame.length
  frame : s.eng.frame.take hdr.length = hdr.take s.eng.frame.length
  bound : s.eng.frame.length ≤ hdr.length + n
  bRemain : s.eng.bRemain = hdr.length + n - s.eng.frame.length
  tRemain : s.eng.tRemain = hdr.length - s.eng.frame.length
  busy : s.eng.busy = decide (s.eng.frame.length < hdr.length + n)
  cs : s.eng.cs = decide (s.eng.frame.length < hdr.length + n)
  srst : s.eng.srstBusy = false
  dev : ∃ f, P f ∧ (∀ i (h : hdr.length + i < s.regs.rxFifo.length), A f i s.regs.rxFifo[hdr.length + i])
    ∧ (s.eng.frame.length < hdr.length + n → s.flash = f ∧ s.trace = s0.trace)
    ∧ (s.eng.frame.length = hdr.length + n →
        FlashAfter (FlashMoves s0.env) (flashEndFrame s0.cfg.storageKind f s.eng.frame) s.flash
          ∧ s.trace = s0.trace ++ [.frame s.eng.frame])

section
variable {s0 s : State} {hdr : List Byte} {n : Nat} {P : FlashDevice → Prop} {A : FlashDevice → Nat → Byte → Prop}

/-- What a burst asks of the device: `P` and `A` are kept by its own turns, and an answer to a payload
byte is one that `A` allows. -/
structure Answers (s0 : State) (hdr : List Byte) (n : Nat) (P : FlashDevice → Prop) (A : FlashDevice → Nat → Byte → Prop) : Prop where
  turn : FlashMoves s0.env → ∀ f, P f → f.nandBusy = true →
    P (flashLoad f) ∧ ∀ i b, A f i b → A (flashLoad f) i b
  answer : ∀ f pay d, P f → pay.length < n →
    A f pay.length (flashRespond s0.cfg.storageKind s0.cfg.nandPageSize f (hdr ++ pay) d)

/-- Fewer turns to come, or a free value drawn, keep the relation. -/
theorem InBurst.of_env (h : InBurst s0 hdr n P A s) {e : Environment} {d : Nat} (hs : e.sched <:+ s.env.sched)
    (hw : e.hwProgress = s.env.hwProgress) (hf : e.flashProgress = s.env.flashProgress) :
    InBurst s0 hdr n P A { s with env := e, draws := d } :=
  { h with hw := hw.trans h.hw, fl := hf.trans h.fl, sched := hs.trans h.sched }

theorem InBurst.drew (h : InBurst s0 hdr n P A s) (k : Nat) : InBurst s0 hdr n P A (s.drew k) :=
  { h with }

/-- A Flash turn keeps the relation. -/
theorem InBurst.flashTurn (hA : Answers s0 hdr n P A) (hm : FlashMoves s0.env) (h : InBurst s0 hdr n P A s) :
    InBurst s0 hdr n P A (flashTurn s) := by
  unfold Machine.flashTurn
  split
  · rename_i hb
    obtain ⟨f, hf, ha, hrun, hend⟩ := h.dev
    rcases Nat.lt_or_ge s.eng.frame.length (hdr.length + n) with hlt | hge
    · obtain ⟨rfl, ht⟩ := hrun hlt
      obtain ⟨hP, hk⟩ := hA.turn hm _ hf hb
      exact { h with dev := ⟨_, hP, fun i hi => hk _ _ (ha i hi), fun _ => ⟨rfl, ht⟩, fun he => by
        exact absurd he (by simpa using Nat.ne_of_lt hlt)⟩ }
    · refine { h with dev := ⟨f, hf, ha, fun hl => by exact absurd hl (by simpa using hge), fun he => ?_⟩ }
      obtain ⟨hfa, ht⟩ := hend he
      exact ⟨hfa.load hm hb, ht⟩
  · exact h

/-- An Engine turn keeps the relation and clocks one byte while one is left. -/
theorem InBurst.engineTurn (hA : Answers s0 hdr n P A) (hcap : hdr.length + n ≤ fifoDepth)
    (h : InBurst s0 hdr n P A s) :
    ∃ t, engineTurn s = .ok t ∧ InBurst s0 hdr n P A t ∧ t.eng.bRemain = s.eng.bRemain - 1 ∧ t.env = s.env := by
  unfold Machine.engineTurn
  rw [h.srst]
  by_cases hlt : s.eng.frame.length < hdr.length + n
  · have hpos : 0 < s.eng.bRemain := by rw [h.bRemain]; omega
    have hfull : ¬ fifoDepth ≤ s.regs.rxFifo.length := by rw [h.rxLen]; omega
    obtain ⟨f, hP, hval, hrun, -⟩ := h.dev
    obtain ⟨rfl, htr⟩ := hrun hlt
    have hbusy : s.eng.busy = true := by rw [h.busy]; simpa using hlt
    simp only [hbusy, hpos, decide_true, Bool.and_self, if_true, Bool.false_eq_true, if_false, byteStep, hfull,
      decide_false, faultIf_false, res_bind_ok, res_pure]
    -- the byte sent, and the header's part of the frame
    have htx : s.regs.txFifo = hdr.drop s.eng.frame.length := by rw [h.regs]
    have hframe' : (s.eng.frame ++ [engineMosi s]).take hdr.length = hdr.take (s.eng.frame.length + 1) := by
      by_cases hh : s.eng.frame.length < hdr.length
      · have hm : engineMosi s = hdr[s.eng.frame.length] := by
          have : 0 < s.eng.tRemain := by rw [h.tRemain]; omega
          simp [engineMosi, this, htx, List.head?_drop, hh]
        have hf : s.eng.frame = hdr.take s.eng.frame.length := by
          rw [← h.frame, List.take_of_length_le (by omega)]
        rw [List.take_of_length_le (by simp; omega), List.take_add_one, ← hf, hm]
        simp [hh]
      · rw [List.take_append_of_le_length (by omega), h.frame, List.take_of_length_le (by omega),
          List.take_of_length_le (by omega)]
    have htx' : (if 0 < s.eng.tRemain then s.regs.txFifo.tail else s.regs.txFifo)
        = hdr.drop (s.eng.frame.length + 1) := by
      rw [htx, h.tRemain]
      split
      · simp
      · rw [List.drop_of_length_le (by omega), List.drop_of_length_le (by omega)]
    -- the byte received
    have hrx' : ∀ i (hi : hdr.length + i < (byteClocked s).regs.rxFifo.length),
        A s.flash i (byteClocked s).regs.rxFifo[hdr.length + i] := by
      intro i hi
      simp only [byteClocked, List.length_append, List.length_singleton] at hi
      simp only [byteClocked]
      by_cases hold : hdr.length + i < s.regs.rxFifo.length
      · rw [List.getElem_append_left hold]; exact hval i hold
      · have hi' : hdr.length + i = s.regs.rxFifo.length := by omega
        rw [List.getElem_append_right (by omega)]
        simp only [hi', Nat.sub_self, List.getElem_singleton]
        have hlen : hdr.length ≤ s.eng.frame.length := by rw [← h.rxLen]; omega
        have hsplit : s.eng.frame = hdr ++ s.eng.frame.drop hdr.length := by
          conv_lhs => rw [← List.take_append_drop hdr.length s.eng.frame]
          rw [h.frame, List.take_of_length_le hlen]
        have hd : (s.eng.frame.drop hdr.length).length = i := by
          rw [List.length_drop, ← h.rxLen]; omega
        have := hA.answer s.flash (s.eng.frame.drop hdr.length) (drawByte s 1) hP (by rw [hd, ] ; rw [← h.rxLen] at hlt; omega)
        rw [← hsplit, hd] at this
        rw [h.cfg]; exact this
    by_cases hlast : (byteClocked s).eng.bRemain = 0
    · have hb0 : s.eng.bRemain - 1 = 0 := hlast
      have hlen1 : s.eng.frame.length + 1 = hdr.length + n := by rw [h.bRemain] at hb0; omega
      rw [if_pos hlast]
      refine ⟨_, rfl, ?_, ?_, rfl⟩
      · refine ⟨h.cfg, h.plat, h.seq, h.hostMem, h.program, h.result, h.hw, h.fl, h.sched, ?_, ?_, ?_, ?_, ?_, ?_, ?_, ?_,
          h.srst, s.flash, hP, hrx', ?_, ?_⟩
        · simp only [completeBurst, byteClocked, htx', List.length_append, List.length_singleton]
          rw [h.regs]
        · simp [completeBurst, byteClocked, h.rxLen]
        · simpa [completeBurst, byteClocked] using hframe'
        · simp [completeBurst, byteClocked]; omega
        · simp [completeBurst, byteClocked, h.bRemain]; omega
        · simp [completeBurst, byteClocked, h.tRemain]; omega
        · simp [completeBurst, byteClocked]; omega
        · simp [completeBurst, byteClocked]; omega
        · intro hr; simp [completeBurst, byteClocked] at hr; omega
        · intro _
          refine ⟨.inl ?_, ?_⟩
          · simp [completeBurst, byteClocked, h.cfg]
          · simp [completeBurst, byteClocked, htr]
      · simp [completeBurst, byteClocked]
    · have hb0 : ¬ s.eng.bRemain - 1 = 0 := hlast
      rw [if_neg hlast]
      refine ⟨_, rfl, ?_, ?_, rfl⟩
      · have hlen1 : s.eng.frame.length + 1 < hdr.length + n := by rw [h.bRemain] at hb0; omega
        refine ⟨h.cfg, h.plat, h.seq, h.hostMem, h.program, h.result, h.hw, h.fl, h.sched, ?_, ?_, ?_, ?_, ?_, ?_, ?_, ?_,
          h.srst, s.flash, hP, hrx', ?_, ?_⟩
        · simp only [byteClocked, htx', List.length_append, List.length_singleton]
          rw [h.regs]
        · simp [byteClocked, h.rxLen]
        · simpa [byteClocked] using hframe'
        · simp [byteClocked]; omega
        · simp [byteClocked, h.bRemain]; omega
        · simp [byteClocked, h.tRemain]; omega
        · simp [byteClocked, hbusy]; omega
        · simp [byteClocked, h.cs]; omega
        · intro _; exact ⟨rfl, htr⟩
        · intro he; simp [byteClocked] at he; omega
      · rfl
  · have hend : s.eng.frame.length = hdr.length + n := by have := h.bound; omega
    have hbusy : s.eng.busy = false := by rw [h.busy]; simpa using hlt
    have hb : s.eng.bRemain = 0 := by rw [h.bRemain]; omega
    exact ⟨s, by simp [hbusy], h, by omega, rfl⟩

/-- Turns keep the relation. -/
theorem InBurst.takeTurns (hA : Answers s0 hdr n P A) (hcap : hdr.length + n ≤ fifoDepth) :
    ∀ (ts : List Turn) {s : State}, (Turn.flash ∈ ts → FlashMoves s0.env) → InBurst s0 hdr n P A s →
      ∃ t, takeTurns ts s = .ok t ∧ InBurst s0 hdr n P A t ∧ t.env = s.env
  | [], s, _, h => ⟨s, rfl, h, rfl⟩
  | .engine :: ts, s, hf, h => by
    obtain ⟨t, ht, hi, -, he⟩ := h.engineTurn hA hcap
    obtain ⟨u, hu, hj, he'⟩ := InBurst.takeTurns hA hcap ts (fun m => hf (List.mem_cons_of_mem _ m)) hi
    exact ⟨u, by simp [Machine.takeTurns, takeTurn, ht, hu], hj, he'.trans he⟩
  | .flash :: ts, s, hf, h => by
    have hi := h.flashTurn hA (hf (by simp))
    obtain ⟨u, hu, hj, he'⟩ := InBurst.takeTurns hA hcap ts (fun m => hf (List.mem_cons_of_mem _ m)) hi
    refine ⟨u, by simp [Machine.takeTurns, takeTurn, hu], hj, he'.trans ?_⟩
    unfold Machine.flashTurn; split <;> rfl

/-- A round in which the Engine moves clocks one byte while one is left. -/
theorem InBurst.fairRound (hA : Answers s0 hdr n P A) (hcap : hdr.length + n ≤ fifoDepth)
    (hw : s0.env.hwProgress = true) (h : InBurst s0 hdr n P A s) :
    ∃ t, fairRound s = .ok t ∧ InBurst s0 hdr n P A t ∧ t.eng.bRemain = s.eng.bRemain - 1 ∧ t.env = s.env := by
  obtain ⟨t, ht, hi, hb, he⟩ := h.engineTurn hA hcap
  unfold Machine.fairRound
  rw [h.hw, hw]
  simp only [if_true, ht, res_bind_ok, res_pure]
  by_cases hf : t.env.flashProgress = true
  · have hm : FlashMoves s0.env := .inl (by rw [← hi.fl, hf])
    refine ⟨_, rfl, ?_, ?_, ?_⟩
    · rw [if_pos hf]; exact hi.flashTurn hA hm
    · rw [if_pos hf]; unfold Machine.flashTurn; split <;> exact hb
    · rw [if_pos hf]; unfold Machine.flashTurn; split <;> exact he
  · exact ⟨_, rfl, by rw [if_neg hf]; exact hi, by rw [if_neg hf]; exact hb, by rw [if_neg hf]; exact he⟩

/-- A poll that reads FIFO_STA and asks whether `m` bytes of the burst have been clocked. -/
def CountsTo (s0 : State) (hdr : List Byte) (n : Nat) (P : FlashDevice → Prop) (A : FlashDevice → Nat → Byte → Prop) (m : Nat)
    (poll : Poll) : Prop :=
  ∀ s, InBurst s0 hdr n P A s → poll s = .ok (decide (m ≤ s.eng.frame.length), s.drew 1)

theorem InBurst.waitFair {m : Nat} {poll : Poll} (hA : Answers s0 hdr n P A) (hcap : hdr.length + n ≤ fifoDepth)
    (hw : s0.env.hwProgress = true) (hm : m ≤ hdr.length + n) (hp : CountsTo s0 hdr n P A m poll) :
    ∀ (k : Nat) {s : State}, s.eng.bRemain ≤ k → InBurst s0 hdr n P A s →
      ∃ t, waitFair poll k s = .ok t ∧ InBurst s0 hdr n P A t ∧ m ≤ t.eng.frame.length ∧ t.env = s.env
  | 0, s, hk, h => by
    have hd : m ≤ s.eng.frame.length := by have := h.bRemain; have := h.bound; omega
    exact ⟨s.drew 1, by simp [Machine.waitFair, hp s h, hd], h.drew 1, hd, rfl⟩
  | k + 1, s, hk, h => by
    by_cases hd : m ≤ s.eng.frame.length
    · exact ⟨s.drew 1, by simp [Machine.waitFair, hp s h, hd], h.drew 1, hd, rfl⟩
    · obtain ⟨t, ht, hi, hb, he⟩ := (h.drew 1).fairRound hA hcap hw
      obtain ⟨u, hu, hj, hmu, he'⟩ := InBurst.waitFair hA hcap hw hm hp k
        (by rw [hb]; simp only [drew_eng]; omega) hi
      exact ⟨u, by simp [Machine.waitFair, hp s h, hd, ht, hu], hj, hmu, he'.trans he⟩

theorem InBurst.waitSched {m : Nat} {poll : Poll} (hA : Answers s0 hdr n P A) (hcap : hdr.length + n ≤ fifoDepth)
    (hw : s0.env.hwProgress = true) (hm : m ≤ hdr.length + n) (hp : CountsTo s0 hdr n P A m poll) :
    ∀ (l : List (List Turn)) {s : State}, s.env.sched = l → InBurst s0 hdr n P A s →
      ∃ t, waitSched poll l s = .ok t ∧ InBurst s0 hdr n P A t ∧ m ≤ t.eng.frame.length ∧ t.env.sched <:+ l.tail
  | [], s, hl, h => by
    have h' : InBurst s0 hdr n P A { s with env := { s.env with sched := [] } } :=
      h.of_env (List.nil_suffix) rfl rfl
    obtain ⟨t, ht, hi, hmt, he⟩ := h'.waitFair hA hcap hw hm hp (s.eng.bRemain + 1) (by simp)
    exact ⟨t, by simpa [Machine.waitSched] using ht, hi, hmt, by rw [he]; exact List.suffix_refl _⟩
  | ts :: rest, s, hl, h => by
    have hsuf : rest <:+ s.env.sched := by rw [hl]; exact List.suffix_cons _ _
    have h' : InBurst s0 hdr n P A { s with env := { s.env with sched := rest } } := h.of_env hsuf rfl rfl
    have hmem : ts ∈ s0.env.sched := h.sched.subset (by rw [hl]; simp)
    obtain ⟨t, ht, hi, he⟩ := h'.takeTurns hA hcap ts (fun hf => .inr ⟨ts, hmem, hf⟩)
    by_cases hd : m ≤ t.eng.frame.length
    · exact ⟨t.drew 1, by simp [Machine.waitSched, ht, hp t hi, hd], hi.drew 1, hd, by simp [he]⟩
    · obtain ⟨u, hu, hj, hmu, hsu⟩ := InBurst.waitSched hA hcap hw hm hp rest (s := t.drew 1) (by simp [he]) (hi.drew 1)
      exact ⟨u, by simp [Machine.waitSched, ht, hp t hi, hd, hu], hj, hmu,
        hsu.trans (List.tail_suffix _)⟩

/-- A busy poll on the burst ends when its count is reached, whatever the turns to come. -/
theorem InBurst.waitUntil {m : Nat} {poll : Poll} (hA : Answers s0 hdr n P A) (hcap : hdr.length + n ≤ fifoDepth)
    (hw : s0.env.hwProgress = true) (hm : m ≤ hdr.length + n) (hp : CountsTo s0 hdr n P A m poll)
    (h : InBurst s0 hdr n P A s) :
    ∃ t, waitUntil poll s = .ok t ∧ InBurst s0 hdr n P A t ∧ m ≤ t.eng.frame.length ∧ t.env.sched <:+ s.env.sched.tail :=
  InBurst.waitSched hA hcap hw hm hp _ rfl h

/-- The gate is open for every access (40_registers.md R178). -/
def GateOpen (s : State) : Prop := s.plat.clkOn = true ∧ (s.cfg.variant = .genB → s.eng.srstBusy = false)

theorem accessGate_of_open {g : Bool} (h : GateOpen s) : accessGate g s = .ok () :=
  accessGate_eq_ok.2 ⟨h.1, fun hv hb => by simp [h.2 hv] at hb⟩

theorem InBurst.gateOpen (hc : s0.plat.clkOn = true) (h : InBurst s0 hdr n P A s) : GateOpen s :=
  ⟨by rw [h.plat, hc], fun _ => h.srst⟩

/-- The TX-drain poll of an exchange counts to the header's length. -/
theorem countsTo_txDrained (hc : s0.plat.clkOn = true) (hcap : hdr.length + n ≤ fifoDepth) :
    CountsTo s0 hdr n P A hdr.length (pollFifo (fun w => txCnt s0.cfg.variant w == 0)) := by
  intro s h
  have htx : s.regs.txFifo.length = hdr.length - s.eng.frame.length := by rw [h.regs]; simp
  have hcnt := txCnt_fifoStaWord s0.cfg.variant (drawWord s 0) s.regs.rxFifo.length s.regs.txFifo.length (by omega)
  have hz : (txCnt s0.cfg.variant (fifoStaWord s0.cfg.variant (drawWord s 0) s.regs.rxFifo.length s.regs.txFifo.length)
      == 0) = decide (hdr.length ≤ s.eng.frame.length) := by
    rw [Bool.eq_iff_iff, beq_iff_eq, decide_eq_true_iff, ← BitVec.toNat_inj, hcnt, htx]
    exact Nat.sub_eq_zero_iff_le
  simp only [pollFifo, accessGate_of_open (h.gateOpen hc), res_bind_ok, readFifoSta, h.cfg, hz, res_pure]

/-- The RX-count poll of an exchange counts to the burst's length. -/
theorem countsTo_rxArrived (hc : s0.plat.clkOn = true) (hcap : hdr.length + n ≤ fifoDepth) :
    CountsTo s0 hdr n P A (hdr.length + n)
      (pollFifo (fun w => decide (hdr.length + n ≤ (rxCnt s0.cfg.variant w).toNat))) := by
  intro s h
  have hcnt := rxCnt_fifoStaWord s0.cfg.variant (drawWord s 0) s.regs.rxFifo.length s.regs.txFifo.length
    (by rw [h.rxLen]; exact h.bound.trans hcap)
  simp only [pollFifo, accessGate_of_open (h.gateOpen hc), res_bind_ok, readFifoSta, h.cfg, hcnt, res_pure]
  rw [h.rxLen]

/-- Both waits of an exchange end, and then the whole burst has been clocked (42_protocol_engine.md
R232, R235; under HW_PROGRESS, 60_exceptions.md R362). -/
theorem InBurst.awaitBurst (hA : Answers s0 hdr n P A) (hcap : hdr.length + n ≤ fifoDepth)
    (hw : s0.env.hwProgress = true) (hc : s0.plat.clkOn = true) (h : InBurst s0 hdr n P A s) :
    ∃ t, awaitBurst (hdr.length + n) s = .ok t ∧ InBurst s0 hdr n P A t ∧ t.eng.frame.length = hdr.length + n
      ∧ t.env.sched <:+ s.env.sched.tail := by
  obtain ⟨t, ht, hi, -, hst⟩ := h.waitUntil hA hcap hw (by omega) (countsTo_txDrained hc hcap)
  obtain ⟨u, hu, hj, hmu, hsu⟩ := hi.waitUntil hA hcap hw le_rfl (countsTo_rxArrived hc hcap)
  refine ⟨u, ?_, hj, le_antisymm hj.bound hmu, hsu.trans ((List.tail_suffix _).trans hst)⟩
  unfold Machine.awaitBurst
  rw [h.cfg]
  simp only [ht, hu, res_bind_ok]

end

end Sys2Proof.Machine
end

