-- ==== Sys2Proof/Laws/Exchange.lean ====
section
/-! SUPPORT. What the parts of an exchange do from a ready controller, and what a whole exchange leaves (42_protocol_engine.md R232 to R236). -/

namespace Sys2Proof.Machine

/-- The exact condition under which an exchange is well formed (42_protocol_engine.md R233). -/
theorem frameOk_eq_ok {op : Byte} {addr : List Byte} {d n : Nat} {u : Unit} :
    frameOk op addr d n = .ok u ↔
      addr.length ≤ 3 ∧ d ≤ 1 ∧ (header op addr d).length + n ≤ fifoDepth ∧ knownHeader (header op addr d) = true := by
  unfold frameOk
  by_cases h1 : 3 < addr.length
  · simp [h1]
  by_cases h2 : 1 < d
  · simp [h1, h2]
  by_cases h3 : fifoDepth < (header op addr d).length + n
  · simp [h1, h2, h3]
  cases h4 : knownHeader (header op addr d)
  · simp [h1, h2, h3]
  · simp [h1, h2, h3]; omega

/-- The counters an exchange leaves (42_protocol_engine.md R236). -/
def countersSet (v : Variant) (total hdrLen : Nat) (r : RegBlock) : RegBlock :=
  match v with
  | .genA => { r with burstCnt := BitVec.ofNat 24 total, xferCnt := BitVec.ofNat 24 hdrLen }
  | .genB => { r with burstCnt := BitVec.ofNat 24 total, xferCnt := BitVec.ofNat 24 hdrLen, bcc := BitVec.ofNat 24 hdrLen }

/-- The stored other bits after the write that starts a burst: the named bits are cleared from them. -/
def startWritten (v : Variant) (r : RegBlock) : RegBlock :=
  match v with
  | .genA => { r with ctlOther := r.ctlOther &&& ~~~ctlNamed }
  | .genB => { r with tcrOther := r.tcrOther &&& ~~~tcrNamed }

theorem setWidth_ofNat {k : Nat} (h : k ≤ fifoDepth) : (BitVec.ofNat 32 k).setWidth 24 = BitVec.ofNat 24 k := by
  apply BitVec.eq_of_toNat_eq
  have : k ≤ 64 := h
  simp

theorem counterWritable_ok {s : State} {k : Nat} (hb : s.eng.busy = false) (h : k ≤ fifoDepth) :
    counterWritable (BitVec.ofNat 32 k) s = .ok () := by
  have hk : k ≤ 64 := h
  have : ¬ (2 ^ 24 ≤ (BitVec.ofNat 32 k).toNat) := by simp; omega
  simp only [counterWritable, hb, refuseIf_false, res_bind_ok, this, decide_false]

/-- An access through an open gate is its effect (40_registers.md R178). -/
theorem gated_of_open {α : Type} {s : State} (h : GateOpen s) (act : State → Res α) : gated act s = act s := by
  simp only [gated, accessGate_of_open h, res_bind_ok]

/-- A register access inside a call, through an open gate and with the Engine idle: its effect, at the state the turns
before it leave. -/
theorem hostStep_gated {s : State} (hg : GateOpen s) (hs : Still s) :
    ∃ f, Reaches s.env s.flash f s.env.sched.tail ∧
      ∀ {α : Type} (act : State → Res α), hostStep (gated act) s = act (moved s f s.env.sched.tail) := by
  obtain ⟨f, h, e⟩ := hostStep_still hs
  exact ⟨f, h, fun act => by rw [e, gated_of_open (by exact hg)]⟩

theorem writeBurstCnt_ok {s : State} {k : Nat} (hb : s.eng.busy = false) (h : k ≤ fifoDepth) :
    writeBurstCnt (BitVec.ofNat 32 k) s = .ok { s with regs := { s.regs with burstCnt := BitVec.ofNat 24 k } } := by
  simp only [writeBurstCnt, counterWritable_ok hb h, res_bind_ok, res_pure, setWidth_ofNat h]

theorem writeXferCnt_ok {s : State} {k : Nat} (hb : s.eng.busy = false) (h : k ≤ fifoDepth) :
    writeXferCnt (BitVec.ofNat 32 k) s = .ok { s with regs := { s.regs with xferCnt := BitVec.ofNat 24 k } } := by
  simp only [writeXferCnt, counterWritable_ok hb h, res_bind_ok, res_pure, setWidth_ofNat h]

theorem writeBcc_ok {s : State} {k : Nat} (hb : s.eng.busy = false) (h : k ≤ fifoDepth) :
    writeBcc (BitVec.ofNat 32 k) s = .ok { s with regs := { s.regs with bcc := BitVec.ofNat 24 k } } := by
  simp only [writeBcc, counterWritable_ok hb h, res_bind_ok, res_pure, setWidth_ofNat h]

/-- The counter writes of an exchange, from an idle controller, with the turns between them. -/
theorem programCounters_spec {s : State} {total hdrLen : Nat} (hg : GateOpen s) (hs : Still s) (ht : total ≤ fifoDepth)
    (hh : hdrLen ≤ fifoDepth) :
    ∃ f l, Reaches s.env s.flash f l ∧ programCounters total hdrLen s =
      .ok { moved s f l with regs := countersSet s.cfg.variant total hdrLen s.regs } := by
  obtain ⟨f1, h1, e1⟩ := hostStep_gated hg hs
  set s1 : State := { moved s f1 s.env.sched.tail with regs := { s.regs with burstCnt := BitVec.ofNat 24 total } } with hs1
  have w1 : hostStep (gated (writeBurstCnt (BitVec.ofNat 32 total))) s = .ok s1 := by
    rw [e1, writeBurstCnt_ok (by exact hs.1) ht]; rfl
  obtain ⟨f2, h2, e2⟩ := hostStep_gated (s := s1) hg hs
  set s2 : State := { moved s1 f2 s1.env.sched.tail with regs := { s1.regs with xferCnt := BitVec.ofNat 24 hdrLen } } with hs2
  have w2 : hostStep (gated (writeXferCnt (BitVec.ofNat 32 hdrLen))) s1 = .ok s2 := by
    rw [e2, writeXferCnt_ok (by exact hs.1) hh]; rfl
  have h12 := h1.trans h2
  unfold programCounters
  simp only [w1, w2, res_bind_ok]
  cases hv : s.cfg.variant with
  | genA =>
    have hv2 : s2.cfg.variant = .genA := hv
    exact ⟨f2, _, h12, by simp only [hv2]; rfl⟩
  | genB =>
    have hv2 : s2.cfg.variant = .genB := hv
    obtain ⟨f3, h3, e3⟩ := hostStep_gated (s := s2) hg hs
    exact ⟨f3, _, h12.trans h3, by simp only [hv2]; rw [e3, writeBcc_ok (by exact hs.1) hh]; rfl⟩

/-- The header pushed into the TX FIFO of an idle controller, with the turns between the pushes. -/
theorem pushAll_spec (bs : List Byte) : ∀ {s : State}, GateOpen s → Still s → s.regs.txFifo.length + bs.length ≤ fifoDepth →
    ∃ f l, Reaches s.env s.flash f l ∧
      pushAll bs s = .ok { moved s f l with regs := { s.regs with txFifo := s.regs.txFifo ++ bs } } := by
  induction bs with
  | nil => exact fun {s} _ _ _ => ⟨_, _, .refl _ _, by simp [pushAll, moved]⟩
  | cons b bs ih =>
    intro s hg hs hl
    have hl' : ¬ fifoDepth ≤ s.regs.txFifo.length := by simp at hl; omega
    obtain ⟨f1, h1, e1⟩ := hostStep_gated hg hs
    set s1 : State := { moved s f1 s.env.sched.tail with regs := { s.regs with txFifo := s.regs.txFifo ++ [b] } } with hs1
    have w1 : hostStep (gated (pushTx b)) s = .ok s1 := by
      rw [e1]
      simp [pushTx, hs.1, hl', hs1]
    obtain ⟨f2, l2, h2, e2⟩ := ih (s := s1) hg hs (by simp [hs1] at hl ⊢; omega)
    refine ⟨f2, l2, h1.trans h2, ?_⟩
    simp only [pushAll, w1, res_bind_ok, e2]
    simp [hs1, moved]

/-- Bytes popped from the RX FIFO of an idle controller, with the turns between the pops. -/
theorem popAll_spec (n : Nat) : ∀ {s : State} {out rest : List Byte}, GateOpen s → Still s → s.regs.rxFifo = out ++ rest →
    out.length = n → ∃ f l, Reaches s.env s.flash f l ∧
      popAll n s = .ok (out, { moved s f l with regs := { s.regs with rxFifo := rest } }) := by
  induction n with
  | zero =>
    intro s out rest _ _ hr hl
    obtain rfl := List.length_eq_zero_iff.1 hl
    simp only [List.nil_append] at hr
    exact ⟨_, _, .refl _ _, by simp [popAll, moved, ← hr]⟩
  | succ n ih =>
    intro s out rest hg hs hr hl
    obtain ⟨b, out, rfl⟩ := List.exists_cons_of_length_eq_add_one hl
    obtain ⟨f1, h1, e1⟩ := hostStep_gated hg hs
    set s1 : State := { moved s f1 s.env.sched.tail with regs := { s.regs with rxFifo := out ++ rest } } with hs1
    have w1 : hostStep (gated popRx) s = .ok (b, s1) := by
      rw [e1]
      simp [popRx, hr, hs1]
    obtain ⟨f2, l2, h2, e2⟩ := ih (s := s1) hg hs rfl (by simpa using hl)
    refine ⟨f2, l2, h1.trans h2, ?_⟩
    simp only [popAll, w1, res_bind_ok, e2, res_pure]
    simp [hs1, moved]

/-- A delay, with the turns before it. -/
theorem delayStep_spec {s : State} (hs : Still s) :
    ∃ f l, Reaches s.env s.flash f l ∧ delayStep s = .ok (delayOp (moved s f l)) := by
  obtain ⟨f, h, e⟩ := hostStep_still hs
  exact ⟨f, _, h, by simp only [delayStep, e]⟩

/-- A known header only reads. -/
theorem modifyingHeader_of_known (k : StorageKind) {hdr : List Byte} (h : knownHeader hdr = true) : modifyingHeader k hdr = false := by
  unfold knownHeader at h
  split at h
  · simp only [Bool.or_eq_true, Bool.and_eq_true, beq_iff_eq] at h
    rcases h with ⟨rfl, rfl⟩ | ⟨rfl, rfl⟩ <;> cases k <;> rfl
  · simp only [Bool.or_eq_true, Bool.and_eq_true, beq_iff_eq] at h
    rcases h with (rfl | rfl) | ⟨rfl, -⟩ <;> cases k <;> rfl
  · cases h

/-- A read-modify-write of `XCH_REG` with the Engine idle: the read and the write see one state, since the turns between
them leave the register block alone (20_memory.md R93). -/
theorem setXch_still {s : State} (hs : Still s) :
    ∃ f, Reaches s.env s.flash f s.env.sched.tail ∧ ∀ m, setXch m s = (do
      let v ← mmioReadXch (moved s f s.env.sched.tail)
      mmioWriteXch (v ||| m) (moved s f s.env.sched.tail)) := by
  obtain ⟨f, h, e⟩ := hostStep_still hs
  refine ⟨f, h, fun m => ?_⟩
  have hr : mmioReadXch (moved s f s.env.sched.tail) = mmioReadXch s := rfl
  simp only [setXch, hr, e]

/-- The read and the write that start a burst, from an idle controller with prepared counters and FIFOs. -/
theorem xchWrite_eq {s : State} {total hdrLen : Nat} (hg : GateOpen s) (hb : s.eng.busy = false)
    (he : s.regs.enable = true) (hm : s.regs.master = true) (hp : s.plat.pinFn = .spi0)
    (hB : s.regs.burstCnt.toNat = total) (hT : s.regs.xferCnt.toNat = hdrLen)
    (hbcc : s.cfg.variant = .genB → s.regs.bcc = s.regs.xferCnt)
    (h0 : 0 < total) (hle : hdrLen ≤ total) (hcap : total ≤ fifoDepth)
    (htx : s.regs.txFifo.length = hdrLen) (hrx : s.regs.rxFifo = []) (hk : modifyingHeader s.cfg.storageKind s.regs.txFifo = false) :
    (do
      let v ← mmioReadXch s
      mmioWriteXch (v ||| mask (xchBit s.cfg.variant)) s) = .ok
      { s with regs := startWritten s.cfg.variant s.regs
               eng := { s.eng with busy := true, cs := true, bRemain := total, tRemain := hdrLen, frame := [] } } := by
  have start : ∀ o o' : Word, startBurst
      { s with regs := { s.regs with ctlOther := o, tcrOther := o' } } = .ok
        { s with regs := { s.regs with ctlOther := o, tcrOther := o' }
                 eng := { s.eng with busy := true, cs := true, bRemain := total, tRemain := hdrLen, frame := [] } } := by
    intro o o'
    have hc3 : (s.cfg.variant == .genB && s.regs.bcc != s.regs.xferCnt) = false := by
      cases hv : s.cfg.variant
      · rfl
      · simp [hbcc hv]
    have h1 : ¬ total = 0 := by omega
    have h2 : ¬ total < hdrLen := by omega
    have h3 : ¬ fifoDepth < total := by omega
    simp only [startBurst, hk, he, hm, hp, hc3, hB, hT, htx, hrx, h1, h2, h3, Bool.and_self, Bool.not_true, refuseIf_false,
      res_bind_ok, bne_self_eq_false, decide_false, Bool.or_self, List.isEmpty_nil, res_pure]
  unfold mmioReadXch mmioWriteXch
  simp only [accessGate_of_open hg, res_bind_ok, res_pure]
  cases hv : s.cfg.variant with
  | genA =>
    simp only [xchBit]
    have hbits : ∀ i, i < 32 → (readCtl s ||| mask bitXchA).getLsbD i =
        if i = 0 then true else if i = 1 then true else if i = 8 ∨ i = 9 then false else if i = 10 then true
        else s.regs.ctlOther.getLsbD i := by
      intro i hi
      rw [getLsbD_or_mask _ _ _ hi, readCtl, getLsbD_ctlWord _ _ _ _ _ hi, he, hm, hb]
      by_cases h0 : i = 0 <;> by_cases h1 : i = 1 <;> by_cases h8 : i = 8 <;> by_cases h9 : i = 9 <;>
        by_cases h10 : i = 10 <;> simp_all [bitXchA]
    have hother : (readCtl s ||| mask bitXchA) &&& ~~~ctlNamed = s.regs.ctlOther &&& ~~~ctlNamed :=
      and_not_ctlNamed_of_bits fun i hi h0 h1 h8 h9 h10 => by rw [hbits i hi]; simp [h0, h1, h8, h9, h10]
    simp only [writeCtl, hb, Bool.false_and, refuseIf_false, res_bind_ok, hbits bitXchA (by decide), ctlWritten, hother,
      hbits bitEnable (by decide), hbits bitMaster (by decide), hbits bitTfRst (by decide), hbits bitRfRst (by decide)]
    have := start (s.regs.ctlOther &&& ~~~ctlNamed) s.regs.tcrOther
    have hre : { s.regs with enable := true, master := true, ctlOther := s.regs.ctlOther &&& ~~~ctlNamed }
        = { s.regs with ctlOther := s.regs.ctlOther &&& ~~~ctlNamed } := by
      rcases hr : s.regs with ⟨e, m, _⟩
      rw [hr] at he hm
      cases he; cases hm; rfl
    simp [bitXchA, bitEnable, bitMaster, bitTfRst, bitRfRst, startWritten, hre]
    simpa using this
  | genB =>
    simp only [xchBit]
    have hbits : ∀ i, i < 32 → (readTcr s ||| mask bitXchB).getLsbD i =
        if i = 31 then true else s.regs.tcrOther.getLsbD i := by
      intro i hi
      rw [getLsbD_or_mask _ _ _ hi, readTcr, getLsbD_tcrWord _ _ _ hi, hb]
      by_cases h31 : i = 31 <;> simp [h31, bitXchB]
    have hother : (readTcr s ||| mask bitXchB) &&& ~~~tcrNamed = s.regs.tcrOther &&& ~~~tcrNamed :=
      and_not_tcrNamed_of_bits fun i hi h31 => by rw [hbits i hi]; simp [h31]
    have hx : (readTcr s ||| mask bitXchB).getLsbD bitXchB = true := by rw [hbits bitXchB (by decide)]; simp [bitXchB]
    simp only [writeTcr, hb, refuseIf_false, res_bind_ok, hx, if_true, hother]
    simpa [startWritten] using start s.regs.ctlOther (s.regs.tcrOther &&& ~~~tcrNamed)

/-- The state in which the burst of an exchange starts. -/
def burstStarted (hdr : List Byte) (n : Nat) (s : State) : State :=
  { s with
    regs := { startWritten s.cfg.variant (countersSet s.cfg.variant (hdr.length + n) hdr.length s.regs) with txFifo := hdr }
    eng := { s.eng with busy := true, cs := true, bRemain := hdr.length + n, tRemain := hdr.length, frame := [] } }

/-- **A ready controller programs, fills and starts a burst** whose header is one of the five formats, whatever turns come
between its accesses. -/
theorem start_spec {s : State} {hdr : List Byte} {n : Nat} (hr : Ready s) (h0 : 0 < hdr.length)
    (hcap : hdr.length + n ≤ fifoDepth) (hk : knownHeader hdr = true) :
    ∃ f l, Reaches s.env s.flash f l ∧ (do
      let s ← programCounters (hdr.length + n) hdr.length s
      let s ← pushAll hdr s
      hostStep (setXch (mask (xchBit s.cfg.variant))) s) = .ok (burstStarted hdr n (moved s f l)) := by
  obtain ⟨-, hc, hp, he, hm, ⟨hb, -, -, -, hsr⟩, htx, hrx⟩ := hr
  have h64 : hdr.length + n ≤ 64 := hcap
  obtain ⟨f1, l1, r1, e1⟩ := programCounters_spec (s := s) ⟨hc, fun _ => hsr⟩ ⟨hb, hsr⟩ hcap (show hdr.length ≤ fifoDepth by omega)
  set s1 : State := { moved s f1 l1 with regs := countersSet s.cfg.variant (hdr.length + n) hdr.length s.regs } with hs1
  have htx1 : s1.regs.txFifo = [] := by rw [hs1]; cases s.cfg.variant <;> exact htx
  have hrx1 : s1.regs.rxFifo = [] := by rw [hs1]; cases s.cfg.variant <;> exact hrx
  obtain ⟨f2, l2, r2, e2⟩ := pushAll_spec hdr (s := s1) ⟨hc, fun _ => hsr⟩ ⟨hb, hsr⟩ (by simp only [htx1, List.length_nil]; omega)
  set s2 : State := { moved s1 f2 l2 with regs := { s1.regs with txFifo := s1.regs.txFifo ++ hdr } } with hs2
  have htx2 : s2.regs.txFifo = hdr := by rw [hs2]; simp only [htx1, List.nil_append]
  obtain ⟨f3, r3, e3⟩ := hostStep_still (s := s2) ⟨hb, hsr⟩
  obtain ⟨f4, r4, e4⟩ := setXch_still (s := moved s2 f3 s2.env.sched.tail) ⟨hb, hsr⟩
  refine ⟨f4, _, ((r1.trans r2).trans r3).trans r4, ?_⟩
  simp only [e1, res_bind_ok, e2, e3, e4]
  refine (xchWrite_eq (s := moved (moved s2 f3 s2.env.sched.tail) f4 (moved s2 f3 s2.env.sched.tail).env.sched.tail)
    (total := hdr.length + n) (hdrLen := hdr.length) ⟨hc, fun _ => hsr⟩ hb ?_ ?_ hp ?_ ?_ ?_ (by omega) (by omega) hcap ?_ ?_ ?_).trans ?_
  · show s1.regs.enable = true; rw [hs1]; cases s.cfg.variant <;> exact he
  · show s1.regs.master = true; rw [hs1]; cases s.cfg.variant <;> exact hm
  · show s1.regs.burstCnt.toNat = _; rw [hs1]; cases s.cfg.variant <;> simp [countersSet] <;> omega
  · show s1.regs.xferCnt.toNat = _; rw [hs1]; cases s.cfg.variant <;> simp [countersSet] <;> omega
  · intro hv
    replace hv : s.cfg.variant = .genB := hv
    show s1.regs.bcc = s1.regs.xferCnt
    rw [hs1]; simp [hv, countersSet]
  · show s2.regs.txFifo.length = _; rw [htx2]
  · exact hrx1
  · show modifyingHeader _ s2.regs.txFifo = false
    rw [htx2]; exact modifyingHeader_of_known _ hk
  · have hv2 : s2.cfg.variant = s.cfg.variant := rfl
    cases hv : s.cfg.variant <;> simp [burstStarted, startWritten, countersSet, hv, hs1, hs2, htx, moved]

/-- The relation of a burst holds where it starts. -/
theorem inBurst_start {s : State} {hdr : List Byte} {n : Nat} {P : FlashDevice → Prop} {A : FlashDevice → Nat → Byte → Prop}
    (hr : Ready s) (h0 : 0 < hdr.length) (hP : P s.flash) :
    InBurst (burstStarted hdr n s) hdr n P A (burstStarted hdr n s) := by
  obtain ⟨-, hc, hp, he, hm, ⟨hb, -, -, -, hsr⟩, htx, hrx⟩ := hr
  have hrx' : (burstStarted hdr n s).regs.rxFifo = [] := by
    cases hv : s.cfg.variant <;> simp [burstStarted, startWritten, countersSet, hv, hrx]
  have h1 : 0 < hdr.length + n := by omega
  refine ⟨rfl, rfl, rfl, rfl, rfl, rfl, rfl, rfl, List.suffix_refl _, ?_, ?_, ?_, ?_, ?_, ?_, ?_, ?_, hsr, _, hP, ?_, ?_, ?_⟩
  · simp [burstStarted]
  · rw [hrx']; rfl
  · simp [burstStarted]
  · simp [burstStarted]
  · simp [burstStarted]
  · simp [burstStarted]
  · simp [burstStarted]; omega
  · simp [burstStarted]; omega
  · intro i hi; rw [hrx'] at hi; simp at hi
  · intro _; exact ⟨rfl, rfl⟩
  · intro h; have h2 : 0 = hdr.length + n := h; omega

/-- What an exchange that returned the payload `out` leaves of a state (42_protocol_engine.md R236). -/
structure AfterExchange (hdr : List Byte) (n : Nat) (P : FlashDevice → Prop) (A : FlashDevice → Nat → Byte → Prop)
    (out : List Byte) (s t : State) : Prop where
  host : SameHost s t
  result : t.result = s.result
  regs : t.regs = startWritten s.cfg.variant (countersSet s.cfg.variant (hdr.length + n) hdr.length s.regs)
  idle : EngineIdle t
  sched : t.env.sched <:+ s.env.sched.tail
  outLen : out.length = n
  wire : ∃ pay f, pay.length = n ∧ P f ∧ (∀ i (h : i < out.length), A f i out[i]) ∧ t.eng.frame = hdr ++ pay
    ∧ FlashAfter (FlashMoves s.env) (flashEndFrame s.cfg.storageKind f (hdr ++ pay)) t.flash
    ∧ t.trace = s.trace ++ [.frame (hdr ++ pay), .delay s.cfg.delayNs s.cfg.delayGranularity]

/-- A ready controller stays ready over an exchange. -/
theorem AfterExchange.ready {hdr out : List Byte} {n : Nat} {P : FlashDevice → Prop} {A : FlashDevice → Nat → Byte → Prop}
    {s t : State} (h : AfterExchange hdr n P A out s t)
    (hr : Ready s) : Ready t := by
  obtain ⟨hh, hc, hp, he, hm, -, htx, hrx⟩ := hr
  obtain ⟨-, hpl, hsq, -⟩ := h.host
  refine ⟨by rw [hsq, hh], by rw [hpl, hc], by rw [hpl, hp], ?_, ?_, h.idle, ?_, ?_⟩ <;>
    (rw [h.regs]; cases s.cfg.variant <;> simpa [startWritten, countersSet])

/-- The parts of an exchange from a ready controller: the start of the burst at the state its turns lead to, the two
waits, the pops and the delay (42_protocol_engine.md R232). -/
theorem exchangeOp_parts {s : State} {op : Byte} {addr : List Byte} {d n : Nat} (hr : Ready s) (hf : frameOk op addr d n = .ok ()) :
    ∃ f l, Reaches s.env s.flash f l ∧ exchangeOp op addr d n s = (do
      let t ← awaitBurst ((header op addr d).length + n) (burstStarted (header op addr d) n (moved s f l))
      let (_, t) ← popAll (header op addr d).length t
      let (out, t) ← popAll n t
      let t ← delayStep t
      pure (out, t)) := by
  obtain ⟨-, -, hcap, hk⟩ := frameOk_eq_ok.1 hf
  obtain ⟨f, l, r, e⟩ := start_spec (n := n) hr (show 0 < (header op addr d).length by simp [header]) hcap hk
  refine ⟨f, l, r, ?_⟩
  unfold exchangeOp
  simp only [hr.1, Bool.not_true, refuseIf_false, res_bind_ok, hf]
  have assoc : ∀ (k : State → Res (List Byte × State)), (do
      let s ← programCounters ((header op addr d).length + n) (header op addr d).length s
      let s ← pushAll (header op addr d) s
      let s ← hostStep (setXch (mask (xchBit s.cfg.variant))) s
      k s) = (do
        let s ← programCounters ((header op addr d).length + n) (header op addr d).length s
        let s ← pushAll (header op addr d) s
        hostStep (setXch (mask (xchBit s.cfg.variant))) s) >>= k := by intro k; simp only [bind_assoc]
  rw [assoc, e, res_bind_ok]

/-- The end of an exchange, once the whole burst has been received: the echo and the payload popped, and the delay. -/
theorem collect_spec {s : State} {h n : Nat} (hg : GateOpen s) (hs : Still s) (hrx : s.regs.rxFifo.length = h + n) :
    ∃ f l, Reaches s.env s.flash f l ∧ (do
      let (_, t) ← popAll h s
      let (out, t) ← popAll n t
      let t ← delayStep t
      pure (out, t)) =
      (.ok (s.regs.rxFifo.drop h, delayOp { moved s f l with regs := { s.regs with rxFifo := [] } }) : Res (List Byte × State)) := by
  have hsplit : s.regs.rxFifo = s.regs.rxFifo.take h ++ s.regs.rxFifo.drop h := (List.take_append_drop _ _).symm
  obtain ⟨f1, l1, r1, e1⟩ := popAll_spec h hg hs hsplit (by simp [hrx])
  set s1 : State := { moved s f1 l1 with regs := { s.regs with rxFifo := s.regs.rxFifo.drop h } } with hs1
  obtain ⟨f2, l2, r2, e2⟩ := popAll_spec n (s := s1) (out := s.regs.rxFifo.drop h) (rest := []) hg hs (by simp [hs1]) (by simp [hrx])
  set s2 : State := { moved s1 f2 l2 with regs := { s1.regs with rxFifo := [] } } with hs2
  obtain ⟨f3, l3, r3, e3⟩ := delayStep_spec (s := s2) hs
  exact ⟨f3, l3, (r1.trans r2).trans r3, by simp only [e1, res_bind_ok, e2, e3, res_pure]; rfl⟩

/-- **An exchange completes** from a ready controller under HW_PROGRESS, whatever the turns to come:
it returns `n` payload bytes, each as the device answered it, and leaves the controller idle with empty
FIFOs (42_protocol_engine.md R232, R234, R236). -/
theorem exchange_spec {s : State} {op : Byte} {addr : List Byte} {d n : Nat} {P : FlashDevice → Prop} {A : FlashDevice → Nat → Byte → Prop}
    (hr : Ready s) (hw : s.env.hwProgress = true) (hf : frameOk op addr d n = .ok ())
    (hP : P s.flash) (hturn : FlashMoves s.env → ∀ f, P f → f.nandBusy = true → P (flashLoad f) ∧ ∀ i b, A f i b → A (flashLoad f) i b)
    (hans : ∀ f pay dr, P f → pay.length < n →
      A f pay.length (flashRespond s.cfg.storageKind s.cfg.nandPageSize f (header op addr d ++ pay) dr)) :
    ∃ out t, exchangeOp op addr d n s = .ok (out, t) ∧ AfterExchange (header op addr d) n P A out s t := by
  obtain ⟨-, -, hcap, -⟩ := frameOk_eq_ok.1 hf
  have h0 : 0 < (header op addr d).length := by simp [header]
  obtain ⟨f0, l0, r0, e0⟩ := exchangeOp_parts hr hf
  set hdr := header op addr d with hdr_def
  have hr0 : Ready (moved s f0 l0) := hr
  have hP0 : P f0 := by
    rcases r0.flash with h | ⟨hm, hb, h⟩
    · rw [h]; exact hP
    · rw [h]; exact (hturn hm _ hP hb).1
  have hin : InBurst (burstStarted hdr n (moved s f0 l0)) hdr n P A (burstStarted hdr n (moved s f0 l0)) := inBurst_start hr0 h0 hP0
  have hmv : FlashMoves (burstStarted hdr n (moved s f0 l0)).env → FlashMoves s.env := .of_suffix r0.sched
  have hA : Answers (burstStarted hdr n (moved s f0 l0)) hdr n P A := ⟨fun hm => hturn (hmv hm), hans⟩
  obtain ⟨t, ht, hi, hlen, hsuf⟩ := hin.awaitBurst hA hcap hw hr.2.1
  have hg : GateOpen t := InBurst.gateOpen (s0 := burstStarted hdr n (moved s f0 l0)) hr.2.1 hi
  have hst : Still t := ⟨by rw [hi.busy, hlen]; simp, hi.srst⟩
  have hrxl : t.regs.rxFifo.length = hdr.length + n := by rw [hi.rxLen, hlen]
  obtain ⟨f1, l1, r1, e1⟩ := collect_spec hg hst hrxl
  obtain ⟨f, hPf, hval, -, hend⟩ := hi.dev
  obtain ⟨hfa, htr⟩ := hend hlen
  have hmt : FlashMoves t.env → FlashMoves s.env := by
    rintro (h | ⟨ts, hts, h⟩)
    · exact .inl (by rw [← h, hi.fl]; rfl)
    · exact .inr ⟨ts, r0.sched.subset (hi.sched.subset hts), h⟩
  have hfr : t.eng.frame = hdr ++ t.eng.frame.drop hdr.length := by
    conv_lhs => rw [← List.take_append_drop hdr.length t.eng.frame]
    rw [hi.frame, hlen, List.take_of_length_le (by omega)]
  refine ⟨t.regs.rxFifo.drop hdr.length, delayOp { moved t f1 l1 with regs := { t.regs with rxFifo := [] } }, ?_, ?_⟩
  · rw [e0, ht, res_bind_ok]; exact e1
  · refine ⟨⟨hi.cfg, hi.plat, hi.seq, hi.hostMem, hi.program, hi.hw, hi.fl⟩, hi.result, ?_, ?_, ?_, by simp [hrxl], ?_⟩
    · simp only [delayOp, log_regs]
      rw [hi.regs, hlen]
      rw [show List.drop (hdr.length + n) hdr = [] from List.drop_of_length_le (by omega)]
      obtain ⟨-, -, -, -, -, -, htx, hrx⟩ := hr
      cases hv : s.cfg.variant <;> simp [burstStarted, startWritten, countersSet, hv, htx, hrx]
    · refine ⟨?_, ?_, ?_, ?_, hi.srst⟩
      · simp only [delayOp, log_eng, moved_eng]; rw [hi.busy, hlen]; simp
      · simp only [delayOp, log_eng, moved_eng]; rw [hi.bRemain, hlen]; simp
      · simp only [delayOp, log_eng, moved_eng]; rw [hi.tRemain, hlen]; omega
      · simp only [delayOp, log_eng, moved_eng]; rw [hi.cs, hlen]; simp
    · exact (r1.sched.trans hsuf).trans (tail_suffix_tail r0.sched)
    · refine ⟨t.eng.frame.drop hdr.length, f, by simp [hlen], hPf, ?_, hfr, ?_, ?_⟩
      · intro i h
        simp only [List.getElem_drop]
        exact hval i (by simp at h; omega)
      · rw [← hfr]; exact (hfa.mono hmv).trans (r1.flash.mono hmt)
      · rw [← hfr]
        have hcfg : t.cfg = s.cfg := hi.cfg
        simp only [delayOp, log_trace, moved_trace, moved_cfg, htr, hcfg, List.append_assoc]
        rfl

end Sys2Proof.Machine
end

