-- ==== Sys2Proof/Laws/Transport.lean ====
section
/-! SUPPORT. What the Transport's operations leave: the soft-reset wait, `init` and `deinit` (41_transport.md R201 to R205, 70_reset_and_hazards.md R402, R403). -/

namespace Sys2Proof.Machine

/-! ### Control writes of named bits -/

/-- A read-modify-write of `CTRL_EN` with the Engine idle: the read and the write see one state, since the turns between
them leave the register block alone (20_memory.md R93). -/
theorem setCtrl_still {s : State} (hs : Still s) :
    ∃ f, Reaches s.env s.flash f s.env.sched.tail ∧ ∀ m, setCtrl m s = (do
      let v ← mmioReadCtrl (moved s f s.env.sched.tail)
      mmioWriteCtrl (v ||| m) (moved s f s.env.sched.tail)) := by
  obtain ⟨f, h, e⟩ := hostStep_still hs
  refine ⟨f, h, fun m => ?_⟩
  have hr : mmioReadCtrl (moved s f s.env.sched.tail) = mmioReadCtrl s := rfl
  simp only [setCtrl, hr, e]

theorem clearCtrl_still {s : State} (hs : Still s) :
    ∃ f, Reaches s.env s.flash f s.env.sched.tail ∧ ∀ m, clearCtrl m s = (do
      let v ← mmioReadCtrl (moved s f s.env.sched.tail)
      mmioWriteCtrl (v &&& ~~~m) (moved s f s.env.sched.tail)) := by
  obtain ⟨f, h, e⟩ := hostStep_still hs
  refine ⟨f, h, fun m => ?_⟩
  have hr : mmioReadCtrl (moved s f s.env.sched.tail) = mmioReadCtrl s := rfl
  simp only [clearCtrl, hr, e]

/-- GenA: ENABLE, MASTER and both FIFO resets set in an idle controller (41_transport.md R201). -/
theorem enableWrite_genA {s : State} (hg : GateOpen s) (hv : s.cfg.variant = .genA) (hb : s.eng.busy = false) :
    (do let v ← mmioReadCtrl s; mmioWriteCtrl (v ||| enableBits .genA) s) = .ok { s with regs :=
      { s.regs with enable := true, master := true, ctlOther := s.regs.ctlOther &&& ~~~ctlNamed, txFifo := [], rxFifo := [] } } := by
  have hbits : ∀ i, i < 32 → (readCtl s ||| enableBits .genA).getLsbD i =
      if i = 0 ∨ i = 1 ∨ i = 8 ∨ i = 9 then true else if i = 10 then false else s.regs.ctlOther.getLsbD i := by
    intro i hi
    simp only [enableBits, BitVec.getLsbD_or, readCtl, getLsbD_ctlWord _ _ _ _ _ hi, getLsbD_mask _ _ hi, bitEnable, bitMaster,
      bitTfRst, bitRfRst, hb]
    by_cases h0 : i = 0 <;> by_cases h1 : i = 1 <;> by_cases h8 : i = 8 <;> by_cases h9 : i = 9 <;>
      by_cases h10 : i = 10 <;> simp_all
  have hother : (readCtl s ||| enableBits .genA) &&& ~~~ctlNamed = s.regs.ctlOther &&& ~~~ctlNamed :=
    and_not_ctlNamed_of_bits fun i hi h0 h1 h8 h9 h10 => by rw [hbits i hi]; simp [h0, h1, h8, h9, h10]
  simp only [mmioReadCtrl, mmioWriteCtrl, accessGate_of_open hg, res_bind_ok, res_pure, hv, writeCtl, hb, Bool.false_and,
    refuseIf_false, ctlWritten, hother, hbits bitXchA (by decide), hbits bitEnable (by decide), hbits bitMaster (by decide),
    hbits bitTfRst (by decide), hbits bitRfRst (by decide)]
  simp [bitXchA, bitEnable, bitMaster, bitTfRst, bitRfRst]

/-- GenB: ENABLE and MASTER set in an idle controller whose soft reset has completed. -/
theorem enableWrite_genB {s : State} (hc : s.plat.clkOn = true) (hr : s.eng.srstBusy = false) (hv : s.cfg.variant = .genB)
    (hb : s.eng.busy = false) :
    (do let v ← mmioReadCtrl s; mmioWriteCtrl (v ||| enableBits .genB) s) = .ok { s with regs :=
      { s.regs with enable := true, master := true, gcrOther := s.regs.gcrOther &&& ~~~gcrNamed } } := by
  have hbits : ∀ i, i < 32 → (readGcr s ||| enableBits .genB).getLsbD i =
      if i = 0 ∨ i = 1 then true else if i = 31 then false else s.regs.gcrOther.getLsbD i := by
    intro i hi
    simp only [enableBits, BitVec.getLsbD_or, readGcr, getLsbD_gcrWord _ _ _ _ _ hi, getLsbD_mask _ _ hi, bitEnable, bitMaster, hr]
    by_cases h0 : i = 0 <;> by_cases h1 : i = 1 <;> by_cases h31 : i = 31 <;> simp_all
  have hother : (readGcr s ||| enableBits .genB) &&& ~~~gcrNamed = s.regs.gcrOther &&& ~~~gcrNamed :=
    and_not_gcrNamed_of_bits fun i hi h0 h1 h31 => by rw [hbits i hi]; simp [h0, h1, h31]
  have hg : GateOpen s := ⟨hc, fun _ => hr⟩
  simp only [mmioReadCtrl, mmioWriteCtrl, accessGate_of_open hg, res_bind_ok, res_pure, hv, writeGcr, hb, refuseIf_false,
    hother, hbits bitSrst (by decide), hbits bitEnable (by decide), hbits bitMaster (by decide)]
  simp [bitSrst, bitEnable, bitMaster]

/-- GenB: SRST set in an idle controller starts the soft reset (40_registers.md R161). -/
theorem srstWrite_eq {s : State} (hc : s.plat.clkOn = true) (hr : s.eng.srstBusy = false) (hv : s.cfg.variant = .genB)
    (hb : s.eng.busy = false) :
    (do let v ← mmioReadCtrl s; mmioWriteCtrl (v ||| mask bitSrst) s) = .ok (softReset s) := by
  have hg : GateOpen s := ⟨hc, fun _ => hr⟩
  have hx : (readGcr s ||| mask bitSrst).getLsbD bitSrst = true := by
    rw [getLsbD_or_mask _ _ _ (by decide)]; simp
  simp only [mmioReadCtrl, mmioWriteCtrl, accessGate_of_open hg, res_bind_ok, res_pure, hv, writeGcr, hb, refuseIf_false,
    hx, if_true]

/-- ENABLE and MASTER cleared in an idle controller (41_transport.md R202). -/
def disabledRegs (v : Variant) (r : RegBlock) : RegBlock :=
  match v with
  | .genA => { r with enable := false, master := false, ctlOther := r.ctlOther &&& ~~~ctlNamed }
  | .genB => { r with enable := false, master := false, gcrOther := r.gcrOther &&& ~~~gcrNamed }

theorem disableWrite_eq {s : State} (hc : s.plat.clkOn = true) (hr : s.eng.srstBusy = false) (hb : s.eng.busy = false) :
    (do let v ← mmioReadCtrl s; mmioWriteCtrl (v &&& ~~~(mask bitEnable ||| mask bitMaster)) s) = .ok { s with regs := disabledRegs s.cfg.variant s.regs } := by
  have hg : GateOpen s := ⟨hc, fun _ => hr⟩
  cases hv : s.cfg.variant with
  | genA =>
    have hbits : ∀ i, i < 32 → (readCtl s &&& ~~~(mask bitEnable ||| mask bitMaster)).getLsbD i =
        if i = 0 ∨ i = 1 ∨ i = 8 ∨ i = 9 ∨ i = 10 then false else s.regs.ctlOther.getLsbD i := by
      intro i hi
      simp only [BitVec.getLsbD_and, BitVec.getLsbD_not, BitVec.getLsbD_or, readCtl, getLsbD_ctlWord _ _ _ _ _ hi,
        getLsbD_mask _ _ hi, bitEnable, bitMaster, hb, hi]
      by_cases h0 : i = 0 <;> by_cases h1 : i = 1 <;> by_cases h8 : i = 8 <;> by_cases h9 : i = 9 <;>
        by_cases h10 : i = 10 <;> simp_all
    have hother : (readCtl s &&& ~~~(mask bitEnable ||| mask bitMaster)) &&& ~~~ctlNamed = s.regs.ctlOther &&& ~~~ctlNamed :=
      and_not_ctlNamed_of_bits fun i hi h0 h1 h8 h9 h10 => by rw [hbits i hi]; simp [h0, h1, h8, h9, h10]
    simp only [mmioReadCtrl, mmioWriteCtrl, accessGate_of_open hg, res_bind_ok, res_pure, hv, writeCtl, hb,
      Bool.false_and, refuseIf_false, ctlWritten, hother, hbits bitXchA (by decide), hbits bitEnable (by decide),
      hbits bitMaster (by decide), hbits bitTfRst (by decide), hbits bitRfRst (by decide)]
    simp [bitXchA, bitEnable, bitMaster, bitTfRst, bitRfRst, disabledRegs]
  | genB =>
    have hbits : ∀ i, i < 32 → (readGcr s &&& ~~~(mask bitEnable ||| mask bitMaster)).getLsbD i =
        if i = 0 ∨ i = 1 ∨ i = 31 then false else s.regs.gcrOther.getLsbD i := by
      intro i hi
      simp only [BitVec.getLsbD_and, BitVec.getLsbD_not, BitVec.getLsbD_or, readGcr, getLsbD_gcrWord _ _ _ _ _ hi,
        getLsbD_mask _ _ hi, bitEnable, bitMaster, hr, hi]
      by_cases h0 : i = 0 <;> by_cases h1 : i = 1 <;> by_cases h31 : i = 31 <;> simp_all
    have hother : (readGcr s &&& ~~~(mask bitEnable ||| mask bitMaster)) &&& ~~~gcrNamed = s.regs.gcrOther &&& ~~~gcrNamed :=
      and_not_gcrNamed_of_bits fun i hi h0 h1 h31 => by rw [hbits i hi]; simp [h0, h1, h31]
    simp only [mmioReadCtrl, mmioWriteCtrl, accessGate_of_open hg, res_bind_ok, res_pure, hv, writeGcr, hb, refuseIf_false,
      hother, hbits bitSrst (by decide), hbits bitEnable (by decide), hbits bitMaster (by decide)]
    simp [bitSrst, bitEnable, bitMaster, disabledRegs]

/-! ### The soft-reset wait -/

/-- `s` is a state of the soft reset that started in `s0`. -/
structure InReset (s0 s : State) : Prop where
  cfg : s.cfg = s0.cfg
  plat : s.plat = s0.plat
  seq : s.seq = s0.seq
  hostMem : s.hostMem = s0.hostMem
  program : s.program = s0.program
  result : s.result = s0.result
  trace : s.trace = s0.trace
  regs : s.regs = s0.regs
  draws : s.draws = s0.draws
  eng : s.eng = { s0.eng with srstBusy := s.eng.srstBusy }
  flash : FlashAfter True s0.flash s.flash
  hw : s.env.hwProgress = s0.env.hwProgress
  fl : s.env.flashProgress = s0.env.flashProgress
  sched : s.env.sched <:+ s0.env.sched

theorem InReset.refl (s : State) : InReset s s :=
  ⟨rfl, rfl, rfl, rfl, rfl, rfl, rfl, rfl, rfl, rfl, .inl rfl, rfl, rfl, List.suffix_refl _⟩

variable {s0 s : State}

theorem InReset.of_env (h : InReset s0 s) {e : Environment} (hs : e.sched <:+ s.env.sched)
    (hw : e.hwProgress = s.env.hwProgress) (hf : e.flashProgress = s.env.flashProgress) : InReset s0 { s with env := e } :=
  { h with hw := hw.trans h.hw, fl := hf.trans h.fl, sched := hs.trans h.sched }

theorem InReset.flashTurn (h : InReset s0 s) : InReset s0 (flashTurn s) := by
  unfold Machine.flashTurn
  split
  · rename_i hb; exact { h with flash := h.flash.load trivial hb }
  · exact h

/-- An Engine turn completes the soft reset. -/
theorem InReset.engineTurn (hb : s0.eng.busy = false) (h : InReset s0 s) :
    ∃ t, engineTurn s = .ok t ∧ InReset s0 t ∧ t.eng.srstBusy = false ∧ t.env = s.env := by
  have hbusy : s.eng.busy = false := by rw [h.eng]; exact hb
  unfold Machine.engineTurn
  by_cases hs : s.eng.srstBusy = true
  · rw [if_pos hs]
    exact ⟨_, rfl, { h with eng := by rw [h.eng] }, rfl, rfl⟩
  · rw [if_neg hs]
    exact ⟨s, by simp [hbusy], h, by simpa using hs, rfl⟩

theorem flashTurn_eng (s : State) : (flashTurn s).eng = s.eng := by unfold flashTurn; split <;> rfl
theorem flashTurn_env (s : State) : (flashTurn s).env = s.env := by unfold flashTurn; split <;> rfl

theorem InReset.takeTurns (hb : s0.eng.busy = false) : ∀ (ts : List Turn) {s : State}, InReset s0 s →
    ∃ t, takeTurns ts s = .ok t ∧ InReset s0 t ∧ t.env = s.env
  | [], s, h => ⟨s, rfl, h, rfl⟩
  | .engine :: ts, s, h => by
    obtain ⟨t, ht, hi, -, he⟩ := h.engineTurn hb
    obtain ⟨u, hu, hj, he'⟩ := InReset.takeTurns hb ts hi
    exact ⟨u, by simp [Machine.takeTurns, takeTurn, ht, hu], hj, he'.trans he⟩
  | .flash :: ts, s, h => by
    obtain ⟨u, hu, hj, he'⟩ := InReset.takeTurns hb ts h.flashTurn
    exact ⟨u, by simp [Machine.takeTurns, takeTurn, hu], hj, he'.trans (flashTurn_env s)⟩

/-- The poll reads GCR.SRST, which is `srstBusy`. -/
theorem pollSrst_eq (hc : s.plat.clkOn = true) (hv : s.cfg.variant = .genB) : pollSrst s = .ok (!s.eng.srstBusy, s) := by
  have : accessGate true s = .ok () := accessGate_eq_ok.2 ⟨hc, fun _ _ => rfl⟩
  simp only [pollSrst, mmioReadCtrl, this, res_bind_ok, res_pure, hv, readGcr, getLsbD_gcrWord _ _ _ _ _ (show bitSrst < 32 by decide)]
  simp [bitSrst]

/-- After `sched` is used up, the soft-reset wait ends under HW_PROGRESS. -/
theorem InReset.waitFair (hb : s0.eng.busy = false) (hw : s0.env.hwProgress = true) (hc : s0.plat.clkOn = true)
    (hv : s0.cfg.variant = .genB) (k : Nat) (h : InReset s0 s) :
    ∃ t, waitFair pollSrst (k + 1) s = .ok t ∧ InReset s0 t ∧ t.eng.srstBusy = false := by
  have hp : ∀ u, InReset s0 u → pollSrst u = .ok (!u.eng.srstBusy, u) := fun u hu =>
    pollSrst_eq (by rw [hu.plat, hc]) (by rw [hu.cfg, hv])
  have key : ∀ u : State, InReset s0 u → u.eng.srstBusy = false → Machine.waitFair pollSrst k u = .ok u := by
    intro u hu huz
    cases k <;> simp [Machine.waitFair, hp u hu, huz]
  by_cases hs : s.eng.srstBusy = true
  · obtain ⟨t, ht, hi, hz, -⟩ := h.engineTurn hb
    have hf : InReset s0 (if t.env.flashProgress = true then Machine.flashTurn t else t) := by
      split
      · exact hi.flashTurn
      · exact hi
    have hfz : (if t.env.flashProgress = true then Machine.flashTurn t else t).eng.srstBusy = false := by
      split
      · rw [flashTurn_eng]; exact hz
      · exact hz
    refine ⟨_, ?_, hf, hfz⟩
    rw [Machine.waitFair, hp s h]
    simp only [res_bind_ok, hs, Bool.not_true, Bool.false_eq_true, if_false, fairRound, h.hw, hw, if_true, ht, res_pure]
    exact key _ hf hfz
  · have hs' : s.eng.srstBusy = false := by simpa using hs
    exact ⟨s, by simp [Machine.waitFair, hp s h, hs'], h, hs'⟩

/-- The soft-reset wait ends under HW_PROGRESS, whatever the turns to come (60_exceptions.md R362). -/
theorem InReset.waitSched (hb : s0.eng.busy = false) (hw : s0.env.hwProgress = true) (hc : s0.plat.clkOn = true)
    (hv : s0.cfg.variant = .genB) : ∀ (l : List (List Turn)) {s : State}, s.env.sched = l → InReset s0 s →
      ∃ t, waitSched pollSrst l s = .ok t ∧ InReset s0 t ∧ t.eng.srstBusy = false
  | [], s, hl, h => by
    have h' : InReset s0 { s with env := { s.env with sched := [] } } := h.of_env (List.nil_suffix) rfl rfl
    exact h'.waitFair hb hw hc hv s.eng.bRemain
  | ts :: rest, s, hl, h => by
    have h' : InReset s0 { s with env := { s.env with sched := rest } } :=
      h.of_env (by rw [hl]; exact List.suffix_cons _ _) rfl rfl
    obtain ⟨t, ht, hi, he⟩ := h'.takeTurns hb ts
    have hp := pollSrst_eq (s := t) (by rw [hi.plat, hc]) (by rw [hi.cfg, hv])
    by_cases hs : t.eng.srstBusy = true
    · obtain ⟨u, hu, hj, hz⟩ := InReset.waitSched hb hw hc hv rest (s := t) (by simp [he]) hi
      exact ⟨u, by simp [Machine.waitSched, ht, hp, hs, hu], hj, hz⟩
    · have hs' : t.eng.srstBusy = false := by simpa using hs
      exact ⟨t, by simp [Machine.waitSched, ht, hp, hs'], hi, hs'⟩

/-! ### The operations -/

/-- The state after `init` (70_reset_and_hazards.md R402), and its frame. -/
structure AfterInit (s t : State) : Prop where
  cfg : t.cfg = s.cfg
  seq : t.seq = { s.seq with handle := true }
  plat : t.plat = { clkOn := true, pinFn := .spi0 }
  enable : t.regs.enable = true
  master : t.regs.master = true
  cctl : t.regs.cctl = s.cfg.clkDiv
  fifos : FifosEmpty t
  idle : EngineIdle t
  flash : FlashAfter True s.flash t.flash
  hostMem : t.hostMem = s.hostMem
  program : t.program = s.program
  result : t.result = s.result
  trace : t.trace = s.trace ++ [.initDone]
  hw : t.env.hwProgress = s.env.hwProgress
  fl : t.env.flashProgress = s.env.flashProgress
  sched : t.env.sched <:+ s.env.sched

theorem AfterInit.ready {t : State} (h : AfterInit s t) : Ready t :=
  ⟨by rw [h.seq], by rw [h.plat], by rw [h.plat], h.enable, h.master, h.idle, h.fifos⟩

/-- The two pin codes (41_transport.md R205). -/
theorem configurePinsOp_spi0 {f : Nat} (h : f = s.cfg.pinFunctionSpi0) :
    configurePinsOp f s = .ok { s with plat := { s.plat with pinFn := .spi0 } } := if_pos h

theorem configurePinsOp_inert {f : Nat} (h : f ≠ s.cfg.pinFunctionSpi0) (k : f = s.cfg.pinFunctionInert) :
    configurePinsOp f s = .ok { s with plat := { s.plat with pinFn := .inert } } := (if_neg h).trans (if_pos k)

/-- The power-on block with the divider written: what `enableClock` leaves but for the turns before the divider's write. -/
def clockEnabled (s : State) : State :=
  { powerOnBlock s with plat := { s.plat with clkOn := true }, regs := { (powerOnBlock s).regs with cctl := s.cfg.clkDiv } }

/-- `enableClock` from a gated clock (41_transport.md R203). -/
theorem enableClockOp_spec (hc : s.plat.clkOn = false) :
    ∃ f l, Reaches s.env s.flash f l ∧ enableClockOp s = .ok (moved (clockEnabled s) f l) := by
  obtain ⟨f, h, e⟩ := hostStep_gated (s := powerOnBlock { s with plat := { s.plat with clkOn := true } }) ⟨rfl, fun _ => rfl⟩ ⟨rfl, rfl⟩
  refine ⟨f, _, h, ?_⟩
  simp only [enableClockOp, hc, refuseIf_false, res_bind_ok, e]
  rfl

/-- **`init` completes** from a gated clock with no live handle and nothing in progress; on GenB under HW_PROGRESS
(41_transport.md R201, 70_reset_and_hazards.md R402). -/
theorem init_spec (hh : s.seq.handle = false) (hc : s.plat.clkOn = false) (hs : Still s)
    (hw : s.cfg.variant = .genB → s.env.hwProgress = true) : ∃ t, initOp s = .ok t ∧ AfterInit s t := by
  have tr : ∀ {e : Environment} {f0 f : FlashDevice} {l : List (List Turn)}, Reaches e f0 f l → FlashAfter True f0 f :=
    fun h => h.flash.mono fun _ => trivial
  obtain ⟨f1, r1, e1⟩ := hostStep_still hs
  set s1 : State := { moved s f1 s.env.sched.tail with plat := { s.plat with pinFn := .spi0 } } with hs1
  have w1 : hostStep (configurePinsOp s.cfg.pinFunctionSpi0) s = .ok s1 := by
    rw [e1, configurePinsOp_spi0 (by rfl)]; rfl
  obtain ⟨f2, r2, e2⟩ := hostStep_still (s := s1) hs
  obtain ⟨f3, l3, r3, e3⟩ := enableClockOp_spec (s := moved s1 f2 s1.env.sched.tail) hc
  set c : State := moved (clockEnabled (moved s1 f2 s1.env.sched.tail)) f3 l3 with hcdef
  have r123 := (r1.trans r2).trans r3
  unfold initOp
  simp only [hh, refuseIf_false, res_bind_ok, w1, e2, e3]
  cases hv : s.cfg.variant with
  | genA =>
    have hvc : c.cfg.variant = .genA := hv
    obtain ⟨f4, r4, e4⟩ := hostStep_still (s := c) ⟨rfl, rfl⟩
    obtain ⟨f5, r5, e5⟩ := setCtrl_still (s := moved c f4 c.env.sched.tail) ⟨rfl, rfl⟩
    simp only [resetHandshake, hvc, res_bind_ok, e4, e5]
    rw [enableWrite_genA (s := moved (moved c f4 c.env.sched.tail) f5 (moved c f4 c.env.sched.tail).env.sched.tail)
      ⟨rfl, fun h => by simp [hvc] at h⟩ hvc rfl]
    have r := (r123.trans r4).trans r5
    exact ⟨_, rfl, rfl, rfl, rfl, rfl, rfl, rfl, ⟨rfl, rfl⟩, ⟨rfl, rfl, rfl, rfl, rfl⟩, tr r, rfl, rfl, rfl, rfl, rfl, rfl, r.sched⟩
  | genB =>
    have hvc : c.cfg.variant = .genB := hv
    obtain ⟨f4, r4, e4⟩ := hostStep_still (s := c) ⟨rfl, rfl⟩
    obtain ⟨f5, r5, e5⟩ := setCtrl_still (s := moved c f4 c.env.sched.tail) ⟨rfl, rfl⟩
    simp only [resetHandshake, hvc, e4, e5]
    rw [srstWrite_eq (s := moved (moved c f4 c.env.sched.tail) f5 (moved c f4 c.env.sched.tail).env.sched.tail) rfl rfl hvc rfl]
    simp only [res_bind_ok]
    have r := (r123.trans r4).trans r5
    set u : State := softReset (moved (moved c f4 c.env.sched.tail) f5 (moved c f4 c.env.sched.tail).env.sched.tail) with hu
    obtain ⟨t, ht, hi, hz⟩ := InReset.waitSched (s0 := u) rfl (hw hv) rfl hv u.env.sched (s := u) rfl (InReset.refl u)
    have hst : Still t := ⟨by rw [hi.eng, hu]; rfl, hz⟩
    obtain ⟨f6, r6, e6⟩ := hostStep_still (s := t) hst
    obtain ⟨f7, r7, e7⟩ := setCtrl_still (s := moved t f6 t.env.sched.tail) hst
    have hvu : u.cfg.variant = .genB := hv
    simp only [waitUntil, ht, res_bind_ok, e6, e7]
    rw [hi.cfg, hvu, enableWrite_genB (s := moved (moved t f6 t.env.sched.tail) f7 (moved t f6 t.env.sched.tail).env.sched.tail)
      (by show t.plat.clkOn = true; rw [hi.plat, hu]; rfl) hz (by show t.cfg.variant = _; rw [hi.cfg, hvu]) hst.1]
    simp only [res_bind_ok]
    have r' := r6.trans r7
    refine ⟨_, rfl, ?_⟩
    constructor
    · exact hi.cfg
    · simp only [log_seq, moved_seq, hi.seq]; rfl
    · simp only [log_plat, moved_plat, hi.plat]; rfl
    · rfl
    · rfl
    · simp only [log_regs, moved_regs, hi.regs]; rfl
    · exact ⟨by simp only [log_regs, moved_regs, hi.regs]; rfl, by simp only [log_regs, moved_regs, hi.regs]; rfl⟩
    · simp only [EngineIdle, log_eng, moved_eng]
      refine ⟨?_, ?_, ?_, ?_, hz⟩ <;> (rw [hi.eng]; rfl)
    · exact ((tr r).trans hi.flash).trans (tr r')
    · exact hi.hostMem
    · exact hi.program
    · exact hi.result
    · simp only [log_trace, moved_trace, hi.trace]; rfl
    · exact hi.hw
    · exact hi.fl
    · exact (r'.sched.trans hi.sched).trans r.sched

/-- The state after `deinit` (70_reset_and_hazards.md R403), but for the turns between its steps. -/
def afterDeinit (s : State) : State :=
  { s with regs := disabledRegs s.cfg.variant s.regs, plat := { clkOn := false, pinFn := .inert },
           seq := { s.seq with handle := false }, trace := s.trace ++ [.deinitDone] }

/-- `deinit` completes from an idle controller with a live handle, where the board's two pin codes
differ (41_transport.md R202). -/
theorem deinit_spec (hh : s.seq.handle = true) (hc : s.plat.clkOn = true) (hs : Still s)
    (hp : s.cfg.pinFunctionInert ≠ s.cfg.pinFunctionSpi0) :
    ∃ f l, Reaches s.env s.flash f l ∧ deinitOp s = .ok (moved (afterDeinit s) f l) := by
  obtain ⟨f1, r1, e1⟩ := hostStep_still hs
  obtain ⟨f2, r2, e2⟩ := clearCtrl_still (s := moved s f1 s.env.sched.tail) hs
  set a : State := moved (moved s f1 s.env.sched.tail) f2 (moved s f1 s.env.sched.tail).env.sched.tail with ha
  have w1 : hostStep (clearCtrl (mask bitEnable ||| mask bitMaster)) s
      = .ok { a with regs := disabledRegs s.cfg.variant s.regs } := by
    rw [e1, e2, disableWrite_eq (s := a) hc hs.2 hs.1]; rfl
  set b : State := { a with regs := disabledRegs s.cfg.variant s.regs } with hb
  obtain ⟨f3, r3, e3⟩ := hostStep_still (s := b) hs
  have w2 : hostStep disableClockOp b = .ok { moved b f3 b.env.sched.tail with plat := { s.plat with clkOn := false } } := by
    rw [e3, disableClockOp]
    have h1 : (moved b f3 b.env.sched.tail).eng.busy = false := hs.1
    have h2 : (moved b f3 b.env.sched.tail).eng.srstBusy = false := hs.2
    simp only [h1, h2, Bool.or_self, refuseIf_false, res_bind_ok, res_pure]
    rfl
  set d : State := { moved b f3 b.env.sched.tail with plat := { s.plat with clkOn := false } } with hd
  obtain ⟨f4, r4, e4⟩ := hostStep_still (s := d) hs
  refine ⟨f4, _, ((r1.trans r2).trans r3).trans r4, ?_⟩
  unfold deinitOp
  simp only [hh, Bool.not_true, refuseIf_false, res_bind_ok, w1, w2, e4]
  rw [configurePinsOp_inert (s := moved d f4 d.env.sched.tail) (by exact hp) (by rfl)]
  rfl

end Sys2Proof.Machine
end

