-- ==== Sys2Proof/Laws/Commands.lean ====
section
/-! SUPPORT. What each of the five flash commands returns and leaves, from a ready controller under HW_PROGRESS (43_flash_commands.md R260 to R276). -/

namespace Sys2Proof.Machine

/-! ### The device's images -/

/-- No turn of the device and no end of a frame changes what it holds (00_scope.md R8). -/
theorem sameImage_flashLoad (f : FlashDevice) : SameImage f (flashLoad f) := ⟨rfl, rfl, rfl⟩

theorem SameImage.refl (f : FlashDevice) : SameImage f f := ⟨rfl, rfl, rfl⟩

theorem SameImage.trans {f g h : FlashDevice} (a : SameImage f g) (b : SameImage g h) : SameImage f h :=
  ⟨b.1.trans a.1, b.2.1.trans a.2.1, b.2.2.trans a.2.2⟩

theorem FlashAfter.sameImage {m : Prop} {f g : FlashDevice} (h : FlashAfter m f g) : SameImage f g := by
  rcases h with rfl | ⟨-, -, rfl⟩
  · exact .refl _
  · exact sameImage_flashLoad f

theorem sameImage_flashEndFrame (k : StorageKind) (f : FlashDevice) (fr : List Byte) : SameImage f (flashEndFrame k f fr) := by
  unfold flashEndFrame
  split
  · split <;> exact ⟨rfl, rfl, rfl⟩
  · exact .refl _

/-- The end of any other frame than a page load changes nothing (43_flash_commands.md R276). -/
theorem flashEndFrame_of_ne (k : StorageKind) (f : FlashDevice) {op : Byte} (rest : List Byte) (h : op ≠ 0x13#8) :
    flashEndFrame k f (op :: rest) = f := by
  rcases rest with _ | ⟨a, _ | ⟨b, _ | ⟨c, r⟩⟩⟩ <;> simp [flashEndFrame, h]

/-- The end of a page-load frame notes the row (R275). -/
theorem flashEndFrame_pageLoad (f : FlashDevice) (a b c : Byte) (rest : List Byte) :
    flashEndFrame .nand f (0x13#8 :: a :: b :: c :: rest) = { f with nandBusy := true, pendingRow := a ++ b ++ c } := by
  simp [flashEndFrame]

/-! ### Wire fields -/

/-- Bytes taken out of a word and joined again are its low bits. -/
theorem toNat_wire3 (a : Word) :
    (a.extractLsb' 16 8 ++ a.extractLsb' 8 8 ++ a.extractLsb' 0 8).toNat = a.toNat % 2 ^ 24 := by
  have : a.extractLsb' 16 8 ++ a.extractLsb' 8 8 ++ a.extractLsb' 0 8 = a.setWidth 24 := by
    apply BitVec.eq_of_getLsbD_eq
    intro i hi
    simp only [BitVec.getLsbD_append, BitVec.getLsbD_extractLsb', BitVec.getLsbD_setWidth, hi, decide_true, Bool.true_and]
    by_cases h8 : i < 8
    · simp [h8]
    · by_cases h16 : i - 8 < 8
      · simp [h8, h16]; congr 1; omega
      · simp only [h8, h16, decide_false, if_false]
        rw [show 16 + (i - 8 - 8) = i by omega]
        simp; omega
  rw [this]; simp

theorem wire3_eq (a : Word) : a.extractLsb' 16 8 ++ a.extractLsb' 8 8 ++ a.extractLsb' 0 8 = a.setWidth 24 := by
  apply BitVec.eq_of_toNat_eq
  rw [toNat_wire3]; simp

theorem toNat_wire2 (c : Word) : (c.extractLsb' 8 8 ++ c.extractLsb' 0 8).toNat = c.toNat % 2 ^ 16 := by
  have : c.extractLsb' 8 8 ++ c.extractLsb' 0 8 = c.setWidth 16 := by
    apply BitVec.eq_of_getLsbD_eq
    intro i hi
    simp only [BitVec.getLsbD_append, BitVec.getLsbD_extractLsb', BitVec.getLsbD_setWidth, hi, decide_true, Bool.true_and]
    by_cases h8 : i < 8
    · simp [h8]
    · simp only [h8, decide_false, if_false]
      rw [show 8 + (i - 8) = i by omega]
      simp; omega
  rw [this]; simp

/-! ### A command -/

/-- What a completed exchange leaves of the device, for any command but a page load. -/
theorem AfterExchange.flash {op : Byte} {rest out : List Byte} {n : Nat} {A : FlashDevice → Nat → Byte → Prop} {s t : State}
    (h : AfterExchange (op :: rest) n (FlashAfter (FlashMoves s.env) s.flash) A out s t) (h13 : op ≠ 0x13#8) :
    FlashAfter (FlashMoves s.env) s.flash t.flash ∧ ∃ f, FlashAfter (FlashMoves s.env) s.flash f
      ∧ FlashAfter (FlashMoves s.env) f t.flash ∧ ∀ i (h : i < out.length), A f i out[i] := by
  obtain ⟨pay, f, -, hf, ha, -, he, -⟩ := h.wire
  rw [List.cons_append, flashEndFrame_of_ne _ _ _ h13] at he
  exact ⟨hf.trans he, f, hf, he, ha⟩

/-- Turns that can come after an exchange could come before it. -/
theorem AfterExchange.moves {hdr out : List Byte} {n : Nat} {P : FlashDevice → Prop} {A : FlashDevice → Nat → Byte → Prop}
    {s t : State} (h : AfterExchange hdr n P A out s t) (hm : FlashMoves t.env) : FlashMoves s.env := by
  rcases hm with hm | ⟨ts, hts, hf⟩
  · exact .inl (by rw [← h.host.2.2.2.2.2.2, hm])
  · exact .inr ⟨ts, List.mem_of_mem_tail ((h.sched.subset) hts), hf⟩

theorem AfterExchange.hw {hdr out : List Byte} {n : Nat} {P : FlashDevice → Prop} {A : FlashDevice → Nat → Byte → Prop}
    {s t : State} (h : AfterExchange hdr n P A out s t) : t.env.hwProgress = s.env.hwProgress := h.host.2.2.2.2.2.1

/-- A command from a ready controller, with what its answers satisfy. -/
theorem command_spec {s : State} {op : Byte} {addr : List Byte} {d n : Nat} (A : FlashDevice → Nat → Byte → Prop)
    (hr : Ready s) (hw : s.env.hwProgress = true) (hf : frameOk op addr d n = .ok ())
    (hturn : ∀ f, FlashMoves s.env → FlashAfter (FlashMoves s.env) s.flash f → f.nandBusy = true →
      ∀ i b, A f i b → A (flashLoad f) i b)
    (hans : ∀ f pay dr, FlashAfter (FlashMoves s.env) s.flash f → pay.length < n →
      A f pay.length (flashRespond s.cfg.storageKind s.cfg.nandPageSize f (header op addr d ++ pay) dr)) :
    ∃ out t, exchangeOp op addr d n s = .ok (out, t)
      ∧ AfterExchange (header op addr d) n (FlashAfter (FlashMoves s.env) s.flash) A out s t :=
  exchange_spec hr hw hf (FlashAfter.refl _ _) (fun hm f hfa hb => ⟨hfa.load hm hb, hturn f hm hfa hb⟩) hans

/-! ### READ_ID (R260, R272) -/

/-- The identifier the device answers; a byte it has not is free. -/
theorem readId_spec {s : State} (hr : Ready s) (hw : s.env.hwProgress = true) :
    ∃ out t, exchangeOp 0x9F#8 [] 1 3 s = .ok (out, t)
      ∧ AfterExchange [0x9F#8, 0x00#8] 3 (FlashAfter (FlashMoves s.env) s.flash)
          (fun _ i b => ∀ h : i < s.flash.idBytes.length, b = s.flash.idBytes[i]) out s t := by
  refine command_spec (addr := []) (d := 1) (n := 3) (fun _ i b => ∀ h : i < s.flash.idBytes.length, b = s.flash.idBytes[i])
    hr hw (by decide) (fun _ _ _ _ _ _ h => h) ?_
  intro f pay dr hf _ hi
  have hid : f.idBytes = s.flash.idBytes := hf.sameImage.2.2
  simp [header, flashRespond, hid, hi]

/-! ### NOR READ_DATA (R261, R271) -/

theorem frameOk_norRead (a : Word) {n : Nat} (hn : n ≤ fifoCap) : frameOk 0x03#8 (wire3 a) 0 n = .ok () := by
  have hn : n ≤ 60 := hn
  rw [frameOk_eq_ok]
  refine ⟨by simp [wire3], by omega, by simp [header, wire3, fifoDepth]; omega, by simp [header, wire3, knownHeader]⟩

/-- The command completes on either board; on a NOR board the payload is the flash bytes. -/
theorem norReadData_spec {s : State} (hr : Ready s) (hw : s.env.hwProgress = true) (a : Word) {n : Nat} (hn : n ≤ fifoCap) :
    ∃ out t, norReadDataOp a n s = .ok (out, t)
      ∧ AfterExchange (0x03#8 :: wire3 a) n (FlashAfter (FlashMoves s.env) s.flash)
          (fun _ i b => s.cfg.storageKind = .nor → b = readByte s.flash.norMem ((a.toNat + i) % 2 ^ 24)) out s t := by
  refine command_spec (addr := wire3 a) (d := 0) (n := n) _ hr hw (frameOk_norRead a hn) (fun _ _ _ _ _ _ h => h) ?_
  intro f pay dr hf _ hk
  have hid : f.norMem = s.flash.norMem := hf.sameImage.1
  simp only [header, wire3, hk, flashRespond, List.cons_append, List.nil_append]
  simp only [norByte, toNat_wire3, hid]
  simp

/-! ### NAND READ_STATUS (R263, R274) -/

theorem readStatus_spec {s : State} (hr : Ready s) (hw : s.env.hwProgress = true) (hk : s.cfg.storageKind = .nand) :
    ∃ out t, exchangeOp 0x0F#8 [0xC0#8] 0 1 s = .ok (out, t)
      ∧ AfterExchange [0x0F#8, 0xC0#8] 1 (FlashAfter (FlashMoves s.env) s.flash)
          (fun f _ b => (oip b = false → f.nandBusy = false) ∧ (¬ FlashMoves s.env → oip b = f.nandBusy)
            ∧ (s.flash.nandBusy = false → oip b = false)) out s t := by
  refine command_spec (addr := [0xC0#8]) (d := 0) (n := 1) _ hr hw (by decide)
    (fun f hm _ _ _ _ h => ⟨fun _ => rfl, fun hn => absurd hm hn, h.2.2⟩) ?_
  intro f pay dr hf hp
  obtain rfl : pay = [] := List.length_eq_zero_iff.1 (by omega)
  have : flashRespond s.cfg.storageKind s.cfg.nandPageSize f (header 0x0F#8 [0xC0#8] 0 ++ []) dr = statusByte dr f.nandBusy := by
    simp [header, flashRespond, hk]
  rw [this, oip_statusByte]
  exact ⟨id, fun _ => rfl, fun hb => by rw [hf.eq_of_not_busy hb]; exact hb⟩

/-! ### NAND PAGE_READ_TO_CACHE (R262, R275) -/

/-- The device while it loads row `r`. -/
def loading (r : Word24) (f : FlashDevice) : FlashDevice := { f with nandBusy := true, pendingRow := r }

theorem pageRead_spec {s : State} (hr : Ready s) (hw : s.env.hwProgress = true) (hk : s.cfg.storageKind = .nand) (r : Word) :
    ∃ out t, exchangeOp 0x13#8 (wire3 r) 0 0 s = .ok (out, t)
      ∧ AfterExchange (0x13#8 :: wire3 r) 0 (FlashAfter (FlashMoves s.env) s.flash) (fun _ _ _ => True) out s t
      ∧ ∃ f, FlashAfter (FlashMoves s.env) s.flash f ∧ FlashAfter (FlashMoves s.env) (loading (r.setWidth 24) f) t.flash := by
  have hfo : frameOk 0x13#8 (wire3 r) 0 0 = .ok () := by
    rw [frameOk_eq_ok]
    exact ⟨by simp [wire3], by omega, by simp [header, wire3, fifoDepth], by simp [header, wire3, knownHeader]⟩
  obtain ⟨out, t, ht, hx⟩ := command_spec (addr := wire3 r) (d := 0) (n := 0) (fun _ _ _ => True) hr hw hfo
    (fun _ _ _ _ _ _ h => h) (fun _ _ _ _ h => absurd h (by omega))
  refine ⟨out, t, ht, hx, ?_⟩
  obtain ⟨pay, f, hp, hf, -, -, he, -⟩ := hx.wire
  refine ⟨f, hf, ?_⟩
  obtain rfl := List.length_eq_zero_iff.1 hp
  have hend : flashEndFrame s.cfg.storageKind f (header 0x13#8 (wire3 r) 0 ++ []) = loading (r.setWidth 24) f := by
    have hh : header 0x13#8 (wire3 r) 0 ++ [] = 0x13#8 :: r.extractLsb' 16 8 :: r.extractLsb' 8 8 :: r.extractLsb' 0 8 :: [] := rfl
    rw [hk, hh, flashEndFrame_pageLoad, wire3_eq]; rfl
  rw [hend] at he
  exact he

/-! ### NAND READ_FROM_CACHE (R264, R273) -/

theorem frameOk_cacheRead (c : Word) {n : Nat} (hn : n ≤ fifoCap) : frameOk 0x0B#8 (wire2 c) 1 n = .ok () := by
  have hn : n ≤ 60 := hn
  rw [frameOk_eq_ok]
  refine ⟨by simp [wire2], by omega, by simp [header, wire2, fifoDepth]; omega, by simp [header, wire2, knownHeader]⟩

/-- From a device that is not busy and has a page cached; a column past the page is free. -/
theorem readFromCache_spec {s : State} (hr : Ready s) (hw : s.env.hwProgress = true) (hk : s.cfg.storageKind = .nand)
    (hb : s.flash.nandBusy = false) (c : Word) {n : Nat} (hn : n ≤ fifoCap) :
    ∃ out t, readFromCacheOp c n s = .ok (out, t)
      ∧ AfterExchange (0x0B#8 :: (wire2 c ++ [0x00#8])) n (FlashAfter (FlashMoves s.env) s.flash)
          (fun _ i b => s.flash.nandCachedRow.isSome = true → c.toNat % 2 ^ 16 + i < s.cfg.nandPageSize →
            b = readByte s.flash.nandCache (c.toNat % 2 ^ 16 + i)) out s t := by
  refine command_spec (addr := wire2 c) (d := 1) (n := n) _ hr hw (frameOk_cacheRead c hn) (fun _ _ _ _ _ _ h => h) ?_
  intro f pay dr hf _ hs hlt
  obtain rfl := hf.eq_of_not_busy hb
  simp only [header, wire2, hk, flashRespond, List.cons_append, List.nil_append]
  have key : ∀ d, cacheByte s.flash s.cfg.nandPageSize (c.extractLsb' 8 8) (c.extractLsb' 0 8) pay.length d
      = readByte s.flash.nandCache (c.toNat % 2 ^ 16 + pay.length) := by
    intro d
    simp only [cacheByte, toNat_wire2, hb, hs, hlt, Bool.not_false, Bool.and_self, decide_true, if_true]
  simp [key]

/-- The command completes whatever the device's state. -/
theorem readFromCache_completes {s : State} (hr : Ready s) (hw : s.env.hwProgress = true) (c : Word) {n : Nat} (hn : n ≤ fifoCap) :
    ∃ out t, readFromCacheOp c n s = .ok (out, t)
      ∧ AfterExchange (0x0B#8 :: (wire2 c ++ [0x00#8])) n (FlashAfter (FlashMoves s.env) s.flash) (fun _ _ _ => True) out s t :=
  command_spec (addr := wire2 c) (d := 1) (n := n) (fun _ _ _ => True) hr hw (frameOk_cacheRead c hn) (fun _ _ _ _ _ _ h => h)
    (fun _ _ _ _ _ => trivial)

end Sys2Proof.Machine
end

