-- ==== Sys2Proof/Laws/Reader.lean ====
section
/-! SUPPORT. What a page load, the ready poll and the chunked reads do from a ready controller under HW_PROGRESS and FLASH_PROGRESS (45_chunked_reader.md R330 to R346). -/

namespace Sys2Proof.Machine

/-! ### After any number of commands -/

/-- `t` is a state some commands after `s`: what no command changes, whatever the reader did to its own
variables and to host memory in between. -/
structure Commands (s t : State) : Prop where
  cfg : t.cfg = s.cfg
  plat : t.plat = s.plat
  program : t.program = s.program
  result : t.result = s.result
  hw : t.env.hwProgress = s.env.hwProgress
  fl : t.env.flashProgress = s.env.flashProgress
  sched : t.env.sched <:+ s.env.sched
  ready : Ready t
  control : SameControl s.regs t.regs
  bcc : s.cfg.variant = .genA → t.regs.bcc = s.regs.bcc
  image : SameImage s.flash t.flash
  trace : ∃ ev, t.trace = s.trace ++ ev ∧ ∀ e ∈ ev, isCommandEvent e = true

theorem SameControl.refl (r : RegBlock) : SameControl r r := ⟨rfl, rfl, rfl, rfl, rfl, rfl⟩

theorem SameControl.trans {a b c : RegBlock} (h : SameControl a b) (k : SameControl b c) : SameControl a c :=
  ⟨k.1.trans h.1, k.2.1.trans h.2.1, k.2.2.1.trans h.2.2.1, k.2.2.2.1.trans h.2.2.2.1, k.2.2.2.2.1.trans h.2.2.2.2.1,
    k.2.2.2.2.2.trans h.2.2.2.2.2⟩

theorem Commands.refl {s : State} (h : Ready s) : Commands s s :=
  ⟨rfl, rfl, rfl, rfl, rfl, rfl, List.suffix_refl _, h, .refl _, fun _ => rfl, .refl _, [], by simp, by simp⟩

theorem Commands.trans {s t u : State} (a : Commands s t) (b : Commands t u) : Commands s u := by
  obtain ⟨e, he, hc⟩ := a.trace
  obtain ⟨e', he', hc'⟩ := b.trace
  refine ⟨b.cfg.trans a.cfg, b.plat.trans a.plat, b.program.trans a.program, b.result.trans a.result, b.hw.trans a.hw,
    b.fl.trans a.fl, b.sched.trans a.sched, b.ready, a.control.trans b.control,
    fun h => (b.bcc (by rw [a.cfg, h])).trans (a.bcc h), a.image.trans b.image, e ++ e', ?_, ?_⟩
  · rw [he', he, List.append_assoc]
  · intro x hx
    rcases List.mem_append.1 hx with h | h
    · exact hc x h
    · exact hc' x h

theorem sameControl_exchange (v : Variant) (a b : Nat) (r : RegBlock) : SameControl r (startWritten v (countersSet v a b r)) := by
  cases v <;> refine ⟨rfl, rfl, rfl, rfl, ?_, ?_⟩ <;> simp only [startWritten, countersSet, BitVec.and_assoc, BitVec.and_self]

/-- An exchange is a command. -/
theorem AfterExchange.commands {hdr out : List Byte} {n : Nat} {P : FlashDevice → Prop} {A : FlashDevice → Nat → Byte → Prop}
    {s t : State} (h : AfterExchange hdr n P A out s t) (hr : Ready s) (hP : ∀ f, P f → SameImage s.flash f) : Commands s t := by
  obtain ⟨pay, f, -, hf, -, -, he, ht⟩ := h.wire
  refine ⟨h.host.1, h.host.2.1, h.host.2.2.2.2.1, h.result, h.host.2.2.2.2.2.1, h.host.2.2.2.2.2.2,
    h.sched.trans (List.tail_suffix _), h.ready hr, ?_, fun hv => ?_, ?_, _, ht, by simp [isCommandEvent]⟩
  · rw [h.regs]; exact sameControl_exchange _ _ _ _
  · rw [h.regs, hv]; rfl
  · exact (hP f hf).trans ((sameImage_flashEndFrame _ _ _).trans he.sameImage)

theorem Ready.still {s : State} (h : Ready s) : Still s := ⟨h.2.2.2.2.2.1.1, h.2.2.2.2.2.1.2.2.2.2⟩

theorem commands_delay {s : State} {f : FlashDevice} {l : List (List Turn)} (h : Ready s) (r : Reaches s.env s.flash f l) :
    Commands s (delayOp (moved s f l)) :=
  ⟨rfl, rfl, rfl, rfl, rfl, rfl, r.sched, h, .refl _, fun _ => rfl, r.flash.sameImage, _, rfl, by simp [isCommandEvent]⟩

/-! ### Fair waits leave no page load in progress -/

theorem flashTurn_notBusy (s : State) : (flashTurn s).flash.nandBusy = false := by
  unfold flashTurn
  split
  · rfl
  · simpa using ‹¬ s.flash.nandBusy = true›

theorem flashTurn_cfg (s : State) : (flashTurn s).cfg = s.cfg := by unfold flashTurn; split <;> rfl

theorem engineTurn_env {s t : State} (h : engineTurn s = .ok t) : t.env = s.env := by
  unfold engineTurn byteStep at h
  split at h
  · cases h; rfl
  · split at h
    · rw [res_bind_eq_ok] at h
      obtain ⟨u, -, h⟩ := h
      simp only [res_pure, Except.ok.injEq] at h
      subst h
      split <;> rfl
    · cases h; rfl

theorem fairRound_notBusy {s t : State} (hf : s.env.flashProgress = true) (h : fairRound s = .ok t) :
    t.flash.nandBusy = false ∧ t.env = s.env := by
  have ⟨u, he, h⟩ : ∃ u : State, u.env = s.env ∧ (if u.env.flashProgress then flashTurn u else u) = t := by
    unfold fairRound at h
    by_cases hw : s.env.hwProgress = true
    · simp only [hw, if_true, res_bind_eq_ok, res_pure, Except.ok.injEq] at h
      obtain ⟨u, hu, h⟩ := h
      exact ⟨u, engineTurn_env hu, h⟩
    · simp only [hw, Bool.false_eq_true, if_false, res_pure, res_bind_ok, Except.ok.injEq] at h
      exact ⟨s, rfl, h⟩
  rw [he, hf, if_pos rfl] at h
  subst h
  exact ⟨flashTurn_notBusy u, (flashTurn_env u).trans he⟩

theorem pollFifo_ok {p : Word → Bool} {s t : State} {b : Bool} (h : pollFifo p s = .ok (b, t)) : t = s.drew 1 := by
  unfold pollFifo at h
  rw [res_bind_eq_ok] at h
  obtain ⟨u, -, h⟩ := h
  simp only [readFifoSta, res_pure, Except.ok.injEq, Prod.mk.injEq] at h
  exact h.2.symm

/-- A wait with no turns scheduled that is not over at its first poll leaves the device not busy, under
FLASH_PROGRESS. -/
theorem waitFair_notBusy {p : Word → Bool} : ∀ (k : Nat) {s t : State}, s.env.flashProgress = true →
    (s.flash.nandBusy = false ∨ ∀ u, pollFifo p s ≠ .ok (true, u)) → waitFair (pollFifo p) k s = .ok t →
    t.flash.nandBusy = false ∧ t.env = s.env
  | 0, s, t, _, hb, h => by
    unfold waitFair at h
    rw [res_bind_eq_ok] at h
    obtain ⟨⟨d, u⟩, hp, h⟩ := h
    obtain rfl := pollFifo_ok hp
    cases d
    · simp at h
    · simp only [if_true, res_pure, Except.ok.injEq] at h
      subst h
      exact ⟨hb.resolve_right fun hn => hn _ hp, rfl⟩
  | k + 1, s, t, hf, hb, h => by
    unfold waitFair at h
    rw [res_bind_eq_ok] at h
    obtain ⟨⟨d, u⟩, hp, h⟩ := h
    obtain rfl := pollFifo_ok hp
    cases d
    · simp only [Bool.false_eq_true, if_false] at h
      rw [res_bind_eq_ok] at h
      obtain ⟨u, hu, h⟩ := h
      obtain ⟨hn, he⟩ := fairRound_notBusy (by exact hf) hu
      have he' : u.env = s.env := he
      obtain ⟨h1, h2⟩ := waitFair_notBusy k (by rw [he', hf]) (.inl hn) h
      exact ⟨h1, h2.trans he'⟩
    · simp only [if_true, res_pure, Except.ok.injEq] at h
      subst h
      exact ⟨hb.resolve_right fun hn => hn _ hp, rfl⟩

/-- An exchange with no turns scheduled leaves no page load in progress, under FLASH_PROGRESS. -/
theorem exchange_notBusy {s t : State} {op : Byte} {addr out : List Byte} {d n : Nat} (hr : Ready s) (hw : s.env.hwProgress = true)
    (hf : frameOk op addr d n = .ok ()) (hs : s.env.sched = []) (hfl : s.env.flashProgress = true)
    (h : exchangeOp op addr d n s = .ok (out, t)) : t.flash.nandBusy = false := by
  obtain ⟨-, -, hcap, -⟩ := frameOk_eq_ok.1 hf
  have h0 : 0 < (header op addr d).length := by simp [header]
  obtain ⟨f0, l0, r0, e0⟩ := exchangeOp_parts hr hf
  have hl0 : l0 = [] := List.suffix_nil.1 (hs ▸ r0.sched)
  subst hl0
  set b : State := burstStarted (header op addr d) n (moved s f0 []) with hb
  have hin : InBurst b (header op addr d) n (fun _ => True) (fun _ _ _ => True) b := inBurst_start (s := moved s f0 []) hr h0 trivial
  have hA : Answers b (header op addr d) n (fun _ => True) (fun _ _ _ => True) :=
    ⟨fun _ _ _ _ => ⟨trivial, fun _ _ _ => trivial⟩, fun _ _ _ _ _ => trivial⟩
  obtain ⟨u, hu, hi, hlen, -⟩ := hin.awaitBurst hA hcap hw hr.2.1
  obtain ⟨f1, l1, r1, e1⟩ := collect_spec (InBurst.gateOpen (s0 := b) hr.2.1 hi) ⟨by rw [hi.busy, hlen]; simp, hi.srst⟩
    (h := (header op addr d).length) (n := n) (by rw [hi.rxLen, hlen])
  rw [e0, hu, res_bind_ok] at h
  have ht := e1.symm.trans h
  simp only [Except.ok.injEq, Prod.mk.injEq] at ht
  obtain ⟨-, rfl⟩ := ht
  suffices hub : u.flash.nandBusy = false by
    show f1.nandBusy = false
    rw [r1.flash.eq_of_not_busy hub, hub]
  unfold awaitBurst at hu
  simp only [res_bind_eq_ok] at hu
  obtain ⟨a, ha, hu⟩ := hu
  have hse : ({ b with env := { b.env with sched := [] } } : State) = b := rfl
  rw [waitUntil, show b.env.sched = [] from rfl, waitSched, hse] at ha
  have hpoll := countsTo_txDrained (s0 := b) hr.2.1 hcap _ hin
  obtain ⟨h1, he1⟩ := waitFair_notBusy (s := b) _ hfl (.inr (by
    intro u hu'
    rw [hpoll] at hu'
    simp only [Except.ok.injEq, Prod.mk.injEq, decide_eq_true_eq] at hu'
    have : (header op addr d).length ≤ 0 := hu'.1
    omega)) ha
  have hsa : a.env.sched = [] := by rw [he1]; rfl
  have hae : ({ a with env := { a.env with sched := [] } } : State) = a := by
    rcases a with ⟨_, _, _, _, _, _, _, _, _, _, ⟨sc, _, _⟩, _⟩
    simp only at hsa; subst hsa; rfl
  rw [waitUntil, hsa, waitSched, hae] at hu
  exact (waitFair_notBusy _ (by rw [he1]; exact hfl) (.inl h1) hu).1

/-! ### The ready poll (R344) -/

theorem frameOk_status : frameOk 0x0F#8 [0xC0#8] 0 1 = .ok () := by decide

/-- What a completed ready poll leaves, and the polls it shows outside. -/
structure AfterReady (s t : State) : Prop where
  commands : Commands s t
  seq : t.seq = s.seq
  hostMem : t.hostMem = s.hostMem
  flash : FlashAfter (FlashMoves s.env) s.flash t.flash
  notBusy : t.flash.nandBusy = false
  polls : ∃ pays, pays ≠ [] ∧ t.trace = s.trace ++ pays.flatMap (pollEvents s.cfg)

/-- One iteration of the ready poll: the delay, and the status read from the state it leaves. -/
theorem poll_spec {s : State} (hr : Ready s) (hw : s.env.hwProgress = true) (hk : s.cfg.storageKind = .nand) :
    ∃ f l b t, Reaches s.env s.flash f l ∧ delayStep s = .ok (delayOp (moved s f l)) ∧ l = s.env.sched.tail ∧
      readStatusOp (delayOp (moved s f l)) = .ok (b, t) ∧ Commands s t ∧ t.seq = s.seq ∧ t.hostMem = s.hostMem ∧
      t.env.sched <:+ l.tail ∧ FlashAfter (FlashMoves s.env) s.flash t.flash ∧ (oip b = false → t.flash.nandBusy = false) ∧
      (¬ FlashMoves s.env → oip b = s.flash.nandBusy) ∧ (s.flash.nandBusy = false → oip b = false) ∧
      (s.env.sched = [] → s.env.flashProgress = true → t.flash.nandBusy = false) ∧
      ∃ p, t.trace = s.trace ++ pollEvents s.cfg p := by
  obtain ⟨f, r, e⟩ := hostStep_still hr.still
  set u : State := delayOp (moved s f s.env.sched.tail) with hu
  have hd : delayStep s = .ok u := by simp only [delayStep, e, hu]
  have hr' : Ready u := hr
  obtain ⟨out, t, ht, hx⟩ := readStatus_spec (s := u) hr' hw hk
  have hcmd : Commands s t := (commands_delay hr r).trans (hx.commands hr' fun f hf => hf.sameImage)
  obtain ⟨hft, f', hf, hft', hout⟩ := hx.flash (by decide)
  obtain ⟨b, rfl⟩ := List.length_eq_one_iff.1 hx.outLen
  obtain ⟨h1, h2, h3⟩ := hout 0 (by simp)
  simp only [List.getElem_cons_zero] at h1 h2 h3
  have hmv : FlashMoves u.env → FlashMoves s.env := .of_suffix r.sched
  have hfs : FlashAfter (FlashMoves s.env) s.flash t.flash := r.flash.trans (hft.mono hmv)
  refine ⟨f, _, b, t, r, hd, rfl, ?_, hcmd, hx.host.2.2.1, hx.host.2.2.2.1, hx.sched, hfs, ?_, ?_, ?_, ?_, ?_⟩
  · rw [← hu]; simp only [readStatusOp, ht, res_bind_ok, res_pure, List.headD_cons]
  · intro ho
    have hb := h1 ho
    rw [hft'.eq_of_not_busy hb, hb]
  · intro hm
    have hff : f = s.flash := r.flash.resolve_right fun h => hm h.1
    rw [h2 fun h => hm (hmv h), hf.resolve_right fun h => hm (hmv h.1)]
    exact congrArg _ hff
  · intro hb
    refine h3 ?_
    show f.nandBusy = false
    rw [r.flash.eq_of_not_busy hb, hb]
  · intro hs hfl
    exact exchange_notBusy hr' hw frameOk_status (by show s.env.sched.tail = []; rw [hs]; rfl) hfl ht
  · obtain ⟨pay, -, hp, -, -, -, -, htr⟩ := hx.wire
    obtain ⟨p, rfl⟩ := List.length_eq_one_iff.1 hp
    exact ⟨p, by rw [htr]; simp [hu, delayOp, pollEvents, delayEvent]⟩

/-- The ready poll ends: at once where no page load is in progress, and under FLASH_PROGRESS within the
polls that take scheduled turns and two more. -/
theorem readyLoop_spec : ∀ (fuel : Nat) {s : State}, Ready s → s.env.hwProgress = true → s.cfg.storageKind = .nand →
    (s.flash.nandBusy = false ∧ 1 ≤ fuel ∨ s.env.flashProgress = true ∧ s.env.sched.length + 2 ≤ fuel) →
    ∃ t, readyLoop fuel s = .ok t ∧ AfterReady s t
  | 0, s, _, _, _, h => by rcases h with h | h <;> omega
  | fuel + 1, s, hr, hw, hk, h => by
    obtain ⟨f, l, b, t, -, hd, hl, hst, hcmd, hseq, hmem, hsch, hfl', h1, -, h3, h4, p, htr⟩ := poll_spec hr hw hk
    simp only [readyLoop, hd, res_bind_ok, hst]
    by_cases ho : oip b = true
    · -- still busy: another poll
      rw [if_pos ho]
      have hbusy : s.flash.nandBusy = true := by
        by_contra hb
        rw [h3 (by simpa using hb)] at ho
        simp at ho
      obtain ⟨hfl, hfuel⟩ := h.resolve_left (by simp [hbusy])
      have hnext : t.flash.nandBusy = false ∧ 1 ≤ fuel ∨ t.env.flashProgress = true ∧ t.env.sched.length + 2 ≤ fuel := by
        by_cases hs : s.env.sched = []
        · exact .inl ⟨h4 hs hfl, by omega⟩
        · refine .inr ⟨by rw [hcmd.fl, hfl], ?_⟩
          have : 0 < s.env.sched.length := List.length_pos_iff.2 hs
          have := hsch.length_le
          rw [hl] at this
          simp at this; omega
      obtain ⟨u, hu, ha⟩ := readyLoop_spec fuel hcmd.ready (by rw [hcmd.hw, hw]) (by rw [hcmd.cfg, hk]) hnext
      obtain ⟨ps, -, hps⟩ := ha.polls
      refine ⟨u, hu, hcmd.trans ha.commands, ha.seq.trans hseq, ha.hostMem.trans hmem, ?_, ha.notBusy, p :: ps, by simp, ?_⟩
      · refine hfl'.trans (ha.flash.mono fun hm => ?_)
        rcases hm with hm | ⟨ts, hts, hm⟩
        · exact .inl (by rw [← hcmd.fl, hm])
        · exact .inr ⟨ts, hcmd.sched.subset hts, hm⟩
      · rw [hps, htr, hcmd.cfg]; simp
    · rw [if_neg ho]
      exact ⟨t, rfl, hcmd, hseq, hmem, hfl', h1 (by simpa using ho), [p], by simp, by simp [htr]⟩

/-- The ready poll of a busy device that no Flash turn can reach never ends (60_exceptions.md R362). -/
theorem readyLoop_hang : ∀ (fuel : Nat) {s : State}, Ready s → s.env.hwProgress = true → s.cfg.storageKind = .nand →
    s.flash.nandBusy = true → ¬ FlashMoves s.env → readyLoop fuel s = .error (.fault .transportFault)
  | 0, s, _, _, _, _, _ => rfl
  | fuel + 1, s, hr, hw, hk, hb, hm => by
    obtain ⟨f, l, b, t, -, hd, -, hst, hcmd, -, -, -, hfl', -, h2, -, -, -⟩ := poll_spec hr hw hk
    have ho : oip b = true := by rw [h2 hm, hb]
    have hts : t.flash = s.flash := hfl'.resolve_right fun h => hm h.1
    simp only [readyLoop, hd, res_bind_ok, hst, ho, if_true]
    refine readyLoop_hang fuel hcmd.ready (by rw [hcmd.hw, hw]) (by rw [hcmd.cfg, hk]) (by rw [hts, hb]) fun h => hm ?_
    rcases h with h | ⟨ts, hts, h⟩
    · exact .inl (by rw [← hcmd.fl, h])
    · exact .inr ⟨ts, hcmd.sched.subset hts, h⟩

theorem waitReady_spec {s : State} (hr : Ready s) (hw : s.env.hwProgress = true) (hk : s.cfg.storageKind = .nand)
    (h : s.flash.nandBusy = false ∨ s.env.flashProgress = true) : ∃ t, waitReadyOp s = .ok t ∧ AfterReady s t := by
  refine readyLoop_spec _ hr hw hk ?_
  simp only [readyFuel, hk]
  rcases h with h | h
  · exact .inl ⟨h, by omega⟩
  · exact .inr ⟨h, by omega⟩

/-! ### The page load (R341) -/

theorem readyLoop_frame_seq {s : State} (c : Option Word) (hr : Ready s) : Ready { s with seq := { s.seq with cachedPage := c } } := hr

/-- **A page load completes** under HW_PROGRESS and FLASH_PROGRESS: the device then holds the page of the row. -/
theorem loadPage_spec {s : State} (hr : Ready s) (hw : s.env.hwProgress = true) (hfl : s.env.flashProgress = true)
    (hk : s.cfg.storageKind = .nand) (r : Word) :
    ∃ t, loadPageOp r s = .ok t ∧ Commands s t ∧ t.seq = { s.seq with cachedPage := some r } ∧ t.hostMem = s.hostMem
      ∧ t.flash.nandBusy = false ∧ t.flash.nandCachedRow = some (r.setWidth 24)
      ∧ t.flash.nandCache = pageOf s.flash.nandMem (r.toNat % 2 ^ 24)
      ∧ ∃ polls, polls ≠ [] ∧ t.trace = s.trace ++ loadEvents s.cfg r polls := by
  obtain ⟨out, t, ht, hx, f, hf, hft⟩ := pageRead_spec hr hw hk r
  have hcmd : Commands s t := hx.commands hr fun f hf => hf.sameImage
  have hr' : Ready { t with seq := { t.seq with cachedPage := some r } } := readyLoop_frame_seq _ hcmd.ready
  obtain ⟨u, hu, ha⟩ := waitReady_spec (s := { t with seq := { t.seq with cachedPage := some r } }) hr'
    (by exact hcmd.hw.trans hw) (by rw [show ({ t with seq := { t.seq with cachedPage := some r } } : State).cfg = t.cfg from rfl, hcmd.cfg, hk])
    (.inr (by exact hcmd.fl.trans hfl))
  have htu : Commands t u := { ha.commands with }
  have hfu : FlashAfter True t.flash u.flash := ha.flash.mono fun _ => trivial
  have hload : u.flash = flashLoad (loading (r.setWidth 24) f) := by
    rcases hft with h | ⟨-, -, h⟩
    · rw [h] at hfu
      rcases hfu with h' | ⟨-, -, h'⟩
      · have := ha.notBusy; rw [h'] at this; simp [loading] at this
      · exact h'
    · rw [h] at hfu
      exact hfu.eq_of_not_busy rfl
  obtain ⟨polls, hne, hpolls⟩ := ha.polls
  refine ⟨u, ?_, hcmd.trans htu, ?_, ?_, ha.notBusy, ?_, ?_, polls, hne, ?_⟩
  · simp only [loadPageOp, pageReadOp, ht, res_bind_ok, res_pure, hu]
  · rw [ha.seq]; show { t.seq with cachedPage := some r } = _; rw [hx.host.2.2.1]
  · rw [ha.hostMem]; exact hx.host.2.2.2.1
  · rw [hload]; rfl
  · rw [hload]
    have : f.nandMem = s.flash.nandMem := hf.sameImage.2.1
    simp [flashLoad, loading, this]
  · obtain ⟨pay, -, hp, -, -, -, -, htr⟩ := hx.wire
    obtain rfl := List.length_eq_zero_iff.1 hp
    rw [hpolls]
    show t.trace ++ polls.flatMap (pollEvents t.cfg) = _
    rw [htr, hcmd.cfg]
    simp [loadEvents, delayEvent, wire3]

end Sys2Proof.Machine
end

