-- ==== Sys2Proof/Laws/Chunks.lean ====
section
/-! SUPPORT. What the loops of the chunked reader leave in host memory, from a ready controller under HW_PROGRESS and FLASH_PROGRESS (45_chunked_reader.md R324 to R346). -/

namespace Sys2Proof.Machine

/-! ### Chunk lengths -/

theorem norChunk_le (r : Nat) : norChunk r ≤ fifoCap ∧ norChunk r ≤ r ∧ (0 < r → 0 < norChunk r) := by
  have h : fifoCap = 60 := rfl
  unfold norChunk
  refine ⟨Nat.min_le_right _ _, Nat.min_le_left _ _, fun h0 => ?_⟩
  omega

/-- The boundary is the first address of the next page (R327). -/
theorem boundaryOf_eq (g : FlashGeometry) (a : Nat) :
    boundaryOf g a = (a / 2 ^ g.pageSizeShift.toNat + 1) * 2 ^ g.pageSizeShift.toNat := by
  simp [boundaryOf, Nat.shiftLeft_eq, Nat.shiftRight_eq_div_pow]

theorem lt_boundaryOf (g : FlashGeometry) (a : Nat) : a < boundaryOf g a := by
  rw [boundaryOf_eq, Nat.add_mul, Nat.one_mul]
  have := Nat.div_add_mod' a (2 ^ g.pageSizeShift.toNat)
  have := Nat.mod_lt a (Nat.two_pow_pos g.pageSizeShift.toNat)
  omega

/-- A NAND burst has at least one byte, at most the FIFO's capacity, and stays in its page (R328, R333). -/
theorem nandChunk_le (g : FlashGeometry) (a r : Nat) :
    nandChunk g a r ≤ fifoCap ∧ nandChunk g a r ≤ r ∧ a + nandChunk g a r ≤ boundaryOf g a ∧ (0 < r → 0 < nandChunk g a r) := by
  have h : fifoCap = 60 := rfl
  have := lt_boundaryOf g a
  unfold nandChunk
  omega

/-- Addresses of one page have one page number, and rising offsets. -/
theorem page_of_chunk {p a i : Nat} (hp : 0 < p) (h : a + i < (a / p + 1) * p) : (a + i) / p = a / p ∧ (a + i) % p = a % p + i := by
  have h1 := Nat.div_add_mod' a p
  rw [Nat.add_mul, Nat.one_mul] at h
  have hlt : a % p + i < p := by omega
  have heq : a + i = a % p + i + a / p * p := by omega
  constructor
  · conv_lhs => rw [heq]
    rw [Nat.add_mul_div_right _ _ hp, Nat.div_eq_of_lt hlt, Nat.zero_add]
  · conv_lhs => rw [heq]
    rw [Nat.add_mul_mod_self_right, Nat.mod_eq_of_lt hlt]

/-! ### A chunk delivered -/

/-- A write of one host byte: an address the platform does not back keeps nothing (20_memory.md R84, log 32). -/
theorem readByte_memWrite {s t : State} {a : Nat} {b : Byte} (hm : memoryOk s.hostMem = true) (h : memWrite a b s = .ok t) :
    t = { s with hostMem := t.hostMem } ∧ memoryOk t.hostMem = true ∧
      ∀ x, readByte t.hostMem x = if x = a ∧ hostBacked s.cfg x = true then b else readByte s.hostMem x := by
  simp only [memWrite, Except.ok.injEq] at h
  subst h
  by_cases hb : hostBacked s.cfg a = true
  · refine ⟨rfl, by simp only [hb, if_true]; exact memoryOk_writeByte hm, fun x => ?_⟩
    simp only [hb, if_true, readByte_writeByte hm]
    by_cases hx : x = a
    · subst hx; simp [hb]
    · simp [hx]
  · refine ⟨rfl, by simpa [hb] using hm, fun x => ?_⟩
    by_cases hx : x = a
    · subst hx; simp [hb]
    · simp [hx, hb]

/-- Bytes written to host memory one by one, with the turns before each: byte `i` of them is `B i` where the platform backs
its address, and nothing else changes but the device and the turns to come. -/
theorem memWrites_spec : ∀ (data : List Byte) {s : State} {a : Nat} {B : Nat → Byte}, Still s → memoryOk s.hostMem = true →
    (∀ i (hi : i < data.length), data[i] = B i) →
    ∃ f l m, Reaches s.env s.flash f l ∧ memWrites a data s = .ok { moved s f l with hostMem := m } ∧ memoryOk m = true ∧
      ∀ x, readByte m x = if (a ≤ x ∧ x < a + data.length) ∧ hostBacked s.cfg x = true then B (x - a) else readByte s.hostMem x
  | [], s, a, B, _, hm, _ => ⟨_, _, _, .refl _ _, rfl, hm, fun x => by rw [if_neg (by rintro ⟨h, -⟩; simp at h; omega)]⟩
  | b :: bs, s, a, B, hs, hm, hd => by
    obtain ⟨f1, r1, e1⟩ := hostStep_still hs
    obtain ⟨s1, w1⟩ : ∃ s1, memWrite a b (moved s f1 s.env.sched.tail) = .ok s1 := ⟨_, rfl⟩
    obtain ⟨hs1, hm1, hr1⟩ := readByte_memWrite (s := moved s f1 s.env.sched.tail) hm w1
    obtain ⟨f2, l2, m, r2, e2, hm2, hr2⟩ := memWrites_spec bs (s := s1) (a := a + 1) (B := fun i => B (i + 1))
      (by rw [hs1]; exact hs) hm1 fun i hi => hd (i + 1) (by simpa using hi)
    rw [hs1] at r2
    refine ⟨f2, l2, m, r1.trans r2, ?_, hm2, fun x => ?_⟩
    · simp only [memWrites, e1, w1, res_bind_ok, e2]
      rw [hs1]; rfl
    · have hc : s1.cfg = s.cfg := by rw [hs1]; rfl
      have h0 : b = B 0 := hd 0 (by simp)
      have hr1' : readByte s1.hostMem x = if x = a ∧ hostBacked s.cfg x = true then b else readByte s.hostMem x := hr1 x
      rw [hr2, hr1', hc, List.length_cons]
      by_cases hb : hostBacked s.cfg x = true
      · by_cases hx : x = a
        · subst hx
          simp [hb, h0]
        · by_cases hr : a + 1 ≤ x ∧ x < a + 1 + bs.length
          · rw [if_pos ⟨hr, hb⟩, if_pos ⟨by omega, hb⟩]; congr 1; omega
          · rw [if_neg (by rintro ⟨h, -⟩; exact hr h), if_neg (by rintro ⟨h, -⟩; exact hx h), if_neg (by rintro ⟨h, -⟩; omega)]
      · simp [hb]

/-- A delivery: the burst's bytes in host memory, and the cursor advanced (45_chunked_reader.md R331). -/
theorem deliver_spec {c : Cursor} {data : List Byte} {n : Nat} {s : State} {B : Nat → Byte} (hr : Ready s)
    (hm : memoryOk s.hostMem = true) (hl : data.length = n) (hd : ∀ i (hi : i < data.length), data[i] = B i) :
    ∃ t, deliver c data n s = .ok t ∧ Commands s t ∧ memoryOk t.hostMem = true ∧ t.trace = s.trace
      ∧ t.seq = { s.seq with cursor := some (advance c n) } ∧ FlashAfter True s.flash t.flash
      ∧ ∀ x, readByte t.hostMem x = if (c.dst ≤ x ∧ x < c.dst + n) ∧ hostBacked s.cfg x = true then B (x - c.dst)
          else readByte s.hostMem x := by
  obtain ⟨f, l, m, r, e, hm', hx⟩ := memWrites_spec data (a := c.dst) hr.still hm hd
  refine ⟨{ moved s f l with hostMem := m, seq := { s.seq with cursor := some (advance c n) } },
    by simp only [deliver, e, res_bind_ok, res_pure]; rfl, ?_, hm', rfl, rfl, r.flash.mono fun _ => trivial, hl ▸ hx⟩
  exact ⟨rfl, rfl, rfl, rfl, rfl, rfl, r.sched, hr, .refl _, fun _ => rfl, r.flash.sameImage, [], by simp, by simp⟩

/-- The bytes the host reads back where the platform backs every address (log 32). -/
theorem hostBytes_of_backed {s : State} {a n : Nat} (h : ∀ x, a ≤ x → x < a + n → hostBacked s.cfg x = true) :
    hostBytes a n s = ((List.range n).map fun i => readByte s.hostMem (a + i), s.drew n) := by
  unfold hostBytes
  congr 1
  refine List.map_congr_left fun i hi => ?_
  have := List.mem_range.1 hi
  rw [hostByte, if_pos (h _ (by omega) (by omega))]

/-- Two adjacent pieces of host memory written one after the other. -/
theorem pieces {m0 m1 m2 : Memory} {d n k : Nat} {B : Nat → Byte} {K : Nat → Prop} [DecidablePred K]
    (h1 : ∀ x, readByte m1 x = if (d ≤ x ∧ x < d + n) ∧ K x then B (x - d) else readByte m0 x)
    (h2 : ∀ x, readByte m2 x = if (d + n ≤ x ∧ x < d + n + k) ∧ K x then B (n + (x - (d + n))) else readByte m1 x) (x : Nat) :
    readByte m2 x = if (d ≤ x ∧ x < d + (n + k)) ∧ K x then B (x - d) else readByte m0 x := by
  rw [h2, h1]
  by_cases hK : K x
  · by_cases ha : d + n ≤ x ∧ x < d + n + k
    · rw [if_pos ⟨ha, hK⟩, if_pos ⟨by omega, hK⟩]; congr 1; omega
    · by_cases hb : d ≤ x ∧ x < d + n
      · rw [if_neg (fun h => ha h.1), if_pos ⟨hb, hK⟩, if_pos ⟨by omega, hK⟩]
      · rw [if_neg (fun h => ha h.1), if_neg (fun h => hb h.1), if_neg (by rintro ⟨h, -⟩; omega)]
  · simp [hK]

/-! ### NOR (R330, R332) -/

/-- What a completed NOR or NAND loop leaves: the range read stands in host memory, byte `j` being `B j`. -/
structure AfterLoop (c : Cursor) (B : Nat → Byte) (s t : State) : Prop where
  commands : Commands s t
  memOk : memoryOk t.hostMem = true
  mem : ∀ x, readByte t.hostMem x =
    if (c.dst ≤ x ∧ x < c.dst + c.remaining) ∧ hostBacked s.cfg x = true then B (x - c.dst) else readByte s.hostMem x

/-- What a NOR loop or chunk reads on a NOR board; on a NAND board the bytes are free (log 14). -/
def IsNorData (s : State) (a : Nat) (B : Nat → Byte) : Prop := s.cfg.storageKind = .nor → B = fun j => norByteAt s.flash (a + j)

/-- The pieces of a range that is not empty: the first, and those of the rest. -/
theorem pieces60_cons {a e : Nat} (h : a < e) : pieces60 a e = (a, min 60 (e - a)) :: pieces60 (a + min 60 (e - a)) e := by
  unfold pieces60
  rw [show (e - a + 59) / 60 = (e - (a + min 60 (e - a)) + 59) / 60 + 1 by omega, List.range_succ_eq_map, List.map_cons, List.map_map]
  refine congrArg₂ List.cons (by simp) (List.map_congr_left fun k hk => ?_)
  have := List.mem_range.1 hk
  simp only [Function.comp_apply, Nat.succ_eq_add_one, Prod.mk.injEq]
  omega

theorem pieces60_nil (a : Nat) : pieces60 a a = [] := by simp [pieces60]

/-- Every piece starts inside the range. -/
theorem le_of_mem_pieces60 {a e : Nat} {k : Nat × Nat} (h : k ∈ pieces60 a e) : a ≤ k.1 := by
  obtain ⟨i, -, rfl⟩ := List.mem_map.1 h
  simp

/-- A NOR read shows one frame for each 60 bytes begun. -/
theorem norReadEvents_frames (c : Params) (addr len : Nat) (mosi : Nat → List Byte) :
    ((norReadEvents c addr len mosi).filter isFrame).length = (len + 59) / 60 := by
  have h : ∀ l : List (Nat × Nat), ((l.flatMap fun k =>
      let a := BitVec.ofNat 32 k.1
      [Event.frame ([0x03#8, a.extractLsb' 16 8, a.extractLsb' 8 8, a.extractLsb' 0 8] ++ mosi k.1), delayEvent c]).filter isFrame).length
        = l.length := by
    intro l
    induction l with
    | nil => rfl
    | cons k l ih =>
      rw [List.flatMap_cons, List.filter_append, List.length_append, ih]
      simp only [List.filter_cons, List.filter_nil, isFrame, delayEvent, if_true, Bool.false_eq_true, if_false, List.length_cons,
        List.length_nil, Nat.zero_add, Nat.add_comm]
  rw [norReadEvents, h]
  simp [pieces60]

theorem norStep_spec {s : State} {c : Cursor} (hr : Ready s) (hw : s.env.hwProgress = true) (hm : memoryOk s.hostMem = true) :
    ∃ B t, norStep c s = .ok t ∧ IsNorData s c.addr B ∧ Commands s t ∧ memoryOk t.hostMem = true
      ∧ t.seq = { s.seq with cursor := some (advance c (norChunk c.remaining)) }
      ∧ (∀ x, readByte t.hostMem x = if (c.dst ≤ x ∧ x < c.dst + norChunk c.remaining) ∧ hostBacked s.cfg x = true
          then B (x - c.dst) else readByte s.hostMem x)
      ∧ ∃ pay, pay.length = norChunk c.remaining ∧
          t.trace = s.trace ++ [.frame (0x03#8 :: wire3 (BitVec.ofNat 32 c.addr) ++ pay), delayEvent s.cfg] := by
  obtain ⟨h60, -, -⟩ := norChunk_le c.remaining
  obtain ⟨out, t, ht, hx⟩ := norReadData_spec hr hw (BitVec.ofNat 32 c.addr) h60
  obtain ⟨-, f, -, -, hA⟩ := hx.flash (by decide)
  have hcmd : Commands s t := hx.commands hr fun f hf => hf.sameImage
  have hmem : t.hostMem = s.hostMem := hx.host.2.2.2.1
  obtain ⟨pay, -, hpl, -, -, -, -, htr⟩ := hx.wire
  have hB : ∃ B : Nat → Byte, IsNorData s c.addr B ∧ ∀ i (hi : i < out.length), out[i] = B i := by
    by_cases hk : s.cfg.storageKind = .nor
    · refine ⟨_, fun _ => rfl, fun i hi => ?_⟩
      rw [hA i hi hk, norByteAt]; congr 1; simp; omega
    · exact ⟨fun i => out.getD i 0, fun h => absurd h hk, fun i hi => by simp [hi]⟩
  obtain ⟨B, hB, hd⟩ := hB
  obtain ⟨u, hu, hcu, hmu, htu, hsu, -, hxu⟩ := deliver_spec (c := c) (data := out) (n := norChunk c.remaining) (B := B)
    hcmd.ready (by rw [hmem, hm]) hx.outLen hd
  refine ⟨B, u, by simp only [norStep, ht, res_bind_ok, hu], hB, hcmd.trans hcu, hmu, ?_, ?_, pay, hpl, htu.trans htr⟩
  · rw [hsu, hx.host.2.2.1]
  · intro x
    rw [hxu, hmem, hcmd.cfg]

theorem norLoop_spec : ∀ (fuel : Nat) {s : State} {c : Cursor}, Ready s → s.env.hwProgress = true → memoryOk s.hostMem = true →
    s.seq.cursor = some c → c.remaining ≤ fuel →
    ∃ B t, norLoop fuel s = .ok t ∧ IsNorData s c.addr B ∧ AfterLoop c B s t ∧ t.seq = { s.seq with cursor := t.seq.cursor }
      ∧ ∃ mosi, (∀ k ∈ pieces60 c.addr (c.addr + c.remaining), (mosi k.1).length = k.2)
          ∧ t.trace = s.trace ++ norReadEvents s.cfg c.addr c.remaining mosi
  | 0, s, c, hr, _, hm, hc, hf => by
    have h0 : c.remaining = 0 := by omega
    exact ⟨_, s, rfl, fun _ => rfl, ⟨.refl hr, hm, fun x => by rw [if_neg (by rintro ⟨h, -⟩; omega)]⟩, by simp, fun _ => [],
      by simp [h0, pieces60_nil], by simp [h0, norReadEvents, pieces60_nil]⟩
  | fuel + 1, s, c, hr, hw, hm, hc, hf => by
    by_cases h0 : c.remaining = 0
    · exact ⟨_, s, by simp [norLoop, hc, h0], fun _ => rfl, ⟨.refl hr, hm, fun x => by rw [if_neg (by rintro ⟨h, -⟩; omega)]⟩,
        by simp, fun _ => [], by simp [h0, pieces60_nil], by simp [h0, norReadEvents, pieces60_nil]⟩
    · obtain ⟨B, t, ht, hB, hcmd, hmt, hseq, hbyte, pay, hpl, htr⟩ := norStep_spec (c := c) hr hw hm
      obtain ⟨-, hle, hpos⟩ := norChunk_le c.remaining
      have hpos := hpos (by omega)
      have hct : t.seq.cursor = some (advance c (norChunk c.remaining)) := by rw [hseq]
      obtain ⟨B', u, hu, hB', ha, hsu, mosi, hml, htr'⟩ := norLoop_spec fuel hcmd.ready (by rw [hcmd.hw, hw]) hmt hct
        (by simp [advance]; omega)
      set n := norChunk c.remaining with hn
      refine ⟨fun j => if j < n then B j else B' (j - n), u, by simp [norLoop, hc, h0, ht, hu], ?_, ⟨hcmd.trans ha.commands, ha.memOk, ?_⟩,
        ?_, fun x => if x = c.addr then pay else mosi x, ?_, ?_⟩
      · intro hk
        have himg : t.flash.norMem = s.flash.norMem := hcmd.image.1
        funext j
        rw [hB hk, hB' (by rw [hcmd.cfg, hk])]
        simp only [advance, norByteAt, himg]
        split
        · rfl
        · congr 2; omega
      · have h1 : ∀ x, readByte t.hostMem x = if (c.dst ≤ x ∧ x < c.dst + n) ∧ hostBacked s.cfg x = true
            then (fun j => if j < n then B j else B' (j - n)) (x - c.dst) else readByte s.hostMem x := by
          intro x
          rw [hbyte]
          by_cases h : (c.dst ≤ x ∧ x < c.dst + n) ∧ hostBacked s.cfg x = true
          · rw [if_pos h, if_pos h]; simp only; rw [if_pos (by omega)]
          · rw [if_neg h, if_neg h]
        have h2 : ∀ x, readByte u.hostMem x = if (c.dst + n ≤ x ∧ x < c.dst + n + (c.remaining - n)) ∧ hostBacked s.cfg x = true
            then (fun j => if j < n then B j else B' (j - n)) (n + (x - (c.dst + n))) else readByte t.hostMem x := by
          intro x
          rw [ha.mem x, hcmd.cfg]
          have hge : ¬ n + (x - (c.dst + n)) < n := by omega
          simp only [advance, hge, if_false, Nat.add_sub_cancel_left]
          rfl
        intro x
        have := pieces (B := fun j => if j < n then B j else B' (j - n)) (K := fun x => hostBacked s.cfg x = true) h1 h2 x
        rw [show n + (c.remaining - n) = c.remaining by omega] at this
        exact this
      · rw [hsu, hseq]
      · have hcons := pieces60_cons (a := c.addr) (e := c.addr + c.remaining) (by omega)
        rw [show min 60 (c.addr + c.remaining - c.addr) = n by
          rw [Nat.add_sub_cancel_left]; exact Nat.min_comm _ _] at hcons
        intro k hk
        rw [hcons] at hk
        rcases List.mem_cons.1 hk with rfl | hk
        · simpa using hpl
        · have := le_of_mem_pieces60 hk
          have hne : k.1 ≠ c.addr := by omega
          simp only [hne, if_false]
          refine hml k ?_
          simpa only [advance, show c.addr + n + (c.remaining - n) = c.addr + c.remaining by omega] using hk
      · have hcons := pieces60_cons (a := c.addr) (e := c.addr + c.remaining) (by omega)
        rw [show min 60 (c.addr + c.remaining - c.addr) = n by
          rw [Nat.add_sub_cancel_left]; exact Nat.min_comm _ _] at hcons
        rw [htr', htr, hcmd.cfg, List.append_assoc, norReadEvents, norReadEvents, hcons, List.flatMap_cons]
        simp only [advance, show c.addr + n + (c.remaining - n) = c.addr + c.remaining by omega]
        rw [List.flatMap_congr fun k hk => ?_]
        · simp [wire3]
          rfl
        · have := le_of_mem_pieces60 hk
          simp [show k.1 ≠ c.addr by omega]

/-! ### NAND (R340, R346) -/

/-- The reader's variables and the device agree before a chunk at `a`: the session asks for a page load,
or the page of `a` is cached. -/
def PageReady (g : FlashGeometry) (a : Nat) (s : State) : Prop :=
  s.seq.nandState = some .pageLoading ∨
    (s.seq.nandState = some .cacheReadable ∧ s.seq.cachedPage = some (rowOf g (BitVec.ofNat 32 a)) ∧ s.flash.nandBusy = false
      ∧ s.flash.nandCachedRow.isSome = true
      ∧ s.flash.nandCache = pageOf s.flash.nandMem ((rowOf g (BitVec.ofNat 32 a)).toNat % 2 ^ 24))

/-- The session asks for a page load before the next chunk. -/
def asksLoad (s : State) : Bool := decide (s.seq.nandState = some .pageLoading)

/-- The page load of a chunk, where there is one, and what it shows outside. -/
theorem enterPage_spec {g : FlashGeometry} {s : State} {c : Cursor} (hr : Ready s) (hw : s.env.hwProgress = true)
    (hfl : s.env.flashProgress = true) (hk : s.cfg.storageKind = .nand) (hp : PageReady g c.addr s) :
    ∃ t, enterPage g c s = .ok t ∧ Commands s t ∧ t.hostMem = s.hostMem
      ∧ t.seq = { s.seq with cachedPage := some (rowOf g (BitVec.ofNat 32 c.addr)), nandState := some .cacheReadable }
      ∧ t.flash.nandBusy = false ∧ t.flash.nandCachedRow.isSome = true
      ∧ t.flash.nandCache = pageOf s.flash.nandMem ((rowOf g (BitVec.ofNat 32 c.addr)).toNat % 2 ^ 24)
      ∧ ∃ polls, polls ≠ [] ∧
          t.trace = s.trace ++ if asksLoad s then loadEvents s.cfg (rowOf g (BitVec.ofNat 32 c.addr)) polls else [] := by
  rcases hp with hp | ⟨hp, hc, hb, hs, hcache⟩
  · obtain ⟨t, ht, hcmd, hseq, hmem, hb, hrow, hcache, polls, hne, htr⟩ := loadPage_spec hr hw hfl hk (rowOf g (BitVec.ofNat 32 c.addr))
    refine ⟨{ t with seq := { t.seq with nandState := some .cacheReadable } }, ?_, { hcmd with ready := hcmd.ready }, hmem, ?_, hb, ?_, hcache,
      polls, hne, ?_⟩
    · simp only [enterPage, hp, if_true, ht, res_bind_ok, res_pure]
    · simp only [hseq]
    · simp [hrow]
    · simp [htr, asksLoad, hp]
  · refine ⟨s, by simp [enterPage, hp], .refl hr, rfl, ?_, hb, hs, hcache, [0], by simp, by simp [asksLoad, hp]⟩
    rw [← hc, ← hp]

/-- What one chunk of a NAND read leaves, at the state `t`. -/
structure AfterNandStep (g : FlashGeometry) (c : Cursor) (n : Nat) (s t : State) : Prop where
  commands : Commands s t
  memOk : memoryOk t.hostMem = true
  cursor : t.seq.cursor = some (advance c n)
  geometry : t.seq.geometry = s.seq.geometry
  handle : t.seq.handle = s.seq.handle
  /-- The page cached is that of the chunk's last byte (10_state.md R45). -/
  cached : t.seq.cachedPage = some (rowOf g (BitVec.ofNat 32 (c.addr + n - 1)))
  pageReady : n < c.remaining → PageReady g (c.addr + n) t
  /-- The next chunk loads a page exactly where its row exceeds this one's (45_chunked_reader.md R343). -/
  reload : n < c.remaining →
    asksLoad t = decide (rowOf g (BitVec.ofNat 32 c.addr) < rowOf g (BitVec.ofNat 32 (c.addr + n)))
  mem : ∀ x, readByte t.hostMem x = if (c.dst ≤ x ∧ x < c.dst + n) ∧ hostBacked s.cfg x = true
    then nandByteAt s.flash g (c.addr + (x - c.dst)) else readByte s.hostMem x
  trace : ∃ polls mosi, polls ≠ [] ∧ mosi.length = n ∧ t.trace = s.trace ++
    ((if asksLoad s then loadEvents s.cfg (rowOf g (BitVec.ofNat 32 c.addr)) polls else [])
      ++ cacheReadEvents s.cfg (colOf g (BitVec.ofNat 32 c.addr)) mosi)

/-- The session state after a chunk is all that `leaveChunk` changes. -/
theorem leaveChunk_eq (g : FlashGeometry) (c : Cursor) (s : State) :
    leaveChunk g c s = { s with seq := { s.seq with
      nandState := (if mustReload g c s.seq.cachedPage then some .pageLoading else s.seq.nandState) } } := by
  unfold leaveChunk
  split <;> rfl

theorem nandStep_spec {g : FlashGeometry} {s : State} {c : Cursor} (hr : Ready s) (hw : s.env.hwProgress = true)
    (hfl : s.env.flashProgress = true) (hk : s.cfg.storageKind = .nand) (hm : memoryOk s.hostMem = true)
    (hg : GeometryFits g s.cfg.nandPageSize c.addr c.remaining) (hrem : 0 < c.remaining) (hp : PageReady g c.addr s) :
    ∃ t, nandStep g c s = .ok t ∧ AfterNandStep g c (nandChunk g c.addr c.remaining) s t := by
  obtain ⟨h60, hle, hbd, hpos⟩ := nandChunk_le g c.addr c.remaining
  have hpos := hpos hrem
  set n := nandChunk g c.addr c.remaining with hn
  obtain ⟨hsh, hps, hgeo⟩ := hg
  set p := 2 ^ g.pageSizeShift.toNat with hpdef
  have hp0 : 0 < p := Nat.two_pow_pos _
  have hp16 : p ≤ 2 ^ 16 := Nat.pow_le_pow_right (by omega) hsh
  rw [boundaryOf_eq, ← hpdef] at hbd
  obtain ⟨t1, ht1, hc1, hm1, hseq1, hb1, hs1, hcache1, polls, hne, htr1⟩ := enterPage_spec hr hw hfl hk hp
  obtain ⟨out, t2, ht2, hx⟩ := readFromCache_spec hc1.ready (by rw [hc1.hw, hw]) (by rw [hc1.cfg, hk]) hb1
    (colOf g (BitVec.ofNat 32 c.addr)) h60
  obtain ⟨hft, f, -, -, hA⟩ := hx.flash (by decide)
  have hfl2 : t2.flash = t1.flash := hft.eq_of_not_busy hb1
  have hc2 : Commands t1 t2 := hx.commands hc1.ready fun f hf => hf.sameImage
  have hmem2 : t2.hostMem = s.hostMem := hx.host.2.2.2.1.trans hm1
  have hseq2 : t2.seq = t1.seq := hx.host.2.2.1
  have hcol := (hgeo c.addr (by omega) (by omega)).2
  have hrow := (hgeo c.addr (by omega) (by omega)).1
  have hrs : rowSpan = 2 ^ 24 := rfl
  have hcs : columnSpan = 2 ^ 16 := rfl
  -- the bytes of the burst
  have hdata : ∀ i (hi : i < out.length), out[i] = nandByteAt s.flash g (c.addr + i) := by
    intro i hi
    have hin : i < n := by rw [hx.outLen] at hi; exact hi
    have hpg : (c.addr + i) / p = c.addr / p ∧ (c.addr + i) % p = c.addr % p + i := page_of_chunk hp0 (by omega)
    have hlt : c.addr % p + i < p := by rw [← hpg.2]; exact Nat.mod_lt _ hp0
    have hgi := hgeo (c.addr + i) (by omega) (by omega)
    have hcol' : (colOf g (BitVec.ofNat 32 c.addr)).toNat % 2 ^ 16 = c.addr % p := by
      rw [hcol]; exact Nat.mod_eq_of_lt (by omega)
    rw [hA i hi hs1 (by rw [hcol', hc1.cfg]; omega), hcol', hcache1,
      readByte_pageOf _ (by rw [hrs]; exact Nat.mod_lt _ (Nat.two_pow_pos _)), nandByteAt, hgi.1, hgi.2, hpg.1, hpg.2, hrow, hrs]
    rw [Nat.mod_eq_of_lt (show c.addr % p + i < columnSpan by rw [hcs]; omega)]
  obtain ⟨t3, ht3, hc3, hm3, htr3, hseq3, hfl3, hx3⟩ := deliver_spec (c := c) (B := fun i => nandByteAt s.flash g (c.addr + i)) hc2.ready
    (by rw [hmem2, hm]) hx.outLen hdata
  have hflash3 : t3.flash = t1.flash := (hfl3.eq_of_not_busy (by rw [hfl2, hb1])).trans hfl2
  have hcmd : Commands s t3 := (hc1.trans hc2).trans hc3
  have hseqT : t3.seq = { s.seq with
      cursor := some (advance c n), cachedPage := some (rowOf g (BitVec.ofNat 32 c.addr)), nandState := some .cacheReadable } := by rw [hseq3, hseq2, hseq1]
  have hcachedT : t3.seq.cachedPage = some (rowOf g (BitVec.ofNat 32 c.addr)) := by rw [hseqT]
  have hstep : nandStep g c s = .ok (leaveChunk g (advance c n) t3) := by
    simp only [nandStep, ht1, res_bind_ok, ← hn, ht2, ht3, res_pure]
  have hreload : n < c.remaining → mustReload g (advance c n) t3.seq.cachedPage
      = decide (rowOf g (BitVec.ofNat 32 c.addr) < rowOf g (BitVec.ofNat 32 (c.addr + n))) := by
    intro hmore
    have hr0 : 0 < c.remaining - n := by omega
    rw [hcachedT]
    simp only [mustReload, advance, hr0, decide_true, Bool.true_and]
    rfl
  refine ⟨_, hstep, ?_⟩
  rw [leaveChunk_eq]
  refine ⟨{ hcmd with ready := hcmd.ready }, hm3, by simp only [hseqT], by simp only [hseqT], by simp only [hseqT], ?_, ?_, ?_, ?_, ?_⟩
  · have hlast : c.addr + n - 1 = c.addr + (n - 1) := by omega
    have hpg := (page_of_chunk (i := n - 1) hp0 (by omega : c.addr + (n - 1) < (c.addr / p + 1) * p)).1
    rw [hcachedT, hlast, BitVec.eq_of_toNat_eq (x := rowOf g (BitVec.ofNat 32 c.addr))]
    rw [hrow, (hgeo (c.addr + (n - 1)) (by omega) (by omega)).1, hpg]
  · intro hmore
    by_cases hrl : mustReload g (advance c n) t3.seq.cachedPage = true
    · exact .inl (if_pos hrl)
    · have hgn := hgeo (c.addr + n) (by omega) (by omega)
      -- the next chunk's page is the cached one
      have hsame : rowOf g (BitVec.ofNat 32 (c.addr + n)) = rowOf g (BitVec.ofNat 32 c.addr) := by
        have hnot : ¬ rowOf g (BitVec.ofNat 32 c.addr) < rowOf g (BitVec.ofNat 32 (c.addr + n)) := by
          rw [hreload hmore] at hrl; simpa using hrl
        apply BitVec.eq_of_toNat_eq
        rw [BitVec.lt_def, hgn.1, hrow] at hnot
        rw [hgn.1, hrow]
        have : c.addr / p ≤ (c.addr + n) / p := Nat.div_le_div_right (by omega)
        omega
      refine .inr ⟨?_, ?_, ?_, ?_, ?_⟩
      · simp only [hrl]; rw [hseqT]; rfl
      · simp only [hcachedT, hsame]
      · show t3.flash.nandBusy = false
        rw [hflash3, hb1]
      · show t3.flash.nandCachedRow.isSome = true
        rw [hflash3, hs1]
      · show t3.flash.nandCache = pageOf t3.flash.nandMem _
        rw [hflash3, hcache1, hsame, hc1.image.2.1]
  · intro hmore
    rw [← hreload hmore]
    cases mustReload g (advance c n) t3.seq.cachedPage <;> simp [asksLoad, hseqT]
  · intro x
    show readByte t3.hostMem x = _
    rw [hx3, hmem2, hc2.cfg, hc1.cfg]
  · obtain ⟨pay, -, hpl, -, -, -, -, htr2⟩ := hx.wire
    refine ⟨polls, pay, hne, hpl, ?_⟩
    show t3.trace = _
    rw [htr3, htr2, htr1, hc1.cfg]
    simp [cacheReadEvents, delayEvent, wire2]

/-- What the chunks of a NAND read show outside: for each chunk from `a` on with `r` bytes left, a page load where `load`
asks for one, and a cache read; `q` gives the bytes sent while each chunk's status bytes and payload are received. -/
def chunkEvents (p : Params) (g : FlashGeometry) : List (List Byte × List Byte) → Nat → Nat → Bool → List Event
  | [], _, _, _ => []
  | (polls, mosi) :: more, a, r, load =>
    (if load then loadEvents p (rowOf g (BitVec.ofNat 32 a)) polls else []) ++
      cacheReadEvents p (colOf g (BitVec.ofNat 32 a)) mosi ++
      chunkEvents p g more (a + nandChunk g a r) (r - nandChunk g a r)
        (decide (rowOf g (BitVec.ofNat 32 a) < rowOf g (BitVec.ofNat 32 (a + nandChunk g a r))))

/-- The bytes sent are one nonempty list of polls and one byte for each payload byte, for each chunk of `r` bytes from
`a` on. -/
def ChunkBytes (g : FlashGeometry) : List (List Byte × List Byte) → Nat → Nat → Prop
  | [], _, r => r = 0
  | (polls, mosi) :: more, a, r =>
    0 < r ∧ polls ≠ [] ∧ mosi.length = nandChunk g a r ∧ ChunkBytes g more (a + nandChunk g a r) (r - nandChunk g a r)

theorem nandLoop_spec {g : FlashGeometry} : ∀ (fuel : Nat) {s : State} {c : Cursor}, Ready s → s.env.hwProgress = true →
    s.env.flashProgress = true → s.cfg.storageKind = .nand → memoryOk s.hostMem = true → s.seq.cursor = some c →
    GeometryFits g s.cfg.nandPageSize c.addr c.remaining → (0 < c.remaining → PageReady g c.addr s) → c.remaining ≤ fuel →
    ∃ t, nandLoop g fuel s = .ok t ∧ AfterLoop c (fun j => nandByteAt s.flash g (c.addr + j)) s t
      ∧ t.seq.geometry = s.seq.geometry ∧ t.seq.handle = s.seq.handle
      ∧ (0 < c.remaining → t.seq.cachedPage = some (rowOf g (BitVec.ofNat 32 (c.addr + c.remaining - 1))))
      ∧ ∃ q, ChunkBytes g q c.addr c.remaining ∧ t.trace = s.trace ++ chunkEvents s.cfg g q c.addr c.remaining (asksLoad s)
  | 0, s, c, hr, _, _, _, hm, _, _, _, hf => by
    have h0 : c.remaining = 0 := by omega
    exact ⟨s, rfl, ⟨.refl hr, hm, fun x => by rw [if_neg (by rintro ⟨h, -⟩; omega)]⟩, rfl, rfl, fun h => absurd h0 (by omega), [], h0,
      by simp [chunkEvents]⟩
  | fuel + 1, s, c, hr, hw, hfl, hk, hm, hc, hg, hp, hf => by
    by_cases h0 : c.remaining = 0
    · exact ⟨s, by simp [nandLoop, hc, h0], ⟨.refl hr, hm, fun x => by rw [if_neg (by rintro ⟨h, -⟩; omega)]⟩, rfl, rfl,
        fun h => absurd h0 (by omega), [], h0, by simp [chunkEvents]⟩
    · obtain ⟨t, ht, ha⟩ := nandStep_spec hr hw hfl hk hm hg (by omega) (hp (by omega))
      have hcmd := ha.commands
      obtain ⟨-, hle, -, hpos⟩ := nandChunk_le g c.addr c.remaining
      have hpos := hpos (by omega)
      set n := nandChunk g c.addr c.remaining with hn
      have hg' : GeometryFits g t.cfg.nandPageSize (advance c n).addr (advance c n).remaining := by
        obtain ⟨a, b, h⟩ := hg
        rw [hcmd.cfg]
        exact ⟨a, b, fun x h1 h2 => h x (by simp [advance] at h1; omega) (by simp [advance] at h2; omega)⟩
      obtain ⟨u, hu, hau, hgu, hhu, hcu, q, hq, htu⟩ := nandLoop_spec fuel hcmd.ready (by rw [hcmd.hw, hw]) (by rw [hcmd.fl, hfl])
        (by rw [hcmd.cfg, hk]) ha.memOk ha.cursor hg' (fun hpos' => ha.pageReady (by simp [advance] at hpos'; omega))
        (by simp [advance]; omega)
      obtain ⟨polls, mosi, hne, hml, htr⟩ := ha.trace
      refine ⟨u, by simp [nandLoop, hc, h0, ht, hu], ⟨hcmd.trans hau.commands, hau.memOk, ?_⟩, hgu.trans ha.geometry,
        hhu.trans ha.handle, fun _ => ?_, (polls, mosi) :: q, ⟨by omega, hne, hml, hq⟩, ?_⟩
      · intro x
        have himg : t.flash.nandMem = s.flash.nandMem := hcmd.image.2.1
        have h2 : ∀ x, readByte u.hostMem x = if (c.dst + n ≤ x ∧ x < c.dst + n + (c.remaining - n)) ∧ hostBacked s.cfg x = true
            then (fun j => nandByteAt s.flash g (c.addr + j)) (n + (x - (c.dst + n))) else readByte t.hostMem x := by
          intro x
          rw [hau.mem x, hcmd.cfg]
          simp only [advance, nandByteAt, himg, Nat.add_assoc]
        have := pieces (B := fun j => nandByteAt s.flash g (c.addr + j)) (K := fun x => hostBacked s.cfg x = true) ha.mem h2 x
        rw [show n + (c.remaining - n) = c.remaining by omega] at this
        exact this
      · by_cases hmore : n < c.remaining
        · rw [hcu (by simp [advance]; omega)]
          simp only [advance, show c.addr + n + (c.remaining - n) = c.addr + c.remaining by omega]
        · obtain rfl : u = t := by
            have hz : c.remaining - n = 0 := by omega
            cases fuel <;> simp [nandLoop, ha.cursor, advance, hz] at hu <;> exact hu.symm
          rw [ha.cached, show n = c.remaining by omega]
      · rw [htu, htr, hcmd.cfg, chunkEvents, ← hn]
        by_cases hmore : n < c.remaining
        · rw [ha.reload hmore]; simp [advance]
        · have hz : (advance c n).remaining = 0 := by simp [advance]; omega
          rw [hz] at hq
          cases q with
          | nil => simp [chunkEvents]
          | cons x q => exact absurd hq.1 (by omega)

/-! ### The reads -/

/-- What a completed read of `len` bytes leaves: byte `j` of the destination is `B j`. -/
structure AfterRead (dst len : Nat) (B : Nat → Byte) (s t : State) : Prop where
  commands : Commands s t
  memOk : memoryOk t.hostMem = true
  mem : ∀ x, readByte t.hostMem x = if (dst ≤ x ∧ x < dst + len) ∧ hostBacked s.cfg x = true then B (x - dst) else readByte s.hostMem x
  session : t.seq.cursor = none ∧ t.seq.nandState = none
  geometry : t.seq.geometry = s.seq.geometry

/-- A NOR read completes (R330, R332), on either board, with one frame for each 60 bytes begun. -/
theorem norRead_spec {s : State} {addr dst : Word} {len : Nat} (hr : Ready s) (hw : s.env.hwProgress = true)
    (hm : memoryOk s.hostMem = true) (hses : s.seq.cursor = none ∧ s.seq.nandState = none)
    (ha : addr.toNat + len ≤ 2 ^ 32) (hd : dst.toNat + len ≤ 2 ^ 32) :
    ∃ B t, norReadOp addr len dst s = .ok t ∧ IsNorData s addr.toNat B ∧ AfterRead dst.toNat len B s t
      ∧ t.seq = s.seq ∧ ∃ mosi, (∀ k ∈ pieces60 addr.toNat (addr.toNat + len), (mosi k.1).length = k.2)
          ∧ t.trace = s.trace ++ norReadEvents s.cfg addr.toNat len mosi := by
  have hchk : readChecks false addr len dst s = .ok () := by
    have h1 : ¬ 2 ^ 32 < addr.toNat + len := by omega
    have h2 : ¬ 2 ^ 32 < dst.toNat + len := by omega
    simp only [readChecks, hr.1, h1, h2, Bool.not_true, Bool.false_and, Bool.or_self, decide_false, refuseIf_false, res_bind_ok]
  unfold norReadOp
  simp only [hchk, res_bind_ok]
  by_cases h0 : len = 0
  · subst h0
    exact ⟨_, s, by simp, fun _ => rfl, ⟨.refl hr, hm, fun x => by rw [if_neg (by rintro ⟨h, -⟩; omega)], hses, rfl⟩, rfl,
      fun _ => [], by simp [pieces60_nil], by simp [norReadEvents, pieces60_nil]⟩
  · rw [if_neg h0]
    obtain ⟨B, t, ht, hB, hl, hseq, mosi, hml, htr⟩ := norLoop_spec len
      (s := { s with seq := { s.seq with cursor := some { addr := addr.toNat, remaining := len, dst := dst.toNat } } })
      (c := { addr := addr.toNat, remaining := len, dst := dst.toNat }) hr hw hm rfl (le_refl _)
    refine ⟨B, endRead t, by simp only [ht, res_bind_ok, res_pure], hB, ⟨{ hl.commands with ready := hl.commands.ready }, hl.memOk, hl.mem,
      ⟨rfl, rfl⟩, ?_⟩, ?_, mosi, hml, htr⟩
    · show t.seq.geometry = _
      rw [hseq]
    · show { t.seq with cursor := none, nandState := none } = _
      rw [hseq]
      rcases s with ⟨_, _, _, _, ⟨_, cur, _, ns, _⟩, _, _, _, _, _, _, _⟩
      obtain ⟨h1, h2⟩ := hses
      simp only at h1 h2
      subst h1 h2
      rfl

/-- A NAND read completes (R340, R346). -/
theorem nandRead_spec {s : State} {g : FlashGeometry} {addr dst : Word} {len : Nat} (hr : Ready s) (hw : s.env.hwProgress = true)
    (hfl : s.env.flashProgress = true) (hk : s.cfg.storageKind = .nand) (hgeo : s.seq.geometry = some g)
    (hm : memoryOk s.hostMem = true) (hses : s.seq.cursor = none ∧ s.seq.nandState = none)
    (ha : addr.toNat + len ≤ 2 ^ 32) (hd : dst.toNat + len ≤ 2 ^ 32) (hg : GeometryFits g s.cfg.nandPageSize addr.toNat len) :
    ∃ t, nandReadOp addr len dst s = .ok t ∧ AfterRead dst.toNat len (fun j => nandByteAt s.flash g (addr.toNat + j)) s t
      ∧ t.seq.handle = true
      ∧ (t.seq.cachedPage = if len = 0 then s.seq.cachedPage else some (rowOf g (BitVec.ofNat 32 (addr.toNat + len - 1))))
      ∧ ∃ q, ChunkBytes g q addr.toNat len ∧ t.trace = s.trace ++ chunkEvents s.cfg g q addr.toNat len true := by
  have hchk : readChecks true addr len dst s = .ok () := by
    have h1 : ¬ 2 ^ 32 < addr.toNat + len := by omega
    have h2 : ¬ 2 ^ 32 < dst.toNat + len := by omega
    simp only [readChecks, hr.1, hgeo, h1, h2, Option.isNone_some, Bool.and_false, Bool.not_true, Bool.or_self, decide_false,
      refuseIf_false, res_bind_ok]
  unfold nandReadOp
  simp only [hchk, res_bind_ok, hgeo]
  by_cases h0 : len = 0
  · subst h0
    exact ⟨s, by simp, ⟨.refl hr, hm, fun x => by rw [if_neg (by rintro ⟨h, -⟩; omega)], hses, rfl⟩, hr.1, by simp,
      [], rfl, by simp [chunkEvents]⟩
  · rw [if_neg h0]
    obtain ⟨t, ht, hl, hgt, hht, hct, q, hq, htr⟩ := nandLoop_spec (g := g) len
      (s := { s with seq := { s.seq with cursor := some { addr := addr.toNat, remaining := len, dst := dst.toNat },
                                         cachedPage := none, nandState := some .pageLoading } })
      (c := { addr := addr.toNat, remaining := len, dst := dst.toNat }) hr hw hfl hk hm rfl hg (fun _ => .inl rfl) (le_refl _)
    have hst : ({ s with seq := { s.seq with cursor := some { addr := addr.toNat, remaining := len, dst := dst.toNat },
                                             cachedPage := none, nandState := some .pageLoading } } : State) =
        { s with seq := { s.seq with cursor := some { addr := addr.toNat, remaining := len, dst := dst.toNat },
                                     cachedPage := none, nandState := some .pageLoading, geometry := some g } } := by
      simp only [hgeo]
    rw [hst] at ht
    exact ⟨endRead t, by simp only [ht, res_bind_ok, res_pure], ⟨{ hl.commands with ready := hl.commands.ready }, hl.memOk, hl.mem,
      ⟨rfl, rfl⟩, hgt⟩, hht.trans hr.1, by rw [if_neg h0]; exact hct (Nat.pos_of_ne_zero h0), q, hq, htr⟩

end Sys2Proof.Machine
end

