-- ==== Sys2Proof/Laws/Boot.lean ====
section
/-! SUPPORT. What a read of the resolved geometry and the FIT collaborator's calls do from a ready controller (45_chunked_reader.md R332, R346, R348, 70_reset_and_hazards.md R412, R414). -/

namespace Sys2Proof.Machine

/-- The host state in which a boot attempt makes its reads: the controller is ready, the chip's geometry is stored, no
read session is left, host memory is in canonical form and the Engine moves. -/
structure Loading (g : FlashGeometry) (s : State) : Prop where
  ready : Ready s
  hw : s.env.hwProgress = true
  memOk : memoryOk s.hostMem = true
  session : s.seq.cursor = none ∧ s.seq.nandState = none
  geometry : s.seq.geometry = some g

/-- Commands that keep the reader's variables lead from one such state to another. -/
theorem Loading.of_commands {g : FlashGeometry} {s t : State} (h : Loading g s) (hc : Commands s t) (hm : memoryOk t.hostMem = true)
    (hses : t.seq.cursor = none ∧ t.seq.nandState = none) (hgeo : t.seq.geometry = s.seq.geometry) : Loading g t :=
  ⟨hc.ready, by rw [hc.hw, h.hw], hm, hses, by rw [hgeo, h.geometry]⟩

/-- The byte a flash address names depends on the device's contents only. -/
theorem flashByteAt_image {k : StorageKind} {f f' : FlashDevice} {g : FlashGeometry} (h : SameImage f f') (a : Nat) :
    flashByteAt k f' g a = flashByteAt k f g a := by
  cases k <;> simp only [flashByteAt, norByteAt, nandByteAt, h.1, h.2.1]

/-- **A read of the resolved geometry** (45_chunked_reader.md R321): the flash bytes stand in the destination, and nothing
else of host memory changes. -/
theorem readOp_spec {g : FlashGeometry} {s : State} {addr dst : Word} {len : Nat} (h : Loading g s) (hr : Readable s g addr dst len) :
    ∃ t, readOp addr len dst s = .ok t ∧ Commands s t ∧ Loading g t
      ∧ readByte t.hostMem = filled (readByte s.hostMem) dst.toNat len fun j => flashByteAt s.cfg.storageKind s.flash g (addr.toNat + j) := by
  obtain ⟨ha, hd, hb, hn⟩ := hr
  have fill : ∀ {B : Nat → Byte} {t : State}, AfterRead dst.toNat len B s t →
      readByte t.hostMem = filled (readByte s.hostMem) dst.toNat len B := by
    intro B t k
    funext x
    rw [k.mem x, filled]
    by_cases hx : dst.toNat ≤ x ∧ x < dst.toNat + len
    · rw [if_pos ⟨hx, hb x hx.1 hx.2⟩, if_pos hx]
    · rw [if_neg (fun k => hx k.1), if_neg hx]
  cases hk : s.cfg.storageKind with
  | nor =>
    obtain ⟨B, t, ht, hB, k, -⟩ := norRead_spec h.ready h.hw h.memOk h.session ha hd
    refine ⟨t, by simp only [readOp, hk, ht], k.commands, h.of_commands k.commands k.memOk k.session k.geometry, ?_⟩
    rw [fill k, hB hk]
    rfl
  | nand =>
    obtain ⟨hfl, hg⟩ := hn hk
    obtain ⟨t, ht, k, -⟩ := nandRead_spec h.ready h.hw hfl hk h.geometry h.memOk h.session ha hd hg
    exact ⟨t, by simp only [readOp, hk, ht], k.commands, h.of_commands k.commands k.memOk k.session k.geometry, fill k⟩

/-- A host byte the FIT collaborator writes into memory the platform has. -/
theorem hostWrite_spec {g : FlashGeometry} {s : State} {a : Nat} {b : Byte} (h : Loading g s) (hb : hostBacked s.cfg a = true) :
    ∃ t, hostStep (memWrite a b) s = .ok t ∧ Commands s t ∧ Loading g t
      ∧ readByte t.hostMem = filled (readByte s.hostMem) a 1 fun _ => b := by
  obtain ⟨f, r, e⟩ := hostStep_still h.ready.still
  obtain ⟨t, w⟩ : ∃ t, memWrite a b (moved s f s.env.sched.tail) = .ok t := ⟨_, rfl⟩
  obtain ⟨ht, hm, hx⟩ := readByte_memWrite (s := moved s f s.env.sched.tail) h.memOk w
  have hc : Commands s t := by
    rw [ht]
    exact ⟨rfl, rfl, rfl, rfl, rfl, rfl, r.sched, h.ready, .refl _, fun _ => rfl, r.flash.sameImage, [], by simp, by simp⟩
  refine ⟨t, by rw [e, w], hc, h.of_commands hc hm (by rw [ht]; exact h.session) (by rw [ht]; rfl), funext fun x => ?_⟩
  rw [hx x, filled]
  by_cases hxa : x = a
  · subst hxa
    rw [if_pos ⟨rfl, hb⟩, if_pos (by omega)]
  · rw [if_neg (fun k => hxa k.1), if_neg (by omega)]
    rfl

/-- **What the FIT collaborator does** (70_reset_and_hazards.md R412, R414), from a state some commands after `s`: its
result and the host memory it leaves are those `fitOutcome` gives. -/
theorem fitActs_spec {g : FlashGeometry} {s : State} : ∀ (r : FitRun) {u : State} {got : List Byte}, Commands s u → Loading g u →
    FitReadable s g r got (readByte u.hostMem) →
    ∃ t, fitActs r got u = .ok ((fitOutcome s g r got (readByte u.hostMem)).1, t) ∧ Commands s t ∧ Loading g t
      ∧ readByte t.hostMem = (fitOutcome s g r got (readByte u.hostMem)).2
  | .done _, u, _, hc, h, _ => ⟨u, rfl, hc, h, rfl⟩
  | .write a v next, u, got, hc, h, hr => by
    obtain ⟨hb, hr⟩ := hr
    obtain ⟨t, ht, hct, hlt, hm⟩ := hostWrite_spec (b := v) h (by rw [hc.cfg]; exact hb)
    rw [← hm] at hr
    obtain ⟨w, hw, hk⟩ := fitActs_spec next (hc.trans hct) hlt hr
    rw [hm] at hw hk
    exact ⟨w, by simp only [fitActs, ht, res_bind_ok]; exact hw, hk⟩
  | .read sector count buffer next, u, got, hc, h, hr => by
    obtain ⟨hrd, hr⟩ := hr
    have hrd' : Readable u g sector buffer count := by
      simpa only [Readable, hc.cfg, hc.fl] using hrd
    obtain ⟨t, ht, hct, hlt, hm⟩ := readOp_spec h hrd'
    have hm' : readByte t.hostMem = fitReadBytes s g sector count buffer (readByte u.hostMem) := by
      rw [hm, fitReadBytes, hc.cfg]
      simp only [flashByteAt_image hc.image]
    have hbytes := hostBytes_of_backed (s := t) (a := buffer.toNat) (n := count)
      fun x h1 h2 => by rw [hct.cfg]; exact hrd'.2.2.1 x h1 h2
    have hdrew : Commands s (t.drew count) ∧ Loading g (t.drew count) :=
      ⟨{ hc.trans hct with ready := hct.ready }, { hlt with ready := hlt.ready }⟩
    obtain ⟨w, hw, hk⟩ := fitActs_spec next (u := t.drew count)
      (got := (List.range count).map fun j => fitReadBytes s g sector count buffer (readByte u.hostMem) (buffer.toNat + j))
      hdrew.1 hdrew.2 (by show FitReadable s g next _ (readByte t.hostMem); rw [hm']; exact hr)
    have hmd : readByte (t.drew count).hostMem = fitReadBytes s g sector count buffer (readByte u.hostMem) := hm'
    rw [hmd] at hw hk
    refine ⟨w, ?_, hk⟩
    simp only [fitActs, ht, res_bind_ok, hbytes, hm']
    exact hw
  | .ifDelivered bytes yes no, u, got, hc, h, hr => by
    by_cases hg : got = bytes
    · simp only [FitReadable, if_pos hg] at hr
      simpa only [fitActs, fitOutcome, if_pos hg] using fitActs_spec yes hc h hr
    · simp only [FitReadable, if_neg hg] at hr
      simpa only [fitActs, fitOutcome, if_neg hg] using fitActs_spec no hc h hr

end Sys2Proof.Machine
end

