-- ==== Sys2Proof/Laws/PerInstr.lean ====
section
/-! SUPPORT. One lemma per instruction: the request that encodes it has the format of its row of spec/opcode_table.json, and its first bytes match the row's word under the row's mask (30_encoding.md R111, R142). -/

namespace Sys2Proof.Laws

/-- The row's format, the bytes of its word, its mask and its match. -/
structure TableRow where
  format : Format
  size : Nat
  mask : Nat
  value : Nat
deriving DecidableEq, Repr

/-- The rows of spec/opcode_table.json. -/
def tableRow : Instr → TableRow
  | .genARxRead => ⟨.accessByte, 2, 0x1FFF, 0x0000⟩
  | .genATxWrite _ => ⟨.accessByte, 2, 0x1FFF, 0x1004⟩
  | .genACtlRead => ⟨.accessWord, 2, 0x1FFF, 0x0008⟩
  | .genACtlWrite _ => ⟨.accessWord, 2, 0x1FFF, 0x1008⟩
  | .genACctlRead => ⟨.accessWord, 2, 0x1FFF, 0x001C⟩
  | .genACctlWrite _ => ⟨.accessWord, 2, 0x1FFF, 0x101C⟩
  | .genABcRead => ⟨.accessWord, 2, 0x1FFF, 0x0020⟩
  | .genABcWrite _ => ⟨.accessWord, 2, 0x1FFF, 0x1020⟩
  | .genATcRead => ⟨.accessWord, 2, 0x1FFF, 0x0024⟩
  | .genATcWrite _ => ⟨.accessWord, 2, 0x1FFF, 0x1024⟩
  | .genAFifoStaRead => ⟨.accessWord, 2, 0x1FFF, 0x0028⟩
  | .genBGcrRead => ⟨.accessWord, 2, 0x1FFF, 0x0004⟩
  | .genBGcrWrite _ => ⟨.accessWord, 2, 0x1FFF, 0x1004⟩
  | .genBTcrRead => ⟨.accessWord, 2, 0x1FFF, 0x0008⟩
  | .genBTcrWrite _ => ⟨.accessWord, 2, 0x1FFF, 0x1008⟩
  | .genBFifoStaRead => ⟨.accessWord, 2, 0x1FFF, 0x001C⟩
  | .genBCctlRead => ⟨.accessWord, 2, 0x1FFF, 0x0024⟩
  | .genBCctlWrite _ => ⟨.accessWord, 2, 0x1FFF, 0x1024⟩
  | .genBMbcRead => ⟨.accessWord, 2, 0x1FFF, 0x0030⟩
  | .genBMbcWrite _ => ⟨.accessWord, 2, 0x1FFF, 0x1030⟩
  | .genBMtcRead => ⟨.accessWord, 2, 0x1FFF, 0x0034⟩
  | .genBMtcWrite _ => ⟨.accessWord, 2, 0x1FFF, 0x1034⟩
  | .genBBccRead => ⟨.accessWord, 2, 0x1FFF, 0x0038⟩
  | .genBBccWrite _ => ⟨.accessWord, 2, 0x1FFF, 0x1038⟩
  | .genBTxdWrite _ => ⟨.accessByte, 2, 0x1FFF, 0x1200⟩
  | .genBRxdRead => ⟨.accessByte, 2, 0x1FFF, 0x0300⟩
  | .readId => ⟨.frame, 1, 0xFF, 0x9F⟩
  | .norReadData _ _ => ⟨.frame, 1, 0xFF, 0x03⟩
  | .pageReadToCache _ => ⟨.frame, 1, 0xFF, 0x13⟩
  | .readStatus => ⟨.frame, 2, 0xFFFF, 0x0FC0⟩
  | .readFromCache _ _ => ⟨.frame, 1, 0xFF, 0x0B⟩
  | .init => ⟨.call, 1, 0xFF, 0x01⟩
  | .deinit => ⟨.call, 1, 0xFF, 0x02⟩
  | .enableClock => ⟨.call, 1, 0xFF, 0x03⟩
  | .disableClock => ⟨.call, 1, 0xFF, 0x04⟩
  | .configurePins _ => ⟨.call, 1, 0xFF, 0x05⟩
  | .baseAddress => ⟨.call, 1, 0xFF, 0x06⟩
  | .isGenB => ⟨.call, 1, 0xFF, 0x07⟩
  | .exchange _ _ _ _ => ⟨.call, 1, 0xFF, 0x08⟩
  | .resolve _ => ⟨.call, 1, 0xFF, 0x09⟩
  | .read _ _ _ => ⟨.call, 1, 0xFF, 0x0A⟩
  | .norRead _ _ _ => ⟨.call, 1, 0xFF, 0x0B⟩
  | .nandRead _ _ _ => ⟨.call, 1, 0xFF, 0x0C⟩
  | .loadPage _ => ⟨.call, 1, 0xFF, 0x0D⟩
  | .waitReady => ⟨.call, 1, 0xFF, 0x0E⟩
  | .fitRead _ _ _ => ⟨.call, 1, 0xFF, 0x0F⟩
  | .bootAttempt => ⟨.call, 1, 0xFF, 0x10⟩

/-- The word a request's first bytes are: a frame's first byte is its upper byte, the others' its lower one. -/
def headWord (r : Request) (size : Nat) : Nat :=
  match r.format with
  | .frame => (takeNat size (r.bytes.take size).reverse).1
  | .accessByte | .accessWord | .call => (takeNat size r.bytes).1

/-- The encoding of `i` is a word of its row. -/
def EncodedKey.Statement (i : Instr) : Prop :=
  (encode i).format = (tableRow i).format ∧ headWord (encode i) (tableRow i).size &&& (tableRow i).mask = (tableRow i).value

theorem EncodedKey.genARxRead : EncodedKey.Statement .genARxRead := ⟨rfl, rfl⟩
theorem EncodedKey.genATxWrite (v : Byte) : EncodedKey.Statement (.genATxWrite v) :=
  ⟨rfl, by
    simp [encode, encodePush, headWord, tableRow, takeNat, takeByte, natBytes]⟩
theorem EncodedKey.genACtlRead : EncodedKey.Statement .genACtlRead := ⟨rfl, rfl⟩
theorem EncodedKey.genACtlWrite (v : Word) : EncodedKey.Statement (.genACtlWrite v) :=
  ⟨rfl, by
    simp [encode, encodeWrite, headWord, tableRow, takeNat, takeByte, natBytes]⟩
theorem EncodedKey.genACctlRead : EncodedKey.Statement .genACctlRead := ⟨rfl, rfl⟩
theorem EncodedKey.genACctlWrite (v : Word) : EncodedKey.Statement (.genACctlWrite v) :=
  ⟨rfl, by
    simp [encode, encodeWrite, headWord, tableRow, takeNat, takeByte, natBytes]⟩
theorem EncodedKey.genABcRead : EncodedKey.Statement .genABcRead := ⟨rfl, rfl⟩
theorem EncodedKey.genABcWrite (v : Word) : EncodedKey.Statement (.genABcWrite v) :=
  ⟨rfl, by
    simp [encode, encodeWrite, headWord, tableRow, takeNat, takeByte, natBytes]⟩
theorem EncodedKey.genATcRead : EncodedKey.Statement .genATcRead := ⟨rfl, rfl⟩
theorem EncodedKey.genATcWrite (v : Word) : EncodedKey.Statement (.genATcWrite v) :=
  ⟨rfl, by
    simp [encode, encodeWrite, headWord, tableRow, takeNat, takeByte, natBytes]⟩
theorem EncodedKey.genAFifoStaRead : EncodedKey.Statement .genAFifoStaRead := ⟨rfl, rfl⟩
theorem EncodedKey.genBGcrRead : EncodedKey.Statement .genBGcrRead := ⟨rfl, rfl⟩
theorem EncodedKey.genBGcrWrite (v : Word) : EncodedKey.Statement (.genBGcrWrite v) :=
  ⟨rfl, by
    simp [encode, encodeWrite, headWord, tableRow, takeNat, takeByte, natBytes]⟩
theorem EncodedKey.genBTcrRead : EncodedKey.Statement .genBTcrRead := ⟨rfl, rfl⟩
theorem EncodedKey.genBTcrWrite (v : Word) : EncodedKey.Statement (.genBTcrWrite v) :=
  ⟨rfl, by
    simp [encode, encodeWrite, headWord, tableRow, takeNat, takeByte, natBytes]⟩
theorem EncodedKey.genBFifoStaRead : EncodedKey.Statement .genBFifoStaRead := ⟨rfl, rfl⟩
theorem EncodedKey.genBCctlRead : EncodedKey.Statement .genBCctlRead := ⟨rfl, rfl⟩
theorem EncodedKey.genBCctlWrite (v : Word) : EncodedKey.Statement (.genBCctlWrite v) :=
  ⟨rfl, by
    simp [encode, encodeWrite, headWord, tableRow, takeNat, takeByte, natBytes]⟩
theorem EncodedKey.genBMbcRead : EncodedKey.Statement .genBMbcRead := ⟨rfl, rfl⟩
theorem EncodedKey.genBMbcWrite (v : Word) : EncodedKey.Statement (.genBMbcWrite v) :=
  ⟨rfl, by
    simp [encode, encodeWrite, headWord, tableRow, takeNat, takeByte, natBytes]⟩
theorem EncodedKey.genBMtcRead : EncodedKey.Statement .genBMtcRead := ⟨rfl, rfl⟩
theorem EncodedKey.genBMtcWrite (v : Word) : EncodedKey.Statement (.genBMtcWrite v) :=
  ⟨rfl, by
    simp [encode, encodeWrite, headWord, tableRow, takeNat, takeByte, natBytes]⟩
theorem EncodedKey.genBBccRead : EncodedKey.Statement .genBBccRead := ⟨rfl, rfl⟩
theorem EncodedKey.genBBccWrite (v : Word) : EncodedKey.Statement (.genBBccWrite v) :=
  ⟨rfl, by
    simp [encode, encodeWrite, headWord, tableRow, takeNat, takeByte, natBytes]⟩
theorem EncodedKey.genBTxdWrite (v : Byte) : EncodedKey.Statement (.genBTxdWrite v) :=
  ⟨rfl, by
    simp [encode, encodePush, headWord, tableRow, takeNat, takeByte, natBytes]⟩
theorem EncodedKey.genBRxdRead : EncodedKey.Statement .genBRxdRead := ⟨rfl, rfl⟩
theorem EncodedKey.readId : EncodedKey.Statement .readId := ⟨rfl, rfl⟩
theorem EncodedKey.norReadData (a : Word) (n : Nat) : EncodedKey.Statement (.norReadData a n) :=
  ⟨rfl, by
    simp [encode, headWord, tableRow, takeNat, takeByte]⟩
theorem EncodedKey.pageReadToCache (r : Word) : EncodedKey.Statement (.pageReadToCache r) :=
  ⟨rfl, by
    simp [encode, headWord, tableRow, takeNat, takeByte]⟩
theorem EncodedKey.readStatus : EncodedKey.Statement .readStatus := ⟨rfl, rfl⟩
theorem EncodedKey.readFromCache (c : Word) (n : Nat) : EncodedKey.Statement (.readFromCache c n) :=
  ⟨rfl, by
    simp [encode, headWord, tableRow, takeNat, takeByte]⟩
theorem EncodedKey.init : EncodedKey.Statement .init := ⟨rfl, rfl⟩
theorem EncodedKey.deinit : EncodedKey.Statement .deinit := ⟨rfl, rfl⟩
theorem EncodedKey.enableClock : EncodedKey.Statement .enableClock := ⟨rfl, rfl⟩
theorem EncodedKey.disableClock : EncodedKey.Statement .disableClock := ⟨rfl, rfl⟩
theorem EncodedKey.configurePins (f : Nat) : EncodedKey.Statement (.configurePins f) :=
  ⟨rfl, by
    simp [encode, headWord, tableRow, takeNat, takeByte]⟩
theorem EncodedKey.baseAddress : EncodedKey.Statement .baseAddress := ⟨rfl, rfl⟩
theorem EncodedKey.isGenB : EncodedKey.Statement .isGenB := ⟨rfl, rfl⟩
theorem EncodedKey.exchange (op : Byte) (addr : List Byte) (d : Nat) (n : Nat) : EncodedKey.Statement (.exchange op addr d n) :=
  ⟨rfl, by
    simp [encode, headWord, tableRow, takeNat, takeByte]⟩
theorem EncodedKey.resolve (id : Word24) : EncodedKey.Statement (.resolve id) :=
  ⟨rfl, by
    simp [encode, headWord, tableRow, takeNat, takeByte]⟩
theorem EncodedKey.read (a : Word) (n : Nat) (d : Word) : EncodedKey.Statement (.read a n d) :=
  ⟨rfl, by
    simp [encode, encodeReadCall, headWord, tableRow, takeNat, takeByte]⟩
theorem EncodedKey.norRead (a : Word) (n : Nat) (d : Word) : EncodedKey.Statement (.norRead a n d) :=
  ⟨rfl, by
    simp [encode, encodeReadCall, headWord, tableRow, takeNat, takeByte]⟩
theorem EncodedKey.nandRead (a : Word) (n : Nat) (d : Word) : EncodedKey.Statement (.nandRead a n d) :=
  ⟨rfl, by
    simp [encode, encodeReadCall, headWord, tableRow, takeNat, takeByte]⟩
theorem EncodedKey.loadPage (r : Word) : EncodedKey.Statement (.loadPage r) :=
  ⟨rfl, by
    simp [encode, headWord, tableRow, takeNat, takeByte]⟩
theorem EncodedKey.waitReady : EncodedKey.Statement .waitReady := ⟨rfl, rfl⟩
theorem EncodedKey.fitRead (a : Word) (n : Nat) (d : Word) : EncodedKey.Statement (.fitRead a n d) :=
  ⟨rfl, by
    simp [encode, encodeReadCall, headWord, tableRow, takeNat, takeByte]⟩
theorem EncodedKey.bootAttempt : EncodedKey.Statement .bootAttempt := ⟨rfl, rfl⟩

end Sys2Proof.Laws
end

