-- ==== Sys2Proof/Laws/Registers.lean ====
section
/-! SUPPORT. The operations of a register access, each in one equation: the start of a burst, the control writes (40_registers.md R153, R161, R163, R175). -/

namespace Sys2Proof.Machine

/-- A check followed by the rest. -/
theorem refuseIf_decide_bind {α : Type} (p : Prop) [Decidable p] (q : Refusal) (f : Unit → Res α) :
    (refuseIf (decide p) q >>= f) = if p then .error (.refuse q) else f () := by
  by_cases h : p <;> simp [h]

/-- A burst's header bytes are of a command that would do more than read (30_encoding.md R131, log 30). -/
theorem modifyingHeader_eq (k : StorageKind) (tx : List Byte) : modifyingHeader k tx = decide (ModifyingHeader k tx) := by
  rcases tx with _ | ⟨op, more⟩ <;> simp [modifyingHeader]

/-- The start of a burst: the first check that fails, else the burst. -/
theorem startBurst_eq (s : State) :
    startBurst s = match startRefusal s with | some q => .error (.refuse q) | none => .ok (startedBurst s) := by
  have e1 : (!(s.regs.enable && s.regs.master)) = decide (¬ (s.regs.enable = true ∧ s.regs.master = true)) := by simp
  have e2 : (s.plat.pinFn != .spi0) = decide (s.plat.pinFn ≠ .spi0) := by
    rw [Bool.eq_iff_iff]; simp
  have e3 : (s.cfg.variant == .genB && s.regs.bcc != s.regs.xferCnt)
      = decide (s.cfg.variant = .genB ∧ s.regs.bcc ≠ s.regs.xferCnt) := by rw [Bool.eq_iff_iff]; simp
  have e4 : (decide (s.regs.burstCnt.toNat = 0) || decide (s.regs.burstCnt.toNat < s.regs.xferCnt.toNat)
      || decide (fifoDepth < s.regs.burstCnt.toNat)) = decide (s.regs.burstCnt.toNat = 0
        ∨ s.regs.burstCnt.toNat < s.regs.xferCnt.toNat ∨ 64 < s.regs.burstCnt.toNat) := by
    have : fifoDepth = 64 := rfl
    rw [this, Bool.eq_iff_iff]; simp only [Bool.or_eq_true, decide_eq_true_eq, or_assoc]
  have e5 : (s.regs.txFifo.length != s.regs.xferCnt.toNat || !s.regs.rxFifo.isEmpty)
      = decide (s.regs.txFifo.length ≠ s.regs.xferCnt.toNat ∨ s.regs.rxFifo ≠ []) := by rw [Bool.eq_iff_iff]; simp
  unfold startBurst startRefusal
  rw [e1, e2, e3, e4, e5, modifyingHeader_eq]
  simp only [refuseIf_decide_bind]
  split_ifs <;> rfl

theorem getLsbD_clear_ctlNamed (v : Word) (i : Nat) (hi : i < 32) :
    (v &&& ~~~ctlNamed).getLsbD i = (v.getLsbD i && !decide (i ∈ [0, 1, 8, 9, 10])) := by
  simp only [BitVec.getLsbD_and, BitVec.getLsbD_not, getLsbD_ctlNamed i hi, hi]
  simp [Bool.and_assoc]

theorem getLsbD_clear_gcrNamed (v : Word) (i : Nat) (hi : i < 32) :
    (v &&& ~~~gcrNamed).getLsbD i = (v.getLsbD i && !decide (i ∈ [0, 1, 31])) := by
  simp only [BitVec.getLsbD_and, BitVec.getLsbD_not, getLsbD_gcrNamed i hi, hi]
  simp [Bool.and_assoc]

theorem getLsbD_clear_tcrNamed (v : Word) (i : Nat) (hi : i < 32) :
    (v &&& ~~~tcrNamed).getLsbD i = (v.getLsbD i && !decide (i = 31)) := by
  simp only [BitVec.getLsbD_and, BitVec.getLsbD_not, getLsbD_tcrNamed i hi, hi]
  simp

/-- What a GenA CTL write asks for that a burst does not allow. -/
theorem ctlActs_iff (v : Word) : ctlActs v = true ↔
    (v.getLsbD 10 = true ∨ v.getLsbD 8 = true ∨ v.getLsbD 9 = true ∨ v.getLsbD 0 = false ∨ v.getLsbD 1 = false) := by
  simp only [ctlActs, bitXchA, bitTfRst, bitRfRst, bitEnable, bitMaster, Bool.or_eq_true, Bool.not_eq_true', or_assoc]

end Sys2Proof.Machine
end

