-- ==== Sys2Proof/Laws/Refusals.lean ====
section
/-! SUPPORT. No operation of the machine is refused for its configuration: only a step's own checks raise those two refusals (log 19). -/

namespace Sys2Proof.Machine

/-- An answer that is not a refusal for the configuration. -/
def NoConfig {α : Type} (r : Res α) : Prop := r ≠ .error (.refuse .badChipTable) ∧ r ≠ .error (.refuse .badParameter)

@[simp] theorem noConfig_ok {α : Type} (a : α) : NoConfig (.ok a : Res α) := by simp [NoConfig]

@[simp] theorem noConfig_pure {α : Type} (a : α) : NoConfig (pure a : Res α) := noConfig_ok a

@[simp] theorem noConfig_fault {α : Type} (f : Fault) : NoConfig (.error (.fault f) : Res α) := by simp [NoConfig]

theorem noConfig_refuse {α : Type} {q : Refusal} (h : q ≠ .badChipTable ∧ q ≠ .badParameter) :
    NoConfig (.error (.refuse q) : Res α) := by simpa [NoConfig] using h

/-- A sequence whose parts are not refused for the configuration is not. -/
theorem noConfig_bind {α β : Type} {x : Res α} {f : α → Res β} (hx : NoConfig x) (hf : ∀ a, NoConfig (f a)) : NoConfig (x >>= f) := by
  cases x with
  | ok a => exact hf a
  | error e => simpa [NoConfig] using hx

theorem noConfig_refuseIf {b : Bool} {q : Refusal} (h : q ≠ .badChipTable ∧ q ≠ .badParameter) : NoConfig (refuseIf b q) := by
  cases b
  · exact noConfig_ok ()
  · exact noConfig_refuse h

@[simp] theorem noConfig_faultIf (b : Bool) (f : Fault) : NoConfig (faultIf b f) := by cases b <;> simp

/-! ### Register accesses -/

@[simp] theorem noConfig_accessGate (g : Bool) (s : State) : NoConfig (accessGate g s) :=
  noConfig_bind (noConfig_refuseIf (by decide)) fun _ => noConfig_refuseIf (by decide)

@[simp] theorem noConfig_rowAccess (v : Variant) (g : Bool) (s : State) : NoConfig (rowAccess v g s) :=
  noConfig_bind (noConfig_accessGate g s) fun _ => noConfig_refuseIf (by decide)

@[simp] theorem noConfig_popRx (s : State) : NoConfig (popRx s) := by unfold popRx; split <;> simp

@[simp] theorem noConfig_pushTx (v : Byte) (s : State) : NoConfig (pushTx v s) :=
  noConfig_bind (noConfig_refuseIf (by decide)) fun _ => noConfig_bind (noConfig_faultIf _ _) fun _ => noConfig_pure _

@[simp] theorem noConfig_counterWritable (v : Word) (s : State) : NoConfig (counterWritable v s) :=
  noConfig_bind (noConfig_refuseIf (by decide)) fun _ => noConfig_refuseIf (by decide)

@[simp] theorem noConfig_writeBurstCnt (v : Word) (s : State) : NoConfig (writeBurstCnt v s) :=
  noConfig_bind (noConfig_counterWritable v s) fun _ => noConfig_pure _

@[simp] theorem noConfig_writeXferCnt (v : Word) (s : State) : NoConfig (writeXferCnt v s) :=
  noConfig_bind (noConfig_counterWritable v s) fun _ => noConfig_pure _

@[simp] theorem noConfig_writeBcc (v : Word) (s : State) : NoConfig (writeBcc v s) :=
  noConfig_bind (noConfig_counterWritable v s) fun _ => noConfig_pure _

@[simp] theorem noConfig_writeCctl (v : Word) (s : State) : NoConfig (writeCctl v s) :=
  noConfig_bind (noConfig_refuseIf (by decide)) fun _ => noConfig_pure _

@[simp] theorem noConfig_startBurst (s : State) : NoConfig (startBurst s) :=
  noConfig_bind (noConfig_refuseIf (by decide)) fun _ => noConfig_bind (noConfig_refuseIf (by decide)) fun _ =>
    noConfig_bind (noConfig_refuseIf (by decide)) fun _ => noConfig_bind (noConfig_refuseIf (by decide)) fun _ =>
      noConfig_bind (noConfig_refuseIf (by decide)) fun _ => noConfig_bind (noConfig_refuseIf (by decide)) fun _ => noConfig_pure _

@[simp] theorem noConfig_writeCtl (v : Word) (s : State) : NoConfig (writeCtl v s) :=
  noConfig_bind (noConfig_refuseIf (by decide)) fun _ => by dsimp only; split <;> simp

@[simp] theorem noConfig_writeGcr (v : Word) (s : State) : NoConfig (writeGcr v s) :=
  noConfig_bind (noConfig_refuseIf (by decide)) fun _ => by split <;> simp

@[simp] theorem noConfig_writeTcr (v : Word) (s : State) : NoConfig (writeTcr v s) :=
  noConfig_bind (noConfig_refuseIf (by decide)) fun _ => by dsimp only; split <;> simp

/-! ### Turns, Host steps and waits -/

@[simp] theorem noConfig_engineTurn (s : State) : NoConfig (engineTurn s) := by
  unfold engineTurn byteStep
  split
  · simp
  · split
    · exact noConfig_bind (noConfig_faultIf _ _) fun _ => noConfig_pure _
    · simp

@[simp] theorem noConfig_takeTurns : ∀ (ts : List Turn) (s : State), NoConfig (takeTurns ts s)
  | [], s => noConfig_ok s
  | .engine :: ts, s => noConfig_bind (noConfig_engineTurn s) fun t => noConfig_takeTurns ts t
  | .flash :: ts, s => noConfig_bind (noConfig_ok (flashTurn s)) fun t => noConfig_takeTurns ts t

@[simp] theorem noConfig_gap (s : State) : NoConfig (gap s) := by unfold gap; split <;> simp

theorem noConfig_hostStep {α : Type} {act : State → Res α} (h : ∀ t, NoConfig (act t)) (s : State) : NoConfig (hostStep act s) :=
  noConfig_bind (noConfig_gap s) h

theorem noConfig_gated {α : Type} {act : State → Res α} (h : ∀ t, NoConfig (act t)) (s : State) : NoConfig (gated act s) :=
  noConfig_bind (noConfig_accessGate _ _) fun _ => h s

@[simp] theorem noConfig_fairRound (s : State) : NoConfig (fairRound s) := by
  unfold fairRound
  split
  · exact noConfig_bind (noConfig_engineTurn s) fun _ => noConfig_pure _
  · exact noConfig_pure _

theorem noConfig_waitFair {poll : Poll} (h : ∀ s, NoConfig (poll s)) : ∀ (k : Nat) (s : State), NoConfig (waitFair poll k s)
  | 0, s => noConfig_bind (h s) fun r => by rcases r with ⟨d, t⟩; dsimp only; split <;> simp
  | k + 1, s => noConfig_bind (h s) fun r => by
    rcases r with ⟨d, t⟩
    dsimp only
    split
    · simp
    · exact noConfig_bind (noConfig_fairRound t) fun u => noConfig_waitFair h k u

theorem noConfig_waitSched {poll : Poll} (h : ∀ s, NoConfig (poll s)) : ∀ (l : List (List Turn)) (s : State), NoConfig (waitSched poll l s)
  | [], s => noConfig_waitFair h _ _
  | ts :: rest, s => noConfig_bind (noConfig_takeTurns ts _) fun t => noConfig_bind (h t) fun r => by
    rcases r with ⟨d, u⟩
    dsimp only
    split
    · simp
    · exact noConfig_waitSched h rest u

theorem noConfig_waitUntil {poll : Poll} (h : ∀ s, NoConfig (poll s)) (s : State) : NoConfig (waitUntil poll s) :=
  noConfig_waitSched h _ s

/-! ### The shared operations -/

@[simp] theorem noConfig_mmioReadCtrl (s : State) : NoConfig (mmioReadCtrl s) := noConfig_bind (noConfig_accessGate _ _) fun _ => noConfig_pure _

@[simp] theorem noConfig_mmioReadXch (s : State) : NoConfig (mmioReadXch s) := noConfig_bind (noConfig_accessGate _ _) fun _ => noConfig_pure _

@[simp] theorem noConfig_mmioWriteCtrl (v : Word) (s : State) : NoConfig (mmioWriteCtrl v s) :=
  noConfig_bind (noConfig_accessGate _ _) fun _ => by split <;> simp

@[simp] theorem noConfig_mmioWriteXch (v : Word) (s : State) : NoConfig (mmioWriteXch v s) :=
  noConfig_bind (noConfig_accessGate _ _) fun _ => by split <;> simp

@[simp] theorem noConfig_setCtrl (m : Word) (s : State) : NoConfig (setCtrl m s) :=
  noConfig_bind (noConfig_mmioReadCtrl s) fun _ => noConfig_hostStep (noConfig_mmioWriteCtrl _) s

@[simp] theorem noConfig_clearCtrl (m : Word) (s : State) : NoConfig (clearCtrl m s) :=
  noConfig_bind (noConfig_mmioReadCtrl s) fun _ => noConfig_hostStep (noConfig_mmioWriteCtrl _) s

@[simp] theorem noConfig_setXch (m : Word) (s : State) : NoConfig (setXch m s) :=
  noConfig_bind (noConfig_mmioReadXch s) fun _ => noConfig_hostStep (noConfig_mmioWriteXch _) s

@[simp] theorem noConfig_pollFifo (p : Word → Bool) (s : State) : NoConfig (pollFifo p s) :=
  noConfig_bind (noConfig_accessGate _ _) fun _ => noConfig_pure _

@[simp] theorem noConfig_pollSrst (s : State) : NoConfig (pollSrst s) := noConfig_bind (noConfig_mmioReadCtrl s) fun _ => noConfig_pure _

@[simp] theorem noConfig_configurePinsOp (f : Nat) (s : State) : NoConfig (configurePinsOp f s) := by
  unfold configurePinsOp
  split
  · simp
  · split
    · simp
    · exact noConfig_refuse (by decide)

@[simp] theorem noConfig_enableClockOp (s : State) : NoConfig (enableClockOp s) :=
  noConfig_bind (noConfig_refuseIf (by decide)) fun _ => noConfig_hostStep (noConfig_gated (noConfig_writeCctl _)) _

@[simp] theorem noConfig_disableClockOp (s : State) : NoConfig (disableClockOp s) :=
  noConfig_bind (noConfig_refuseIf (by decide)) fun _ => noConfig_pure _

@[simp] theorem noConfig_resetHandshake (s : State) : NoConfig (resetHandshake s) := by
  unfold resetHandshake
  split
  · simp
  · exact noConfig_bind (noConfig_hostStep (noConfig_setCtrl _) s) fun t => noConfig_waitUntil noConfig_pollSrst t

@[simp] theorem noConfig_initOp (s : State) : NoConfig (initOp s) :=
  noConfig_bind (noConfig_refuseIf (by decide)) fun _ => noConfig_bind (noConfig_hostStep (noConfig_configurePinsOp _) s) fun _ =>
    noConfig_bind (noConfig_hostStep noConfig_enableClockOp _) fun _ => noConfig_bind (noConfig_resetHandshake _) fun _ =>
      noConfig_bind (noConfig_hostStep (noConfig_setCtrl _) _) fun _ => noConfig_pure _

@[simp] theorem noConfig_deinitOp (s : State) : NoConfig (deinitOp s) :=
  noConfig_bind (noConfig_refuseIf (by decide)) fun _ => noConfig_bind (noConfig_hostStep (noConfig_clearCtrl _) s) fun _ =>
    noConfig_bind (noConfig_hostStep noConfig_disableClockOp _) fun _ =>
      noConfig_bind (noConfig_hostStep (noConfig_configurePinsOp _) _) fun _ => noConfig_pure _

@[simp] theorem noConfig_delayStep (s : State) : NoConfig (delayStep s) := noConfig_hostStep (fun _ => noConfig_ok _) s

@[simp] theorem noConfig_frameOk (op : Byte) (addr : List Byte) (d n : Nat) : NoConfig (frameOk op addr d n) :=
  noConfig_bind (noConfig_refuseIf (by decide)) fun _ => noConfig_bind (noConfig_refuseIf (by decide)) fun _ => noConfig_refuseIf (by decide)

@[simp] theorem noConfig_programCounters (total hdrLen : Nat) (s : State) : NoConfig (programCounters total hdrLen s) :=
  noConfig_bind (noConfig_hostStep (noConfig_gated (noConfig_writeBurstCnt _)) s) fun _ =>
    noConfig_bind (noConfig_hostStep (noConfig_gated (noConfig_writeXferCnt _)) _) fun u => by
      split
      · simp
      · exact noConfig_hostStep (noConfig_gated (noConfig_writeBcc _)) u

@[simp] theorem noConfig_pushAll : ∀ (bs : List Byte) (s : State), NoConfig (pushAll bs s)
  | [], s => noConfig_ok s
  | b :: bs, s => noConfig_bind (noConfig_hostStep (noConfig_gated (noConfig_pushTx b)) s) fun t => noConfig_pushAll bs t

@[simp] theorem noConfig_popAll : ∀ (n : Nat) (s : State), NoConfig (popAll n s)
  | 0, _ => noConfig_ok _
  | n + 1, s => noConfig_bind (noConfig_hostStep (noConfig_gated noConfig_popRx) s) fun r =>
    noConfig_bind (noConfig_popAll n r.2) fun _ => noConfig_pure _

@[simp] theorem noConfig_awaitBurst (total : Nat) (s : State) : NoConfig (awaitBurst total s) :=
  noConfig_bind (noConfig_waitUntil (noConfig_pollFifo _) s) fun t => noConfig_waitUntil (noConfig_pollFifo _) t

@[simp] theorem noConfig_exchangeOp (op : Byte) (addr : List Byte) (d n : Nat) (s : State) : NoConfig (exchangeOp op addr d n s) :=
  noConfig_bind (noConfig_refuseIf (by decide)) fun _ => noConfig_bind (noConfig_frameOk op addr d n) fun _ =>
    noConfig_bind (noConfig_programCounters _ _ s) fun _ => noConfig_bind (noConfig_pushAll _ _) fun _ =>
      noConfig_bind (noConfig_hostStep (noConfig_setXch _) _) fun _ => noConfig_bind (noConfig_awaitBurst _ _) fun _ =>
        noConfig_bind (noConfig_popAll _ _) fun _ => noConfig_bind (noConfig_popAll _ _) fun _ =>
          noConfig_bind (noConfig_delayStep _) fun _ => noConfig_pure _

@[simp] theorem noConfig_memWrites : ∀ (a : Nat) (bs : List Byte) (s : State), NoConfig (memWrites a bs s)
  | _, [], s => noConfig_ok s
  | a, _ :: bs, s => noConfig_bind (noConfig_hostStep (fun _ => noConfig_ok _) s) fun t => noConfig_memWrites (a + 1) bs t

@[simp] theorem noConfig_raiseError (k : ErrorKind) (s : State) : NoConfig (raiseError k s) :=
  noConfig_bind (noConfig_deinitOp s) fun _ => noConfig_pure _

@[simp] theorem noConfig_returnOk (s : State) : NoConfig (returnOk s) := noConfig_bind (noConfig_deinitOp s) fun _ => noConfig_pure _

/-! ### The commands, the reader and the boot sequence -/

@[simp] theorem noConfig_readIdOp (s : State) : NoConfig (readIdOp s) := noConfig_bind (noConfig_exchangeOp _ _ _ _ s) fun _ => noConfig_pure _

@[simp] theorem noConfig_pageReadOp (r : Word) (s : State) : NoConfig (pageReadOp r s) :=
  noConfig_bind (noConfig_exchangeOp _ _ _ _ s) fun _ => noConfig_pure _

@[simp] theorem noConfig_readStatusOp (s : State) : NoConfig (readStatusOp s) :=
  noConfig_bind (noConfig_exchangeOp _ _ _ _ s) fun _ => noConfig_pure _

@[simp] theorem noConfig_readChecks (nand : Bool) (a : Word) (n : Nat) (d : Word) (s : State) : NoConfig (readChecks nand a n d s) :=
  noConfig_bind (noConfig_refuseIf (by decide)) fun _ => noConfig_bind (noConfig_refuseIf (by decide)) fun _ => noConfig_refuseIf (by decide)

@[simp] theorem noConfig_deliver (c : Cursor) (data : List Byte) (n : Nat) (s : State) : NoConfig (deliver c data n s) :=
  noConfig_bind (noConfig_memWrites _ data s) fun _ => noConfig_pure _

@[simp] theorem noConfig_norStep (c : Cursor) (s : State) : NoConfig (norStep c s) :=
  noConfig_bind (noConfig_exchangeOp _ _ _ _ s) fun r => noConfig_deliver c r.1 _ r.2

@[simp] theorem noConfig_norLoop : ∀ (fuel : Nat) (s : State), NoConfig (norLoop fuel s)
  | 0, s => noConfig_ok s
  | fuel + 1, s => by
    unfold norLoop
    split
    · simp
    · split
      · simp
      · exact noConfig_bind (noConfig_norStep _ s) fun t => noConfig_norLoop fuel t

@[simp] theorem noConfig_norReadOp (a : Word) (n : Nat) (d : Word) (s : State) : NoConfig (norReadOp a n d s) :=
  noConfig_bind (noConfig_readChecks _ a n d s) fun _ => by
    split
    · simp
    · exact noConfig_bind (noConfig_norLoop _ _) fun _ => noConfig_pure _

@[simp] theorem noConfig_readyLoop : ∀ (fuel : Nat) (s : State), NoConfig (readyLoop fuel s)
  | 0, _ => noConfig_fault _
  | fuel + 1, s => noConfig_bind (noConfig_delayStep s) fun t => noConfig_bind (noConfig_readStatusOp t) fun r => by
    rcases r with ⟨b, u⟩
    dsimp only
    split
    · exact noConfig_readyLoop fuel u
    · simp

@[simp] theorem noConfig_loadPageOp (r : Word) (s : State) : NoConfig (loadPageOp r s) :=
  noConfig_bind (noConfig_pageReadOp r s) fun _ => noConfig_readyLoop _ _

@[simp] theorem noConfig_nandStep (g : FlashGeometry) (c : Cursor) (s : State) : NoConfig (nandStep g c s) :=
  noConfig_bind (by unfold enterPage; split; exact noConfig_bind (noConfig_loadPageOp _ s) fun _ => noConfig_pure _; exact noConfig_ok s)
    fun _ => noConfig_bind (noConfig_exchangeOp _ _ _ _ _) fun r => noConfig_bind (noConfig_deliver c r.1 _ r.2) fun _ => noConfig_pure _

@[simp] theorem noConfig_nandLoop (g : FlashGeometry) : ∀ (fuel : Nat) (s : State), NoConfig (nandLoop g fuel s)
  | 0, s => noConfig_ok s
  | fuel + 1, s => by
    unfold nandLoop
    split
    · simp
    · split
      · simp
      · exact noConfig_bind (noConfig_nandStep g _ s) fun t => noConfig_nandLoop g fuel t

@[simp] theorem noConfig_nandReadOp (a : Word) (n : Nat) (d : Word) (s : State) : NoConfig (nandReadOp a n d s) :=
  noConfig_bind (noConfig_readChecks _ a n d s) fun _ => by
    split
    · exact noConfig_refuse (by decide)
    · split
      · simp
      · exact noConfig_bind (noConfig_nandLoop _ _ _) fun _ => noConfig_pure _

@[simp] theorem noConfig_readOp (a : Word) (n : Nat) (d : Word) (s : State) : NoConfig (readOp a n d s) := by
  unfold readOp; split <;> simp

@[simp] theorem noConfig_fitActs : ∀ (r : FitRun) (got : List Byte) (s : State), NoConfig (fitActs r got s)
  | .done _, _, s => noConfig_ok _
  | .write _ _ next, got, s => noConfig_bind (noConfig_hostStep (fun _ => noConfig_ok _) s) fun t => noConfig_fitActs next got t
  | .read _ _ _ next, _, s => noConfig_bind (noConfig_readOp _ _ _ s) fun _ => noConfig_fitActs next _ _
  | .ifDelivered bytes yes no, got, s => by
    unfold fitActs
    split
    · exact noConfig_fitActs yes got s
    · exact noConfig_fitActs no got s

@[simp] theorem noConfig_loadImage (o : Word) (s : State) : NoConfig (loadImage o s) :=
  noConfig_bind (noConfig_readOp _ _ _ s) fun t => by
    dsimp only
    split
    · split
      · refine noConfig_bind (noConfig_fitActs _ _ _) fun r => ?_
        rcases r with ⟨b, u⟩
        dsimp only
        split <;> simp
      · unfold rawPath
        split
        · simp
        · exact noConfig_bind (noConfig_readOp _ _ _ _) fun u => noConfig_returnOk u
    · simp

@[simp] theorem noConfig_bootAttemptOp (s : State) : NoConfig (bootAttemptOp s) :=
  noConfig_bind (noConfig_initOp s) fun t => noConfig_bind (noConfig_readIdOp t) fun r => by
    dsimp only
    unfold bootResolved
    split
    · exact noConfig_bind (noConfig_raiseError _ _) fun _ => noConfig_pure _
    · exact noConfig_bind (noConfig_raiseError _ _) fun _ => noConfig_pure _
    · simp
    · simp

/-- The answer of a meaning whose operation is not refused for the configuration is not either. -/
theorem finish_noConfig {r : Res State} (h : NoConfig r) : finish r ≠ .refused .badChipTable ∧ finish r ≠ .refused .badParameter := by
  rcases r with (f | q) | s
  · simp [finish]
  · simpa [finish, NoConfig] using h
  · simp [finish]

end Sys2Proof.Machine
end

