-- ==== Sys2Proof/Tests/Slice0.lean ====
section
/-! SUPPORT. The model's own tests: ill-formed terms, words written out from the spec, the spec's test vectors, and for every statement with premises a state that meets them. -/

namespace Sys2Proof.Tests

open Sys2Proof Sys2Proof.Machine

/-! ### Ill-formed terms (30_encoding.md R115, R117, log 5) -/

theorem test_illFormed_norRead_address : ¬ WellFormed (.norReadData 0x01000000#32 1) := by decide
theorem test_illFormed_norRead_empty : ¬ WellFormed (.norReadData 0#32 0) := by decide
theorem test_illFormed_norRead_long : ¬ WellFormed (.norReadData 0#32 61) := by decide
theorem test_illFormed_pageRead_row : ¬ WellFormed (.pageReadToCache 0x01000000#32) := by decide
theorem test_illFormed_cacheRead_column : ¬ WellFormed (.readFromCache 0x00010000#32 1) := by decide
theorem test_illFormed_cacheRead_empty : ¬ WellFormed (.readFromCache 0#32 0) := by decide
theorem test_illFormed_cacheRead_long : ¬ WellFormed (.readFromCache 0#32 61) := by decide
theorem test_illFormed_configurePins : ¬ WellFormed (.configurePins 0x100000000) := by decide
theorem test_illFormed_exchange_address : ¬ WellFormed (.exchange 0#8 (List.replicate 256 0#8) 0 0) := by
  rw [WellFormed, wellFormed, List.length_replicate]; decide
theorem test_illFormed_exchange_dummy : ¬ WellFormed (.exchange 0#8 [] 256 0) := by decide
theorem test_illFormed_exchange_payload : ¬ WellFormed (.exchange 0#8 [] 0 0x100000000) := by decide
theorem test_illFormed_read : ¬ WellFormed (.read 0#32 0x10000000000000000 0#32) := by decide
theorem test_illFormed_norReadCall : ¬ WellFormed (.norRead 0#32 0x10000000000000000 0#32) := by decide
theorem test_illFormed_nandReadCall : ¬ WellFormed (.nandRead 0#32 0x10000000000000000 0#32) := by decide
theorem test_illFormed_fitRead : ¬ WellFormed (.fitRead 0#32 0x10000000000000000 0#32) := by decide

/-! ### Decoding: a request for every row, written out from 20_memory.md R92, 30_encoding.md R111, R115, R142

The second byte of a key holds its upper five bits; the operands follow as log 5 says. -/

theorem test_decode_genARxRead : decode .genA ⟨.accessByte, [0x00#8, 0x00#8]⟩ = .ok .genARxRead := by decide
theorem test_decode_genATxWrite : decode .genA ⟨.accessByte, [0x04#8, 0x10#8, 0x9F#8]⟩ = .ok (.genATxWrite 0x9F#8) := by decide
theorem test_decode_genACtlRead : decode .genA ⟨.accessWord, [0x08#8, 0x00#8]⟩ = .ok .genACtlRead := by decide
theorem test_decode_genACtlWrite : decode .genA ⟨.accessWord, [0x08#8, 0x10#8, 0x03#8, 0x04#8, 0x00#8, 0x80#8]⟩ = .ok (.genACtlWrite 0x80000403#32) := by decide
theorem test_decode_genACctlRead : decode .genA ⟨.accessWord, [0x1C#8, 0x00#8]⟩ = .ok .genACctlRead := by decide
theorem test_decode_genACctlWrite : decode .genA ⟨.accessWord, [0x1C#8, 0x10#8, 0x78#8, 0x56#8, 0x34#8, 0x12#8]⟩ = .ok (.genACctlWrite 0x12345678#32) := by decide
theorem test_decode_genABcRead : decode .genA ⟨.accessWord, [0x20#8, 0x00#8]⟩ = .ok .genABcRead := by decide
theorem test_decode_genABcWrite : decode .genA ⟨.accessWord, [0x20#8, 0x10#8, 0x05#8, 0x00#8, 0x00#8, 0x00#8]⟩ = .ok (.genABcWrite 5#32) := by decide
theorem test_decode_genATcRead : decode .genA ⟨.accessWord, [0x24#8, 0x00#8]⟩ = .ok .genATcRead := by decide
theorem test_decode_genATcWrite : decode .genA ⟨.accessWord, [0x24#8, 0x10#8, 0x02#8, 0x00#8, 0x00#8, 0x00#8]⟩ = .ok (.genATcWrite 2#32) := by decide
theorem test_decode_genAFifoStaRead : decode .genA ⟨.accessWord, [0x28#8, 0x00#8]⟩ = .ok .genAFifoStaRead := by decide
theorem test_decode_genBGcrRead : decode .genB ⟨.accessWord, [0x04#8, 0x00#8]⟩ = .ok .genBGcrRead := by decide
theorem test_decode_genBGcrWrite : decode .genB ⟨.accessWord, [0x04#8, 0x10#8, 0x00#8, 0x00#8, 0x00#8, 0x80#8]⟩ = .ok (.genBGcrWrite 0x80000000#32) := by decide
theorem test_decode_genBTcrRead : decode .genB ⟨.accessWord, [0x08#8, 0x00#8]⟩ = .ok .genBTcrRead := by decide
theorem test_decode_genBTcrWrite : decode .genB ⟨.accessWord, [0x08#8, 0x10#8, 0x01#8, 0x00#8, 0x00#8, 0x80#8]⟩ = .ok (.genBTcrWrite 0x80000001#32) := by decide
theorem test_decode_genBFifoStaRead : decode .genB ⟨.accessWord, [0x1C#8, 0x00#8]⟩ = .ok .genBFifoStaRead := by decide
theorem test_decode_genBCctlRead : decode .genB ⟨.accessWord, [0x24#8, 0x00#8]⟩ = .ok .genBCctlRead := by decide
theorem test_decode_genBCctlWrite : decode .genB ⟨.accessWord, [0x24#8, 0x10#8, 0x78#8, 0x56#8, 0x34#8, 0x12#8]⟩ = .ok (.genBCctlWrite 0x12345678#32) := by decide
theorem test_decode_genBMbcRead : decode .genB ⟨.accessWord, [0x30#8, 0x00#8]⟩ = .ok .genBMbcRead := by decide
theorem test_decode_genBMbcWrite : decode .genB ⟨.accessWord, [0x30#8, 0x10#8, 0x40#8, 0x00#8, 0x00#8, 0x00#8]⟩ = .ok (.genBMbcWrite 64#32) := by decide
theorem test_decode_genBMtcRead : decode .genB ⟨.accessWord, [0x34#8, 0x00#8]⟩ = .ok .genBMtcRead := by decide
theorem test_decode_genBMtcWrite : decode .genB ⟨.accessWord, [0x34#8, 0x10#8, 0x04#8, 0x00#8, 0x00#8, 0x00#8]⟩ = .ok (.genBMtcWrite 4#32) := by decide
theorem test_decode_genBBccRead : decode .genB ⟨.accessWord, [0x38#8, 0x00#8]⟩ = .ok .genBBccRead := by decide
theorem test_decode_genBBccWrite : decode .genB ⟨.accessWord, [0x38#8, 0x10#8, 0x04#8, 0x00#8, 0x00#8, 0x00#8]⟩ = .ok (.genBBccWrite 4#32) := by decide
theorem test_decode_genBTxdWrite : decode .genB ⟨.accessByte, [0x00#8, 0x12#8, 0x03#8]⟩ = .ok (.genBTxdWrite 0x03#8) := by decide
theorem test_decode_genBRxdRead : decode .genB ⟨.accessByte, [0x00#8, 0x03#8]⟩ = .ok .genBRxdRead := by decide
theorem test_decode_readId : decode .genA ⟨.frame, [0x9F#8, 0x00#8]⟩ = .ok .readId := by decide
theorem test_decode_norReadData : decode .genA ⟨.frame, [0x03#8, 0x01#8, 0x23#8, 0x45#8, 0x3C#8]⟩ = .ok (.norReadData 0x012345#32 60) := by decide
theorem test_decode_pageReadToCache : decode .genB ⟨.frame, [0x13#8, 0x00#8, 0x00#8, 0x40#8]⟩ = .ok (.pageReadToCache 0x40#32) := by decide
theorem test_decode_readStatus : decode .genB ⟨.frame, [0x0F#8, 0xC0#8]⟩ = .ok .readStatus := by decide
theorem test_decode_readFromCache : decode .genA ⟨.frame, [0x0B#8, 0x07#8, 0xF8#8, 0x00#8, 0x08#8]⟩ = .ok (.readFromCache 0x7F8#32 8) := by decide
theorem test_decode_init : decode .genA ⟨.call, [0x01#8]⟩ = .ok .init := by decide
theorem test_decode_deinit : decode .genB ⟨.call, [0x02#8]⟩ = .ok .deinit := by decide
theorem test_decode_enableClock : decode .genA ⟨.call, [0x03#8]⟩ = .ok .enableClock := by decide
theorem test_decode_disableClock : decode .genB ⟨.call, [0x04#8]⟩ = .ok .disableClock := by decide
theorem test_decode_configurePins : decode .genA ⟨.call, [0x05#8, 0x07#8, 0x00#8, 0x00#8, 0x00#8]⟩ = .ok (.configurePins 7) := by decide
theorem test_decode_baseAddress : decode .genB ⟨.call, [0x06#8]⟩ = .ok .baseAddress := by decide
theorem test_decode_isGenB : decode .genA ⟨.call, [0x07#8]⟩ = .ok .isGenB := by decide
theorem test_decode_exchange : decode .genA ⟨.call, [0x08#8, 0x03#8, 0x03#8, 0x00#8, 0x0A#8, 0x00#8, 0x00#8, 0x00#8, 0x01#8, 0x23#8, 0x45#8]⟩ = .ok (.exchange 0x03#8 [0x01#8, 0x23#8, 0x45#8] 0 10) := by decide
theorem test_decode_resolve : decode .genB ⟨.call, [0x09#8, 0xC2#8, 0x12#8, 0xC2#8]⟩ = .ok (.resolve 0xC212C2#24) := by decide
theorem test_decode_read : decode .genA ⟨.call, [0x0A#8, 0x10#8, 0x00#8, 0x00#8, 0x00#8, 0x82#8, 0x00#8, 0x00#8, 0x00#8, 0x00#8, 0x00#8, 0x00#8, 0x00#8, 0x00#8, 0x00#8, 0x00#8, 0x4A#8]⟩ = .ok (.read 0x10#32 130 0x4A000000#32) := by decide
theorem test_decode_norRead : decode .genB ⟨.call, [0x0B#8, 0x45#8, 0x23#8, 0x01#8, 0x00#8, 0x0A#8, 0x00#8, 0x00#8, 0x00#8, 0x00#8, 0x00#8, 0x00#8, 0x00#8, 0x00#8, 0x10#8, 0x00#8, 0x00#8]⟩ = .ok (.norRead 0x012345#32 10 0x1000#32) := by decide
theorem test_decode_nandRead : decode .genA ⟨.call, [0x0C#8, 0xF8#8, 0x07#8, 0x00#8, 0x00#8, 0x10#8, 0x00#8, 0x00#8, 0x00#8, 0x00#8, 0x00#8, 0x00#8, 0x00#8, 0x00#8, 0x20#8, 0x00#8, 0x00#8]⟩ = .ok (.nandRead 2040#32 16 0x2000#32) := by decide
theorem test_decode_loadPage : decode .genA ⟨.call, [0x0D#8, 0x40#8, 0x00#8, 0x00#8, 0x00#8]⟩ = .ok (.loadPage 0x40#32) := by decide
theorem test_decode_waitReady : decode .genB ⟨.call, [0x0E#8]⟩ = .ok .waitReady := by decide
theorem test_decode_fitRead : decode .genA ⟨.call, [0x0F#8, 0x40#8, 0x80#8, 0x00#8, 0x00#8, 0x01#8, 0x00#8, 0x00#8, 0x00#8, 0x00#8, 0x00#8, 0x00#8, 0x00#8, 0x00#8, 0x30#8, 0x00#8, 0x00#8]⟩ = .ok (.fitRead 0x8040#32 1 0x3000#32) := by decide
theorem test_decode_bootAttempt : decode .genA ⟨.call, [0x10#8]⟩ = .ok .bootAttempt := by decide

/-- The three bits above a key are no part of the match (30_encoding.md R111). -/
theorem test_decode_upperBits : decode .genA ⟨.accessWord, [0x28#8, 0xE0#8]⟩ = .ok .genAFifoStaRead := by decide

/-- No row: GenA offset 0x200 (vector V34), GenB RX at offset 0 (V40), a write of GenB RXD (V48), a wrong width. -/
theorem test_decode_noRow :
    decode .genA ⟨.accessWord, [0x00#8, 0x02#8]⟩ = .error .undecodedAccess ∧
    decode .genB ⟨.accessByte, [0x00#8, 0x00#8]⟩ = .error .undecodedAccess ∧
    decode .genB ⟨.accessByte, [0x00#8, 0x13#8, 0x01#8]⟩ = .error .undecodedAccess ∧
    decode .genA ⟨.accessByte, [0x08#8, 0x00#8]⟩ = .error .undecodedAccess := by decide

/-- No frame of 30_encoding.md R115 (vectors V68, V69), and no call number of R142. -/
theorem test_decode_noFrame :
    decode .genA ⟨.frame, [0x05#8]⟩ = .error .unknownFrame ∧
    decode .genA ⟨.frame, [0x0F#8, 0xA0#8]⟩ = .error .unknownFrame ∧
    decode .genA ⟨.call, [0x11#8]⟩ = .error .unknownCall ∧ decode .genA ⟨.call, [0x00#8]⟩ = .error .unknownCall := by decide

/-- Words of spec/opcode_table.json as the table numbers them. -/
theorem test_tableWords :
    decodeTableWord 16 0x1200 = some (.genBTxdWrite 0#8) ∧ decodeTableWord 16 0x0028 = some .genAFifoStaRead ∧
    decodeTableWord 16 0x0FC0 = some .readStatus ∧ decodeTableWord 8 0x9F = some .readId ∧
    decodeTableWord 8 0x13 = some (.pageReadToCache 0#32) ∧ decodeTableWord 8 0x10 = some .bootAttempt ∧
    decodeTableWord 8 0x11 = none := by decide

/-! ### States -/

/-- A clocked controller of a variant with ENABLE, MASTER and the SPI0 pins, as section 2 of the test vectors has it. -/
def clocked (v : Variant) : State :=
  { State.reset with
    cfg := { resetParams with variant := v }
    regs := { State.reset.regs with enable := true, master := true }
    plat := { clkOn := true, pinFn := .spi0 } }

/-- The same with given FIFOs. -/
def withFifos (v : Variant) (tx rx : List Byte) : State :=
  { clocked v with regs := { (clocked v).regs with txFifo := tx, rxFifo := rx } }

/-- The same with counters: BURSTCNT, XFERCNT, BURSTCNT_ALT. -/
def withCounters (v : Variant) (b x c : Word24) (tx : List Byte) : State :=
  { clocked v with regs := { (clocked v).regs with burstCnt := b, xferCnt := x, bcc := c, txFifo := tx } }

/-- The same with a burst in progress: `n` bytes remain, `k` of them header bytes in the TX FIFO. -/
def bursting (v : Variant) (n k : Nat) (rx : List Byte) : State :=
  { withFifos v (List.replicate k 0x0F#8) rx with
    eng := { busy := true, bRemain := n, tRemain := k, cs := true, frame := [], srstBusy := false } }

/-- A GenB controller in its soft reset. -/
def resetting : State := { clocked .genB with eng := { (clocked .genB).eng with srstBusy := true } }

/-- A controller with a live handle, ready for an exchange. -/
def ready (v : Variant) (k : StorageKind) : State :=
  { clocked v with
    cfg := { resetParams with variant := v, storageKind := k }
    seq := { State.reset.seq with handle := true, geometry := some mx35lf1ge4ab } }

theorem ready_ready (v : Variant) (k : StorageKind) : Ready (ready v k) :=
  ⟨rfl, rfl, rfl, rfl, rfl, ⟨rfl, rfl, rfl, rfl, rfl⟩, rfl, rfl⟩

theorem clocked_accessible (v : Variant) : Accessible v (clocked v) := ⟨rfl, rfl, fun _ => rfl⟩

/-! ### What an outcome says -/

def resultOf : Host.Outcome State Fault Refusal → Option Returned
  | .next s => some s.result
  | .fault _ | .refused _ => none

def regsOf : Host.Outcome State Fault Refusal → Option RegBlock
  | .next s => some s.regs
  | .fault _ | .refused _ => none

def refusalOf : Host.Outcome State Fault Refusal → Option Refusal
  | .refused q => some q
  | .next _ | .fault _ => none

def faultOf : Host.Outcome State Fault Refusal → Option Fault
  | .fault f => some f
  | .next _ | .refused _ => none

/-- The engine and the two FIFO counts after some turns. -/
def countsAfter : Res State → Option (Bool × Nat × Nat)
  | .ok s => some (s.eng.busy, s.regs.txFifo.length, s.regs.rxFifo.length)
  | .error _ => none

/-! ### Register accesses: the spec's vectors V20 to V48 -/

theorem test_V20 : resultOf (exec .genACtlRead (clocked .genA)) = some (.word 3#32) := by decide
theorem test_V21 :
    (regsOf (exec (.genACtlWrite 0x303#32) (withFifos .genA [1#8, 2#8] [3#8]))).map (fun r => (r.txFifo, r.rxFifo)) = some ([], []) := by
  decide
theorem test_V22 : refusalOf (exec (.genABcWrite 0x01000000#32) (clocked .genA)) = some .counterTooWide := by decide
theorem test_V23 : resultOf (exec .genABcRead (withCounters .genA 0xFFFFFF#24 0#24 0#24 [])) = some (.word 0x00FFFFFF#32) := by
  decide
theorem test_V24 : faultOf (exec (.genATxWrite 0x55#8) (withFifos .genA (List.replicate 64 0#8) [])) = some .txOverflow := by decide
theorem test_V25 : faultOf (exec .genARxRead (clocked .genA)) = some .rxUnderflow := by decide
theorem test_V26 : refusalOf (exec (.genACtlWrite 0x403#32) (withCounters .genA 5#24 2#24 0#24 [0x9F#8])) = some .fifoNotPrepared := by
  decide
/-- A burst start that would perform a write-enable, a program or a reset is refused (30_encoding.md R131, log 30); any
other header starts (40_registers.md R175), of the five formats or not: 0x05, and 0x0F with 0xA0. -/
theorem test_modifyingHeader :
    refusalOf (exec (.genACtlWrite 0x403#32) (withCounters .genA 1#24 1#24 0#24 [0x06#8])) = some .modifyingCommand ∧
    refusalOf (exec (.genBTcrWrite 0x80000000#32) (withCounters .genB 9#24 4#24 4#24 [0x02#8, 0#8, 0#8, 0#8])) = some .modifyingCommand ∧
    refusalOf (exec (.genACtlWrite 0x403#32) (withCounters .genA 1#24 1#24 0#24 [0xFF#8])) = some .modifyingCommand ∧
    refusalOf (exec (.genACtlWrite 0x403#32) (withCounters .genA 2#24 1#24 0#24 [0x05#8])) = none ∧
    refusalOf (exec (.genACtlWrite 0x403#32) (withCounters .genA 3#24 2#24 0#24 [0x0F#8, 0xA0#8])) = none ∧
    refusalOf (exec (.genACtlWrite 0x403#32) (withCounters .genA 3#24 2#24 0#24 [0x0F#8, 0xC0#8])) = none ∧
    refusalOf (exec (.genACtlWrite 0x403#32) (withCounters .genA 4#24 4#24 0#24 [0x13#8, 0#8, 0#8, 1#8])) = none := by decide
theorem test_V28 : refusalOf (exec (.genACtlWrite 0x403#32) (withCounters .genA 65#24 1#24 0#24 [0x03#8])) = some .burstShape := by
  decide
theorem test_V31 :
    countsAfter (takeTurns [.engine] (bursting .genA 3 2 [])) = some (true, 1, 1) ∧
    countsAfter (takeTurns [.engine, .engine] (bursting .genA 3 2 [])) = some (true, 0, 2) ∧
    countsAfter (takeTurns [.engine, .engine, .engine] (bursting .genA 3 2 [])) = some (false, 0, 3) := by decide
theorem test_V32 : refusalOf (exec (.genATcWrite 2#32) (bursting .genA 3 2 [])) = some .counterWriteDuringBurst := by decide
theorem test_V33 : resultOf (exec .genARxRead (bursting .genA 2 1 [0x0F#8])) = some (.byte 0x0F#8) := by decide
theorem test_V35 : refusalOf (exec .genAFifoStaRead State.reset) = some .accessWhileGated := by decide
theorem test_V36 : fifoStaWord .genA 0xFFFFFFFF#32 5 0 = 0xFF80FF85#32 ∧ fifoStaWord .genA 0#32 5 0 = 5#32 := by decide
theorem test_V42 : resultOf (exec .genBGcrRead resetting) = some (.word 0x80000003#32) := by decide
theorem test_V43 : refusalOf (exec .genBTcrRead resetting) = some .accessDuringSoftReset := by decide
theorem test_V44 :
    refusalOf (exec (.genBTcrWrite 0x80000000#32) (withCounters .genB 5#24 2#24 3#24 [0x9F#8, 0#8])) = some .altCountMismatch := by
  decide
theorem test_V45 :
    (match exec (.genBTcrWrite 0x80000000#32) (withCounters .genB 5#24 2#24 2#24 [0x9F#8, 0#8]) with
      | .next s => decide (s.eng.bRemain = 5) && decide (s.eng.tRemain = 2) && (readTcr s == 0x80000000#32)
      | _ => false) = true := by decide
theorem test_V46 : fifoStaWord .genB 0#32 0 4 = 0x00040000#32 ∧ fifoStaWord .genB 0xFFFFFFFF#32 64 64 = 0xFF40FF40#32 := by decide
theorem test_V47 : refusalOf (exec (.genBGcrWrite 3#32) (bursting .genB 3 2 [])) = some .gcrWriteDuringBurst := by decide
theorem test_genACctl :
    (regsOf (exec (.genACctlWrite 0x1001#32) (clocked .genA))).map RegBlock.cctl = some 0x1001#32 ∧
    resultOf (exec .genACctlRead { clocked .genA with regs := { (clocked .genA).regs with cctl := 7#32 } }) = some (.word 7#32) := by
  decide
theorem test_genBCctl :
    refusalOf (exec (.genBCctlWrite 0x1001#32) (bursting .genB 3 2 [])) = some .cctlWriteDuringBurst ∧
    resultOf (exec .genBCctlRead { clocked .genB with regs := { (clocked .genB).regs with cctl := 7#32 } }) = some (.word 7#32) := by
  decide
theorem test_genATc :
    (regsOf (exec (.genATcWrite 0xFFFFFF#32) (clocked .genA))).map RegBlock.xferCnt = some 0xFFFFFF#24 ∧
    resultOf (exec .genATcRead (withCounters .genA 1#24 2#24 3#24 [])) = some (.word 2#32) := by decide
theorem test_genBCounters :
    (regsOf (exec (.genBMbcWrite 1#32) (clocked .genB))).map RegBlock.burstCnt = some 1#24 ∧
    (regsOf (exec (.genBMtcWrite 2#32) (clocked .genB))).map RegBlock.xferCnt = some 2#24 ∧
    (regsOf (exec (.genBBccWrite 3#32) (clocked .genB))).map RegBlock.bcc = some 3#24 ∧
    resultOf (exec .genBMbcRead (withCounters .genB 1#24 2#24 3#24 [])) = some (.word 1#32) ∧
    resultOf (exec .genBMtcRead (withCounters .genB 1#24 2#24 3#24 [])) = some (.word 2#32) ∧
    resultOf (exec .genBBccRead (withCounters .genB 1#24 2#24 3#24 [])) = some (.word 3#32) := by decide
theorem test_genBData :
    (regsOf (exec (.genBTxdWrite 0x9F#8) (withFifos .genB [1#8] []))).map RegBlock.txFifo = some [1#8, 0x9F#8] ∧
    resultOf (exec .genBRxdRead (withFifos .genB [] [5#8, 6#8])) = some (.byte 5#8) := by decide
theorem test_genBTcrRead : resultOf (exec .genBTcrRead (bursting .genB 3 2 [])) = some (.word 0x80000000#32) := by decide

/-! ### Transport: vectors V52 to V58 -/

theorem test_V52 : refusalOf (exec .init (ready .genA .nor)) = some .handleAlreadyLive := by decide
theorem test_V53 : refusalOf (exec .deinit (clocked .genA)) = some .noHandle := by decide
theorem test_V54 :
    (match exec .deinit (ready .genB .nor) with
      | .next s => (s.plat == { clkOn := false, pinFn := .inert }) && !s.seq.handle && !s.regs.enable && !s.regs.master
      | _ => false) = true := by decide
/-- A controller with a live handle and given turns, whatever it is doing. -/
def live (s : State) (sched : List (List Turn)) : State :=
  { s with seq := { State.reset.seq with handle := true }, env := { sched := sched, hwProgress := true, flashProgress := true } }

/-- A turn between the two accesses of `deinit`'s read-then-write (00_scope.md R16, 20_memory.md R93): on GenA a burst that
ends there makes the write start another with ENABLE 0; on GenB a soft reset that ends there is started again. -/
theorem test_deinit_between :
    refusalOf (exec .deinit (live (bursting .genA 1 0 []) [[], [.engine]])) = some .startWhileDisabled ∧
    refusalOf (exec .deinit (live (bursting .genA 1 0 []) [])) = some .ctlActionDuringBurst ∧
    refusalOf (exec .deinit (live resetting [[], [.engine]])) = some .gateDuringActivity ∧
    refusalOf (exec .deinit (live resetting [])) = some .accessDuringSoftReset := by decide
theorem test_V55 : refusalOf (exec .enableClock (clocked .genA)) = some .clockAlreadyOn := by decide
theorem test_V56 : refusalOf (exec .disableClock (bursting .genA 3 2 [])) = some .gateDuringActivity := by decide
theorem test_V57 : refusalOf (exec (.configurePins 7) (clocked .genA)) = some .badPinFunction := by decide
theorem test_V58 :
    resultOf (exec .isGenB (clocked .genB)) = some (.bool true) ∧ resultOf (exec .isGenB (clocked .genA)) = some (.bool false) ∧
    resultOf (exec .baseAddress { State.reset with cfg := { resetParams with spi0Base := 0x05010000#32 } })
      = some (.word 0x05010000#32) := by decide

/-! ### The exchange's checks: vectors V65 to V70 -/

theorem test_V65 : refusalOf (exec (.exchange 0x9F#8 [] 2 3) (ready .genA .nor)) = some .frameShape := by decide
theorem test_V67 : refusalOf (exec (.exchange 0x03#8 [0#8, 0#8, 0#8] 0 61) (ready .genA .nor)) = some .frameTooLong := by decide
theorem test_V68 : refusalOf (exec (.exchange 0x05#8 [] 0 1) (ready .genA .nor)) = some .unknownFrame := by decide
theorem test_V69 : refusalOf (exec (.exchange 0x0F#8 [0xA0#8] 0 1) (ready .genA .nor)) = some .unknownFrame := by decide
theorem test_V70 : refusalOf (exec (.exchange 0x9F#8 [] 2 3) (clocked .genA)) = some .noHandle := by decide

/-! ### The flash: vectors V80 to V88; each `0xDD` is a draw -/

/-- A device with some bytes in its NOR array, its NAND array (row 0x012345 columns 0 and 0x801, row 0 column 0x7F8) and
its cache. -/
def device : FlashDevice :=
  { norMem := [(0, 0x0A#8), (0x234567, 0x11#8), (0x234568, 0x12#8), (0xFFFFFF, 0x1F#8)]
    nandMem := [(0x012345, 0x22#8), (0x7F8000000, 0x21#8), (0x801012345, 0x23#8)]
    nandCache := [(0x7F8, 0x31#8)], nandCachedRow := some 0#24, nandBusy := false, pendingRow := 0#24
    idBytes := [0xC2#8, 0x12#8, 0xC3#8] }

theorem test_V80 :
    flashRespond .nand 2048 device [0x9F#8, 0#8] 0xDD#8 = 0xC2#8 ∧ flashRespond .nand 2048 device [0x9F#8, 0#8, 0xC2#8] 0xDD#8 = 0x12#8 ∧
    flashRespond .nand 2048 device [0x9F#8, 0#8, 0xC2#8, 0x12#8] 0xDD#8 = 0xC3#8 ∧ flashRespond .nand 2048 device [0x9F#8] 0xDD#8 = 0xDD#8 := by
  decide
theorem test_V82 : jedecOf [0xEF#8, 0x40#8, 0x18#8] = 0xEF4018#24 := by decide
theorem test_V83 :
    wire3 0x01234567#32 = [0x23#8, 0x45#8, 0x67#8] ∧
    flashRespond .nor 2048 device [0x03#8, 0x23#8, 0x45#8, 0x67#8] 0xDD#8 = 0x11#8 ∧
    flashRespond .nor 2048 device [0x03#8, 0x23#8, 0x45#8, 0x67#8, 0#8] 0xDD#8 = 0x12#8 := by decide
theorem test_V84 :
    flashRespond .nor 2048 device [0x03#8, 0xFF#8, 0xFF#8, 0xFE#8, 0#8] 0xDD#8 = 0x1F#8 ∧
    flashRespond .nor 2048 device [0x03#8, 0xFF#8, 0xFF#8, 0xFE#8, 0#8, 0#8] 0xDD#8 = 0x0A#8 := by decide
theorem test_V85 :
    let f := flashEndFrame .nand device [0x13#8, 0x01#8, 0x23#8, 0x45#8]
    f.nandBusy = true ∧ f.pendingRow = 0x012345#24 ∧ (flashLoad f).nandBusy = false ∧ (flashLoad f).nandCachedRow = some 0x012345#24 ∧
      (flashLoad f).nandCache = [(0, 0x22#8), (0x801, 0x23#8)] := by decide
theorem test_V86 :
    flashRespond .nand 2048 { device with nandBusy := true } [0x0F#8, 0xC0#8] 0xDE#8 = 0xDF#8 ∧
    flashRespond .nand 2048 device [0x0F#8, 0xC0#8] 0xDF#8 = 0xDE#8 := by decide
theorem test_V87 :
    wire2 0x7F8#32 = [0x07#8, 0xF8#8] ∧ flashRespond .nand 2048 device [0x0B#8, 0x07#8, 0xF8#8, 0#8] 0xDD#8 = 0x31#8 ∧
    flashRespond .nand 2048 device [0x0B#8, 0x07#8, 0xFF#8, 0#8, 0#8] 0xDD#8 = 0xDD#8 := by decide
theorem test_V88 : flashRespond .nand 2048 { device with nandBusy := true } [0x0B#8, 0x07#8, 0xF8#8, 0#8] 0xDD#8 = 0xDD#8 := by decide

/-! ### The registry: vectors V12 to V17 -/

/-- The reset machine with the fallback allowed. -/
def fallback : State := { State.reset with cfg := { resetParams with allowGenericFallback := true } }

theorem test_V12 : resultOf (exec (.resolve 0xC212C2#24) State.reset) = some (.resolution (.known
    { name := "MX35LF1GE4AB", jedecId := 0xC212C2#24, pageSizeShift := 11#8, pageIndexMask := 0x00FFFFFF#32, columnMask := 0x7FF#32,
      columnShift := 0#8 })) := by decide
theorem test_V13_V16 :
    resolveId fallback.cfg 0#24 = .noChip ∧ resolveId resetParams 0xFFFFFF#24 = .unknown ∧
    resolveId fallback.cfg 0xFFFFFF#24 = .genericFallback (genericGeometry 0xFFFFFF#24) ∧ resolveId resetParams 0xC212C3#24 = .unknown := by
  decide
/-- The limits of 00_scope.md R11 (log 19): a delay of 99 or 201 ns, a status that is not negative, no entry of R293. -/
theorem test_badParameter :
    refusalOf (step { State.reset with cfg := { resetParams with delayNs := 99 } }) = some .badParameter ∧
    refusalOf (step { State.reset with cfg := { resetParams with delayNs := 201 } }) = some .badParameter ∧
    refusalOf (step { State.reset with cfg := { resetParams with errStatus := 0 } }) = some .badParameter ∧
    refusalOf (step { State.reset with cfg := { resetParams with knownChips := [] } }) = some .badParameter := by decide
theorem test_V17 : refusalOf (step { State.reset with cfg := { resetParams with knownChips := [mx35lf1ge4ab, mx35lf1ge4ab] } })
    = some .badChipTable := by decide

/-! ### The chunked reader: vectors V90 to V103 -/

theorem test_V90_V92 :
    [norChunk 130, norChunk 70, norChunk 10] = [60, 60, 10] ∧ [norChunk 60] = [60] ∧ [norChunk 61, norChunk 1] = [60, 1] := by decide
theorem test_V93 :
    rowOf mx35lf1ge4ab 1990#32 = 0#32 ∧ colOf mx35lf1ge4ab 1990#32 = 0x7C6#32 ∧ nandChunk mx35lf1ge4ab 1990 200 = 58 ∧
    rowOf mx35lf1ge4ab 2048#32 = 1#32 ∧ colOf mx35lf1ge4ab 2048#32 = 0#32 ∧ nandChunk mx35lf1ge4ab 2048 142 = 60 ∧
    colOf mx35lf1ge4ab 2168#32 = 0x78#32 ∧ nandChunk mx35lf1ge4ab 2168 22 = 22 := by decide
theorem test_V100 : rowOf mx35lf1ge4ab 0xFFFFF800#32 = 0x1FFFFF#32 ∧ wire3 0x1FFFFF#32 = [0x1F#8, 0xFF#8, 0xFF#8] := by decide
theorem test_V101 : refusalOf (exec (.nandRead 0xFFFFFFF0#32 32 0#32) (ready .genA .nand)) = some .addressOverflow := by decide
theorem test_V102 :
    refusalOf (exec (.read 0#32 1 0#32) { ready .genA .nand with seq := { State.reset.seq with handle := true } }) = some .noGeometry := by
  decide
theorem test_V103 :
    rowOf mx35lf1ge4ab 4000#32 = 1#32 ∧ colOf mx35lf1ge4ab 4000#32 = 0x7A0#32 ∧ nandChunk mx35lf1ge4ab 4000 200 = 60 ∧
    nandChunk mx35lf1ge4ab 4060 140 = 36 ∧ rowOf mx35lf1ge4ab 4096#32 = 2#32 ∧ nandChunk mx35lf1ge4ab 4096 104 = 60 := by decide
theorem test_V105 : oip 0xFE#8 = false ∧ oip 0x01#8 = true := by decide
theorem test_V106 :
    let g := { mx35lf1ge4ab with pageIndexMask := 1#32 }
    mustReload g { addr := 4096, remaining := 8, dst := 0 } (some (rowOf g 4088#32)) = false ∧
    mustReload mx35lf1ge4ab { addr := 4096, remaining := 8, dst := 0 } (some (rowOf mx35lf1ge4ab 4088#32)) = true ∧
    mustReload mx35lf1ge4ab { addr := 4096, remaining := 0, dst := 0 } (some (rowOf mx35lf1ge4ab 4088#32)) = false := by decide
/-- The FIT collaborator writes into a buffer it supplies, before or after it hands it to a read, as far as the buffer
extends; elsewhere it does not (70_reset_and_hazards.md R414, log 33). -/
theorem test_fitWrites :
    fitWritesOk [] [] [] (.read 0#32 16 0x3000#32 (.write 0x300F#32 1#8 (.done true))) = true ∧
    fitWritesOk [] [] [] (.write 0x3000#32 1#8 (.read 0#32 16 0x3000#32 (.done true))) = true ∧
    fitWritesOk [] [] [] (.read 0#32 16 0x3000#32 (.write 0x3010#32 1#8 (.done true))) = false ∧
    fitWritesOk [{ base := 0x2FF0, size := 0x40 }] [] [] (.read 0#32 16 0x3000#32 (.write 0x3010#32 1#8 (.done true))) = true ∧
    fitWritesOk [{ base := 0x2FF0, size := 0x40 }] [] [] (.write 0x2FFF#32 1#8 (.done true)) = false := by decide
theorem test_fitRead_handle : refusalOf (exec (.fitRead 0#32 1 0#32) (clocked .genA)) = some .noHandle := by decide
theorem test_loadPage_handle : refusalOf (exec (.loadPage 0#32) (clocked .genA)) = some .noHandle := by decide
theorem test_waitReady_handle : refusalOf (exec .waitReady (clocked .genA)) = some .noHandle := by decide

/-! ### The boot sequence: vector V110; and the codes of 60_exceptions.md R360 -/

theorem test_V110 :
    bootOffset { resetParams with ownImageSize := 0x6000#32, configuredImageOffset := 0x8000#32 } = 0x8000#32 ∧
    bootOffset { resetParams with ownImageSize := 0x9000#32, configuredImageOffset := 0x8000#32 } = 0x9000#32 := by decide
theorem test_errorCodes : [ErrorKind.noChipDetected, .unsupportedChip, .checksumInvalid, .imageParseError].map errorCode
    = [some 1, some 2, some 3, some 4] := by decide
theorem test_bootAttempt_live : refusalOf (exec .bootAttempt (ready .genA .nor)) = some .handleAlreadyLive := by decide

/-! ### Memory -/

theorem test_memory :
    writeByte [(2, 5#8)] 1 7#8 = [(1, 7#8), (2, 5#8)] ∧ writeByte [(2, 5#8)] 2 blankByte = [] ∧ readByte [] 3 = 0xFF#8 ∧
    memoryOk [(2, 5#8), (1, 7#8)] = false ∧ memoryOk [(1, 0xFF#8)] = false := by decide

/-- Host memory after one write, in a machine whose memory is 16 bytes at 0x1000: an address outside keeps nothing
(93_implementation_defined.md U20, log 32). -/
def written (a : Nat) : Option Memory :=
  match memWrite a 7#8 { State.reset with cfg := { resetParams with hostMap := [{ base := 0x1000, size := 16 }] } } with
  | .ok s => some s.hostMem
  | .error _ => none

theorem test_hostMap : written 0x1000 = some [(0x1000, 7#8)] ∧ written 0x100F = some [(0x100F, 7#8)] ∧ written 0x1010 = some [] ∧
    written 0xFFF = some [] := by decide

/-- A column of more than 16 bits has its own place (10_state.md R51). -/
theorem test_nandColumns :
    nandKey 5 0x10000 = 0x10000000005 ∧ pageOf [(nandKey 5 0, 1#8), (nandKey 6 0, 2#8), (nandKey 5 0x10000, 3#8)] 5
      = [(0, 1#8), (0x10000, 3#8)] := by decide

/-! ### Steps -/

/-- The step runs the one instruction `withFetchWord` places, in the variant whose row it is. -/
theorem test_step_word :
    (match step (State.reset.withFetchWord 8 0x04) with | .next s => !s.plat.clkOn && s.program.isEmpty | _ => false) = true ∧
    refusalOf (step (State.reset.withFetchWord 16 0x1200)) = some .accessWhileGated ∧
    refusalOf (step State.reset) = some .hostIdle := by decide

/-! ### Witnesses: for each statement with premises, states and operands that meet them, clause by clause -/

theorem witness_DecodeEncode :
    (WellFormed (.norReadData 0xFFFFFF#32 60) ∧ rowVariant (.norReadData 0xFFFFFF#32 60) = none) ∧
    (WellFormed (.fitRead 0#32 0xFFFFFFFFFFFFFFFF 0#32) ∧ rowVariant (.fitRead 0#32 0xFFFFFFFFFFFFFFFF 0#32) = none) ∧
    (WellFormed (.genATxWrite 0xFF#8) ∧ rowVariant (.genATxWrite 0xFF#8) = some .genA) ∧
    (WellFormed (.genBBccWrite 0#32) ∧ rowVariant (.genBBccWrite 0#32) = some .genB) := by decide

theorem witness_UndecodedAccessRefused :
    ((0x0C#8).toNat + 256 * (0x00#8).toNat) % 2 ^ 13 ∉ legalKeys .genA true ∧
    ((0xFF#8).toNat + 256 * (0x1F#8).toNat) % 2 ^ 13 ∉ legalKeys .genB false ∧
    ((0x28#8).toNat + 256 * (0xE0#8).toNat) % 2 ^ 13 ∈ legalKeys .genA true ∧
    ((0x00#8).toNat + 256 * (0x12#8).toNat) % 2 ^ 13 ∈ legalKeys .genB false := by decide

/-- A ready controller with one request, `baseAddress`, and given turns. -/
def pending (sched : List (List Turn)) : State :=
  { ready .genA .nand with program := [⟨.call, [0x06#8]⟩], env := { sched := sched, hwProgress := true, flashProgress := true } }

theorem witness_StepRunsDecoded (sched : List (List Turn)) (h : sched = [] ∨ sched = [[.engine, .flash], [.engine]]) :
    chipTableOk (pending sched).cfg.knownChips = true ∧ paramsOk (pending sched).cfg = true ∧ (pending sched).program = [⟨.call, [0x06#8]⟩] ∧
    decode (pending sched).cfg.variant ⟨.call, [0x06#8]⟩ = .ok .baseAddress ∧ WellFormed .baseAddress ∧
    ∃ t, gap (pending sched) = .ok t := by
  rcases h with rfl | rfl <;> exact ⟨by decide, by decide, rfl, by decide, by decide, _, rfl⟩

/-- The known chip under other identifiers. -/
def chip (id : Word24) : FlashGeometry := { mx35lf1ge4ab with jedecId := id }

theorem witness_BadChipTableRefused :
    ¬ ((∀ e ∈ [chip 0#24], e.jedecId ≠ 0#24) ∧ [chip 0#24].Pairwise (fun a b => a.jedecId ≠ b.jedecId)) ∧
    ¬ ((∀ e ∈ [chip 1#24, chip 1#24], e.jedecId ≠ 0#24) ∧ [chip 1#24, chip 1#24].Pairwise (fun a b => a.jedecId ≠ b.jedecId)) ∧
    ((∀ e ∈ [chip 1#24, chip 2#24], e.jedecId ≠ 0#24) ∧ [chip 1#24, chip 2#24].Pairwise (fun a b => a.jedecId ≠ b.jedecId)) := by
  decide

/-- Within the limits, at both ends of the delay's range; and outside them by each limit alone. -/
theorem witness_ParameterLimits :
    let ok (p : Params) := 100 ≤ p.delayNs ∧ p.delayNs ≤ 200 ∧ p.errStatus < 0 ∧ mx35lf1ge4ab ∈ p.knownChips ∧
      ∀ r ∈ p.collab.fitRuns, fitWritesOk p.collab.fitBuffers [] [] r.2 = true
    chipTableOk resetParams.knownChips = true ∧ ok resetParams ∧ ok { resetParams with delayNs := 100 } ∧
    ¬ ok { resetParams with delayNs := 99 } ∧ ¬ ok { resetParams with delayNs := 201 } ∧ ¬ ok { resetParams with errStatus := 0 } ∧
    (chipTableOk [chip 1#24] = true ∧ ¬ ok { resetParams with knownChips := [chip 1#24] }) ∧
    ¬ ok { resetParams with collab := { resetParams.collab with fitRuns := [([], .write 0#32 0#8 (.done true))] } } ∧
    ok { resetParams with collab := { resetParams.collab with
      fitRuns := [([], .write 0#32 0#8 (.read 0#32 1 0#32 (.done true)))] } } := by decide

theorem withFifos_accessible (v : Variant) (tx rx : List Byte) : Accessible v (withFifos v tx rx) := ⟨rfl, rfl, fun _ => rfl⟩
theorem bursting_accessible (v : Variant) (n k : Nat) (rx : List Byte) : Accessible v (bursting v n k rx) := ⟨rfl, rfl, fun _ => rfl⟩

theorem witness_RxPop (v : Variant) :
    Accessible v (withFifos v [] [0x0F#8]) ∧ (withFifos v [] [0x0F#8]).regs.rxFifo = [0x0F#8] ∧ (clocked v).regs.rxFifo = [] ∧
    Accessible v (clocked v) := ⟨⟨rfl, rfl, fun _ => rfl⟩, rfl, rfl, ⟨rfl, rfl, fun _ => rfl⟩⟩

theorem witness_TxPush (v : Variant) :
    (Accessible v (bursting v 3 2 []) ∧ (bursting v 3 2 []).eng.busy = true) ∧
    (Accessible v (withFifos v (List.replicate 64 0#8) []) ∧ (withFifos v (List.replicate 64 0#8) []).regs.txFifo.length = 64) ∧
    (Accessible v (withFifos v (List.replicate 63 0#8) []) ∧ (withFifos v (List.replicate 63 0#8) []).regs.txFifo.length = 63) :=
  ⟨⟨⟨rfl, rfl, fun _ => rfl⟩, rfl⟩, ⟨⟨rfl, rfl, fun _ => rfl⟩, rfl⟩, ⟨rfl, rfl, fun _ => rfl⟩, rfl⟩

theorem witness_ControlReads :
    Accessible .genA (bursting .genA 3 2 []) ∧ Accessible .genB (clocked .genB) ∧
    (resetting.cfg.variant = .genB ∧ resetting.plat.clkOn = true ∧ resetting.eng.srstBusy = true) :=
  ⟨⟨rfl, rfl, fun _ => rfl⟩, ⟨rfl, rfl, fun _ => rfl⟩, rfl, rfl, rfl⟩

/-- A GenA controller prepared for the burst of vector V31, and one with a header byte missing. -/
def prepared (v : Variant) (tx : List Byte) : State := withCounters v 3#24 2#24 2#24 tx

theorem prepared_accessible (v : Variant) (tx : List Byte) : Accessible v (prepared v tx) := ⟨rfl, rfl, fun _ => rfl⟩

theorem witness_GenACtlWrites :
    (Accessible .genA (bursting .genA 3 2 []) ∧ (bursting .genA 3 2 []).eng.busy = true ∧ (0x103#32).getLsbD 8 = true) ∧
    (Accessible .genA (clocked .genA) ∧ (clocked .genA).eng.busy = false ∧ (0x303#32).getLsbD 10 = false) ∧
    (Accessible .genA (prepared .genA [0x0F#8, 0xC0#8]) ∧ (0x403#32).getLsbD 10 = true ∧
      startRefusal (prepared .genA [0x0F#8, 0xC0#8]) = none) ∧
    (Accessible .genA (prepared .genA [0x0F#8]) ∧ startRefusal (prepared .genA [0x0F#8]) = some .fifoNotPrepared) ∧
    (Accessible .genA (prepared .genA [0xD8#8, 0x00#8]) ∧ startRefusal (prepared .genA [0xD8#8, 0x00#8]) = some .modifyingCommand) :=
  ⟨⟨⟨rfl, rfl, fun _ => rfl⟩, rfl, by decide⟩, ⟨⟨rfl, rfl, fun _ => rfl⟩, rfl, by decide⟩,
    ⟨⟨rfl, rfl, fun _ => rfl⟩, by decide, by decide⟩, ⟨⟨rfl, rfl, fun _ => rfl⟩, by decide⟩, ⟨rfl, rfl, fun _ => rfl⟩, by decide⟩

theorem witness_GenBGcrWrites :
    (Accessible .genB (bursting .genB 3 2 []) ∧ (bursting .genB 3 2 []).eng.busy = true) ∧
    (Accessible .genB (clocked .genB) ∧ (clocked .genB).eng.busy = false ∧ (0x80000000#32).getLsbD 31 = true ∧
      (0x3#32).getLsbD 31 = false) ∧ resetting.eng.srstBusy = true :=
  ⟨⟨⟨rfl, rfl, fun _ => rfl⟩, rfl⟩, ⟨⟨rfl, rfl, fun _ => rfl⟩, rfl, by decide, by decide⟩, rfl⟩

theorem witness_GenBTcrWrites :
    (Accessible .genB (bursting .genB 3 2 []) ∧ (bursting .genB 3 2 []).eng.busy = true) ∧
    (Accessible .genB (prepared .genB [0x0F#8, 0xC0#8]) ∧ (prepared .genB [0x0F#8, 0xC0#8]).eng.busy = false ∧
      startRefusal (prepared .genB [0x0F#8, 0xC0#8]) = none ∧ (0x80000000#32).getLsbD 31 = true ∧ (0x1#32).getLsbD 31 = false) ∧
    (Accessible .genB (withCounters .genB 5#24 2#24 3#24 []) ∧
      startRefusal (withCounters .genB 5#24 2#24 3#24 []) = some .altCountMismatch) :=
  ⟨⟨⟨rfl, rfl, fun _ => rfl⟩, rfl⟩, ⟨⟨rfl, rfl, fun _ => rfl⟩, rfl, by decide, by decide, by decide⟩, ⟨rfl, rfl, fun _ => rfl⟩, by decide⟩

/-- For ClockControl too. -/
theorem witness_Counters (v : Variant) :
    (Accessible v (clocked v) ∧ (clocked v).eng.busy = false) ∧ (Accessible v (bursting v 3 2 []) ∧ (bursting v 3 2 []).eng.busy = true) ∧
    2 ^ 24 ≤ (0x01000000#32).toNat ∧ (0x00FFFFFF#32).toNat < 2 ^ 24 :=
  ⟨⟨⟨rfl, rfl, fun _ => rfl⟩, rfl⟩, ⟨⟨rfl, rfl, fun _ => rfl⟩, rfl⟩, by decide, by decide⟩

theorem witness_FifoStatus (v : Variant) :
    Accessible v (withFifos v (List.replicate 64 0#8) (List.replicate 64 0#8)) ∧
    (withFifos v (List.replicate 64 0#8) (List.replicate 64 0#8)).regs.rxFifo.length ≤ 64 ∧
    (withFifos v (List.replicate 64 0#8) (List.replicate 64 0#8)).regs.txFifo.length ≤ 64 :=
  ⟨⟨rfl, rfl, fun _ => rfl⟩, Nat.le_refl 64, Nat.le_refl 64⟩

theorem witness_AccessPreconditions :
    rowVariant .genBTcrRead = some .genB ∧ State.reset.plat.clkOn = false ∧
    (resetting.plat.clkOn = true ∧ resetting.cfg.variant = .genB ∧ resetting.eng.srstBusy = true ∧ Instr.genBTcrRead ≠ .genBGcrRead) ∧
    ((clocked .genA).plat.clkOn = true ∧ ((clocked .genA).cfg.variant = .genB → (clocked .genA).eng.srstBusy = false) ∧
      (clocked .genA).cfg.variant ≠ .genB) := by decide

theorem witness_EngineByteStep :
    (let s := bursting .genA 1 0 (List.replicate 64 0#8);
      s.eng.srstBusy = false ∧ s.eng.busy = true ∧ 0 < s.eng.bRemain ∧ s.regs.rxFifo.length = 64) ∧
    (let s := bursting .genA 1 0 (List.replicate 63 0#8);
      s.eng.srstBusy = false ∧ s.eng.busy = true ∧ s.eng.bRemain = 1 ∧ s.eng.tRemain = 0 ∧ s.regs.rxFifo.length < 64) ∧
    (let s := bursting .genA 3 2 [];
      s.eng.srstBusy = false ∧ s.eng.busy = true ∧ 1 < s.eng.bRemain ∧ 0 < s.eng.tRemain ∧ s.regs.txFifo ≠ [] ∧
        s.regs.rxFifo.length < 64) := by decide

theorem witness_BurstCompletes :
    (let s := bursting .genA 64 4 [];
      s.eng.srstBusy = false ∧ s.eng.busy = true ∧ s.eng.bRemain = 64 ∧ s.eng.tRemain ≤ 64 ∧ s.regs.txFifo.length = s.eng.tRemain ∧
        s.regs.rxFifo = [] ∧ s.eng.frame = []) ∧
    (let s := bursting .genB 1 1 [];
      s.eng.srstBusy = false ∧ s.eng.busy = true ∧ s.eng.bRemain = 1 ∧ s.eng.tRemain ≤ 1 ∧ s.regs.txFifo.length = s.eng.tRemain ∧
        s.regs.rxFifo = [] ∧ s.eng.frame = []) := by decide

/-- A ready NAND controller whose device is loading a page, with given turns and no Flash progress. -/
def loading (sched : List (List Turn)) (progress : Bool) : State :=
  { ready .genA .nand with
    flash := { State.reset.flash with nandBusy := true, pendingRow := 1#24 }
    env := { sched := sched, hwProgress := true, flashProgress := progress } }

theorem loading_ready (sched : List (List Turn)) (progress : Bool) : Ready (loading sched progress) :=
  ⟨rfl, rfl, rfl, rfl, rfl, ⟨rfl, rfl, rfl, rfl, rfl⟩, rfl, rfl⟩

theorem witness_FlashPageLoad :
    (let page (k : StorageKind) (fr : List Byte) := k = .nand ∧ ∃ (a b c : Byte) (more : List Byte), fr = 0x13#8 :: a :: b :: c :: more;
      ¬ page .nand [] ∧ ¬ page .nand [0x0B#8, 0#8, 0#8, 0#8] ∧ ¬ page .nand [0x13#8, 0#8, 0#8] ∧ ¬ page .nor [0x13#8, 0#8, 0#8, 1#8]) ∧
    State.reset.flash.nandBusy = false ∧ (loading [] true).flash.nandBusy = true := by simp [State.reset, loading]

theorem witness_FlashAnswers :
    [0xC2#8, 0x12#8].length < device.idBytes.length ∧ device.nandBusy = false ∧ device.nandCachedRow.isSome = true ∧
    (0x07#8).toNat * 2 ^ 8 + (0xF8#8).toNat + (List.replicate 7 0#8).length < 2048 := by decide

theorem witness_InitCompletes (v : Variant) :
    let s := { State.reset with cfg := { resetParams with variant := v } }
    stateOk s = true ∧ s.seq.handle = false ∧ s.plat.clkOn = false ∧ (s.cfg.variant = .genB → s.env.hwProgress = true) :=
  ⟨by cases v <;> decide, rfl, rfl, fun _ => rfl⟩

theorem witness_HandleDiscipline :
    (ready .genA .nor).seq.handle = true ∧ stateOk State.reset = true ∧ State.reset.seq.handle = false := by decide

theorem witness_DeinitQuiesces :
    (let s := ready .genB .nand;
      s.seq.handle = true ∧ s.plat.clkOn = true ∧ s.eng.srstBusy = false ∧ s.eng.busy = false ∧
        s.cfg.pinFunctionInert ≠ s.cfg.pinFunctionSpi0 ∧ rowVariant .genBGcrRead = some .genB) ∧
    (let s := live (bursting .genA 3 2 []) [[.flash], [], [.engine]];
      s.seq.handle = true ∧ s.plat.clkOn = true ∧ s.eng.srstBusy = false ∧ s.eng.busy = true ∧
        ∀ ts ∈ s.env.sched.take 2, Turn.engine ∉ ts) := by decide

theorem witness_EnableClock : (clocked .genA).plat.clkOn = true ∧ State.reset.plat.clkOn = false := by decide

theorem witness_DisableClock :
    (bursting .genA 3 2 []).eng.busy = true ∧ resetting.eng.srstBusy = true ∧
    ((clocked .genA).eng.busy = false ∧ (clocked .genA).eng.srstBusy = false) ∧ rowVariant .genACtlRead = some .genA := by decide

theorem witness_ConfigurePins :
    1 = resetParams.pinFunctionSpi0 ∧ (0 ≠ resetParams.pinFunctionSpi0 ∧ 0 = resetParams.pinFunctionInert) ∧
    (7 ≠ resetParams.pinFunctionSpi0 ∧ 7 ≠ resetParams.pinFunctionInert) := by decide

/-- The longest exchange, and the shortest header; for ExchangeOnlyHangs and SameOnBothGenerations too. -/
theorem witness_ExchangeCompletes (v : Variant) (k : StorageKind) :
    Ready (ready v k) ∧ (ready v k).env.hwProgress = true ∧
    ([0x03#8, 0x01#8, 0x23#8, 0x45#8].length + 60 ≤ 64 ∧ KnownFrame [0x03#8, 0x01#8, 0x23#8, 0x45#8]) ∧
    ([0x9F#8, 0x00#8].length + 62 ≤ 64 ∧ KnownFrame (0x9F#8 :: ([] ++ List.replicate 1 0x00#8))) :=
  ⟨ready_ready v k, rfl, ⟨by decide, .inr (.inr (.inl ⟨_, _, _, rfl⟩))⟩, by decide, .inl rfl⟩

theorem witness_ExchangeChecks :
    (ready .genA .nor).seq.handle = true ∧ 3 < [0#8, 0#8, 0#8, 0#8].length ∧ 64 < 1 + [0#8, 0#8, 0#8].length + 0 + 61 ∧
    ¬ KnownFrame (0x0F#8 :: ([0xA0#8] ++ List.replicate 0 0x00#8)) := by
  refine ⟨rfl, by decide, by decide, ?_⟩
  simp [KnownFrame]

/-- An Engine that never takes a turn, with Flash turns scheduled. -/
def stalled (v : Variant) : State :=
  { ready v .nand with env := { sched := [[.flash]], hwProgress := false, flashProgress := true } }

theorem witness_HangsWithoutEngine :
    ((stalled .genB).env.hwProgress = false ∧ (∀ ts ∈ (stalled .genB).env.sched, Turn.engine ∉ ts)) ∧ Ready (stalled .genB) ∧
    (let s := { State.reset with cfg := { resetParams with variant := .genB }, env := (stalled .genB).env };
      s.cfg.variant = .genB ∧ s.seq.handle = false ∧ s.plat.clkOn = false) :=
  ⟨by decide, ⟨rfl, rfl, rfl, rfl, rfl, ⟨rfl, rfl, rfl, rfl, rfl⟩, rfl, rfl⟩, rfl, rfl, rfl⟩

theorem witness_ReadIdReturns :
    Ready (ready .genB .nor) ∧ (ready .genB .nor).env.hwProgress = true ∧
    (ready .genB .nor).flash.idBytes = 0xC2#8 :: 0x12#8 :: 0xC2#8 :: [] := ⟨ready_ready _ _, rfl, rfl⟩

theorem witness_NorReadDataReturns :
    Ready (ready .genA .nor) ∧ (ready .genA .nor).env.hwProgress = true ∧ 60 < 61 ∧ 60 ≤ 60 ∧
    (ready .genA .nor).cfg.storageKind = .nor := ⟨ready_ready _ _, rfl, by decide, by decide, rfl⟩

theorem witness_PageReadStartsLoad :
    Ready (ready .genA .nor) ∧ Ready (ready .genA .nand) ∧ (ready .genA .nand).env.hwProgress = true ∧
    (ready .genA .nor).cfg.storageKind = .nor ∧ (ready .genA .nand).cfg.storageKind = .nand :=
  ⟨ready_ready _ _, ready_ready _ _, rfl, rfl, rfl⟩

theorem witness_ReadStatusReturns :
    (Ready (ready .genA .nand) ∧ (ready .genA .nand).env.hwProgress = true ∧ (ready .genA .nand).flash.nandBusy = false) ∧
    (Ready (loading [[.engine]] false) ∧ (loading [[.engine]] false).flash.nandBusy = true ∧
      (loading [[.engine]] false).env.flashProgress = false ∧ ∀ ts ∈ (loading [[.engine]] false).env.sched, Turn.flash ∉ ts) :=
  ⟨⟨ready_ready _ _, rfl, rfl⟩, loading_ready _ _, rfl, rfl, by decide⟩

theorem witness_ReadFromCacheReturns :
    let s := { ready .genA .nand with flash := device }
    Ready s ∧ s.env.hwProgress = true ∧ s.cfg.storageKind = .nand ∧ s.flash.nandBusy = false ∧ s.flash.nandCachedRow.isSome = true ∧
      (0x7F8#32).toNat % 2 ^ 16 + 7 < s.cfg.nandPageSize :=
  ⟨⟨rfl, rfl, rfl, rfl, rfl, ⟨rfl, rfl, rfl, rfl, rfl⟩, rfl, rfl⟩, rfl, rfl, rfl, rfl, by decide⟩

theorem witness_Resolve :
    (0xC212C2#24 ≠ 0#24 ∧ resetParams.knownChips = [] ++ mx35lf1ge4ab :: [] ∧ mx35lf1ge4ab.jedecId = 0xC212C2#24) ∧
    (0xC212C3#24 ≠ 0#24 ∧ ∀ e ∈ resetParams.knownChips, e.jedecId ≠ 0xC212C3#24) := by decide

theorem witness_ZeroLengthRead :
    (ready .genA .nand).seq.handle = true ∧ (ready .genA .nand).seq.geometry ≠ none ∧ (ready .genA .nor).cfg.storageKind = .nor := by
  decide

theorem witness_ReadChecks :
    State.reset.seq.handle = false ∧
    (let s := { ready .genA .nand with seq := { State.reset.seq with handle := true } };
      s.seq.handle = true ∧ s.cfg.storageKind = .nand ∧ s.seq.geometry = none) ∧
    ((ready .genA .nand).seq.handle = true ∧ (ready .genA .nand).seq.geometry ≠ none ∧ 2 ^ 32 < (0xFFFFFFF0#32).toNat + 17 ∧
      ¬ 2 ^ 32 < (0xFFFFFFF0#32).toNat + 16) := by decide

theorem witness_NorReadFills (v : Variant) (k : StorageKind) :
    stateOk (ready v k) = true ∧ Ready (ready v k) ∧ (ready v k).env.hwProgress = true ∧ (ready v .nor).cfg.storageKind = .nor ∧
    (0xFFFFFFFF#32).toNat + 1 ≤ 2 ^ 32 ∧ (0x1000#32).toNat + 130 ≤ 2 ^ 32 :=
  ⟨by cases v <;> cases k <;> decide, ready_ready _ _, rfl, rfl, by decide, by decide⟩

/-- At the last byte of the address space, and across the page boundary of vector V2. -/
theorem witness_geometry : GeometryFits mx35lf1ge4ab 2048 0xFFFFFFFF 1 ∧ GeometryFits mx35lf1ge4ab 2048 2040 16 := by
  refine ⟨⟨by decide, by decide, ?_⟩, by decide, by decide, ?_⟩
  · intro a h1 h2
    obtain rfl : a = 0xFFFFFFFF := by omega
    decide
  · intro a h1 h2
    have key : ∀ j : Fin 16, (rowOf mx35lf1ge4ab (BitVec.ofNat 32 (2040 + j.val))).toNat = (2040 + j.val) / 2 ^ 11 ∧
        (colOf mx35lf1ge4ab (BitVec.ofNat 32 (2040 + j.val))).toNat = (2040 + j.val) % 2 ^ 11 := by decide
    obtain ⟨j, rfl⟩ := Nat.exists_eq_add_of_le h1
    exact key ⟨j, by omega⟩

theorem witness_NandReadFills (v : Variant) :
    stateOk (ready v .nand) = true ∧ Ready (ready v .nand) ∧ (ready v .nand).env.hwProgress = true ∧
    (ready v .nand).env.flashProgress = true ∧ (ready v .nand).cfg.storageKind = .nand ∧ (ready v .nand).seq.geometry = some mx35lf1ge4ab ∧
    (0xFFFFFFFF#32).toNat + 1 ≤ 2 ^ 32 ∧ GeometryFits mx35lf1ge4ab (ready v .nand).cfg.nandPageSize (0xFFFFFFFF#32).toNat 1 ∧
    (2040#32).toNat + 16 ≤ 2 ^ 32 ∧ GeometryFits mx35lf1ge4ab (ready v .nand).cfg.nandPageSize (2040#32).toNat 16 :=
  ⟨by cases v <;> decide, ready_ready _ _, rfl, rfl, rfl, rfl, by decide, witness_geometry.1, by decide, witness_geometry.2⟩

theorem witness_TableGeometriesFit : 2048 ≤ resetParams.nandPageSize ∧ 0 + 2 ^ 32 ≤ 2 ^ 32 := by decide

theorem witness_ReloadCondition :
    let s := { ready .genA .nand with seq := { State.reset.seq with cachedPage := some 1#32 } }
    s.seq.cachedPage = some 1#32 ∧ (1#32).toNat < (rowOf mx35lf1ge4ab (BitVec.ofNat 32 4096)).toNat ∧
      (rowOf mx35lf1ge4ab (BitVec.ofNat 32 4095)).toNat ≤ (1#32).toNat := by decide

theorem witness_LoadPageCompletes :
    Ready (ready .genB .nand) ∧ (ready .genB .nand).env.hwProgress = true ∧ (ready .genB .nand).env.flashProgress = true ∧
    (ready .genB .nand).cfg.storageKind = .nand := ⟨ready_ready _ _, rfl, rfl, rfl⟩

theorem witness_WaitReady :
    (Ready (ready .genB .nand) ∧ (ready .genB .nand).env.hwProgress = true ∧ (ready .genB .nand).cfg.storageKind = .nand ∧
      (ready .genB .nand).flash.nandBusy = false) ∧
    (Ready (loading [[.flash]] true) ∧ (loading [[.flash]] true).flash.nandBusy = true ∧ (loading [[.flash]] true).env.flashProgress = true) ∧
    (Ready (loading [[.engine]] false) ∧ (loading [[.engine]] false).flash.nandBusy = true ∧
      (loading [[.engine]] false).env.flashProgress = false ∧ ∀ ts ∈ (loading [[.engine]] false).env.sched, Turn.flash ∉ ts) :=
  ⟨⟨ready_ready _ _, rfl, rfl, rfl⟩, ⟨loading_ready _ _, rfl, rfl⟩, loading_ready _ _, rfl, rfl, by decide⟩

/-! #### The boot sequence -/

/-- A machine before a boot attempt: a NOR board with an empty flash array, a header buffer, and collaborators. -/
def unbooted (v : Variant) (c : Collaborators) : State :=
  { State.reset with
    cfg := { resetParams with variant := v, storageKind := .nor, hdrBuf := 0x1000#32, allowFit := true, collab := c } }

/-- The 64 header bytes an empty flash array holds. -/
def blankHeader : List Byte := List.replicate 64 0xFF#8

theorem unbooted_ready (v : Variant) (c : Collaborators) : BootReady (unbooted v c) := ⟨rfl, rfl, by show 0 ≠ 1; decide, rfl⟩
theorem unbooted_boots (v : Variant) (c : Collaborators) : BootsWith (unbooted v c) mx35lf1ge4ab := ⟨by show 3 ≤ 3; decide, .inl (by
  simp [resolveId, findChip, deviceId, jedecOf, unbooted, State.reset, resetParams, mx35lf1ge4ab])⟩
theorem unbooted_header (v : Variant) (c : Collaborators) : flashHeader (unbooted v c) mx35lf1ge4ab = blankHeader := rfl
theorem unbooted_readable (v : Variant) (c : Collaborators) {addr dst : Word} {len : Nat} (h : addr.toNat + len ≤ 2 ^ 32)
    (k : dst.toNat + len ≤ 2 ^ 32) : Readable (unbooted v c) mx35lf1ge4ab addr dst len :=
  ⟨h, k, fun x _ hx => by
    have hx : x < 2 ^ 32 := by omega
    show hostBacked resetParams x = true
    simpa [hostBacked, regionHolds, resetParams] using hx, fun hk => by cases hk⟩

theorem witness_BootNoChip :
    let s := { State.reset with flash := { State.reset.flash with idBytes := [0x00#8, 0x00#8, 0x00#8] } }
    stateOk s = true ∧ BootReady s ∧ s.flash.idBytes.take 3 = [0x00#8, 0x00#8, 0x00#8] := ⟨by decide, ⟨rfl, rfl, by decide, rfl⟩, rfl⟩

/-- A machine with a chip attached that is no entry of its table, the chip of vector V82. -/
def strange : State := { State.reset with flash := { State.reset.flash with idBytes := [0xEF#8, 0x40#8, 0x18#8] } }

theorem witness_BootUnsupportedChip :
    let s := strange
    stateOk s = true ∧ BootReady s ∧ 3 ≤ s.flash.idBytes.length ∧ deviceId s.flash ≠ 0#24 ∧ (∀ e ∈ s.cfg.knownChips, e.jedecId ≠ deviceId s.flash) ∧
      s.cfg.allowGenericFallback = false := ⟨by decide, ⟨rfl, rfl, by decide, rfl⟩, by decide, by decide, by decide, rfl⟩

/-- An invalid header, and a valid one that is neither FIT nor raw; for the two image statements, their premises on the header. -/
theorem witness_BootHeaderErrors (v : Variant) :
    (let s := unbooted v { validHeaders := [], fitHeaders := [], rawImages := [], fitRuns := [], fitBuffers := [] };
      stateOk s = true ∧ BootReady s ∧ BootsWith s mx35lf1ge4ab ∧ Readable s mx35lf1ge4ab (bootOffset s.cfg) s.cfg.hdrBuf 64 ∧
        headerValid s.cfg (flashHeader s mx35lf1ge4ab) = false) ∧
    (let s := unbooted v { validHeaders := [blankHeader], fitHeaders := [], rawImages := [], fitRuns := [], fitBuffers := [] };
      stateOk s = true ∧ BootReady s ∧ BootsWith s mx35lf1ge4ab ∧ Readable s mx35lf1ge4ab (bootOffset s.cfg) s.cfg.hdrBuf 64 ∧
        headerValid s.cfg (flashHeader s mx35lf1ge4ab) = true ∧ isFitHeader s.cfg (flashHeader s mx35lf1ge4ab) = false ∧
        rawParse s.cfg (flashHeader s mx35lf1ge4ab) = none) :=
  ⟨⟨by cases v <;> rfl, unbooted_ready _ _, unbooted_boots _ _,
      unbooted_readable _ _ (by cases v <;> decide) (by cases v <;> decide), rfl⟩,
    by cases v <;> rfl, unbooted_ready _ _, unbooted_boots _ _,
      unbooted_readable _ _ (by cases v <;> decide) (by cases v <;> decide), by cases v <;> decide, rfl, rfl⟩

theorem witness_BootRawImage (v : Variant) :
    let s := unbooted v { validHeaders := [blankHeader], fitHeaders := [], fitRuns := [], fitBuffers := [],
                          rawImages := [(blankHeader, { loadAddress := 0x4A000000#32, size := 130#32 })] }
    stateOk s = true ∧ BootReady s ∧ BootsWith s mx35lf1ge4ab ∧ Readable s mx35lf1ge4ab (bootOffset s.cfg) s.cfg.hdrBuf 64 ∧
      headerValid s.cfg (flashHeader s mx35lf1ge4ab) = true ∧ isFitHeader s.cfg (flashHeader s mx35lf1ge4ab) = false ∧
      rawParse s.cfg (flashHeader s mx35lf1ge4ab) = some { loadAddress := 0x4A000000#32, size := 130#32 } ∧
      Readable s mx35lf1ge4ab (bootOffset s.cfg) 0x4A000000#32 (130#32).toNat :=
  ⟨by cases v <;> rfl, unbooted_ready _ _, unbooted_boots _ _, unbooted_readable _ _ (by cases v <;> decide) (by cases v <;> decide),
    by cases v <;> decide, rfl, by cases v <;> decide, unbooted_readable _ _ (by cases v <;> decide) (by decide)⟩

/-- A FIT collaborator that reads 8 bytes, looks at them, writes into its buffer, and reads on where they are not blank. -/
def fitRun : FitRun :=
  .read 0x40#32 8 0x3000#32
    (.ifDelivered (List.replicate 8 0xFF#8) (.write 0x3007#32 0x01#8 (.done true)) (.read 0x108#32 1 0x4000#32 (.done false)))

theorem fitRun_readable (v : Variant) (c : Collaborators) (m : Nat → Byte) : FitReadable (unbooted v c) mx35lf1ge4ab fitRun [] m := by
  rw [fitRun, FitReadable]
  refine ⟨unbooted_readable _ _ (by decide) (by decide), ?_⟩
  rw [FitReadable]
  split
  · rw [FitReadable]
    exact ⟨by simp [hostBacked, regionHolds, unbooted, resetParams], trivial⟩
  · rw [FitReadable]
    exact ⟨unbooted_readable _ _ (by decide) (by decide), trivial⟩

theorem witness_BootFitImage (v : Variant) :
    let s := unbooted v { validHeaders := [blankHeader], fitHeaders := [blankHeader], rawImages := [], fitRuns := [(blankHeader, fitRun)],
                          fitBuffers := [] }
    paramsOk s.cfg = true ∧ stateOk s = true ∧ BootReady s ∧ BootsWith s mx35lf1ge4ab ∧
      Readable s mx35lf1ge4ab (bootOffset s.cfg) s.cfg.hdrBuf 64 ∧
      headerValid s.cfg (flashHeader s mx35lf1ge4ab) = true ∧ isFitHeader s.cfg (flashHeader s mx35lf1ge4ab) = true ∧
      s.cfg.allowFit = true ∧ fitRunOf s.cfg (flashHeader s mx35lf1ge4ab) = fitRun ∧
      FitReadable s mx35lf1ge4ab fitRun [] (headerLoaded s mx35lf1ge4ab) :=
  ⟨by cases v <;> decide, by cases v <;> rfl, unbooted_ready _ _, unbooted_boots _ _,
    unbooted_readable _ _ (by cases v <;> decide) (by cases v <;> decide), by cases v <;> decide, by cases v <;> decide, rfl,
    by cases v <;> decide, fitRun_readable _ _ _⟩

/-- For HandleOwners too. -/
theorem witness_TeardownOnce :
    strange.cfg.pinFunctionInert ≠ strange.cfg.pinFunctionSpi0 ∧ ∃ t, exec .bootAttempt strange = .next t := by
  refine ⟨by decide, ?_⟩
  obtain ⟨a, ha, hi⟩ := init_spec (s := strange) rfl rfl ⟨rfl, rfl⟩ (fun _ => rfl)
  obtain ⟨out, b, hb, hx⟩ := readId_spec hi.ready (by rw [hi.hw]; rfl)
  have hr : Ready b := hx.ready hi.ready
  have hcfg : b.cfg = strange.cfg := hx.host.1.trans hi.cfg
  have hpin : b.cfg.pinFunctionInert ≠ b.cfg.pinFunctionSpi0 := by rw [hcfg]; decide
  have hid : a.flash.idBytes = [0xEF#8, 0x40#8, 0x18#8] := hi.flash.sameImage.2.2
  obtain ⟨pay, f, -, -, hA, -⟩ := hx.wire
  have hout : out = [0xEF#8, 0x40#8, 0x18#8] := by
    refine List.ext_getElem (by rw [hx.outLen]; rfl) fun i h1 h2 => ?_
    rw [hA i h1 (by rw [hid]; exact h2)]
    simp only [hid]
  have hk : resolveId b.cfg (jedecOf out) = .unknown := by rw [hcfg, hout]; decide
  obtain ⟨g, l, -, he⟩ := deinit_spec hr.1 hr.2.1 hr.still hpin
  simp [exec, execBootAttempt, bootAttemptOp, ha, readIdOp, hb, hk, bootResolved, raiseError, he, finish]

/-! #### The whole machine -/

/-- An idle step, and an Engine turn in the middle of a burst; for ConfigurationFixed too. -/
theorem witness_InvariantKept :
    (stateOk (pending []) = true ∧ ∃ t, step (pending []) = .next t) ∧
    (let s := { bursting .genA 3 2 [] with env := { sched := [[.engine]], hwProgress := true, flashProgress := true } };
      stateOk s = true ∧ s.eng.busy = true ∧ ∃ t, step s = .next t) :=
  ⟨⟨by decide, _, rfl⟩, by decide, rfl, _, rfl⟩

theorem witness_RxOverflowUnreachable : stateOk (bursting .genB 1 0 (List.replicate 63 0#8)) = true := by decide

theorem witness_HostMemoryOwners :
    mayWriteHostMemory .deinit = false ∧ ∃ t, exec .deinit (ready .genA .nor) = .next t := ⟨rfl, _, rfl⟩

theorem witness_HandleOwners :
    (∃ t, exec .init State.reset = .next t) ∧ (∃ t, exec .deinit (ready .genB .nand) = .next t) ∧
    (∃ t, exec .baseAddress State.reset = .next t) := by
  obtain ⟨a, ha, -⟩ := init_spec (s := State.reset) rfl rfl ⟨rfl, rfl⟩ (fun _ => rfl)
  exact ⟨by simp [exec, execInit, ha, finish], ⟨_, rfl⟩, _, rfl⟩

end Sys2Proof.Tests
end

section
/-! PROOFS. What decides whether a request is a register access, and the data, control-read, clock-control and counter registers (20_memory.md R92, 40_registers.md R150 to R179). -/

namespace Sys2Proof.Machine

/-! ### Access requests and their keys (30_encoding.md R111) -/

/-- The access of variant `v` and width `wide` with key `key`: the four tables of 20_memory.md R92 as one. -/
def decodeKey (v : Variant) (wide : Bool) (key : Nat) (operand : List Byte) : Option Instr :=
  match v, wide with
  | .genA, false => decodeByteA key operand
  | .genA, true => decodeWordA key operand
  | .genB, false => decodeByteB key operand
  | .genB, true => decodeWordB key operand

theorem takeNat_two (b0 b1 : Byte) (l : List Byte) : takeNat 2 (b0 :: b1 :: l) = (b0.toNat + 256 * b1.toNat, l) := by
  simp [takeNat, takeByte]

theorem decodeAccess_eq_decodeKey (v : Variant) (wide : Bool) (b0 b1 : Byte) (operand : List Byte) :
    decodeAccess v wide (b0 :: b1 :: operand) = decodeKey v wide ((b0.toNat + 256 * b1.toNat) % 2 ^ 13) operand := by
  cases v <;> cases wide <;> simp only [decodeAccess, takeNat_two, decodeKey]

/-- What a table of variant `v` with rows `keys` answers to `key`: nothing for exactly the keys that are no row of it,
and otherwise an instruction of the variant. -/
def TableAnswer (v : Variant) (keys : List Nat) (key : Nat) (o : Option Instr) : Prop :=
  (o = none ↔ key ∉ keys) ∧ ∀ i, o = some i → rowVariant i = some v

theorem tableAnswer_nil (v : Variant) (key : Nat) : TableAnswer v [] key none := by
  simp [TableAnswer]

theorem tableAnswer_cons {v : Variant} {k key : Nat} {keys : List Nat} {j : Instr} {o : Option Instr}
    (hj : rowVariant j = some v) (ho : TableAnswer v keys key o) :
    TableAnswer v (k :: keys) key (if key = k then some j else o) := by
  obtain ⟨hnone, hrow⟩ := ho
  by_cases hk : key = k
  · subst hk
    simp [TableAnswer, hj]
  · rw [if_neg hk]
    exact ⟨by simp [hnone, hk], hrow⟩

/-- The decoder's tables have the rows of 20_memory.md R92. -/
theorem decodeKey_tableAnswer (v : Variant) (wide : Bool) (key : Nat) (operand : List Byte) :
    TableAnswer v (legalKeys v wide) key (decodeKey v wide key operand) := by
  cases v <;> cases wide <;>
    · repeat refine tableAnswer_cons rfl ?_
      exact tableAnswer_nil _ _

theorem decode_access (v : Variant) (wide : Bool) (b0 b1 : Byte) (operand : List Byte) :
    decode v ⟨if wide then .accessWord else .accessByte, b0 :: b1 :: operand⟩ =
      orElseReject (decodeKey v wide ((b0.toNat + 256 * b1.toNat) % 2 ^ 13) operand) .undecodedAccess := by
  rw [← decodeAccess_eq_decodeKey]
  cases wide <;> rfl

theorem requestStep_of_decode_ok {r : Request} {s : State} {i : Instr} (h : decode s.cfg.variant r = .ok i) :
    requestStep r s = exec i s := by
  rw [requestStep, h]

theorem requestStep_of_decode_error {r : Request} {s : State} {e : DecodeError} (h : decode s.cfg.variant r = .error e) :
    requestStep r s = rejectRequest e s := by
  rw [requestStep, h]

/-- The refusals of an undecoded access in the order of 60_exceptions.md R367. -/
theorem rejectRequest_undecodedAccess (s : State) :
    rejectRequest .undecodedAccess s =
      if s.plat.clkOn = false then .refused .accessWhileGated
      else if s.cfg.variant = .genB ∧ s.eng.srstBusy = true then .refused .accessDuringSoftReset
      else .refused .undecodedAccess := by
  unfold rejectRequest accessGate
  cases s.plat.clkOn <;> cases s.cfg.variant <;> cases s.eng.srstBusy <;> rfl

/-- Settles O3: the decoder's tables have an entry for exactly the keys of R92, and a request without one goes through
the clock gate and the soft reset before it is refused. -/
theorem undecodedAccessRefused : Obligations.UndecodedAccessRefused := by
  unfold Obligations.UndecodedAccessRefused
  intro s wide b0 b1 operand
  have hdec := decode_access s.cfg.variant wide b0 b1 operand
  obtain ⟨hnone, hrow⟩ := decodeKey_tableAnswer s.cfg.variant wide ((b0.toNat + 256 * b1.toNat) % 2 ^ 13) operand
  refine ⟨fun hkey => ?_, fun hkey => ?_⟩
  · rw [hnone.2 hkey] at hdec
    rw [requestStep_of_decode_error hdec, rejectRequest_undecodedAccess]
  · obtain ⟨i, hi⟩ := Option.ne_none_iff_exists'.1 (mt hnone.1 (not_not_intro hkey))
    rw [hi] at hdec
    exact ⟨i, hdec, hrow i hi, requestStep_of_decode_ok hdec⟩

/-- A number written in `k` bytes is read back when it fits them. -/
theorem takeNat_natBytes_append (k n : Nat) (l : List Byte) (h : n < 256 ^ k) : takeNat k (natBytes k n ++ l) = (n, l) := by
  induction k generalizing n with
  | zero => simp_all [takeNat, natBytes]
  | succ k ih =>
    have hdiv : n / 256 < 256 ^ k := Nat.div_lt_of_lt_mul (by rwa [← Nat.pow_succ'])
    simp only [takeNat, natBytes, List.cons_append, takeByte, ih _ hdiv, BitVec.toNat_ofNat]
    rw [show 2 ^ 8 = 256 from rfl, Nat.mod_add_div]

theorem takeWord_natBytes (w : Word) : (takeWord (natBytes 4 w.toNat)).1 = w := by
  have h := takeNat_natBytes_append 4 w.toNat [] w.isLt
  rw [List.append_nil] at h
  simp [takeWord, h]

/-- The key of a 32-bit write is a row's once the decoder reads the row's instruction behind the key. -/
theorem hasKey_write {v : Variant} {off : Nat} {wr : Word → Instr} (henc : ∀ w, encode (wr w) = encodeWrite off w)
    (hdec : ∀ l, decode v ⟨.accessWord, natBytes 2 (0x1000 + off) ++ l⟩ = .ok (wr (takeWord l).1)) (w : Word) :
    HasKey v .accessWord (0x1000 + off) (wr w) := by
  refine ⟨by rw [henc]; rfl, by rw [henc]; rfl, ?_⟩
  rw [henc, encodeWrite, hdec, takeWord_natBytes]

/-! ### An access whose preconditions hold (40_registers.md R178, R179) -/

theorem rowAccess_bind {α : Type} {v : Variant} {g : Bool} {s : State} (h : Accessible v s) (f : Unit → Res α) :
    (rowAccess v g s >>= f) = f () := by
  rw [rowAccess_of_accessible h, res_bind_ok]

/-- The GCR read passes the preconditions also while a soft reset runs. -/
theorem rowAccess_gcrRead {s : State} (hv : s.cfg.variant = .genB) (hc : s.plat.clkOn = true) :
    rowAccess .genB true s = .ok () := by
  have hgate : accessGate true s = .ok () := accessGate_eq_ok.2 ⟨hc, fun _ _ => rfl⟩
  simp [rowAccess, hgate, hv]

/-! ### Data registers (R150, R151, R169, R170) -/

theorem popRx_nil {s : State} (h : s.regs.rxFifo = []) : popRx s = .error (.fault .rxUnderflow) := by
  rw [popRx, h]

theorem popRx_cons {s : State} {b : Byte} {rest : List Byte} (h : s.regs.rxFifo = b :: rest) :
    popRx s = .ok (b, { s with regs := { s.regs with rxFifo := rest } }) := by
  rw [popRx, h]

theorem pushTx_busy {s : State} (b : Byte) (h : s.eng.busy = true) : pushTx b s = .error (.refuse .txWriteDuringBurst) := by
  simp [pushTx, h]

theorem pushTx_full {s : State} (b : Byte) (h : s.eng.busy = false) (hl : 64 ≤ s.regs.txFifo.length) :
    pushTx b s = .error (.fault .txOverflow) := by
  have hd : fifoDepth ≤ s.regs.txFifo.length := hl
  simp [pushTx, h, hd]

theorem pushTx_room {s : State} (b : Byte) (h : s.eng.busy = false) (hl : s.regs.txFifo.length < 64) :
    pushTx b s = .ok { s with regs := { s.regs with txFifo := s.regs.txFifo ++ [b] } } := by
  have hd : ¬ fifoDepth ≤ s.regs.txFifo.length := Nat.not_le.2 hl
  simp [pushTx, h, hd]

/-- The RXREG read of either variant is a pop. -/
theorem exec_rxRead {s : State} {v : Variant} {i : Instr}
    (row : v = .genA ∧ i = .genARxRead ∨ v = .genB ∧ i = .genBRxdRead) (h : Accessible v s) :
    exec i s = finish (popRx s >>= fun p => pure (p.2.ret (.byte p.1))) := by
  rcases row with ⟨rfl, rfl⟩ | ⟨rfl, rfl⟩ <;> exact congrArg finish (rowAccess_bind h _)

/-- The TXREG write of either variant is a push. -/
theorem exec_txWrite {s : State} {v : Variant} {i : Byte → Instr}
    (row : v = .genA ∧ i = .genATxWrite ∨ v = .genB ∧ i = .genBTxdWrite) (h : Accessible v s) (b : Byte) :
    exec (i b) s = finish (pushTx b s >>= fun t => pure (t.ret .nothing)) := by
  rcases row with ⟨rfl, rfl⟩ | ⟨rfl, rfl⟩ <;> exact congrArg finish (rowAccess_bind h _)

/-- Settles O6, by the two cases of the RX FIFO. -/
theorem rxPop : Obligations.RxPop := by
  unfold Obligations.RxPop
  refine ⟨⟨rfl, rfl, rfl⟩, ⟨rfl, rfl, rfl⟩, fun s v i row h => ⟨fun b rest hrx => ?_, fun hrx => ?_⟩⟩
  · rw [exec_rxRead row h, popRx_cons hrx]; rfl
  · rw [exec_rxRead row h, popRx_nil hrx]; rfl

/-- Settles O7, by the three answers of a push. -/
theorem txPush : Obligations.TxPush := by
  unfold Obligations.TxPush
  refine ⟨fun b => ⟨⟨rfl, rfl, rfl⟩, ⟨rfl, rfl, rfl⟩⟩, fun s v i row h b =>
    ⟨fun hbusy => ?_, fun hidle hlen => ?_, fun hidle hlen => ?_⟩⟩
  · rw [exec_txWrite row h, pushTx_busy b hbusy]; rfl
  · rw [exec_txWrite row h, pushTx_full b hidle hlen.ge]; rfl
  · rw [exec_txWrite row h, pushTx_room b hidle hlen]; rfl

/-! ### Control registers as they read (R152, R160, R162) -/

theorem exec_genACtlRead {s : State} (h : Accessible .genA s) : exec .genACtlRead s = .next (s.ret (.word (readCtl s))) :=
  congrArg finish (rowAccess_bind h _)

theorem exec_genBGcrRead {s : State} (hv : s.cfg.variant = .genB) (hc : s.plat.clkOn = true) :
    exec .genBGcrRead s = .next (s.ret (.word (readGcr s))) := by
  change finish (rowAccess .genB true s >>= fun _ => pure (s.ret (.word (readGcr s)))) = _
  rw [rowAccess_gcrRead hv hc]; rfl

theorem exec_genBTcrRead {s : State} (h : Accessible .genB s) : exec .genBTcrRead s = .next (s.ret (.word (readTcr s))) :=
  congrArg finish (rowAccess_bind h _)

theorem getLsbD_readCtl (s : State) (i : Nat) (hi : i < 32) :
    (readCtl s).getLsbD i = if i = 0 then s.regs.enable else if i = 1 then s.regs.master else if i = 8 ∨ i = 9 then false
      else if i = 10 then s.eng.busy else s.regs.ctlOther.getLsbD i :=
  getLsbD_ctlWord _ _ _ _ i hi

theorem getLsbD_readGcr (s : State) (i : Nat) (hi : i < 32) :
    (readGcr s).getLsbD i = if i = 0 then s.regs.enable else if i = 1 then s.regs.master
      else if i = 31 then s.eng.srstBusy else s.regs.gcrOther.getLsbD i :=
  getLsbD_gcrWord _ _ _ _ i hi

theorem getLsbD_readTcr (s : State) (i : Nat) (hi : i < 32) :
    (readTcr s).getLsbD i = if i = 31 then s.eng.busy else s.regs.tcrOther.getLsbD i :=
  getLsbD_tcrWord _ _ i hi

/-- Settles O8: each word bit by bit. -/
theorem controlReads : Obligations.ControlReads := by
  unfold Obligations.ControlReads
  refine ⟨⟨rfl, rfl, rfl⟩, ⟨rfl, rfl, rfl⟩, ⟨rfl, rfl, rfl⟩, fun s => ⟨fun h => ?_, fun hv hc => ?_, fun h => ?_⟩⟩
  · refine ⟨readCtl s, exec_genACtlRead h, getLsbD_readCtl s 0 (by decide), getLsbD_readCtl s 1 (by decide),
      getLsbD_readCtl s 8 (by decide), getLsbD_readCtl s 9 (by decide), getLsbD_readCtl s 10 (by decide), fun i hi hn => ?_⟩
    rw [getLsbD_readCtl s i hi]
    simp_all
  · refine ⟨readGcr s, exec_genBGcrRead hv hc, getLsbD_readGcr s 0 (by decide), getLsbD_readGcr s 1 (by decide),
      getLsbD_readGcr s 31 (by decide), fun i hi hn => ?_⟩
    rw [getLsbD_readGcr s i hi]
    simp_all
  · refine ⟨readTcr s, exec_genBTcrRead h, getLsbD_readTcr s 31 (by decide), fun i hi => ?_⟩
    rw [getLsbD_readTcr s i (by omega), if_neg hi.ne]

/-! ### Clock control (R154, R165) -/

theorem writeCctl_busy {s : State} (w : Word) (h : s.eng.busy = true) :
    writeCctl w s = .error (.refuse .cctlWriteDuringBurst) := by
  simp [writeCctl, h]

theorem writeCctl_idle {s : State} (w : Word) (h : s.eng.busy = false) :
    writeCctl w s = .ok { s with regs := { s.regs with cctl := w } } := by
  simp [writeCctl, h]

/-- The CCTL read of either variant. -/
theorem exec_cctlRead {s : State} {v : Variant} {rd : Instr}
    (row : v = .genA ∧ rd = .genACctlRead ∨ v = .genB ∧ rd = .genBCctlRead) (h : Accessible v s) :
    exec rd s = .next (s.ret (.word s.regs.cctl)) := by
  rcases row with ⟨rfl, rfl⟩ | ⟨rfl, rfl⟩ <;> exact congrArg finish (rowAccess_bind h _)

/-- The CCTL write of either variant. -/
theorem exec_cctlWrite {s : State} {v : Variant} {wr : Word → Instr}
    (row : v = .genA ∧ wr = .genACctlWrite ∨ v = .genB ∧ wr = .genBCctlWrite) (h : Accessible v s) (w : Word) :
    exec (wr w) s = finish (writeCctl w s >>= fun t => pure (t.ret .nothing)) := by
  rcases row with ⟨rfl, rfl⟩ | ⟨rfl, rfl⟩ <;> exact congrArg finish (rowAccess_bind h _)

/-- Settles O12, by the two answers of a CCTL write. -/
theorem clockControl : Obligations.ClockControl := by
  unfold Obligations.ClockControl
  refine ⟨⟨rfl, rfl, rfl⟩, ⟨rfl, rfl, rfl⟩, fun w => ⟨hasKey_write (off := 0x01C) (fun _ => rfl) (fun _ => rfl) w,
    hasKey_write (off := 0x024) (fun _ => rfl) (fun _ => rfl) w⟩, fun s v rd wr row h => ?_⟩
  have hrd := row.imp (fun ⟨hv, hrd, _⟩ => And.intro hv hrd) (fun ⟨hv, hrd, _⟩ => And.intro hv hrd)
  have hwr := row.imp (fun ⟨hv, _, hwr⟩ => And.intro hv hwr) (fun ⟨hv, _, hwr⟩ => And.intro hv hwr)
  refine ⟨exec_cctlRead hrd h, fun w => ⟨fun hbusy => ?_, fun hidle => ?_⟩⟩
  · rw [exec_cctlWrite hwr h, writeCctl_busy w hbusy]; rfl
  · rw [exec_cctlWrite hwr h, writeCctl_idle w hidle]; rfl

/-! ### Counters (R155, R156, R166 to R168) -/

theorem counterWritable_busy {s : State} (w : Word) (h : s.eng.busy = true) :
    counterWritable w s = .error (.refuse .counterWriteDuringBurst) := by
  simp [counterWritable, h]

theorem counterWritable_tooWide {s : State} {w : Word} (h : s.eng.busy = false) (hw : 2 ^ 24 ≤ w.toNat) :
    counterWritable w s = .error (.refuse .counterTooWide) := by
  simp only [counterWritable, h, hw, refuseIf_false, res_bind_ok, decide_true, refuseIf_true]

theorem counterWritable_fits {s : State} {w : Word} (h : s.eng.busy = false) (hw : w.toNat < 2 ^ 24) :
    counterWritable w s = .ok () := by
  simp only [counterWritable, h, Nat.not_le.2 hw, refuseIf_false, res_bind_ok, decide_false]

/-- A value below 2^24 survives the 24 bits of a counter. -/
theorem counterWord_setWidth {w : Word} (h : w.toNat < 2 ^ 24) : counterWord (w.setWidth 24) = w := by
  apply BitVec.eq_of_toNat_eq
  simp only [counterWord, BitVec.toNat_setWidth, Nat.mod_eq_of_lt h, Nat.mod_eq_of_lt w.isLt]

/-- One counter register: a row whose read returns the field `get`, whose write stores it with `set` after the checks of
R155, and whose `get` reads back what `set` stored, obeys the counters' rule. -/
theorem counterRule_of_rows {v : Variant} {off : Nat} {rd : Instr} {wr : Word → Instr} {get : RegBlock → Word24}
    {set : RegBlock → Word24 → RegBlock}
    (hrd : HasKey v .accessWord off rd) (hwr : ∀ w, HasKey v .accessWord (0x1000 + off) (wr w))
    (read_eq : ∀ s, exec rd s = finish (rowAccess v false s >>= fun _ => pure (s.ret (.word (counterWord (get s.regs))))))
    (write_eq : ∀ w s, exec (wr w) s = finish (rowAccess v false s >>= fun _ =>
      (counterWritable w s >>= fun _ => pure { s with regs := set s.regs (w.setWidth 24) }) >>= fun t => pure (t.ret .nothing)))
    (get_set : ∀ r c, get (set r c) = c) : CounterRule v off rd wr get set := by
  refine ⟨hrd, hwr, fun s h => ?_⟩
  have hread : ∀ t, Accessible v t → exec rd t = .next (t.ret (.word (counterWord (get t.regs)))) := fun t ht => by
    rw [read_eq, rowAccess_bind ht]; rfl
  have hwrite : ∀ w, exec (wr w) s =
      finish ((counterWritable w s >>= fun _ => pure { s with regs := set s.regs (w.setWidth 24) }) >>= fun t =>
        pure (t.ret .nothing)) := fun w => by
    rw [write_eq, rowAccess_bind h]
  refine ⟨hread s h, fun w => ⟨fun hbusy => ?_, fun hidle hw => ?_, fun hidle hw => ⟨?_, ?_⟩⟩⟩
  · rw [hwrite, counterWritable_busy w hbusy]; rfl
  · rw [hwrite, counterWritable_tooWide hidle hw]; rfl
  · rw [hwrite, counterWritable_fits hidle hw]; rfl
  · have hget : counterWord (get (set s.regs (w.setWidth 24))) = w := by rw [get_set, counterWord_setWidth hw]
    refine (hread _ ?_).trans ?_
    · exact h
    · rw [hget]; rfl

/-- Settles O13: the five counters are rows of one rule. -/
theorem counters : Obligations.Counters := by
  unfold Obligations.Counters
  refine ⟨?_, ?_, ?_, ?_, ?_⟩ <;>
    exact counterRule_of_rows ⟨rfl, rfl, rfl⟩ (hasKey_write (fun _ => rfl) (fun _ => rfl)) (fun _ => rfl) (fun _ _ => rfl)
      (fun _ _ => rfl)

end Sys2Proof.Machine
end

section
/-! PROOFS. The Transport's handle and its pins (41_transport.md R200, R205), with what scheduled turns keep where the
received bytes of a burst fit: no overflow, and the sequencer's variables. -/

namespace Sys2Proof.Machine

/-! ### Turns where the bytes of a burst fit (40_registers.md R175, R176) -/

/-- The bytes a running burst has still to receive fit in the RX FIFO. -/
def RxRoom (s : State) : Prop := s.eng.busy = true → s.regs.rxFifo.length + s.eng.bRemain ≤ fifoDepth

theorem rxRoom_of_burstOk {s : State} (h : burstOk s = true) : RxRoom s := by
  intro hbusy
  simp only [burstOk, hbusy, if_true, Bool.and_eq_true, decide_eq_true_eq] at h
  obtain ⟨⟨-, hfit⟩, -⟩ := h
  exact hfit

theorem burstOk_of_stateOk {s : State} (h : stateOk s = true) : burstOk s = true := by
  simp only [stateOk, Bool.and_eq_true] at h
  obtain ⟨⟨⟨⟨hburst, -⟩, -⟩, -⟩, -⟩ := h
  exact hburst

theorem rxRoom_of_idle {s : State} (h : s.eng.busy = false) : RxRoom s := fun hbusy => by simp [h] at hbusy

/-- A byte step moves one place from the bytes to come to the bytes received, so the room it leaves is enough for the rest. -/
theorem byteStep_rxRoom {s : State} (hbusy : s.eng.busy = true) (hpos : 0 < s.eng.bRemain) (h : RxRoom s) :
    ∃ t, byteStep s = .ok t ∧ RxRoom t ∧ t.seq = s.seq := by
  have hfit := h hbusy
  have hfull : ¬ fifoDepth ≤ s.regs.rxFifo.length := by omega
  have hstep : byteStep s = .ok (if (byteClocked s).eng.bRemain = 0 then completeBurst (byteClocked s) else byteClocked s) := by
    simp only [byteStep, hfull, decide_false, faultIf_false, res_bind_ok, res_pure]
  refine ⟨_, hstep, ?_⟩
  split
  · exact ⟨rxRoom_of_idle rfl, rfl⟩
  · refine ⟨fun _ => ?_, rfl⟩
    simp only [byteClocked, List.length_append, List.length_singleton]
    omega

theorem engineTurn_rxRoom {s : State} (h : RxRoom s) : ∃ t, engineTurn s = .ok t ∧ RxRoom t ∧ t.seq = s.seq := by
  unfold engineTurn
  split
  · exact ⟨_, rfl, h, rfl⟩
  · split
    · rename_i hrun
      simp only [Bool.and_eq_true, decide_eq_true_eq] at hrun
      obtain ⟨hbusy, hpos⟩ := hrun
      exact byteStep_rxRoom hbusy hpos h
    · exact ⟨s, rfl, h, rfl⟩

theorem flashTurn_rxRoom {s : State} (h : RxRoom s) : RxRoom (flashTurn s) ∧ (flashTurn s).seq = s.seq := by
  unfold flashTurn
  split <;> exact ⟨h, rfl⟩

theorem takeTurn_rxRoom {s : State} (h : RxRoom s) : ∀ turn, ∃ t, takeTurn turn s = .ok t ∧ RxRoom t ∧ t.seq = s.seq
  | .engine => engineTurn_rxRoom h
  | .flash => ⟨_, rfl, flashTurn_rxRoom h⟩

theorem takeTurns_rxRoom : ∀ (ts : List Turn) {s : State}, RxRoom s → ∃ t, takeTurns ts s = .ok t ∧ RxRoom t ∧ t.seq = s.seq
  | [], s, h => ⟨s, rfl, h, rfl⟩
  | turn :: ts, s, h => by
    obtain ⟨t, ht, hroom, hseq⟩ := takeTurn_rxRoom h turn
    obtain ⟨u, hu, hroom', hseq'⟩ := takeTurns_rxRoom ts hroom
    exact ⟨u, by simp only [takeTurns, ht, res_bind_ok, hu], hroom', hseq'.trans hseq⟩

/-- The turns before a Host step neither stop it nor touch the sequencer's variables. -/
theorem gap_rxRoom {s : State} (h : RxRoom s) : ∃ t, gap s = .ok t ∧ RxRoom t ∧ t.seq = s.seq := by
  unfold gap
  split
  · exact ⟨s, rfl, h, rfl⟩
  · rename_i ts rest _
    exact takeTurns_rxRoom ts (s := { s with env := { s.env with sched := rest } }) h

/-! ### What a completed `init` or `deinit` says of the handle (R200) -/

theorem handle_of_initOp {s t : State} (h : initOp s = .ok t) : s.seq.handle = false ∧ t.seq.handle = true := by
  simp only [initOp, res_bind_eq_ok, refuseIf_eq_ok, res_pure, Except.ok.injEq] at h
  obtain ⟨_, hnone, _, -, _, -, _, -, _, -, rfl⟩ := h
  exact ⟨hnone, rfl⟩

theorem handle_of_deinitOp {s t : State} (h : deinitOp s = .ok t) : s.seq.handle = true ∧ t.seq.handle = false := by
  simp only [deinitOp, res_bind_eq_ok, refuseIf_eq_ok, res_pure, Except.ok.injEq, Bool.not_eq_false'] at h
  obtain ⟨_, hlive, _, -, _, -, _, -, rfl⟩ := h
  exact ⟨hlive, rfl⟩

/-- A call that returns nothing answers the state its operation leaves, with an empty result. -/
theorem finish_ret_eq_next {r : Res State} {v : Returned} {t : State}
    (h : finish (r >>= fun u => pure (u.ret v)) = .next t) : ∃ u, r = .ok u ∧ t = u.ret v := by
  obtain ⟨u, hu, ht⟩ := res_bind_eq_ok.1 (finish_eq_next.1 h)
  exact ⟨u, hu, (Except.ok.inj ht).symm⟩

theorem handle_of_exec_init {s t : State} (h : exec .init s = .next t) : s.seq.handle = false ∧ t.seq.handle = true := by
  obtain ⟨u, hu, rfl⟩ := finish_ret_eq_next h
  rw [ret_seq]
  exact handle_of_initOp hu

theorem handle_of_exec_deinit {s t : State} (h : exec .deinit s = .next t) : s.seq.handle = true ∧ t.seq.handle = false := by
  obtain ⟨u, hu, rfl⟩ := finish_ret_eq_next h
  rw [ret_seq]
  exact handle_of_deinitOp hu

/-! ### Refusals for the handle (R200; 42_protocol_engine.md R232, 45_chunked_reader.md R322) -/

theorem initOp_live {s : State} (h : s.seq.handle = true) : initOp s = .error (.refuse .handleAlreadyLive) := by
  simp only [initOp, h, refuseIf_true, res_bind_error]

theorem exec_init_live {s : State} (h : s.seq.handle = true) : exec .init s = .refused .handleAlreadyLive := by
  change finish (initOp s >>= fun u => pure (u.ret .nothing)) = _
  rw [initOp_live h, res_bind_error, finish_refuse]

/-- An operation refused for want of a handle. -/
def NoHandle {α : Type} (r : Res α) : Prop := r = .error (.refuse .noHandle)

/-- Nothing that would follow such a refusal is done. -/
theorem NoHandle.bind {α β : Type} {r : Res α} (h : NoHandle r) (f : α → Res β) : NoHandle (r >>= f) := by
  rw [h, res_bind_error]; rfl

theorem NoHandle.finish {r : Res State} (h : NoHandle r) : finish r = .refused .noHandle := by rw [h, finish_refuse]

/-- A call whose operation is refused for want of a handle is refused so. -/
theorem NoHandle.call {α : Type} {r : Res α} (h : NoHandle r) (f : α → Res State) :
    Machine.finish (r >>= f) = .refused .noHandle :=
  (h.bind f).finish

section
variable {s : State} (h : s.seq.handle = false)
include h

theorem noHandle_refuseIf : NoHandle (refuseIf (!s.seq.handle) .noHandle) := by rw [h]; exact refuseIf_true _

theorem noHandle_deinitOp : NoHandle (deinitOp s) := (noHandle_refuseIf h).bind _

theorem noHandle_exchangeOp (op : Byte) (addr : List Byte) (d n : Nat) : NoHandle (exchangeOp op addr d n s) :=
  (noHandle_refuseIf h).bind _

theorem noHandle_readIdOp : NoHandle (readIdOp s) := (noHandle_exchangeOp h _ _ _ _).bind _

theorem noHandle_norReadDataOp (a : Word) (n : Nat) : NoHandle (norReadDataOp a n s) := noHandle_exchangeOp h _ _ _ _

theorem noHandle_pageReadOp (r : Word) : NoHandle (pageReadOp r s) := (noHandle_exchangeOp h _ _ _ _).bind _

theorem noHandle_readStatusOp : NoHandle (readStatusOp s) := (noHandle_exchangeOp h _ _ _ _).bind _

theorem noHandle_readFromCacheOp (c : Word) (n : Nat) : NoHandle (readFromCacheOp c n s) := noHandle_exchangeOp h _ _ _ _

theorem noHandle_readChecks (nand : Bool) (a : Word) (n : Nat) (d : Word) : NoHandle (readChecks nand a n d s) :=
  (noHandle_refuseIf h).bind _

theorem noHandle_norReadOp (a : Word) (n : Nat) (d : Word) : NoHandle (norReadOp a n d s) := (noHandle_readChecks h _ _ _ _).bind _

theorem noHandle_nandReadOp (a : Word) (n : Nat) (d : Word) : NoHandle (nandReadOp a n d s) := (noHandle_readChecks h _ _ _ _).bind _

theorem noHandle_readOp (a : Word) (n : Nat) (d : Word) : NoHandle (readOp a n d s) := by
  unfold readOp
  split
  · exact noHandle_norReadOp h a n d
  · exact noHandle_nandReadOp h a n d

theorem noHandle_loadPageOp (r : Word) : NoHandle (loadPageOp r s) := (noHandle_pageReadOp h r).bind _

end

/-- The ready poll delays before its status read makes the handle check (45_chunked_reader.md R344): the turns before the
delay must not stop it. -/
theorem noHandle_waitReadyOp {s : State} (hroom : RxRoom s) (h : s.seq.handle = false) : NoHandle (waitReadyOp s) := by
  obtain ⟨t, hgap, -, hseq⟩ := gap_rxRoom hroom
  have hdelay : delayStep s = .ok (delayOp t) := by simp only [delayStep, hostStep, hgap, res_bind_ok]
  have hread : NoHandle (readStatusOp (delayOp t)) := noHandle_readStatusOp (hseq ▸ h : t.seq.handle = false)
  obtain ⟨fuel, hfuel⟩ : ∃ fuel, readyFuel s = fuel + 1 := ⟨_, rfl⟩
  rw [waitReadyOp, hfuel, readyLoop, hdelay, res_bind_ok]
  exact hread.bind _

/-- Settles O21: a completed `init` or `deinit` has passed its handle check, and every other call meets that check before
any effect, `waitReady` after the turns before its delay. -/
theorem handleDiscipline : Obligations.HandleDiscipline := by
  unfold Obligations.HandleDiscipline
  refine fun s => ⟨fun t => handle_of_exec_init, fun t => handle_of_exec_deinit, exec_init_live, fun hok h i hi => ?_⟩
  have hroom := rxRoom_of_burstOk (burstOk_of_stateOk hok)
  rcases hi with rfl | ⟨op, a, d, n, rfl⟩ | rfl | ⟨a, n, rfl⟩ | ⟨r, rfl⟩ | rfl | ⟨c, n, rfl⟩ | ⟨a, n, d, rfl⟩ | ⟨a, n, d, rfl⟩ |
    ⟨a, n, d, rfl⟩ | ⟨a, n, d, rfl⟩ | ⟨r, rfl⟩ | rfl
  · exact (noHandle_deinitOp h).call _
  · exact (noHandle_exchangeOp h op a d n).call _
  · exact (noHandle_readIdOp h).call _
  · exact (noHandle_norReadDataOp h a n).call _
  · exact (noHandle_pageReadOp h r).call _
  · exact (noHandle_readStatusOp h).call _
  · exact (noHandle_readFromCacheOp h c n).call _
  · exact (noHandle_norReadOp h a n d).call _
  · exact (noHandle_nandReadOp h a n d).call _
  · exact (noHandle_readOp h a n d).call _
  · exact (noHandle_readOp h a n d).call _
  · exact (noHandle_loadPageOp h r).call _
  · exact (noHandle_waitReadyOp hroom h).call _

/-! ### The pin function (R205) -/

theorem configurePinsOp_other {s : State} {f : Nat} (h : f ≠ s.cfg.pinFunctionSpi0) (k : f ≠ s.cfg.pinFunctionInert) :
    configurePinsOp f s = .error (.refuse .badPinFunction) := (if_neg h).trans (if_neg k)

theorem exec_configurePins (f : Nat) (s : State) :
    exec (.configurePins f) s = finish (configurePinsOp f s >>= fun t => pure (t.ret .nothing)) := rfl

/-- Settles O25, by the three answers of the code's comparison. -/
theorem configurePins : Obligations.ConfigurePins := by
  unfold Obligations.ConfigurePins
  refine fun s f => ⟨fun h => ?_, fun h k => ?_, fun h k => ?_⟩
  · rw [exec_configurePins, configurePinsOp_spi0 h]; rfl
  · rw [exec_configurePins, configurePinsOp_inert h k]; rfl
  · rw [exec_configurePins, configurePinsOp_other h k]; rfl

end Sys2Proof.Machine
end

section
/-! PROOFS. The checks of an exchange, in their order (42_protocol_engine.md R233, 60_exceptions.md R367). -/

namespace Sys2Proof.Machine

/-! ### The header of an exchange (42_protocol_engine.md R231, 30_encoding.md R115) -/

theorem header_eq_replicate (op : Byte) (addr : List Byte) {d : Nat} (hd : d ≤ 1) :
    header op addr d = op :: (addr ++ List.replicate d 0x00#8) := by
  obtain rfl | rfl := Nat.le_one_iff_eq_zero_or_eq_one.1 hd <;> rfl

theorem length_header (op : Byte) (addr : List Byte) {d : Nat} (hd : d ≤ 1) :
    (header op addr d).length = 1 + addr.length + d := by
  simp only [header_eq_replicate op addr hd, List.length_cons, List.length_append, List.length_replicate]
  omega

/-- The test of the header's bytes passes exactly the five formats: two have two bytes, three have four. -/
theorem knownHeader_iff (hdr : List Byte) : knownHeader hdr = true ↔ KnownFrame hdr := by
  match hdr with
  | [] | [_] | [_, _, _] | _ :: _ :: _ :: _ :: _ :: _ => simp [knownHeader, KnownFrame]
  | [_, _] => simp [knownHeader, KnownFrame]
  | [_, _, _, _] => simp [knownHeader, KnownFrame, or_assoc]

/-! ### The first check that fails (R233) -/

theorem frameOk_shape {op : Byte} {addr : List Byte} {d : Nat} (n : Nat) (h : 3 < addr.length ∨ 1 < d) :
    frameOk op addr d n = .error (.refuse .frameShape) := by
  rw [frameOk, ← Bool.decide_or, refuseIf_decide_bind, if_pos h]

/-- An exchange of a good shape goes on to the check of its length. -/
theorem frameOk_of_shape {op : Byte} {addr : List Byte} {d n : Nat} (ha : addr.length ≤ 3) (hd : d ≤ 1) :
    frameOk op addr d n =
      if 64 < 1 + addr.length + d + n then .error (.refuse .frameTooLong)
      else refuseIf (!knownHeader (header op addr d)) .unknownFrame := by
  have hshape : ¬ (3 < addr.length ∨ 1 < d) := by omega
  rw [frameOk, ← Bool.decide_or, refuseIf_decide_bind, if_neg hshape, refuseIf_decide_bind, length_header op addr hd, fifoDepth]

theorem frameOk_tooLong {op : Byte} {addr : List Byte} {d n : Nat} (ha : addr.length ≤ 3) (hd : d ≤ 1)
    (hlen : 64 < 1 + addr.length + d + n) : frameOk op addr d n = .error (.refuse .frameTooLong) := by
  rw [frameOk_of_shape ha hd, if_pos hlen]

theorem frameOk_unknown {op : Byte} {addr : List Byte} {d n : Nat} (ha : addr.length ≤ 3) (hd : d ≤ 1)
    (hlen : 1 + addr.length + d + n ≤ 64) (hk : ¬ KnownFrame (op :: (addr ++ List.replicate d 0x00#8))) :
    frameOk op addr d n = .error (.refuse .unknownFrame) := by
  have hbytes : knownHeader (header op addr d) = false := by
    rw [← header_eq_replicate op addr hd, ← knownHeader_iff] at hk
    exact Bool.eq_false_of_not_eq_true hk
  rw [frameOk_of_shape ha hd, if_neg (Nat.not_lt.2 hlen), hbytes, Bool.not_false, refuseIf_true]

/-- With a live handle, an exchange whose checks refuse it is refused as they say, before any effect. -/
theorem exec_exchange_refused {s : State} {op : Byte} {addr : List Byte} {d n : Nat} {q : Refusal} (h : s.seq.handle = true)
    (hf : frameOk op addr d n = .error (.refuse q)) : exec (.exchange op addr d n) s = .refused q := by
  have hop : exchangeOp op addr d n s = .error (.refuse q) := by
    rw [exchangeOp, h, Bool.not_true, refuseIf_false, res_bind_ok, hf, res_bind_error]
  change finish (exchangeOp op addr d n s >>= fun r => pure (r.2.ret (.bytes r.1))) = _
  rw [hop, res_bind_error, finish_refuse]

/-- Settles O28, by the first of the three checks that fails. -/
theorem exchangeChecks : Obligations.ExchangeChecks := by
  unfold Obligations.ExchangeChecks
  refine fun s op addr d n h => ⟨fun hshape => ?_, fun ha hd hlen => ?_, fun ha hd hlen hk => ?_⟩
  · exact exec_exchange_refused h (frameOk_shape n hshape)
  · exact exec_exchange_refused h (frameOk_tooLong ha hd hlen)
  · exact exec_exchange_refused h (frameOk_unknown ha hd hlen hk)

end Sys2Proof.Machine
end

section
/-! PROOFS. The checks of a read and the read of no bytes (45_chunked_reader.md R321 to R323), and the session state after a
NAND chunk (R343). -/

namespace Sys2Proof.Machine

/-! ### The first check that fails (R322) -/

theorem refuseIf_decide (p : Prop) [Decidable p] (q : Refusal) :
    refuseIf (decide p) q = if p then .error (.refuse q) else .ok () := by
  split <;> simp [*]

/-- With a live handle, the two checks that are left, in their order. -/
theorem readChecks_of_handle {s : State} (h : s.seq.handle = true) (nand : Bool) (addr : Word) (len : Nat) (dst : Word) :
    readChecks nand addr len dst s =
      if nand = true ∧ s.seq.geometry = none then .error (.refuse .noGeometry)
      else if 2 ^ 32 < addr.toNat + len ∨ 2 ^ 32 < dst.toNat + len then .error (.refuse .addressOverflow)
      else .ok () := by
  have hgeo : (nand && s.seq.geometry.isNone) = decide (nand = true ∧ s.seq.geometry = none) := by
    cases nand <;> cases s.seq.geometry <;> simp
  rw [readChecks, h, Bool.not_true, refuseIf_false, res_bind_ok, hgeo, refuseIf_decide_bind, ← Bool.decide_or, refuseIf_decide]

theorem readChecks_noGeometry {s : State} {nand : Bool} (h : s.seq.handle = true) (hn : nand = true) (hg : s.seq.geometry = none)
    (addr : Word) (len : Nat) (dst : Word) : readChecks nand addr len dst s = .error (.refuse .noGeometry) := by
  rw [readChecks_of_handle h, if_pos ⟨hn, hg⟩]

theorem readChecks_addressOverflow {s : State} {nand : Bool} {addr dst : Word} {len : Nat} (h : s.seq.handle = true)
    (hg : nand = true → s.seq.geometry ≠ none) (hr : 2 ^ 32 < addr.toNat + len ∨ 2 ^ 32 < dst.toNat + len) :
    readChecks nand addr len dst s = .error (.refuse .addressOverflow) := by
  rw [readChecks_of_handle h, if_neg (fun k => hg k.1 k.2), if_pos hr]

/-- A range of no bytes cannot pass the end of the address space. -/
theorem readChecks_zero {s : State} {nand : Bool} (h : s.seq.handle = true) (hg : nand = true → s.seq.geometry ≠ none)
    (addr dst : Word) : readChecks nand addr 0 dst s = .ok () := by
  have hrange : ¬ (2 ^ 32 < addr.toNat + 0 ∨ 2 ^ 32 < dst.toNat + 0) := by omega
  rw [readChecks_of_handle h, if_neg (fun k => hg k.1 k.2), if_neg hrange]

/-! ### The four read calls as one (R321, R348) -/

/-- The NAND reader or the NOR reader. -/
def readWith (nand : Bool) (addr : Word) (len : Nat) (dst : Word) (s : State) : Res State :=
  if nand then nandReadOp addr len dst s else norReadOp addr len dst s

theorem readOp_eq_readWith (addr : Word) (len : Nat) (dst : Word) (s : State) :
    readOp addr len dst s = readWith (decide (s.cfg.storageKind = .nand)) addr len dst s := by
  unfold readOp
  cases s.cfg.storageKind <;> rfl

/-- A read does nothing before its checks. -/
theorem readWith_error {nand : Bool} {addr dst : Word} {len : Nat} {s : State} {e : Stop}
    (h : readChecks nand addr len dst s = .error e) : readWith nand addr len dst s = .error e := by
  cases nand with
  | false => change norReadOp addr len dst s = _; rw [norReadOp, h, res_bind_error]
  | true => change nandReadOp addr len dst s = _; rw [nandReadOp, h, res_bind_error]

/-- A read of no bytes that passes its checks does nothing after them. -/
theorem readWith_zero {nand : Bool} {s : State} (h : s.seq.handle = true) (hg : nand = true → s.seq.geometry ≠ none)
    (addr dst : Word) : readWith nand addr 0 dst s = .ok s := by
  have hchk := readChecks_zero h hg addr dst
  cases nand with
  | false =>
    change norReadOp addr 0 dst s = _
    rw [norReadOp, hchk, res_bind_ok, if_pos rfl, res_pure]
  | true =>
    obtain ⟨g, hgeo⟩ := Option.ne_none_iff_exists'.1 (hg rfl)
    change nandReadOp addr 0 dst s = _
    simp only [nandReadOp, hchk, res_bind_ok, hgeo, if_true, res_pure]

theorem exec_norRead (addr : Word) (len : Nat) (dst : Word) (s : State) :
    exec (.norRead addr len dst) s = finish (readWith false addr len dst s >>= fun t => pure (t.ret .nothing)) := rfl

theorem exec_nandRead (addr : Word) (len : Nat) (dst : Word) (s : State) :
    exec (.nandRead addr len dst) s = finish (readWith true addr len dst s >>= fun t => pure (t.ret .nothing)) := rfl

theorem exec_read (addr : Word) (len : Nat) (dst : Word) (s : State) :
    exec (.read addr len dst) s =
      finish (readWith (decide (s.cfg.storageKind = .nand)) addr len dst s >>= fun t => pure (t.ret .nothing)) := by
  rw [← readOp_eq_readWith]; rfl

theorem exec_fitRead (sector : Word) (count : Nat) (buffer : Word) (s : State) :
    exec (.fitRead sector count buffer) s =
      finish (readWith (decide (s.cfg.storageKind = .nand)) sector count buffer s >>= fun t => pure (t.ret (.count count))) := by
  rw [← readOp_eq_readWith]; rfl

/-- Each of the four read calls runs a reader and returns a value of its own. -/
theorem exec_readCall {s : State} {addr dst : Word} {len : Nat} {i : Instr} {nand : Bool}
    (h : i = .norRead addr len dst ∧ nand = false ∨ i = .nandRead addr len dst ∧ nand = true ∨
      (i = .read addr len dst ∨ i = .fitRead addr len dst) ∧ nand = decide (s.cfg.storageKind = .nand)) :
    ∃ v, exec i s = finish (readWith nand addr len dst s >>= fun t => pure (t.ret v)) := by
  obtain ⟨rfl, rfl⟩ | ⟨rfl, rfl⟩ | ⟨rfl | rfl, rfl⟩ := h
  · exact ⟨_, exec_norRead addr len dst s⟩
  · exact ⟨_, exec_nandRead addr len dst s⟩
  · exact ⟨_, exec_read addr len dst s⟩
  · exact ⟨_, exec_fitRead addr len dst s⟩

/-- Settles O39: all four calls end with the first check that fails. -/
theorem readChecks_inOrder : Obligations.ReadChecks := by
  unfold Obligations.ReadChecks
  intro s addr dst len i nand hi
  obtain ⟨v, hexec⟩ := exec_readCall hi
  have refused {q : Refusal} (hq : readChecks nand addr len dst s = .error (.refuse q)) : exec i s = .refused q := by
    rw [hexec, readWith_error hq, res_bind_error, finish_refuse]
  exact ⟨fun h => refused (noHandle_readChecks h nand addr len dst),
    fun h hn hg => refused (readChecks_noGeometry h hn hg addr len dst),
    fun h hg hr => refused (readChecks_addressOverflow h hg hr)⟩

/-- Settles O38: the checks pass, and neither reader starts a chunk. -/
theorem zeroLengthRead : Obligations.ZeroLengthRead := by
  unfold Obligations.ZeroLengthRead
  intro s addr dst h
  have returns {nand : Bool} (hg : nand = true → s.seq.geometry ≠ none) (v : Returned) :
      finish (readWith nand addr 0 dst s >>= fun t => pure (t.ret v)) = .next { s with result := v } := by
    rw [readWith_zero h hg, res_bind_ok, res_pure, finish_ok, State.ret]
  refine ⟨?_, fun hg => ?_, fun hk => ?_⟩
  · rw [exec_norRead]
    exact returns (fun k => absurd k Bool.false_ne_true) _
  · rw [exec_nandRead]
    exact returns (fun _ => hg) _
  · have hg : decide (s.cfg.storageKind = .nand) = true → s.seq.geometry ≠ none := fun hnand =>
      hk.resolve_left fun hnor => by simp [hnor] at hnand
    rw [exec_read, exec_fitRead]
    exact ⟨returns hg _, returns hg _⟩

/-! ### The session state after a chunk (R343) -/

theorem mustReload_some {g : FlashGeometry} {c : Cursor} {r : Word} :
    mustReload g c (some r) = true ↔ 0 < c.remaining ∧ r.toNat < (rowOf g (BitVec.ofNat 32 c.addr)).toNat := by
  simp only [mustReload, Bool.and_eq_true, decide_eq_true_eq, BitVec.lt_def]

/-- Settles O44, by the two answers of the reload condition. -/
theorem reloadCondition : Obligations.ReloadCondition := by
  unfold Obligations.ReloadCondition
  refine fun g c s r hr => ⟨fun hmore hrow => ?_, fun hstay => ?_⟩
  · rw [leaveChunk, hr, if_pos (mustReload_some.2 ⟨hmore, hrow⟩)]
  · have hkeep : ¬ mustReload g c (some r) = true := by
      rw [mustReload_some]
      omega
    rw [leaveChunk, hr, if_neg hkeep]

end Sys2Proof.Machine
end

section
/-! PROOFS. What an operation may change, said once for every operation of the machine: the frame of each permission, and the
machine's invariant, which every operation keeps (10_state.md R31, R36, R40 to R46). -/

namespace Sys2Proof.Machine

/-! ### The invariant between the steps of a call -/

/-- The machine's invariant but for the read session, which is open inside a read call. -/
structure CoreOk (s : State) : Prop where
  burst : burstOk s = true
  reset : softResetOk s = true
  other : otherBitsOk s = true
  mems : memoriesOk s = true

theorem stateOk_iff {s : State} : stateOk s = true ↔ CoreOk s ∧ sessionOk s = true := by
  simp only [stateOk, Bool.and_eq_true]
  exact ⟨fun ⟨⟨⟨⟨a, b⟩, c⟩, d⟩, e⟩ => ⟨⟨a, b, c, d⟩, e⟩, fun ⟨⟨a, b, c, d⟩, e⟩ => ⟨⟨⟨⟨a, b⟩, c⟩, d⟩, e⟩⟩

theorem sessionOk_iff {s : State} : sessionOk s = true ↔ s.seq.cursor = none ∧ s.seq.nandState = none := by
  simp [sessionOk]

/-- What the invariant says of a running burst. -/
structure BurstRuns (s : State) : Prop where
  cs : s.eng.cs = true
  srst : s.eng.srstBusy = false
  clk : s.plat.clkOn = true
  enable : s.regs.enable = true
  master : s.regs.master = true
  pos : 0 < s.eng.bRemain
  le : s.eng.tRemain ≤ s.eng.bRemain
  tx : s.regs.txFifo.length = s.eng.tRemain
  rx : s.regs.rxFifo.length + s.eng.bRemain ≤ fifoDepth
  frame : s.eng.frame.length + s.eng.bRemain ≤ fifoDepth

/-- What the invariant says where no burst runs. -/
structure BurstIdle (s : State) : Prop where
  cs : s.eng.cs = false
  b : s.eng.bRemain = 0
  t : s.eng.tRemain = 0
  tx : s.regs.txFifo.length ≤ fifoDepth
  rx : s.regs.rxFifo.length ≤ fifoDepth

theorem burstOk_busy {s : State} (h : s.eng.busy = true) : burstOk s = true ↔ BurstRuns s := by
  simp only [burstOk, h, if_true, Bool.and_eq_true, decide_eq_true_eq, Bool.not_eq_true']
  exact ⟨fun ⟨⟨⟨⟨⟨⟨⟨⟨⟨a, b⟩, c⟩, d⟩, e⟩, f⟩, g⟩, i⟩, j⟩, k⟩ => ⟨a, b, c, d, e, f, g, i, j, k⟩,
    fun ⟨a, b, c, d, e, f, g, i, j, k⟩ => ⟨⟨⟨⟨⟨⟨⟨⟨⟨a, b⟩, c⟩, d⟩, e⟩, f⟩, g⟩, i⟩, j⟩, k⟩⟩

theorem burstOk_idle {s : State} (h : s.eng.busy = false) : burstOk s = true ↔ BurstIdle s := by
  simp only [burstOk, h, Bool.false_eq_true, if_false, Bool.and_eq_true, decide_eq_true_eq, Bool.not_eq_true']
  exact ⟨fun ⟨⟨⟨⟨a, b⟩, c⟩, d⟩, e⟩ => ⟨a, b, c, d, e⟩, fun ⟨a, b, c, d, e⟩ => ⟨⟨⟨⟨a, b⟩, c⟩, d⟩, e⟩⟩

theorem burstOk_of_runs {s : State} (hr : BurstRuns s) (h : s.eng.busy = true) : burstOk s = true := (burstOk_busy h).2 hr

theorem burstOk_of_idle {s : State} (hi : BurstIdle s) (h : s.eng.busy = false) : burstOk s = true := (burstOk_idle h).2 hi

theorem CoreOk.runs {s : State} (h : CoreOk s) (hb : s.eng.busy = true) : BurstRuns s := (burstOk_busy hb).1 h.burst

theorem CoreOk.idle {s : State} (h : CoreOk s) (hb : s.eng.busy = false) : BurstIdle s := (burstOk_idle hb).1 h.burst

theorem softResetOk_iff {s : State} :
    softResetOk s = true ↔ (s.eng.srstBusy = true → s.cfg.variant = .genB ∧ s.plat.clkOn = true) := by
  cases h : s.eng.srstBusy <;> simp [softResetOk, h]

theorem softResetOk_of_done {s : State} (h : s.eng.srstBusy = false) : softResetOk s = true :=
  softResetOk_iff.2 fun k => by simp [h] at k

theorem otherBitsOk_iff {s : State} :
    otherBitsOk s = true ↔ s.regs.ctlOther &&& ctlNamed = 0#32 ∧ s.regs.gcrOther &&& gcrNamed = 0#32 ∧ s.regs.tcrOther &&& tcrNamed = 0#32 := by
  simp [otherBitsOk, and_assoc]

theorem memoriesOk_iff {s : State} : memoriesOk s = true ↔ memoryOk s.hostMem = true ∧ memoryOk s.flash.norMem = true ∧
    memoryOk s.flash.nandMem = true ∧ memoryOk s.flash.nandCache = true := by
  simp [memoriesOk, and_assoc]

/-- The bits a mask clears are clear. -/
theorem clear_and_self (w m : Word) : (w &&& ~~~m) &&& m = 0#32 := by
  simp [BitVec.and_assoc, BitVec.and_comm (~~~m)]

/-- Through an open gate no soft reset runs, where the invariant holds: GenA has none. -/
theorem CoreOk.srst_of_open {s : State} (h : CoreOk s) (hg : GateOpen s) : s.eng.srstBusy = false := by
  cases hb : s.eng.srstBusy with
  | false => rfl
  | true => exact hb.symm.trans (hg.2 (softResetOk_iff.1 h.reset hb).1)

theorem gateOpen_of_ok {s : State} {u : Unit} (h : accessGate false s = .ok u) : GateOpen s := by
  obtain ⟨hc, hb⟩ := accessGate_eq_ok.1 h
  exact ⟨hc, fun hv => Bool.eq_false_of_not_eq_true fun hr => Bool.false_ne_true (hb hv hr)⟩

/-! ### Permissions and frames -/

/-- What an operation may do beyond what a command does. -/
structure Permission where
  /-- Write host memory. -/
  hostMem : Bool := false
  /-- Create or destroy the handle. -/
  handle : Bool := false
  /-- Store a geometry. -/
  geometry : Bool := false
  /-- Leave a read session open. -/
  session : Bool := false
  /-- Tear the Transport down. -/
  teardown : Bool := false
  /-- Start a soft reset. -/
  softReset : Bool := false

/-- `t` follows `s` within a permission: what stays as it is, what only grows, and the invariant kept. -/
structure Frame (p : Permission) (s t : State) : Prop where
  cfg : t.cfg = s.cfg
  image : SameImage s.flash t.flash
  hostMem : p.hostMem = false → t.hostMem = s.hostMem
  handle : p.handle = false → t.seq.handle = s.seq.handle
  geometry : p.geometry = false → t.seq.geometry = s.seq.geometry
  session : p.session = false → sessionOk s = true → sessionOk t = true
  softReset : p.softReset = false → s.eng.srstBusy = false → t.eng.srstBusy = false
  trace : ∃ ev, t.trace = s.trace ++ ev ∧ (p.teardown = false → .deinitDone ∉ ev)
  ok : CoreOk s → CoreOk t

theorem Frame.refl (p : Permission) (s : State) : Frame p s s :=
  ⟨rfl, .refl _, fun _ => rfl, fun _ => rfl, fun _ => rfl, fun _ h => h, fun _ h => h, ⟨[], by simp, by simp⟩, fun h => h⟩

theorem Frame.trans {p : Permission} {s t u : State} (a : Frame p s t) (b : Frame p t u) : Frame p s u := by
  obtain ⟨ev, htr, hev⟩ := a.trace
  obtain ⟨ev', htr', hev'⟩ := b.trace
  exact ⟨b.cfg.trans a.cfg, a.image.trans b.image, fun h => (b.hostMem h).trans (a.hostMem h), fun h => (b.handle h).trans (a.handle h),
    fun h => (b.geometry h).trans (a.geometry h), fun h k => b.session h (a.session h k), fun h k => b.softReset h (a.softReset h k),
    ⟨ev ++ ev', by rw [htr', htr, List.append_assoc], fun h => by simp [hev h, hev' h]⟩, fun h => b.ok (a.ok h)⟩

/-- A step that leaves the configuration, the device, host memory, the sequencer's variables and the trace alone. -/
theorem Frame.of_local {p : Permission} {s t : State} (cfg : t.cfg = s.cfg) (flash : t.flash = s.flash) (hostMem : t.hostMem = s.hostMem)
    (seq : t.seq = s.seq) (trace : t.trace = s.trace) (srst : p.softReset = false → s.eng.srstBusy = false → t.eng.srstBusy = false)
    (ok : CoreOk s → CoreOk t) : Frame p s t :=
  ⟨cfg, flash ▸ .refl _, fun _ => hostMem, fun _ => by rw [seq], fun _ => by rw [seq], fun _ h => by rwa [sessionOk, seq],
    srst, ⟨[], by simp [trace], by simp⟩, ok⟩

/-- A write of the register block keeps the frame where it keeps the invariant. -/
theorem Frame.of_regs {p : Permission} {s : State} {r : RegBlock} (ok : CoreOk s → CoreOk { s with regs := r }) :
    Frame p s { s with regs := r } := .of_local rfl rfl rfl rfl rfl (fun _ h => h) ok

/-- An event other than the end of `deinit`. -/
theorem Frame.log {p : Permission} (s : State) {e : Event} (h : p.teardown = false → e ≠ .deinitDone) : Frame p s (s.log e) :=
  ⟨rfl, .refl _, fun _ => rfl, fun _ => rfl, fun _ => rfl, fun _ h => h, fun _ h => h,
    ⟨[e], rfl, fun hp hm => h hp (List.mem_singleton.1 hm).symm⟩, fun ⟨a, b, c, d⟩ => ⟨a, b, c, d⟩⟩

/-- The model's own fields, the turns to come and the draws, are in no frame. -/
theorem Frame.bookkeeping {p : Permission} (s : State) (v : Returned) (e : Environment) (q : List Request) (d : Nat) :
    Frame p s { s with result := v, env := e, program := q, draws := d } :=
  .of_local rfl rfl rfl rfl rfl (fun _ h => h) fun ⟨a, b, c, d⟩ => ⟨a, b, c, d⟩

theorem Frame.ret {p : Permission} (s : State) (v : Returned) : Frame p s (s.ret v) := .bookkeeping s v s.env s.program s.draws

theorem Frame.drew {p : Permission} (s : State) (n : Nat) : Frame p s (s.drew n) :=
  .bookkeeping s s.result s.env s.program (s.draws + n)

theorem Frame.env {p : Permission} (s : State) (e : Environment) : Frame p s { s with env := e } :=
  .bookkeeping s s.result e s.program s.draws

/-- A change of the sequencer's variables, within what the permission says of them. -/
theorem Frame.seq {p : Permission} {s : State} {q : Sequencer} (handle : p.handle = false → q.handle = s.seq.handle)
    (geometry : p.geometry = false → q.geometry = s.seq.geometry)
    (session : p.session = false → sessionOk s = true → q.cursor = none ∧ q.nandState = none) : Frame p s { s with seq := q } :=
  ⟨rfl, .refl _, fun _ => rfl, handle, geometry, fun hp hs => sessionOk_iff.2 (session hp hs), fun _ h => h, ⟨[], by simp, by simp⟩,
    fun ⟨a, b, c, d⟩ => ⟨a, b, c, d⟩⟩

/-! ### Operations within a permission -/

/-- From `s` an operation ends within the permission, at the state `st` finds in what it returns; and where the invariant
holds it does not end with a received byte that finds the RX FIFO full (60_exceptions.md R363). -/
def Within (p : Permission) {α : Type} (st : α → State) (s : State) (r : Res α) : Prop :=
  (∀ a, r = .ok a → Frame p s (st a)) ∧ (CoreOk s → r ≠ .error (.fault .rxOverflow))

theorem within_ok {p : Permission} {α : Type} {st : α → State} {s : State} {a : α} (h : Frame p s (st a)) : Within p st s (.ok a) :=
  ⟨fun b hb => by rwa [← Except.ok.inj hb], fun _ => by simp⟩

theorem within_pure {p : Permission} {α : Type} {st : α → State} {s : State} {a : α} (h : Frame p s (st a)) : Within p st s (pure a) :=
  within_ok h

theorem within_refuse {p : Permission} {α : Type} {st : α → State} {s : State} (q : Refusal) :
    Within p st s (.error (.refuse q)) := ⟨fun _ h => by simp at h, fun _ => by simp⟩

theorem within_fault {p : Permission} {α : Type} {st : α → State} {s : State} {f : Fault} (h : CoreOk s → f ≠ .rxOverflow) :
    Within p st s (.error (.fault f)) := ⟨fun _ h => by simp at h, fun k => by simpa using h k⟩

/-- A sequence is within a permission where its parts are. -/
theorem Within.bind {p : Permission} {α β : Type} {st : α → State} {st' : β → State} {s : State} {x : Res α} {f : α → Res β}
    (hx : Within p st s x) (hf : ∀ a, x = .ok a → Within p st' (st a) (f a)) : Within p st' s (x >>= f) := by
  obtain ⟨hok, herr⟩ := hx
  cases x with
  | error e => exact ⟨fun _ h => by simp at h, fun h => by simpa using herr h⟩
  | ok a =>
    obtain ⟨hok', herr'⟩ := hf a rfl
    exact ⟨fun b hb => (hok a rfl).trans (hok' b hb), fun h => herr' ((hok a rfl).ok h)⟩

/-- What comes after a step that keeps the frame. -/
theorem Within.after {p : Permission} {α : Type} {st : α → State} {s t : State} {r : Res α} (h : Frame p s t) (hr : Within p st t r) :
    Within p st s r := ⟨fun a ha => h.trans (hr.1 a ha), fun k => hr.2 (h.ok k)⟩

/-- An answer that is the state `s` itself, such as a check's. -/
def Checks {α : Type} (s : State) (r : Res α) : Prop := CoreOk s → r ≠ .error (.fault .rxOverflow)

theorem Within.check {p : Permission} {α β : Type} {st : β → State} {s : State} {x : Res α} {f : α → Res β} (hx : Checks s x)
    (hf : ∀ a, x = .ok a → Within p st s (f a)) : Within p st s (x >>= f) :=
  Within.bind (st := fun _ => s) ⟨fun _ _ => .refl _ _, hx⟩ hf

theorem checks_refuseIf (s : State) (b : Bool) (q : Refusal) : Checks s (refuseIf b q) := fun _ => by
  cases b <;> simp [refuseIf]

theorem checks_bind {α β : Type} {s : State} {x : Res α} {f : α → Res β} (hx : Checks s x) (hf : ∀ a, Checks s (f a)) :
    Checks s (x >>= f) := fun h => by
  cases x with
  | error e => simpa using hx h
  | ok a => exact hf a h

theorem checks_pure {α : Type} (s : State) (a : α) : Checks s (pure a) := fun _ => by simp

theorem checks_accessGate (g : Bool) (s : State) : Checks s (accessGate g s) :=
  checks_bind (checks_refuseIf _ _ _) fun _ => checks_refuseIf _ _ _

theorem checks_rowAccess (v : Variant) (g : Bool) (s : State) : Checks s (rowAccess v g s) :=
  checks_bind (checks_accessGate _ _) fun _ => checks_refuseIf _ _ _

/-- A refusal, and what is done where it is not raised. -/
theorem Within.refuseIf {p : Permission} {α : Type} {st : α → State} {s : State} {b : Bool} {q : Refusal} {f : Unit → Res α}
    (hf : b = false → Within p st s (f ())) : Within p st s (refuseIf b q >>= f) :=
  .check (checks_refuseIf s b q) fun _ h => hf (refuseIf_eq_ok.1 h)

/-- An access through the gate. -/
theorem Within.gated {p : Permission} {α : Type} {st : α → State} {s : State} {act : State → Res α}
    (h : GateOpen s → Within p st s (act s)) : Within p st s (gated act s) :=
  .check (checks_accessGate _ s) fun _ hg => h (gateOpen_of_ok hg)

/-! ### Register accesses (40_registers.md) -/

theorem popRx_within {p : Permission} (s : State) : Within p Prod.snd s (popRx s) := by
  unfold popRx
  split
  · exact within_fault fun _ => by simp
  · rename_i b rest hrx
    refine within_ok (.of_regs fun h => ⟨?_, h.reset, h.other, h.mems⟩)
    cases hb : s.eng.busy with
    | true =>
      have hr := h.runs hb
      have hlen := hr.rx
      rw [hrx, List.length_cons] at hlen
      exact burstOk_of_runs { hr with rx := by show rest.length + s.eng.bRemain ≤ fifoDepth; omega } hb
    | false =>
      have hi := h.idle hb
      have hlen := hi.rx
      rw [hrx, List.length_cons] at hlen
      exact burstOk_of_idle { hi with rx := by show rest.length ≤ fifoDepth; omega } hb

theorem pushTx_within {p : Permission} (v : Byte) (s : State) : Within p id s (pushTx v s) := by
  refine .refuseIf fun hb => .check (fun _ => ?_) fun _ hfull => within_pure (.of_regs fun h => ⟨?_, h.reset, h.other, h.mems⟩)
  · cases decide (fifoDepth ≤ s.regs.txFifo.length) <;> simp
  · have hroom : ¬ fifoDepth ≤ s.regs.txFifo.length := of_decide_eq_false (faultIf_eq_ok.1 hfull)
    refine burstOk_of_idle { h.idle hb with tx := ?_ } hb
    show (s.regs.txFifo ++ [v]).length ≤ fifoDepth
    rw [List.length_append, List.length_singleton]
    omega

theorem checks_counterWritable (v : Word) (s : State) : Checks s (counterWritable v s) :=
  checks_bind (checks_refuseIf _ _ _) fun _ => checks_refuseIf _ _ _

theorem writeBurstCnt_within {p : Permission} (v : Word) (s : State) : Within p id s (writeBurstCnt v s) :=
  .check (checks_counterWritable v s) fun _ _ => within_pure (.of_regs fun ⟨a, b, c, d⟩ => ⟨a, b, c, d⟩)

theorem writeXferCnt_within {p : Permission} (v : Word) (s : State) : Within p id s (writeXferCnt v s) :=
  .check (checks_counterWritable v s) fun _ _ => within_pure (.of_regs fun ⟨a, b, c, d⟩ => ⟨a, b, c, d⟩)

theorem writeBcc_within {p : Permission} (v : Word) (s : State) : Within p id s (writeBcc v s) :=
  .check (checks_counterWritable v s) fun _ _ => within_pure (.of_regs fun ⟨a, b, c, d⟩ => ⟨a, b, c, d⟩)

theorem writeCctl_within {p : Permission} (v : Word) (s : State) : Within p id s (writeCctl v s) :=
  .refuseIf fun _ => within_pure (.of_regs fun ⟨a, b, c, d⟩ => ⟨a, b, c, d⟩)

/-- The five checks of a burst start that the invariant of a running burst rests on (40_registers.md R175). -/
theorem startRefusal_none {s : State} (h : startRefusal s = none) :
    (s.regs.enable = true ∧ s.regs.master = true) ∧ s.regs.burstCnt.toNat ≠ 0 ∧ s.regs.xferCnt.toNat ≤ s.regs.burstCnt.toNat ∧
      s.regs.burstCnt.toNat ≤ 64 ∧ s.regs.txFifo.length = s.regs.xferCnt.toNat ∧ s.regs.rxFifo = [] := by
  unfold startRefusal at h
  split_ifs at h with hen hpin hbcc hshape hfifo hmod
  push Not at hshape hfifo
  obtain ⟨hpos, hle, hcap⟩ := hshape
  exact ⟨hen, hpos, hle, hcap, hfifo⟩

/-- The start of a burst in a clocked controller with no soft reset. -/
theorem startBurst_within {p : Permission} {s : State} (hg : GateOpen s) : Within p id s (startBurst s) := by
  rw [startBurst_eq]
  cases hq : startRefusal s with
  | some q => exact within_refuse q
  | none =>
    obtain ⟨⟨hen, hma⟩, hpos, hle, hcap, htx, hrx⟩ := startRefusal_none hq
    refine within_ok (.of_local rfl rfl rfl rfl rfl (fun _ h => h) fun h => ⟨?_, h.reset, h.other, h.mems⟩)
    refine burstOk_of_runs ⟨rfl, h.srst_of_open hg, hg.1, hen, hma, Nat.pos_of_ne_zero hpos, hle, htx, ?_, ?_⟩ rfl
    · show s.regs.rxFifo.length + s.regs.burstCnt.toNat ≤ fifoDepth
      rw [hrx, List.length_nil, Nat.zero_add]
      exact hcap
    · show 0 + s.regs.burstCnt.toNat ≤ fifoDepth
      rw [Nat.zero_add]
      exact hcap

/-- A CTL write that does not act leaves ENABLE, MASTER and both FIFOs (40_registers.md R153). -/
theorem not_ctlActs {v : Word} (h : ctlActs v = false) :
    v.getLsbD bitXchA = false ∧ v.getLsbD bitTfRst = false ∧ v.getLsbD bitRfRst = false ∧ v.getLsbD bitEnable = true ∧
      v.getLsbD bitMaster = true := by
  simpa [ctlActs, and_assoc] using h

theorem ctlWritten_ok {v : Word} {s : State} (hacts : (s.eng.busy && ctlActs v) = false) (h : CoreOk s) :
    CoreOk { s with regs := ctlWritten v s.regs } := by
  obtain ⟨-, hgcr, htcr⟩ := otherBitsOk_iff.1 h.other
  refine ⟨?_, h.reset, otherBitsOk_iff.2 ⟨clear_and_self _ _, hgcr, htcr⟩, h.mems⟩
  cases hb : s.eng.busy with
  | true =>
    rw [hb, Bool.true_and] at hacts
    obtain ⟨-, htf, hrf, hen, hma⟩ := not_ctlActs hacts
    have hr := h.runs hb
    exact burstOk_of_runs { hr with
      enable := hen, master := hma, tx := by simpa [ctlWritten, htf] using hr.tx, rx := by simpa [ctlWritten, hrf] using hr.rx } hb
  | false =>
    have hi := h.idle hb
    refine burstOk_of_idle { hi with tx := ?_, rx := ?_ } hb
    · simp only [ctlWritten]
      split
      · exact Nat.zero_le _
      · exact hi.tx
    · simp only [ctlWritten]
      split
      · exact Nat.zero_le _
      · exact hi.rx

theorem writeCtl_within {p : Permission} (v : Word) {s : State} (hg : GateOpen s) : Within p id s (writeCtl v s) := by
  refine .refuseIf fun hacts => ?_
  have hframe : Frame p s { s with regs := ctlWritten v s.regs } := .of_regs (ctlWritten_ok hacts)
  dsimp only
  split
  · exact .after hframe (startBurst_within hg)
  · exact within_pure hframe

/-- A GCR write that starts no soft reset needs no permission for one (40_registers.md R161). -/
theorem writeGcr_within {p : Permission} {v : Word} {s : State} (hv : s.cfg.variant = .genB) (hg : GateOpen s)
    (hp : p.softReset = false → v.getLsbD bitSrst = false) : Within p id s (writeGcr v s) := by
  refine .refuseIf fun hb => ?_
  split
  · rename_i hsrst
    refine within_pure (.of_local rfl rfl rfl rfl rfl ?_ fun h => ⟨?_, ?_, ?_, h.mems⟩)
    · intro hq
      rw [hp hq] at hsrst
      exact absurd hsrst Bool.false_ne_true
    · exact burstOk_of_idle { h.idle hb with tx := Nat.zero_le _, rx := Nat.zero_le _ } hb
    · exact softResetOk_iff.2 fun _ => ⟨hv, hg.1⟩
    · exact otherBitsOk_iff.2 ⟨(otherBitsOk_iff.1 h.other).1, clear_and_self _ _, clear_and_self _ _⟩
  · refine within_pure (.of_regs fun h => ⟨?_, h.reset, ?_, h.mems⟩)
    · exact burstOk_of_idle { h.idle hb with } hb
    · obtain ⟨hctl, -, htcr⟩ := otherBitsOk_iff.1 h.other
      exact otherBitsOk_iff.2 ⟨hctl, clear_and_self _ _, htcr⟩

theorem writeTcr_within {p : Permission} (v : Word) {s : State} (hg : GateOpen s) : Within p id s (writeTcr v s) := by
  refine .refuseIf fun _ => ?_
  have hframe : Frame p s { s with regs := { s.regs with tcrOther := v &&& ~~~tcrNamed } } := .of_regs fun h => by
    obtain ⟨hctl, hgcr, -⟩ := otherBitsOk_iff.1 h.other
    exact ⟨h.burst, h.reset, otherBitsOk_iff.2 ⟨hctl, hgcr, clear_and_self _ _⟩, h.mems⟩
  dsimp only
  split
  · exact .after hframe (startBurst_within hg)
  · exact within_pure hframe

theorem readFifoSta_within {p : Permission} (s : State) : Frame p s (readFifoSta s).2 := .drew s 1

/-! ### Turns of the other agents -/

theorem SameImage.of_load {f : FlashDevice} {k : StorageKind} {fr : List Byte} : SameImage f (flashEndFrame k f fr) :=
  sameImage_flashEndFrame k f fr

theorem nandCache_flashEndFrame (k : StorageKind) (f : FlashDevice) (fr : List Byte) : (flashEndFrame k f fr).nandCache = f.nandCache := by
  unfold flashEndFrame
  split
  · split <;> rfl
  · rfl

theorem memoriesOk_of_image {s t : State} (h : memoriesOk s = true) (hm : t.hostMem = s.hostMem) (hi : SameImage s.flash t.flash)
    (hc : memoryOk t.flash.nandCache = true) : memoriesOk t = true := by
  obtain ⟨hh, hn, ha, -⟩ := memoriesOk_iff.1 h
  obtain ⟨e1, e2, -⟩ := hi
  exact memoriesOk_iff.2 ⟨hm ▸ hh, e1 ▸ hn, e2 ▸ ha, hc⟩

/-- One byte clocked out of a running burst leaves room for the rest of it. -/
theorem byteClocked_counts {s : State} (hr : BurstRuns s) :
    (byteClocked s).regs.txFifo.length = s.eng.tRemain - 1 ∧ (byteClocked s).regs.rxFifo.length = s.regs.rxFifo.length + 1 ∧
      (byteClocked s).eng.frame.length = s.eng.frame.length + 1 := by
  refine ⟨?_, by simp [byteClocked], by simp [byteClocked]⟩
  have htx := hr.tx
  simp only [byteClocked]
  split
  · rw [List.length_tail]; omega
  · omega

theorem byteStep_within {p : Permission} {s : State} (hbusy : s.eng.busy = true) : Within p id s (byteStep s) := by
  have hfull : Checks s (faultIf (decide (fifoDepth ≤ s.regs.rxFifo.length)) .rxOverflow) := fun h => by
    have hr := h.runs hbusy
    have : ¬ fifoDepth ≤ s.regs.rxFifo.length := by have := hr.rx; have := hr.pos; omega
    simp [this]
  refine .check hfull fun _ _ => ?_
  dsimp only
  refine within_pure ?_
  show Frame p s (if (byteClocked s).eng.bRemain = 0 then completeBurst (byteClocked s) else byteClocked s)
  split
  · rename_i hlast
    refine ⟨rfl, SameImage.of_load, fun _ => rfl, fun _ => rfl, fun _ => rfl, fun _ h => h, fun _ h => h,
      ⟨[.frame (byteClocked s).eng.frame], rfl, by simp⟩, fun h => ?_⟩
    have hr := h.runs hbusy
    obtain ⟨htx, hrx, -⟩ := byteClocked_counts hr
    refine ⟨burstOk_of_idle ⟨rfl, hlast, ?_, ?_, ?_⟩ rfl, h.reset, h.other, ?_⟩
    · show s.eng.tRemain - 1 = 0
      have hb : s.eng.bRemain - 1 = 0 := hlast
      have := hr.le
      omega
    · show (byteClocked s).regs.txFifo.length ≤ fifoDepth
      have := hr.le; have := hr.rx
      omega
    · show (byteClocked s).regs.rxFifo.length ≤ fifoDepth
      have := hr.pos; have := hr.rx
      omega
    · refine memoriesOk_of_image h.mems rfl SameImage.of_load ?_
      show memoryOk (flashEndFrame _ _ _).nandCache = true
      obtain ⟨-, -, -, hcache⟩ := memoriesOk_iff.1 h.mems
      rw [nandCache_flashEndFrame]
      exact hcache
  · rename_i hmore
    refine .of_local rfl rfl rfl rfl rfl (fun _ h => h) fun h => ⟨?_, h.reset, h.other, h.mems⟩
    have hr := h.runs hbusy
    obtain ⟨htx, hrx, hfr⟩ := byteClocked_counts hr
    have hpos := hr.pos
    have hle := hr.le
    have hb : (byteClocked s).eng.bRemain = s.eng.bRemain - 1 := rfl
    have ht : (byteClocked s).eng.tRemain = s.eng.tRemain - 1 := rfl
    exact burstOk_of_runs ⟨hr.cs, hr.srst, hr.clk, hr.enable, hr.master, by omega, by omega, by omega,
      by have := hr.rx; omega, by have := hr.frame; omega⟩ hbusy

theorem engineTurn_within {p : Permission} (s : State) : Within p id s (engineTurn s) := by
  unfold engineTurn
  split
  · rename_i hsrst
    refine within_ok (.of_local rfl rfl rfl rfl rfl (fun _ _ => rfl) fun h => ⟨?_, softResetOk_of_done rfl, h.other, h.mems⟩)
    cases hb : s.eng.busy with
    | true => exact burstOk_of_runs { h.runs hb with srst := rfl } hb
    | false => exact burstOk_of_idle { h.idle hb with } hb
  · split
    · rename_i hrun
      exact byteStep_within (Bool.and_eq_true_iff.1 hrun).1
    · exact within_ok (.refl _ _)

theorem flashTurn_within {p : Permission} (s : State) : Frame p s (flashTurn s) := by
  unfold flashTurn
  split
  · refine ⟨rfl, sameImage_flashLoad _, fun _ => rfl, fun _ => rfl, fun _ => rfl, fun _ h => h, fun _ h => h, ⟨[], by simp, by simp⟩,
      fun h => ⟨h.burst, h.reset, h.other, ?_⟩⟩
    obtain ⟨-, -, hnand, -⟩ := memoriesOk_iff.1 h.mems
    exact memoriesOk_of_image h.mems rfl (sameImage_flashLoad _) (memoryOk_pageOf _ hnand)
  · exact .refl _ _

theorem takeTurn_within {p : Permission} (s : State) : ∀ turn, Within p id s (takeTurn turn s)
  | .engine => engineTurn_within s
  | .flash => within_ok (flashTurn_within s)

theorem takeTurns_within {p : Permission} : ∀ (ts : List Turn) (s : State), Within p id s (takeTurns ts s)
  | [], _ => within_ok (.refl _ _)
  | turn :: ts, s => (takeTurn_within s turn).bind fun t _ => takeTurns_within ts t

theorem gap_within {p : Permission} (s : State) : Within p id s (gap s) := by
  unfold gap
  split
  · exact within_ok (.refl _ _)
  · exact .after (.env s _) (takeTurns_within _ _)

theorem hostStep_within {p : Permission} {α : Type} {st : α → State} {act : State → Res α} {s : State}
    (h : ∀ t, Frame p s t → Within p st t (act t)) : Within p st s (hostStep act s) :=
  (gap_within s).bind fun t ht => h t ((gap_within s).1 t ht)

theorem fairRound_within {p : Permission} (s : State) : Within p id s (fairRound s) := by
  have hflash (t : State) : Within p id t (pure (if t.env.flashProgress then flashTurn t else t)) := by
    refine within_pure ?_
    split
    · exact flashTurn_within t
    · exact .refl _ _
  unfold fairRound
  split
  · exact (engineTurn_within s).bind fun t _ => hflash t
  · exact hflash s

/-- A poll stays within the permission. -/
def PollWithin (p : Permission) (poll : Poll) : Prop := ∀ s, Within p Prod.snd s (poll s)

theorem waitFair_within {p : Permission} {poll : Poll} (h : PollWithin p poll) : ∀ (k : Nat) (s : State), Within p id s (waitFair poll k s)
  | 0, s => (h s).bind fun ⟨done, t⟩ _ => by
    cases done with
    | true => exact within_pure (.refl _ _)
    | false => exact within_fault fun _ => by simp
  | k + 1, s => (h s).bind fun ⟨done, t⟩ _ => by
    cases done with
    | true => exact within_pure (.refl _ _)
    | false => exact (fairRound_within t).bind fun u _ => waitFair_within h k u

theorem waitSched_within {p : Permission} {poll : Poll} (h : PollWithin p poll) :
    ∀ (l : List (List Turn)) (s : State), Within p id s (waitSched poll l s)
  | [], s => .after (.env s _) (waitFair_within h _ _)
  | ts :: rest, s => .after (.env s { s.env with sched := rest }) <| (takeTurns_within ts _).bind fun t _ => (h t).bind fun ⟨done, u⟩ _ => by
    cases done with
    | true => exact within_pure (.refl _ _)
    | false => exact waitSched_within h rest u

theorem waitUntil_within {p : Permission} {poll : Poll} (h : PollWithin p poll) (s : State) : Within p id s (waitUntil poll s) :=
  waitSched_within h _ s

/-! ### Register accesses by role, and the polls (42_protocol_engine.md R230) -/

theorem checks_mmioReadCtrl (s : State) : Checks s (mmioReadCtrl s) := checks_bind (checks_accessGate _ s) fun _ => checks_pure _ _

theorem checks_mmioReadXch (s : State) : Checks s (mmioReadXch s) := checks_bind (checks_accessGate _ s) fun _ => checks_pure _ _

/-- On GenB a write of CTRL_EN with SRST needs the permission for a soft reset. -/
theorem mmioWriteCtrl_within {p : Permission} {v : Word} {s : State}
    (hp : p.softReset = false → s.cfg.variant = .genB → v.getLsbD bitSrst = false) : Within p id s (mmioWriteCtrl v s) := by
  refine .gated (act := fun s => match s.cfg.variant with | .genA => writeCtl v s | .genB => writeGcr v s) fun hg => ?_
  split
  · exact writeCtl_within v hg
  · rename_i hv
    exact writeGcr_within hv hg fun h => hp h hv

theorem mmioWriteXch_within {p : Permission} (v : Word) (s : State) : Within p id s (mmioWriteXch v s) := by
  refine .gated (act := fun s => match s.cfg.variant with | .genA => writeCtl v s | .genB => writeTcr v s) fun hg => ?_
  split
  · exact writeCtl_within v hg
  · exact writeTcr_within v hg

theorem setCtrl_within {p : Permission} (hp : p.softReset = true) (m : Word) (s : State) : Within p id s (setCtrl m s) :=
  .check (checks_mmioReadCtrl s) fun _ _ => hostStep_within fun t _ => mmioWriteCtrl_within fun h => by simp [hp] at h

theorem clearCtrl_within {p : Permission} (hp : p.softReset = true) (m : Word) (s : State) : Within p id s (clearCtrl m s) :=
  .check (checks_mmioReadCtrl s) fun _ _ => hostStep_within fun t _ => mmioWriteCtrl_within fun h => by simp [hp] at h

theorem getLsbD_bitSrst_of_mmioReadCtrl {s : State} {v : Word} (h : mmioReadCtrl s = .ok v) (hv : s.cfg.variant = .genB) :
    v.getLsbD bitSrst = s.eng.srstBusy := by
  obtain ⟨_, -, h⟩ := res_bind_eq_ok.1 h
  obtain rfl := Except.ok.inj h
  rw [hv]
  exact getLsbD_readGcr s 31 (by decide)

/-- With no soft reset running, bits other than SRST are set without the permission for one. -/
theorem setCtrl_within_of_done {p : Permission} {m : Word} {s : State} (hm : m.getLsbD bitSrst = false) (hs : s.eng.srstBusy = false) :
    Within p id s (setCtrl m s) :=
  .check (checks_mmioReadCtrl s) fun v hread => hostStep_within fun t ht => mmioWriteCtrl_within fun _ hv => by
    rw [BitVec.getLsbD_or, getLsbD_bitSrst_of_mmioReadCtrl hread (ht.cfg ▸ hv), hs, hm, Bool.false_or]

/-- With no soft reset running, bits are cleared without the permission for one. -/
theorem clearCtrl_within_of_done {p : Permission} {s : State} (m : Word) (hs : s.eng.srstBusy = false) : Within p id s (clearCtrl m s) :=
  .check (checks_mmioReadCtrl s) fun v hread => hostStep_within fun t ht => mmioWriteCtrl_within fun _ hv => by
    rw [BitVec.getLsbD_and, getLsbD_bitSrst_of_mmioReadCtrl hread (ht.cfg ▸ hv), hs, Bool.false_and]

theorem setXch_within {p : Permission} (m : Word) (s : State) : Within p id s (setXch m s) :=
  .check (checks_mmioReadXch s) fun _ _ => hostStep_within fun t _ => mmioWriteXch_within _ t

theorem pollFifo_within {p : Permission} (q : Word → Bool) : PollWithin p (pollFifo q) := fun s =>
  .check (checks_accessGate _ s) fun _ _ => within_pure (.drew s 1)

theorem pollSrst_within {p : Permission} : PollWithin p pollSrst := fun s =>
  .check (checks_mmioReadCtrl s) fun _ _ => within_pure (.refl p s)

/-! ### The Transport (41_transport.md) -/

/-- The handle changes hands, and an event says so. -/
theorem Frame.handleEvent {p : Permission} (hh : p.handle = true) (s : State) (b : Bool) {e : Event} (he : p.teardown = false → e ≠ .deinitDone) :
    Frame p s (State.log { s with seq := { s.seq with handle := b } } e) := by
  have hseq : Frame p s { s with seq := { s.seq with handle := b } } :=
    .seq (fun h => by simp [hh] at h) (fun _ => rfl) fun _ h => sessionOk_iff.1 h
  exact hseq.trans (.log _ he)

theorem configurePinsOp_within {p : Permission} (f : Nat) (s : State) : Within p id s (configurePinsOp f s) := by
  unfold configurePinsOp
  split_ifs
  · exact within_ok (.of_local rfl rfl rfl rfl rfl (fun _ h => h) fun ⟨a, b, c, d⟩ => ⟨a, b, c, d⟩)
  · exact within_ok (.of_local rfl rfl rfl rfl rfl (fun _ h => h) fun ⟨a, b, c, d⟩ => ⟨a, b, c, d⟩)
  · exact within_refuse _

/-- The power-on block is idle, with empty FIFOs and the named bits clear (70_reset_and_hazards.md R401). -/
theorem powerOnBlock_frame {p : Permission} (s : State) (q : Platform) : Frame p s (powerOnBlock { s with plat := q }) :=
  .of_local rfl rfl rfl rfl rfl (fun _ _ => rfl) fun h =>
    ⟨burstOk_of_idle ⟨rfl, rfl, rfl, Nat.zero_le _, Nat.zero_le _⟩ rfl, softResetOk_of_done rfl,
      otherBitsOk_iff.2 ⟨clear_and_self _ _, clear_and_self _ _, clear_and_self _ _⟩, h.mems⟩

theorem enableClockOp_within {p : Permission} (s : State) : Within p id s (enableClockOp s) :=
  .refuseIf fun _ => .after (powerOnBlock_frame s _) (hostStep_within fun t _ => .gated fun _ => writeCctl_within _ t)

theorem disableClockOp_within {p : Permission} (s : State) : Within p id s (disableClockOp s) :=
  .refuseIf fun hq => within_pure (by
    obtain ⟨hb, hr⟩ := Bool.or_eq_false_iff.1 hq
    refine .of_local rfl rfl rfl rfl rfl (fun _ h => h) fun h => ⟨burstOk_of_idle { h.idle hb with } hb, softResetOk_of_done hr, h.other, h.mems⟩)

theorem resetHandshake_within {p : Permission} (hp : p.softReset = true) (s : State) : Within p id s (resetHandshake s) := by
  unfold resetHandshake
  split
  · exact within_ok (.refl _ _)
  · exact (hostStep_within fun t _ => setCtrl_within hp _ t).bind fun t _ => waitUntil_within pollSrst_within t

theorem initOp_within {p : Permission} (hp : p.softReset = true) (hh : p.handle = true) (s : State) : Within p id s (initOp s) :=
  .refuseIf fun _ =>
    (hostStep_within fun t _ => configurePinsOp_within _ t).bind fun t _ =>
    (hostStep_within fun t _ => enableClockOp_within t).bind fun t _ =>
    (resetHandshake_within hp t).bind fun t _ =>
    (hostStep_within fun t _ => setCtrl_within hp _ t).bind fun t _ =>
    within_pure (.handleEvent hh t true fun _ => by simp)

theorem deinitOp_within {p : Permission} (hp : p.softReset = true) (hh : p.handle = true) (ht : p.teardown = true) (s : State) :
    Within p id s (deinitOp s) :=
  .refuseIf fun _ =>
    (hostStep_within fun t _ => clearCtrl_within hp _ t).bind fun t _ =>
    (hostStep_within fun t _ => disableClockOp_within t).bind fun t _ =>
    (hostStep_within fun t _ => configurePinsOp_within _ t).bind fun t _ =>
    within_pure (.handleEvent hh t false fun h => by simp [ht] at h)

/-! ### The exchange and the flash commands (42_protocol_engine.md R232, 43_flash_commands.md R260 to R264) -/

theorem delayStep_within {p : Permission} (s : State) : Within p id s (delayStep s) :=
  hostStep_within fun t _ => within_ok (.log t fun _ => by simp)

theorem checks_frameOk (s : State) (op : Byte) (addr : List Byte) (d n : Nat) : Checks s (frameOk op addr d n) :=
  checks_bind (checks_refuseIf _ _ _) fun _ => checks_bind (checks_refuseIf _ _ _) fun _ => checks_refuseIf _ _ _

theorem programCounters_within {p : Permission} (total hdrLen : Nat) (s : State) : Within p id s (programCounters total hdrLen s) :=
  (hostStep_within fun t _ => .gated fun _ => writeBurstCnt_within _ t).bind fun t _ =>
  (hostStep_within fun t _ => .gated fun _ => writeXferCnt_within _ t).bind fun t _ => by
    dsimp only [id]
    split
    · exact within_pure (.refl _ _)
    · exact hostStep_within fun t _ => .gated fun _ => writeBcc_within _ t

theorem pushAll_within {p : Permission} : ∀ (bs : List Byte) (s : State), Within p id s (pushAll bs s)
  | [], _ => within_ok (.refl _ _)
  | _ :: bs, _ => (hostStep_within fun t _ => .gated fun _ => pushTx_within _ t).bind fun t _ => pushAll_within bs t

theorem popAll_within {p : Permission} : ∀ (n : Nat) (s : State), Within p Prod.snd s (popAll n s)
  | 0, _ => within_ok (.refl _ _)
  | n + 1, _ => (hostStep_within fun t _ => .gated fun _ => popRx_within t).bind fun ⟨_, t⟩ _ =>
    (popAll_within n t).bind fun ⟨_, u⟩ _ => within_pure (.refl p u)

theorem awaitBurst_within {p : Permission} (total : Nat) (s : State) : Within p id s (awaitBurst total s) :=
  (waitUntil_within (pollFifo_within _) s).bind fun t _ => waitUntil_within (pollFifo_within _) t

theorem exchangeOp_within {p : Permission} (op : Byte) (addr : List Byte) (d n : Nat) (s : State) :
    Within p Prod.snd s (exchangeOp op addr d n s) :=
  .refuseIf fun _ => .check (checks_frameOk s op addr d n) fun _ _ =>
    (programCounters_within _ _ s).bind fun t _ =>
    (pushAll_within _ t).bind fun _ _ =>
    (hostStep_within fun t _ => setXch_within _ t).bind fun t _ =>
    (awaitBurst_within _ t).bind fun t _ =>
    (popAll_within _ t).bind fun ⟨_, t⟩ _ =>
    (popAll_within _ t).bind fun ⟨_, t⟩ _ =>
    (delayStep_within t).bind fun t _ => within_pure (.refl p t)

theorem readIdOp_within {p : Permission} (s : State) : Within p Prod.snd s (readIdOp s) :=
  (exchangeOp_within _ _ _ _ s).bind fun ⟨_, t⟩ _ => within_pure (.refl p t)

theorem norReadDataOp_within {p : Permission} (a : Word) (n : Nat) (s : State) : Within p Prod.snd s (norReadDataOp a n s) :=
  exchangeOp_within _ _ _ _ s

theorem pageReadOp_within {p : Permission} (r : Word) (s : State) : Within p id s (pageReadOp r s) :=
  (exchangeOp_within _ _ _ _ s).bind fun ⟨_, t⟩ _ => within_pure (.refl p t)

theorem readStatusOp_within {p : Permission} (s : State) : Within p Prod.snd s (readStatusOp s) :=
  (exchangeOp_within _ _ _ _ s).bind fun ⟨_, t⟩ _ => within_pure (.refl p t)

theorem readFromCacheOp_within {p : Permission} (c : Word) (n : Nat) (s : State) : Within p Prod.snd s (readFromCacheOp c n s) :=
  exchangeOp_within _ _ _ _ s

/-! ### The reader (45_chunked_reader.md) -/

theorem memWrite_within {p : Permission} (hp : p.hostMem = true) (a : Nat) (b : Byte) (s : State) : Within p id s (memWrite a b s) :=
  within_ok ⟨rfl, .refl _, fun h => by simp [hp] at h, fun _ => rfl, fun _ => rfl, fun _ h => h, fun _ h => h, ⟨[], by simp, by simp⟩,
    fun h => ⟨h.burst, h.reset, h.other, by
      obtain ⟨hh, hrest⟩ := memoriesOk_iff.1 h.mems
      refine memoriesOk_iff.2 ⟨?_, hrest⟩
      show memoryOk (if hostBacked s.cfg a then writeByte s.hostMem a b else s.hostMem) = true
      split
      · exact memoryOk_writeByte hh
      · exact hh⟩⟩

theorem memWrites_within {p : Permission} (hp : p.hostMem = true) : ∀ (a : Nat) (bs : List Byte) (s : State), Within p id s (memWrites a bs s)
  | _, [], _ => within_ok (.refl _ _)
  | a, _ :: bs, _ => (hostStep_within fun t _ => memWrite_within hp _ _ t).bind fun t _ => memWrites_within hp (a + 1) bs t

/-- A change of the cursor, the noted page and the session state, in an open read session. -/
theorem Frame.readerVars {p : Permission} (hp : p.session = true) {s : State} {q : Sequencer} (handle : q.handle = s.seq.handle)
    (geometry : q.geometry = s.seq.geometry) : Frame p s { s with seq := q } :=
  .seq (fun _ => handle) (fun _ => geometry) fun h => by simp [hp] at h

theorem deliver_within {p : Permission} (hm : p.hostMem = true) (hs : p.session = true) (c : Cursor) (data : List Byte) (n : Nat) (s : State) :
    Within p id s (deliver c data n s) :=
  (memWrites_within hm _ _ s).bind fun _ _ => within_pure (.readerVars hs rfl rfl)

theorem checks_readChecks (nand : Bool) (a : Word) (n : Nat) (d : Word) (s : State) : Checks s (readChecks nand a n d s) :=
  checks_bind (checks_refuseIf _ _ _) fun _ => checks_bind (checks_refuseIf _ _ _) fun _ => checks_refuseIf _ _ _

/-- The end of a read closes its session. -/
theorem Within.endRead {p : Permission} {s : State} {r : Res State} (h : Within { p with session := true } id s r) :
    Within p id s (r >>= fun t => pure (endRead t)) := by
  refine ⟨fun u hu => ?_, fun hok => ?_⟩
  · obtain ⟨t, ht, hu⟩ := res_bind_eq_ok.1 hu
    obtain rfl := Except.ok.inj hu
    obtain ⟨cfg, image, hostMem, handle, geometry, -, softReset, trace, ok⟩ := h.1 t ht
    exact ⟨cfg, image, hostMem, handle, geometry, fun _ _ => rfl, softReset, trace, fun k => by
      obtain ⟨a, b, c, d⟩ := ok k
      exact ⟨a, b, c, d⟩⟩
  · exact checks_bind (fun _ => h.2 hok) (fun t => checks_pure s (Machine.endRead t)) hok

theorem norStep_within {p : Permission} (hm : p.hostMem = true) (hs : p.session = true) (c : Cursor) (s : State) : Within p id s (norStep c s) :=
  (norReadDataOp_within _ _ s).bind fun ⟨_, t⟩ _ => deliver_within hm hs _ _ _ t

theorem norLoop_within {p : Permission} (hm : p.hostMem = true) (hs : p.session = true) : ∀ (fuel : Nat) (s : State), Within p id s (norLoop fuel s)
  | 0, _ => within_ok (.refl _ _)
  | fuel + 1, s => by
    unfold norLoop
    split
    · exact within_ok (.refl _ _)
    · split
      · exact within_ok (.refl _ _)
      · exact (norStep_within hm hs _ s).bind fun t _ => norLoop_within hm hs fuel t

theorem norReadOp_within {p : Permission} (hm : p.hostMem = true) (a : Word) (n : Nat) (d : Word) (s : State) :
    Within p id s (norReadOp a n d s) := by
  refine .check (checks_readChecks _ _ _ _ s) fun _ _ => ?_
  split
  · exact within_pure (.refl _ _)
  · refine .endRead (Within.after ?_ (norLoop_within (p := { p with session := true }) hm rfl _ _))
    exact .readerVars rfl rfl rfl

theorem readyLoop_within {p : Permission} : ∀ (fuel : Nat) (s : State), Within p id s (readyLoop fuel s)
  | 0, _ => within_fault fun _ => by simp
  | fuel + 1, s => (delayStep_within s).bind fun t _ => (readStatusOp_within t).bind fun ⟨b, u⟩ _ => by
    dsimp only
    split
    · exact readyLoop_within fuel u
    · exact within_pure (.refl _ _)

theorem waitReadyOp_within {p : Permission} (s : State) : Within p id s (waitReadyOp s) := readyLoop_within _ s

theorem loadPageOp_within {p : Permission} (r : Word) (s : State) : Within p id s (loadPageOp r s) :=
  (pageReadOp_within r s).bind fun t _ =>
    .after (.seq (s := t) (q := { t.seq with cachedPage := some r }) (fun _ => rfl) (fun _ => rfl) fun _ h => sessionOk_iff.1 h)
      (waitReadyOp_within _)

theorem enterPage_within {p : Permission} (hs : p.session = true) (g : FlashGeometry) (c : Cursor) (s : State) :
    Within p id s (enterPage g c s) := by
  unfold enterPage
  split
  · exact (loadPageOp_within _ s).bind fun _ _ => within_pure (.readerVars hs rfl rfl)
  · exact within_ok (.refl _ _)

theorem nandStep_within {p : Permission} (hm : p.hostMem = true) (hs : p.session = true) (g : FlashGeometry) (c : Cursor) (s : State) :
    Within p id s (nandStep g c s) :=
  (enterPage_within hs g c s).bind fun t _ =>
  (readFromCacheOp_within _ _ t).bind fun ⟨_, t⟩ _ =>
  (deliver_within hm hs _ _ _ t).bind fun t _ => within_pure (by
    show Frame p t (leaveChunk _ _ t)
    rw [leaveChunk_eq]
    exact .readerVars hs rfl rfl)

theorem nandLoop_within {p : Permission} (hm : p.hostMem = true) (hs : p.session = true) (g : FlashGeometry) :
    ∀ (fuel : Nat) (s : State), Within p id s (nandLoop g fuel s)
  | 0, _ => within_ok (.refl _ _)
  | fuel + 1, s => by
    unfold nandLoop
    split
    · exact within_ok (.refl _ _)
    · split
      · exact within_ok (.refl _ _)
      · exact (nandStep_within hm hs g _ s).bind fun t _ => nandLoop_within hm hs g fuel t

theorem nandReadOp_within {p : Permission} (hm : p.hostMem = true) (a : Word) (n : Nat) (d : Word) (s : State) :
    Within p id s (nandReadOp a n d s) := by
  refine .check (checks_readChecks _ _ _ _ s) fun _ _ => ?_
  split
  · exact within_refuse _
  · split
    · exact within_pure (.refl _ _)
    · refine .endRead (Within.after ?_ (nandLoop_within (p := { p with session := true }) hm rfl _ _ _))
      exact .readerVars rfl rfl rfl

theorem readOp_within {p : Permission} (hm : p.hostMem = true) (a : Word) (n : Nat) (d : Word) (s : State) : Within p id s (readOp a n d s) := by
  unfold readOp
  split
  · exact norReadOp_within hm a n d s
  · exact nandReadOp_within hm a n d s

/-! ### The boot sequence (70_reset_and_hazards.md R410 to R413) -/

theorem fitActs_within {p : Permission} (hm : p.hostMem = true) : ∀ (r : FitRun) (got : List Byte) (s : State), Within p Prod.snd s (fitActs r got s)
  | .done _, _, _ => within_ok (.refl _ _)
  | .write _ _ next, got, _ => (hostStep_within fun t _ => memWrite_within hm _ _ t).bind fun t _ => fitActs_within hm next got t
  | .read sector count buffer next, _, s => (readOp_within hm sector count buffer s).bind fun t _ =>
    .after (.drew t count) (fitActs_within hm next _ _)
  | .ifDelivered bytes yes no, got, s => by
    unfold fitActs
    split
    · exact fitActs_within hm yes got s
    · exact fitActs_within hm no got s

/-- What a boot attempt may do. -/
def bootPermission : Permission := { hostMem := true, handle := true, geometry := true, teardown := true, softReset := true }

theorem raiseError_within (k : ErrorKind) (s : State) : Within bootPermission id s (raiseError k s) :=
  (deinitOp_within rfl rfl rfl s).bind fun t _ => within_pure (.ret t _)

theorem returnOk_within (s : State) : Within bootPermission id s (returnOk s) :=
  (deinitOp_within rfl rfl rfl s).bind fun t _ => within_pure (.ret t _)

theorem fitPath_within (hdr : List Byte) (s : State) : Within bootPermission id s (fitPath hdr s) :=
  .after (.log s fun _ => by simp) <| (fitActs_within rfl _ _ _).bind fun ⟨succeeds, t⟩ _ => by
    cases succeeds with
    | true => exact returnOk_within t
    | false => exact raiseError_within _ t

theorem rawPath_within (o : Word) (hdr : List Byte) (s : State) : Within bootPermission id s (rawPath o hdr s) := by
  unfold rawPath
  split
  · exact raiseError_within _ s
  · exact (readOp_within rfl _ _ _ s).bind fun t _ => returnOk_within t

theorem loadImage_within (o : Word) (s : State) : Within bootPermission id s (loadImage o s) :=
  (readOp_within rfl _ _ _ s).bind fun t _ => .after (.drew t bootHdrLen) (by
    show Within bootPermission id (t.drew bootHdrLen) (ite _ _ _)
    split_ifs
    · exact fitPath_within _ _
    · exact rawPath_within _ _ _
    · exact .after (.log _ fun _ => by simp) (raiseError_within _ _))

theorem setGeometry_frame (g : FlashGeometry) (s : State) : Frame bootPermission s (setGeometry g s) :=
  .seq (fun _ => rfl) (fun h => by simp [bootPermission] at h) fun _ h => sessionOk_iff.1 h

theorem bootResolved_within (r : Resolution) (s : State) : Within bootPermission id s (bootResolved r s) := by
  cases r with
  | noChip => exact (raiseError_within _ s).bind fun t _ => within_pure (.log t fun _ => by simp)
  | unknown => exact (raiseError_within _ s).bind fun t _ => within_pure (.log t fun _ => by simp)
  | known g => exact .after (setGeometry_frame g s) (loadImage_within _ _)
  | genericFallback g => exact .after (setGeometry_frame g s) (loadImage_within _ _)

theorem bootAttemptOp_within (s : State) : Within bootPermission id s (bootAttemptOp s) :=
  (initOp_within rfl rfl s).bind fun t _ => (readIdOp_within t).bind fun ⟨_, t⟩ _ => bootResolved_within _ t

/-! ### Every instruction -/

/-- What an instruction may do. -/
def permission : Instr → Permission
  | .init => { handle := true, softReset := true }
  | .deinit => { handle := true, teardown := true, softReset := true }
  | .genBGcrWrite _ => { softReset := true }
  | .bootAttempt => bootPermission
  | i => { hostMem := mayWriteHostMemory i }

/-- An access of a row of variant `v`, and what it returns. -/
theorem Within.row {p : Permission} {α : Type} {st : α → State} {v : Variant} {s : State} {r : Res α}
    (h : s.cfg.variant = v → GateOpen s → Within p st s r) : Within p st s (rowAccess v false s >>= fun _ => r) := by
  refine .check (checks_rowAccess v false s) fun _ hrow => ?_
  obtain ⟨_, hgate, hv⟩ := res_bind_eq_ok.1 hrow
  exact h (by simpa using hv) (gateOpen_of_ok hgate)

/-- An operation that returns a state, followed by what it answers. -/
theorem Within.returns {p : Permission} {s : State} {r : Res State} (h : Within p id s r) (v : Returned) :
    Within p id s (r >>= fun t => pure (t.ret v)) := h.bind fun t _ => within_pure (.ret t v)

/-- An operation that returns a value, followed by what it answers. -/
theorem Within.returnsWith {p : Permission} {α : Type} {s : State} {r : Res (α × State)} (h : Within p Prod.snd s r) (v : α → Returned) :
    Within p id s (r >>= fun q => pure (q.2.ret (v q.1))) := h.bind fun ⟨_, t⟩ _ => within_pure (.ret t _)

/-- **What an instruction may change**, and that none overflows the RX FIFO where the invariant holds. -/
theorem exec_within (i : Instr) (s : State) : ∃ r, exec i s = finish r ∧ Within (permission i) id s r := by
  cases i with
  | genARxRead => exact ⟨_, rfl, .row fun _ _ => (popRx_within s).returnsWith _⟩
  | genATxWrite v => exact ⟨_, rfl, .row fun _ _ => (pushTx_within v s).returns _⟩
  | genACtlRead => exact ⟨_, rfl, .row fun _ _ => within_pure (.ret s _)⟩
  | genACtlWrite v => exact ⟨_, rfl, .row fun _ hg => (writeCtl_within v hg).returns _⟩
  | genACctlRead => exact ⟨_, rfl, .row fun _ _ => within_pure (.ret s _)⟩
  | genACctlWrite v => exact ⟨_, rfl, .row fun _ _ => (writeCctl_within v s).returns _⟩
  | genABcRead => exact ⟨_, rfl, .row fun _ _ => within_pure (.ret s _)⟩
  | genABcWrite v => exact ⟨_, rfl, .row fun _ _ => (writeBurstCnt_within v s).returns _⟩
  | genATcRead => exact ⟨_, rfl, .row fun _ _ => within_pure (.ret s _)⟩
  | genATcWrite v => exact ⟨_, rfl, .row fun _ _ => (writeXferCnt_within v s).returns _⟩
  | genAFifoStaRead => exact ⟨_, rfl, .row fun _ _ => within_pure ((readFifoSta_within s).trans (.ret _ _))⟩
  | genBGcrRead => exact ⟨_, rfl, .check (checks_rowAccess .genB true s) fun _ _ => within_pure (.ret s _)⟩
  | genBGcrWrite v => exact ⟨_, rfl, .row fun hv hg => (writeGcr_within hv hg fun h => nomatch (show true = false from h)).returns _⟩
  | genBTcrRead => exact ⟨_, rfl, .row fun _ _ => within_pure (.ret s _)⟩
  | genBTcrWrite v => exact ⟨_, rfl, .row fun _ hg => (writeTcr_within v hg).returns _⟩
  | genBFifoStaRead => exact ⟨_, rfl, .row fun _ _ => within_pure ((readFifoSta_within s).trans (.ret _ _))⟩
  | genBCctlRead => exact ⟨_, rfl, .row fun _ _ => within_pure (.ret s _)⟩
  | genBCctlWrite v => exact ⟨_, rfl, .row fun _ _ => (writeCctl_within v s).returns _⟩
  | genBMbcRead => exact ⟨_, rfl, .row fun _ _ => within_pure (.ret s _)⟩
  | genBMbcWrite v => exact ⟨_, rfl, .row fun _ _ => (writeBurstCnt_within v s).returns _⟩
  | genBMtcRead => exact ⟨_, rfl, .row fun _ _ => within_pure (.ret s _)⟩
  | genBMtcWrite v => exact ⟨_, rfl, .row fun _ _ => (writeXferCnt_within v s).returns _⟩
  | genBBccRead => exact ⟨_, rfl, .row fun _ _ => within_pure (.ret s _)⟩
  | genBBccWrite v => exact ⟨_, rfl, .row fun _ _ => (writeBcc_within v s).returns _⟩
  | genBTxdWrite v => exact ⟨_, rfl, .row fun _ _ => (pushTx_within v s).returns _⟩
  | genBRxdRead => exact ⟨_, rfl, .row fun _ _ => (popRx_within s).returnsWith _⟩
  | readId => exact ⟨_, rfl, (readIdOp_within s).returnsWith _⟩
  | norReadData a n => exact ⟨_, rfl, (norReadDataOp_within a n s).returnsWith _⟩
  | pageReadToCache r => exact ⟨_, rfl, (pageReadOp_within r s).returns _⟩
  | readStatus => exact ⟨_, rfl, (readStatusOp_within s).returnsWith _⟩
  | readFromCache c n => exact ⟨_, rfl, (readFromCacheOp_within c n s).returnsWith _⟩
  | init => exact ⟨_, rfl, (initOp_within rfl rfl s).returns _⟩
  | deinit => exact ⟨_, rfl, (deinitOp_within rfl rfl rfl s).returns _⟩
  | enableClock => exact ⟨_, rfl, (enableClockOp_within s).returns _⟩
  | disableClock => exact ⟨_, rfl, (disableClockOp_within s).returns _⟩
  | configurePins f => exact ⟨_, rfl, (configurePinsOp_within f s).returns _⟩
  | baseAddress => exact ⟨.ok _, rfl, within_ok (.ret s _)⟩
  | isGenB => exact ⟨.ok _, rfl, within_ok (.ret s _)⟩
  | exchange op a d n => exact ⟨_, rfl, (exchangeOp_within op a d n s).returnsWith _⟩
  | resolve id => exact ⟨.ok _, rfl, within_ok (.ret s _)⟩
  | read a n d => exact ⟨_, rfl, (readOp_within rfl a n d s).returns _⟩
  | norRead a n d => exact ⟨_, rfl, (norReadOp_within rfl a n d s).returns _⟩
  | nandRead a n d => exact ⟨_, rfl, (nandReadOp_within rfl a n d s).returns _⟩
  | loadPage r => exact ⟨_, rfl, (loadPageOp_within r s).returns _⟩
  | waitReady => exact ⟨_, rfl, (waitReadyOp_within s).returns _⟩
  | fitRead a n d => exact ⟨_, rfl, (readOp_within rfl a n d s).returns _⟩
  | bootAttempt => exact ⟨_, rfl, bootAttemptOp_within s⟩

theorem exec_frame {i : Instr} {s t : State} (h : exec i s = .next t) : Frame (permission i) s t := by
  obtain ⟨r, hr, hin⟩ := exec_within i s
  exact hin.1 t (finish_eq_next.1 (hr ▸ h))

/-- A fault of a meaning is its operation's. -/
theorem finish_eq_fault {r : Res State} {f : Fault} : finish r = .fault f ↔ r = .error (.fault f) := by
  rcases r with (g | q) | s <;> simp [finish]

/-! ### Steps -/

/-- Every permission at once. -/
def anyPermission : Permission := { hostMem := true, handle := true, geometry := true, teardown := true, softReset := true }

theorem Frame.mono {p q : Permission} {s t : State} (h : Frame p s t) (hm : p.hostMem = true → q.hostMem = true)
    (hh : p.handle = true → q.handle = true) (hg : p.geometry = true → q.geometry = true) (hs : p.session = true → q.session = true)
    (ht : p.teardown = true → q.teardown = true) (hr : p.softReset = true → q.softReset = true) : Frame q s t := by
  have weaken {a b : Bool} (hab : a = true → b = true) (hb : b = false) : a = false := by cases a <;> simp_all
  obtain ⟨cfg, image, hostMem, handle, geometry, session, softReset, ⟨ev, htr, hev⟩, ok⟩ := h
  exact ⟨cfg, image, fun k => hostMem (weaken hm k), fun k => handle (weaken hh k), fun k => geometry (weaken hg k),
    fun k => session (weaken hs k), fun k => softReset (weaken hr k), ⟨ev, htr, fun k => hev (weaken ht k)⟩, ok⟩

theorem permission_session (i : Instr) : (permission i).session = false := by cases i <;> rfl

theorem Within.mono {p : Permission} {s : State} {r : Res State} (hp : p.session = false) (h : Within p id s r) :
    Within anyPermission id s r :=
  ⟨fun a ha => (h.1 a ha).mono (fun _ => rfl) (fun _ => rfl) (fun _ => rfl) (fun k => by simp [hp] at k) (fun _ => rfl) (fun _ => rfl), h.2⟩

theorem idleStep_within (s : State) : (∃ r, idleStep s = finish r ∧ Within anyPermission id s r) := by
  unfold idleStep
  split_ifs
  · exact ⟨_, rfl, gap_within s⟩
  · exact ⟨_, rfl, engineTurn_within s⟩
  · exact ⟨.ok _, rfl, within_ok (flashTurn_within s)⟩
  · exact ⟨.error (.refuse .hostIdle), rfl, within_refuse _⟩

theorem requestStep_within (q : Request) (s : State) : ∃ r, requestStep q s = finish r ∧ Within anyPermission id s r := by
  unfold requestStep
  split
  · rename_i i _
    obtain ⟨r, hr, hin⟩ := exec_within i s
    exact ⟨r, hr, hin.mono (permission_session i)⟩
  · rename_i e _
    cases e with
    | undecodedAccess => exact ⟨_, rfl, .check (checks_accessGate _ s) fun _ _ => within_refuse _⟩
    | unknownFrame => exact ⟨_, rfl, .refuseIf fun _ => within_refuse _⟩
    | unknownCall => exact ⟨.error (.refuse .unknownCall), rfl, within_refuse _⟩

/-- **What a step may change**, and that none overflows the RX FIFO where the invariant holds. -/
theorem step_within (s : State) : ∃ r, step s = finish r ∧ Within anyPermission id s r := by
  unfold step
  split_ifs
  · exact ⟨.error (.refuse .badChipTable), rfl, within_refuse _⟩
  · exact ⟨.error (.refuse .badParameter), rfl, within_refuse _⟩
  · split
    · exact idleStep_within s
    · rename_i q rest _
      have hgap := gap_within (p := anyPermission) s
      split
      · rename_i t ht
        obtain ⟨r, hr, hin⟩ := requestStep_within q { t with program := rest }
        exact ⟨r, hr, .after ((hgap.1 t ht).trans (.bookkeeping t t.result t.env rest t.draws)) hin⟩
      · rename_i e he
        exact ⟨.error e, rfl, he ▸ hgap⟩

theorem step_frame {s t : State} (h : step s = .next t) : Frame anyPermission s t := by
  obtain ⟨r, hr, hin⟩ := step_within s
  exact hin.1 t (finish_eq_next.1 (hr ▸ h))

/-- Settles O55: every operation keeps the invariant, and none leaves a read session open. -/
theorem invariantKept : Obligations.InvariantKept := by
  unfold Obligations.InvariantKept
  intro s t hs ht
  have hframe := step_frame ht
  obtain ⟨hcore, hsession⟩ := stateOk_iff.1 hs
  exact stateOk_iff.2 ⟨hframe.ok hcore, hframe.session rfl hsession⟩

/-- Settles O56: of all operations only a byte step can overflow, and a running burst has room for its bytes. -/
theorem rxOverflowUnreachable : Obligations.RxOverflowUnreachable := by
  unfold Obligations.RxOverflowUnreachable
  intro s hs hfault
  obtain ⟨r, hr, hin⟩ := step_within s
  exact hin.2 (stateOk_iff.1 hs).1 (finish_eq_fault.1 (hr ▸ hfault))

/-- Settles O57, from the frame of a step. -/
theorem configurationFixed : Obligations.ConfigurationFixed := by
  unfold Obligations.ConfigurationFixed
  exact fun s t h => ⟨(step_frame h).cfg, (step_frame h).image⟩

/-- Settles O58, from the frame of each instruction. -/
theorem hostMemoryOwners : Obligations.HostMemoryOwners := by
  unfold Obligations.HostMemoryOwners
  intro i s t hi h
  refine (exec_frame h).hostMem ?_
  cases i <;> exact hi

/-! ### The teardown of a boot attempt (41_transport.md R200 to R202, 70_reset_and_hazards.md R413) -/

/-- A wait ends with a poll that answers true. -/
theorem waitFair_ends {poll : Poll} : ∀ (k : Nat) {s t : State}, waitFair poll k s = .ok t → ∃ u, poll u = .ok (true, t)
  | 0, s, t, h => by
    obtain ⟨⟨done, u⟩, hp, h⟩ := res_bind_eq_ok.1 h
    cases done with
    | true => obtain rfl := Except.ok.inj h; exact ⟨s, hp⟩
    | false => simp at h
  | k + 1, s, t, h => by
    obtain ⟨⟨done, u⟩, hp, h⟩ := res_bind_eq_ok.1 h
    cases done with
    | true => obtain rfl := Except.ok.inj h; exact ⟨s, hp⟩
    | false =>
      obtain ⟨v, -, h⟩ := res_bind_eq_ok.1 h
      exact waitFair_ends k h

theorem waitSched_ends {poll : Poll} : ∀ (l : List (List Turn)) {s t : State}, waitSched poll l s = .ok t → ∃ u, poll u = .ok (true, t)
  | [], _, _, h => waitFair_ends _ h
  | _ :: rest, _, _, h => by
    obtain ⟨w, -, h⟩ := res_bind_eq_ok.1 h
    obtain ⟨⟨done, u⟩, hp, h⟩ := res_bind_eq_ok.1 h
    cases done with
    | true => obtain rfl := Except.ok.inj h; exact ⟨w, hp⟩
    | false => exact waitSched_ends rest h

/-- A poll of SRST that answers true was of a controller with no soft reset. -/
theorem srst_of_pollSrst {s t : State} (h : pollSrst s = .ok (true, t)) (hv : t.cfg.variant = .genB) : t.eng.srstBusy = false := by
  obtain ⟨v, hread, h⟩ := res_bind_eq_ok.1 h
  obtain ⟨hdone, rfl⟩ := Prod.mk.inj (Except.ok.inj h)
  rw [← getLsbD_bitSrst_of_mmioReadCtrl hread hv]
  simpa using hdone

theorem enableClockOp_srst {s t : State} (h : enableClockOp s = .ok t) : t.eng.srstBusy = false := by
  obtain ⟨_, -, h⟩ := res_bind_eq_ok.1 h
  exact ((hostStep_within (p := {}) fun u _ => .gated fun _ => writeCctl_within _ u).1 t h).softReset rfl rfl

theorem resetHandshake_srst {s t : State} (h : resetHandshake s = .ok t) (hs : s.eng.srstBusy = false) : t.eng.srstBusy = false := by
  have hcfg : t.cfg = s.cfg := ((resetHandshake_within (p := anyPermission) rfl s).1 t h).cfg
  unfold resetHandshake at h
  split at h
  · exact Except.ok.inj h ▸ hs
  · rename_i hv
    obtain ⟨u, -, h⟩ := res_bind_eq_ok.1 h
    obtain ⟨w, hw⟩ := waitSched_ends _ h
    exact srst_of_pollSrst hw (hcfg ▸ hv)

theorem enableBits_srst (v : Variant) : (enableBits v).getLsbD bitSrst = false := by cases v <;> decide

/-- After `init` no soft reset runs, from whatever state it was called. -/
theorem initOp_srst {s t : State} (h : initOp s = .ok t) : t.eng.srstBusy = false := by
  obtain ⟨_, -, h⟩ := res_bind_eq_ok.1 h
  obtain ⟨t1, -, h⟩ := res_bind_eq_ok.1 h
  obtain ⟨t2, hclock, h⟩ := res_bind_eq_ok.1 h
  obtain ⟨t3, hreset, h⟩ := res_bind_eq_ok.1 h
  obtain ⟨t4, hset, h⟩ := res_bind_eq_ok.1 h
  obtain rfl := Except.ok.inj h
  obtain ⟨u, -, hclock⟩ := res_bind_eq_ok.1 hclock
  obtain ⟨w, hgap, hset⟩ := res_bind_eq_ok.1 hset
  have h3 := resetHandshake_srst hreset (enableClockOp_srst hclock)
  have hw : w.eng.srstBusy = false := ((gap_within (p := {}) t3).1 w hgap).softReset rfl h3
  exact ((setCtrl_within_of_done (p := {}) (enableBits_srst _) hw).1 t4 hset).softReset rfl hw

/-- A write of CTRL_EN that clears ENABLE and MASTER and starts no soft reset ends with no burst running. -/
theorem mmioWriteCtrl_disables {w : Word} {s t : State} (h : mmioWriteCtrl w s = .ok t) (he : w.getLsbD bitEnable = false)
    (hm : w.getLsbD bitMaster = false) (hr : s.cfg.variant = .genB → w.getLsbD bitSrst = false) :
    t.regs.enable = false ∧ t.regs.master = false ∧ t.eng.busy = false := by
  obtain ⟨_, -, h⟩ := res_bind_eq_ok.1 h
  split at h
  · obtain ⟨_, hacts, h⟩ := res_bind_eq_ok.1 h
    have hidle : s.eng.busy = false := by simpa [ctlActs, he] using refuseIf_eq_ok.1 hacts
    dsimp only at h
    split at h
    · have hoff : (ctlWritten w s.regs).enable = false := he
      rw [startBurst_eq, startRefusal, if_pos (by simp [hoff])] at h
      simp at h
    · obtain rfl := Except.ok.inj h
      exact ⟨he, hm, hidle⟩
  · rename_i hv
    obtain ⟨_, hbusy, h⟩ := res_bind_eq_ok.1 h
    rw [hr hv, if_neg Bool.false_ne_true] at h
    obtain rfl := Except.ok.inj h
    exact ⟨he, hm, refuseIf_eq_ok.1 hbusy⟩

theorem hostStep_ok_of_still {s t : State} {act : State → Res State} (hs : Still s) (h : hostStep act s = .ok t) :
    ∃ f l, act (moved s f l) = .ok t := by
  obtain ⟨f, -, hstep⟩ := hostStep_still hs
  exact ⟨f, _, hstep act ▸ h⟩

/-- The step of `deinit` that closes the gate, of an idle controller. -/
theorem disableClockStep_frame {s t : State} (hs : Still s) (h : hostStep disableClockOp s = .ok t) :
    t.cfg = s.cfg ∧ t.regs = s.regs ∧ t.eng = s.eng ∧ t.plat.clkOn = false ∧ t.trace = s.trace := by
  obtain ⟨f, l, h⟩ := hostStep_ok_of_still hs h
  obtain ⟨_, -, h⟩ := res_bind_eq_ok.1 h
  obtain rfl := Except.ok.inj h
  exact ⟨rfl, rfl, rfl, rfl, rfl⟩

/-- The step of `deinit` that makes the pins inert, of an idle controller. -/
theorem inertPinsStep_frame {s t : State} (hs : Still s) (hpin : s.cfg.pinFunctionInert ≠ s.cfg.pinFunctionSpi0)
    (h : hostStep (configurePinsOp s.cfg.pinFunctionInert) s = .ok t) :
    t.regs = s.regs ∧ t.eng = s.eng ∧ t.plat = { s.plat with pinFn := .inert } ∧ t.trace = s.trace := by
  obtain ⟨f, l, h⟩ := hostStep_ok_of_still hs h
  obtain rfl := Except.ok.inj ((configurePinsOp_inert (s := moved s f l) hpin rfl).symm.trans h)
  exact ⟨rfl, rfl, rfl, rfl⟩

/-- The step of `deinit` that clears ENABLE and MASTER ends, if it does, with no burst running. -/
theorem clearEnableStep_frame {s t : State} (hs : s.eng.srstBusy = false)
    (h : hostStep (clearCtrl (mask bitEnable ||| mask bitMaster)) s = .ok t) :
    Frame {} s t ∧ t.regs.enable = false ∧ t.regs.master = false ∧ Still t := by
  obtain ⟨u, hgap, hclear⟩ := res_bind_eq_ok.1 h
  have hf := (gap_within (p := {}) s).1 u hgap
  have hu : u.eng.srstBusy = false := hf.softReset rfl hs
  have hf' := hf.trans ((clearCtrl_within_of_done (p := {}) _ hu).1 t hclear)
  obtain ⟨v, hread, hwrite⟩ := res_bind_eq_ok.1 hclear
  obtain ⟨w, hgap', hwrite⟩ := res_bind_eq_ok.1 hwrite
  have hcfg : w.cfg = u.cfg := ((gap_within (p := {}) u).1 w hgap').cfg
  obtain ⟨he, hm, hb⟩ := mmioWriteCtrl_disables hwrite (by rw [BitVec.getLsbD_and]; exact Bool.and_false _)
    (by rw [BitVec.getLsbD_and]; exact Bool.and_false _) fun hv => by
      rw [BitVec.getLsbD_and, getLsbD_bitSrst_of_mmioReadCtrl hread (hcfg ▸ hv), hu, Bool.false_and]
  exact ⟨hf', he, hm, hb, hf'.softReset rfl hs⟩

/-- **A completed `deinit`** of a controller with no soft reset leaves it quiescent, whatever burst was running and whatever
turns came, where the board's two pin codes differ; its end is the last event. -/
theorem deinitOp_quiesces {s t : State} (h : deinitOp s = .ok t) (hs : s.eng.srstBusy = false)
    (hpin : s.cfg.pinFunctionInert ≠ s.cfg.pinFunctionSpi0) :
    Quiescent t ∧ ∃ ev, t.trace = s.trace ++ ev ++ [.deinitDone] ∧ .deinitDone ∉ ev := by
  obtain ⟨_, -, h⟩ := res_bind_eq_ok.1 h
  obtain ⟨t1, hclear, h⟩ := res_bind_eq_ok.1 h
  obtain ⟨t2, hgate, h⟩ := res_bind_eq_ok.1 h
  obtain ⟨t3, hpins, h⟩ := res_bind_eq_ok.1 h
  obtain rfl := Except.ok.inj h
  obtain ⟨hf, he, hm, hstill⟩ := clearEnableStep_frame hs hclear
  obtain ⟨hcfg2, hregs2, heng2, hclk, htr2⟩ := disableClockStep_frame hstill hgate
  have hstill2 : Still t2 := by rw [Still, heng2]; exact hstill
  obtain ⟨hregs3, heng3, hplat, htr3⟩ := inertPinsStep_frame hstill2 (by rw [hcfg2, hf.cfg]; exact hpin) hpins
  obtain ⟨hb, hr⟩ := hstill
  obtain ⟨ev, htr, hev⟩ := hf.trace
  refine ⟨⟨rfl, ?_, ?_, ?_, ?_, ?_, ?_⟩, ev, ?_, hev rfl⟩
  · show t3.plat.clkOn = false
    rw [hplat]; exact hclk
  · show t3.plat.pinFn = .inert
    rw [hplat]
  · show t3.regs.enable = false
    rw [hregs3, hregs2]; exact he
  · show t3.regs.master = false
    rw [hregs3, hregs2]; exact hm
  · show t3.eng.busy = false
    rw [heng3, heng2]; exact hb
  · show t3.eng.srstBusy = false
    rw [heng3, heng2]; exact hr
  · show t3.trace ++ [.deinitDone] = _
    rw [htr3, htr2, htr]

/-- What a boot attempt may do between `init` and the teardown. -/
def loadPermission : Permission := { hostMem := true, geometry := true }

/-- Between `s` and `t` a boot attempt has loaded what it loads, torn the Transport down and returned, with a report after it
or none. -/
def EndsInTeardown (s t : State) : Prop :=
  ∃ u v r, Frame loadPermission s u ∧ deinitOp u = .ok v ∧ (t = bootReturn v r ∨ ∃ m, t = (bootReturn v r).log (.report m))

theorem EndsInTeardown.after {s t u : State} (hf : Frame loadPermission s t) (h : EndsInTeardown t u) : EndsInTeardown s u := by
  obtain ⟨v, w, r, hf', h⟩ := h
  exact ⟨v, w, r, hf.trans hf', h⟩

theorem raiseError_ends {k : ErrorKind} {s t : State} (h : raiseError k s = .ok t) :
    ∃ v r, deinitOp s = .ok v ∧ t = bootReturn v r := by
  obtain ⟨v, hv, h⟩ := res_bind_eq_ok.1 h
  exact ⟨v, _, hv, (Except.ok.inj h).symm⟩

theorem raiseError_endsInTeardown {k : ErrorKind} {s t : State} (h : raiseError k s = .ok t) : EndsInTeardown s t := by
  obtain ⟨v, r, hv, ht⟩ := raiseError_ends h
  exact ⟨s, v, r, .refl _ _, hv, .inl ht⟩

theorem returnOk_endsInTeardown {s t : State} (h : returnOk s = .ok t) : EndsInTeardown s t := by
  obtain ⟨v, hv, h⟩ := res_bind_eq_ok.1 h
  exact ⟨s, v, .ok, .refl _ _, hv, .inl (Except.ok.inj h).symm⟩

theorem fitPath_endsInTeardown {hdr : List Byte} {s t : State} (h : fitPath hdr s = .ok t) : EndsInTeardown s t := by
  obtain ⟨⟨succeeds, u⟩, hu, h⟩ := res_bind_eq_ok.1 h
  refine .after ((Frame.log s fun _ => by simp).trans ((fitActs_within rfl _ _ _).1 _ hu)) ?_
  cases succeeds with
  | true => exact returnOk_endsInTeardown h
  | false => exact raiseError_endsInTeardown h

theorem rawPath_endsInTeardown {o : Word} {hdr : List Byte} {s t : State} (h : rawPath o hdr s = .ok t) : EndsInTeardown s t := by
  unfold rawPath at h
  split at h
  · exact raiseError_endsInTeardown h
  · obtain ⟨u, hu, h⟩ := res_bind_eq_ok.1 h
    exact .after ((readOp_within rfl _ _ _ s).1 u hu) (returnOk_endsInTeardown h)

/-- The attempt from the header's bytes on (70_reset_and_hazards.md R410). -/
def loadWithHeader (offset : Word) (hdr : List Byte) (s : State) : Res State :=
  if headerValid s.cfg hdr then
    if isFitHeader s.cfg hdr && s.cfg.allowFit then fitPath hdr s else rawPath offset hdr s
  else raiseError .checksumInvalid (s.log (.report "image CRC error"))

theorem loadImage_eq (offset : Word) (s : State) : loadImage offset s = (readOp offset bootHdrLen s.cfg.hdrBuf s >>= fun t =>
    loadWithHeader offset (hostBytes t.cfg.hdrBuf.toNat bootHdrLen t).1 (t.drew bootHdrLen)) := rfl

theorem loadWithHeader_endsInTeardown {o : Word} {hdr : List Byte} {s t : State} (h : loadWithHeader o hdr s = .ok t) :
    EndsInTeardown s t := by
  unfold loadWithHeader at h
  split_ifs at h with hvalid hfit
  · exact fitPath_endsInTeardown h
  · exact rawPath_endsInTeardown h
  · exact .after (.log s fun _ => by simp) (raiseError_endsInTeardown h)

theorem loadImage_endsInTeardown {o : Word} {s t : State} (h : loadImage o s = .ok t) : EndsInTeardown s t := by
  rw [loadImage_eq] at h
  obtain ⟨u, hu, h⟩ := res_bind_eq_ok.1 h
  exact .after (((readOp_within rfl _ _ _ s).1 u hu).trans (.drew u _)) (loadWithHeader_endsInTeardown h)

theorem setGeometry_frame_load (g : FlashGeometry) (s : State) : Frame loadPermission s (setGeometry g s) :=
  .seq (fun _ => rfl) (fun h => nomatch (show true = false from h)) fun _ h => sessionOk_iff.1 h

theorem bootResolved_endsInTeardown {r : Resolution} {s t : State} (h : bootResolved r s = .ok t) : EndsInTeardown s t := by
  have reported {k : ErrorKind} {m : String} (h : (raiseError k s >>= fun u => pure (u.log (.report m))) = .ok t) :
      EndsInTeardown s t := by
    obtain ⟨u, hu, h⟩ := res_bind_eq_ok.1 h
    obtain ⟨v, r, hv, rfl⟩ := raiseError_ends hu
    exact ⟨s, v, r, .refl _ _, hv, .inr ⟨m, (Except.ok.inj h).symm⟩⟩
  cases r with
  | noChip => exact reported h
  | unknown => exact reported h
  | known g => exact .after (setGeometry_frame_load g s) (loadImage_endsInTeardown h)
  | genericFallback g => exact .after (setGeometry_frame_load g s) (loadImage_endsInTeardown h)

/-- A boot attempt that returns has called `init` and then ended in one teardown. -/
theorem bootAttemptOp_endsInTeardown {s t : State} (h : bootAttemptOp s = .ok t) :
    ∃ u, initOp s = .ok u ∧ EndsInTeardown u t := by
  obtain ⟨u, hinit, h⟩ := res_bind_eq_ok.1 h
  obtain ⟨⟨_, w⟩, hid, h⟩ := res_bind_eq_ok.1 h
  exact ⟨u, hinit, .after ((readIdOp_within u).1 _ hid) (bootResolved_endsInTeardown h)⟩

/-- Settles O52: no soft reset runs after `init`, so every way to the end of the attempt goes through one complete `deinit`. -/
theorem teardownOnce : Obligations.TeardownOnce := by
  unfold Obligations.TeardownOnce
  intro s t hpin h
  obtain ⟨u, hinit, v, w, r, hload, hdeinit, ht⟩ := bootAttemptOp_endsInTeardown (finish_eq_next.1 h)
  have hf : Frame { handle := true, softReset := true } s u := (initOp_within rfl rfl s).1 u hinit
  obtain ⟨ev, htr, hev⟩ := hf.trace
  obtain ⟨ev', htr', hev'⟩ := hload.trace
  obtain ⟨hq, ev'', htr'', hev''⟩ := deinitOp_quiesces hdeinit (hload.softReset rfl (initOp_srst hinit)) (by
    rw [hload.cfg, hf.cfg]; exact hpin)
  have hbefore : .deinitDone ∉ ev ++ ev' ++ ev'' := by simp [hev rfl, hev' rfl, hev'']
  have htrace : w.trace = s.trace ++ (ev ++ ev' ++ ev'') ++ [.deinitDone] := by
    rw [htr'', htr', htr]
    simp only [List.append_assoc]
  rcases ht with rfl | ⟨m, rfl⟩
  · exact ⟨hq, ⟨r, _, rfl⟩, _, [], htrace, hbefore, fun e he => by simp at he⟩
  · refine ⟨hq, ⟨r, _, rfl⟩, _, [.report m], ?_, hbefore, fun e he => ?_⟩
    · show w.trace ++ [.report m] = _
      simp [htrace]
    · obtain rfl := List.mem_singleton.1 he
      exact ⟨rfl, by simp⟩

/-- A boot attempt that returns leaves no handle. -/
theorem bootAttemptOp_handle {s t : State} (h : bootAttemptOp s = .ok t) : t.seq.handle = false := by
  obtain ⟨u, -, v, w, r, -, hdeinit, ht⟩ := bootAttemptOp_endsInTeardown h
  rcases ht with rfl | ⟨m, rfl⟩ <;> exact (handle_of_deinitOp hdeinit).2

theorem permission_handle {i : Instr} (h : i ≠ .init) (k : i ≠ .deinit) (l : i ≠ .bootAttempt) : (permission i).handle = false := by
  cases i with
  | init => exact absurd rfl h
  | deinit => exact absurd rfl k
  | bootAttempt => exact absurd rfl l
  | _ => rfl

theorem permission_geometry {i : Instr} (h : i ≠ .bootAttempt) : (permission i).geometry = false := by
  cases i with
  | bootAttempt => exact absurd rfl h
  | _ => rfl

/-- Settles O59, from the frame of each instruction; `init`, `deinit` and the teardown of a boot attempt say what they leave. -/
theorem handleOwners : Obligations.HandleOwners := by
  unfold Obligations.HandleOwners
  intro i s t h
  refine ⟨?_, ?_, ?_, fun hi hd hb => (exec_frame h).handle (permission_handle hi hd hb),
    fun hb => (exec_frame h).geometry (permission_geometry hb)⟩
  · rintro rfl
    exact (handle_of_exec_init h).2
  · rintro rfl
    exact (handle_of_exec_deinit h).2
  · rintro rfl
    exact bootAttemptOp_handle (finish_eq_next.1 h)

end Sys2Proof.Machine
end

section
/-! PROOFS. Encoding and decoding (30_encoding.md R111 to R142), and the steps that a bad configuration refuses
(44_chip_registry.md R291, 00_scope.md R11). -/

namespace Sys2Proof.Machine

/-! ### Operand fields (log 5) -/

theorem takeNat_natBytes {k n : Nat} (h : n < 256 ^ k) : takeNat k (natBytes k n) = (n, []) := by
  simpa using takeNat_natBytes_append k n [] h

theorem takeWord_natBytes_append (w : Word) (l : List Byte) : takeWord (natBytes 4 w.toNat ++ l) = (w, l) := by
  simp [takeWord, takeNat_natBytes_append 4 w.toNat l w.isLt]

theorem takeBytes_length (l : List Byte) : takeBytes l.length l = (l, []) := by
  induction l with
  | nil => rfl
  | cons b l ih => simp [takeBytes, takeByte, ih]

theorem takeRead_encode (a d : Word) {n : Nat} (h : n < 2 ^ 64) :
    takeRead (natBytes 4 a.toNat ++ (natBytes 8 n ++ natBytes 4 d.toNat)) = (a, n, d) := by
  have hn : n < 256 ^ 8 := h
  simp only [takeRead, takeWord_natBytes_append, takeNat_natBytes_append 8 n _ hn, takeWord_natBytes]

/-- Three wire bytes of a 24-bit address give the address back. -/
theorem join_wire3 {a : Word} (h : a.toNat < 2 ^ 24) :
    (0#8 ++ a.extractLsb' 16 8 ++ a.extractLsb' 8 8 ++ a.extractLsb' 0 8 : Word) = a := by
  have hjoin : (0#8 ++ a.extractLsb' 16 8 ++ a.extractLsb' 8 8 ++ a.extractLsb' 0 8).toNat = a.toNat := by
    rw [← Nat.mod_eq_of_lt h, ← toNat_wire3]
    simp only [BitVec.toNat_append, BitVec.toNat_ofNat, Nat.zero_mod, Nat.zero_shiftLeft, Nat.zero_or]
  exact BitVec.eq_of_toNat_eq hjoin

/-- Two wire bytes of a 16-bit column give the column back. -/
theorem join_wire2 {c : Word} (h : c.toNat < 2 ^ 16) : (0#16 ++ c.extractLsb' 8 8 ++ c.extractLsb' 0 8 : Word) = c := by
  have hjoin : (0#16 ++ c.extractLsb' 8 8 ++ c.extractLsb' 0 8).toNat = c.toNat := by
    rw [← Nat.mod_eq_of_lt h, ← toNat_wire2]
    simp only [BitVec.toNat_append, BitVec.toNat_ofNat, Nat.zero_mod, Nat.zero_shiftLeft, Nat.zero_or]
  exact BitVec.eq_of_toNat_eq hjoin

theorem toNat_ofNat_byte {n : Nat} (h : n < 2 ^ 8) : (BitVec.ofNat 8 n).toNat = n := by
  rw [BitVec.toNat_ofNat, Nat.mod_eq_of_lt h]

/-! ### Decoding an encoding (R111, R115, R117, R142) -/

theorem decode_encodeWrite {v : Variant} {off : Nat} {wr : Word → Instr} (henc : ∀ w, encode (wr w) = encodeWrite off w)
    (hdec : ∀ l, decode v ⟨.accessWord, natBytes 2 (0x1000 + off) ++ l⟩ = .ok (wr (takeWord l).1)) (w : Word) :
    decode v (encode (wr w)) = .ok (wr w) := by
  obtain ⟨-, -, h⟩ := hasKey_write henc hdec w
  exact h

theorem decodeFrame_norReadData {a : Word} {n : Nat} (ha : a.toNat < 2 ^ 24) (hn : n ≤ 60) :
    decodeFrame (encode (.norReadData a n)).bytes = some (.norReadData a n) := by
  change some (Instr.norReadData (0#8 ++ a.extractLsb' 16 8 ++ a.extractLsb' 8 8 ++ a.extractLsb' 0 8) (BitVec.ofNat 8 n).toNat) = _
  rw [join_wire3 ha, toNat_ofNat_byte (by omega)]

theorem decodeFrame_pageReadToCache {r : Word} (hr : r.toNat < 2 ^ 24) :
    decodeFrame (encode (.pageReadToCache r)).bytes = some (.pageReadToCache r) := by
  change some (Instr.pageReadToCache (0#8 ++ r.extractLsb' 16 8 ++ r.extractLsb' 8 8 ++ r.extractLsb' 0 8)) = _
  rw [join_wire3 hr]

theorem decodeFrame_readFromCache {c : Word} {n : Nat} (hc : c.toNat < 2 ^ 16) (hn : n ≤ 60) :
    decodeFrame (encode (.readFromCache c n)).bytes = some (.readFromCache c n) := by
  change some (Instr.readFromCache (0#16 ++ c.extractLsb' 8 8 ++ c.extractLsb' 0 8) (BitVec.ofNat 8 n).toNat) = _
  rw [join_wire2 hc, toNat_ofNat_byte (by omega)]

theorem decodeCall_exchange (op : Byte) {addr : List Byte} {d n : Nat} (ha : addr.length < 2 ^ 8) (hd : d < 2 ^ 8) (hn : n < 2 ^ 32) :
    decodeCall (encode (.exchange op addr d n)).bytes = some (.exchange op addr d n) := by
  have hn' : n < 256 ^ 4 := hn
  change some (Instr.exchange op (takeBytes (BitVec.ofNat 8 addr.length).toNat (takeNat 4 (natBytes 4 n ++ addr)).2).1
    (BitVec.ofNat 8 d).toNat (takeNat 4 (natBytes 4 n ++ addr)).1) = _
  rw [takeNat_natBytes_append 4 n addr hn', toNat_ofNat_byte ha, toNat_ofNat_byte hd, takeBytes_length]

/-- Settles O1, row by row: an access by its key, a frame by its header, a call by its number; the operands are read back
from their fields. -/
theorem decodeEncode : Obligations.DecodeEncode := by
  unfold Obligations.DecodeEncode
  intro i v hwf hrow
  have variant {w : Variant} (h : rowVariant i = some w) : v = w := by
    rcases hrow with hrow | hrow <;> rw [hrow] at h
    · simp at h
    · exact Option.some.inj h
  have framed (h : decodeFrame (encode i).bytes = some i) (hf : (encode i).format = .frame) : decode v (encode i) = .ok i := by
    simp only [decode, hf, h, orElseReject]
  have called (h : decodeCall (encode i).bytes = some i) (hf : (encode i).format = .call) : decode v (encode i) = .ok i := by
    simp only [decode, hf, h, orElseReject]
  cases i with
  | genARxRead | genACtlRead | genACctlRead | genABcRead | genATcRead | genAFifoStaRead | genATxWrite => obtain rfl := variant rfl; rfl
  | genACtlWrite w | genACctlWrite w | genABcWrite w | genATcWrite w =>
    obtain rfl := variant rfl
    exact decode_encodeWrite (fun _ => rfl) (fun _ => rfl) w
  | genBGcrRead | genBTcrRead | genBFifoStaRead | genBCctlRead | genBMbcRead | genBMtcRead | genBBccRead | genBTxdWrite | genBRxdRead =>
    obtain rfl := variant rfl; rfl
  | genBGcrWrite w | genBTcrWrite w | genBCctlWrite w | genBMbcWrite w | genBMtcWrite w | genBBccWrite w =>
    obtain rfl := variant rfl
    exact decode_encodeWrite (fun _ => rfl) (fun _ => rfl) w
  | readId | readStatus => rfl
  | norReadData a n =>
    obtain ⟨⟨ha, -⟩, hn⟩ : (a.toNat < 2 ^ 24 ∧ 1 ≤ n) ∧ n ≤ 60 := by simpa [WellFormed, wellFormed] using hwf
    exact framed (decodeFrame_norReadData ha hn) rfl
  | pageReadToCache r => exact framed (decodeFrame_pageReadToCache (by simpa [WellFormed, wellFormed] using hwf)) rfl
  | readFromCache c n =>
    obtain ⟨⟨hc, -⟩, hn⟩ : (c.toNat < 2 ^ 16 ∧ 1 ≤ n) ∧ n ≤ 60 := by simpa [WellFormed, wellFormed] using hwf
    exact framed (decodeFrame_readFromCache hc hn) rfl
  | init | deinit | enableClock | disableClock | baseAddress | isGenB | waitReady | bootAttempt => rfl
  | configurePins f =>
    have hf : f < 256 ^ 4 := by simpa [WellFormed, wellFormed] using hwf
    refine called ?_ rfl
    change some (Instr.configurePins (takeNat 4 (natBytes 4 f)).1) = _
    rw [takeNat_natBytes hf]
  | exchange op addr d n =>
    obtain ⟨⟨ha, hd⟩, hn⟩ : (addr.length < 2 ^ 8 ∧ d < 2 ^ 8) ∧ n < 2 ^ 32 := by simpa [WellFormed, wellFormed] using hwf
    exact called (decodeCall_exchange op ha hd hn) rfl
  | resolve id =>
    refine called ?_ rfl
    change some (Instr.resolve (BitVec.ofNat 24 (takeNat 3 (natBytes 3 id.toNat)).1)) = _
    rw [takeNat_natBytes id.isLt, BitVec.ofNat_toNat, BitVec.setWidth_eq]
  | loadPage r =>
    refine called ?_ rfl
    change some (Instr.loadPage (takeWord (natBytes 4 r.toNat)).1) = _
    rw [takeWord_natBytes]
  | read a n d | norRead a n d | nandRead a n d | fitRead a n d =>
    have hn : n < 2 ^ 64 := by simpa [WellFormed, wellFormed] using hwf
    refine called ?_ rfl
    simp [decodeCall, encode, encodeReadCall, takeByte, takeRead_encode a d hn]

/-- Settles O2: each request is evaluated. -/
theorem decodedWords : Obligations.DecodedWords := by
  unfold Obligations.DecodedWords
  exact ⟨rfl, rfl, rfl, rfl, rfl, rfl, rfl, rfl, rfl, rfl, rfl⟩

/-! ### Steps (log 1, log 4, log 19) -/

/-- A step with a request pending, of a machine within its limits. -/
theorem step_request {s : State} {r : Request} {rest : List Request} (hc : chipTableOk s.cfg.knownChips = true)
    (hp : paramsOk s.cfg = true) (hprog : s.program = r :: rest) :
    step s = match gap s with | .ok t => requestStep r { t with program := rest } | .error e => finish (.error e) := by
  cases hg : gap s <;> simp only [step, hc, hp, hprog, hg, Bool.not_true, Bool.false_eq_true, if_false]

theorem gap_of_nil {s : State} (h : s.env.sched = []) : gap s = .ok s := by rw [gap, h]

/-- Settles O4, from the turns that come first; they change no configuration, so the decoder's variant is the same. -/
theorem stepRunsDecoded : Obligations.StepRunsDecoded := by
  unfold Obligations.StepRunsDecoded
  intro s t r rest i hc hp hprog hdec _
  have runs {u : State} (hgap : gap s = .ok u) : step s = exec i { u with program := rest } := by
    have hcfg : u.cfg = s.cfg := ((gap_within (p := {}) s).1 u hgap).cfg
    rw [step_request hc hp hprog, hgap]
    exact requestStep_of_decode_ok (s := { u with program := rest }) (by rw [hcfg]; exact hdec)
  exact ⟨runs, fun hnil => runs (gap_of_nil hnil)⟩

theorem chipTableOk_iff (l : List FlashGeometry) :
    chipTableOk l = true ↔ (∀ e ∈ l, e.jedecId ≠ 0#24) ∧ l.Pairwise (fun a b => a.jedecId ≠ b.jedecId) := by
  induction l with
  | nil => simp [chipTableOk]
  | cons e rest ih =>
    simp only [chipTableOk, Bool.and_eq_true, ih, List.all_eq_true, bne_iff_ne, List.mem_cons, forall_eq_or_imp, List.pairwise_cons]
    constructor
    · rintro ⟨⟨h0, hne⟩, hz, hp⟩
      exact ⟨⟨h0, hz⟩, fun x hx => (hne x hx).symm, hp⟩
    · rintro ⟨⟨h0, hz⟩, hne, hp⟩
      exact ⟨⟨h0, fun x hx => (hne x hx).symm⟩, hz, hp⟩

theorem paramsOk_iff (p : Params) :
    paramsOk p = true ↔ 100 ≤ p.delayNs ∧ p.delayNs ≤ 200 ∧ p.errStatus < 0 ∧ mx35lf1ge4ab ∈ p.knownChips ∧
      ∀ r ∈ p.collab.fitRuns, fitWritesOk p.collab.fitBuffers [] [] r.2 = true := by
  simp only [paramsOk, Bool.and_eq_true, decide_eq_true_eq, List.contains_iff_mem, List.all_eq_true, and_assoc]

/-! ### No meaning is refused for the configuration -/

theorem noConfig_row {v : Variant} {g : Bool} {s : State} {r : Res State} (h : NoConfig r) : NoConfig (rowAccess v g s >>= fun _ => r) :=
  noConfig_bind (noConfig_rowAccess v g s) fun _ => h

theorem noConfig_returns {r : Res State} (h : NoConfig r) (v : Returned) : NoConfig (r >>= fun t => pure (t.ret v)) :=
  noConfig_bind h fun _ => noConfig_pure _

theorem noConfig_returnsWith {α : Type} {r : Res (α × State)} (h : NoConfig r) (v : α → Returned) :
    NoConfig (r >>= fun q => pure (q.2.ret (v q.1))) := noConfig_bind h fun _ => noConfig_pure _

/-- An outcome that is not a refusal for the configuration. -/
def NotConfigRefusal (o : Host.Outcome State Fault Refusal) : Prop := o ≠ .refused .badChipTable ∧ o ≠ .refused .badParameter

theorem notConfigRefusal_finish {r : Res State} (h : NoConfig r) : NotConfigRefusal (finish r) := finish_noConfig h

/-- No instruction is refused for the configuration. -/
theorem exec_notConfigRefusal (i : Instr) (s : State) : NotConfigRefusal (exec i s) := by
  cases i with
  | genARxRead => exact notConfigRefusal_finish (noConfig_row (noConfig_returnsWith (noConfig_popRx s) _))
  | genATxWrite v => exact notConfigRefusal_finish (noConfig_row (noConfig_returns (noConfig_pushTx v s) _))
  | genACtlRead => exact notConfigRefusal_finish (noConfig_row (noConfig_pure _))
  | genACtlWrite v => exact notConfigRefusal_finish (noConfig_row (noConfig_returns (noConfig_writeCtl v s) _))
  | genACctlRead => exact notConfigRefusal_finish (noConfig_row (noConfig_pure _))
  | genACctlWrite v => exact notConfigRefusal_finish (noConfig_row (noConfig_returns (noConfig_writeCctl v s) _))
  | genABcRead => exact notConfigRefusal_finish (noConfig_row (noConfig_pure _))
  | genABcWrite v => exact notConfigRefusal_finish (noConfig_row (noConfig_returns (noConfig_writeBurstCnt v s) _))
  | genATcRead => exact notConfigRefusal_finish (noConfig_row (noConfig_pure _))
  | genATcWrite v => exact notConfigRefusal_finish (noConfig_row (noConfig_returns (noConfig_writeXferCnt v s) _))
  | genAFifoStaRead => exact notConfigRefusal_finish (noConfig_row (noConfig_pure _))
  | genBGcrRead => exact notConfigRefusal_finish (noConfig_row (noConfig_pure _))
  | genBGcrWrite v => exact notConfigRefusal_finish (noConfig_row (noConfig_returns (noConfig_writeGcr v s) _))
  | genBTcrRead => exact notConfigRefusal_finish (noConfig_row (noConfig_pure _))
  | genBTcrWrite v => exact notConfigRefusal_finish (noConfig_row (noConfig_returns (noConfig_writeTcr v s) _))
  | genBFifoStaRead => exact notConfigRefusal_finish (noConfig_row (noConfig_pure _))
  | genBCctlRead => exact notConfigRefusal_finish (noConfig_row (noConfig_pure _))
  | genBCctlWrite v => exact notConfigRefusal_finish (noConfig_row (noConfig_returns (noConfig_writeCctl v s) _))
  | genBMbcRead => exact notConfigRefusal_finish (noConfig_row (noConfig_pure _))
  | genBMbcWrite v => exact notConfigRefusal_finish (noConfig_row (noConfig_returns (noConfig_writeBurstCnt v s) _))
  | genBMtcRead => exact notConfigRefusal_finish (noConfig_row (noConfig_pure _))
  | genBMtcWrite v => exact notConfigRefusal_finish (noConfig_row (noConfig_returns (noConfig_writeXferCnt v s) _))
  | genBBccRead => exact notConfigRefusal_finish (noConfig_row (noConfig_pure _))
  | genBBccWrite v => exact notConfigRefusal_finish (noConfig_row (noConfig_returns (noConfig_writeBcc v s) _))
  | genBTxdWrite v => exact notConfigRefusal_finish (noConfig_row (noConfig_returns (noConfig_pushTx v s) _))
  | genBRxdRead => exact notConfigRefusal_finish (noConfig_row (noConfig_returnsWith (noConfig_popRx s) _))
  | readId => exact notConfigRefusal_finish (noConfig_returnsWith (noConfig_readIdOp s) _)
  | norReadData a n => exact notConfigRefusal_finish (noConfig_returnsWith (noConfig_exchangeOp _ _ _ _ s) _)
  | pageReadToCache r => exact notConfigRefusal_finish (noConfig_returns (noConfig_pageReadOp r s) _)
  | readStatus => exact notConfigRefusal_finish (noConfig_returnsWith (noConfig_readStatusOp s) _)
  | readFromCache c n => exact notConfigRefusal_finish (noConfig_returnsWith (noConfig_exchangeOp _ _ _ _ s) _)
  | init => exact notConfigRefusal_finish (noConfig_returns (noConfig_initOp s) _)
  | deinit => exact notConfigRefusal_finish (noConfig_returns (noConfig_deinitOp s) _)
  | enableClock => exact notConfigRefusal_finish (noConfig_returns (noConfig_enableClockOp s) _)
  | disableClock => exact notConfigRefusal_finish (noConfig_returns (noConfig_disableClockOp s) _)
  | configurePins f => exact notConfigRefusal_finish (noConfig_returns (noConfig_configurePinsOp f s) _)
  | baseAddress => exact notConfigRefusal_finish (r := .ok _) (noConfig_ok _)
  | isGenB => exact notConfigRefusal_finish (r := .ok _) (noConfig_ok _)
  | exchange op a d n => exact notConfigRefusal_finish (noConfig_returnsWith (noConfig_exchangeOp op a d n s) _)
  | resolve id => exact notConfigRefusal_finish (r := .ok _) (noConfig_ok _)
  | read a n d => exact notConfigRefusal_finish (noConfig_returns (noConfig_readOp a n d s) _)
  | norRead a n d => exact notConfigRefusal_finish (noConfig_returns (noConfig_norReadOp a n d s) _)
  | nandRead a n d => exact notConfigRefusal_finish (noConfig_returns (noConfig_nandReadOp a n d s) _)
  | loadPage r => exact notConfigRefusal_finish (noConfig_returns (noConfig_loadPageOp r s) _)
  | waitReady => exact notConfigRefusal_finish (noConfig_returns (noConfig_readyLoop _ s) _)
  | fitRead a n d => exact notConfigRefusal_finish (noConfig_returns (noConfig_readOp a n d s) _)
  | bootAttempt => exact notConfigRefusal_finish (noConfig_bootAttemptOp s)

theorem idleStep_notConfigRefusal (s : State) : NotConfigRefusal (idleStep s) := by
  unfold idleStep
  split_ifs
  · exact notConfigRefusal_finish (noConfig_gap s)
  · exact notConfigRefusal_finish (noConfig_engineTurn s)
  · exact notConfigRefusal_finish (r := .ok _) (noConfig_ok _)
  · exact ⟨by simp, by simp⟩

theorem rejectRequest_notConfigRefusal (e : DecodeError) (s : State) : NotConfigRefusal (rejectRequest e s) := by
  cases e with
  | undecodedAccess =>
    exact notConfigRefusal_finish (noConfig_bind (noConfig_accessGate _ s) fun _ => noConfig_refuse (by simp))
  | unknownFrame => exact notConfigRefusal_finish (noConfig_bind (noConfig_refuseIf (by simp)) fun _ => noConfig_refuse (by simp))
  | unknownCall => exact ⟨by simp [rejectRequest], by simp [rejectRequest]⟩

theorem requestStep_notConfigRefusal (r : Request) (s : State) : NotConfigRefusal (requestStep r s) := by
  unfold requestStep
  split
  · exact exec_notConfigRefusal _ s
  · exact rejectRequest_notConfigRefusal _ s

/-- A step of a machine within its limits is not refused for the configuration. -/
theorem step_notConfigRefusal {s : State} (hc : chipTableOk s.cfg.knownChips = true) (hp : paramsOk s.cfg = true) :
    NotConfigRefusal (step s) := by
  cases hprog : s.program with
  | nil =>
    have hstep : step s = idleStep s := by simp only [step, hc, hp, hprog, Bool.not_true, Bool.false_eq_true, if_false]
    rw [hstep]
    exact idleStep_notConfigRefusal s
  | cons r rest =>
    rw [step_request hc hp hprog]
    have hgap := noConfig_gap s
    cases h : gap s with
    | ok t => exact requestStep_notConfigRefusal r _
    | error e => exact notConfigRefusal_finish (h ▸ hgap)

theorem step_badChipTable {s : State} (h : chipTableOk s.cfg.knownChips = false) : step s = .refused .badChipTable := by
  simp [step, h]

theorem step_badParameter {s : State} (hc : chipTableOk s.cfg.knownChips = true) (h : paramsOk s.cfg = false) :
    step s = .refused .badParameter := by
  simp [step, hc, h]

/-- Settles O5: the check of the table is R291's, and nothing after it raises its refusal. -/
theorem badChipTableRefused : Obligations.BadChipTableRefused := by
  unfold Obligations.BadChipTableRefused
  intro s
  rw [← chipTableOk_iff]
  refine ⟨fun h => step_badChipTable (Bool.eq_false_of_not_eq_true h), fun hc => ?_⟩
  cases hp : paramsOk s.cfg with
  | true => exact (step_notConfigRefusal hc hp).1
  | false => rw [step_badParameter hc hp]; simp

/-- Settles O60: the check of the parameters is the conjunction of the limits, and nothing after it raises its refusal. -/
theorem parameterLimits : Obligations.ParameterLimits := by
  unfold Obligations.ParameterLimits
  intro s hc
  rw [← paramsOk_iff]
  exact ⟨fun h => step_badParameter hc (Bool.eq_false_of_not_eq_true h), fun hp => (step_notConfigRefusal hc hp).2⟩

end Sys2Proof.Machine
end

section
/-! PROOFS. The register accesses that act (40_registers.md R153, R157, R161, R163, R164), the preconditions of every access
(R178, R179), and the clock gate (41_transport.md R204). -/

namespace Sys2Proof.Machine

/-! ### The preconditions of an access (R178, R179, log 23) -/

/-- Every row of a variant is its access check, then what the access does; the GCR read alone passes a soft reset. -/
theorem exec_row {i : Instr} {v : Variant} (h : rowVariant i = some v) (s : State) :
    ∃ f, exec i s = finish (rowAccess v (decide (i = .genBGcrRead)) s >>= f) := by
  cases i with
  | genARxRead | genATxWrite | genACtlRead | genACtlWrite | genACctlRead | genACctlWrite | genABcRead | genABcWrite | genATcRead
  | genATcWrite | genAFifoStaRead => obtain rfl := Option.some.inj h; exact ⟨_, rfl⟩
  | genBGcrRead | genBGcrWrite | genBTcrRead | genBTcrWrite | genBFifoStaRead | genBCctlRead | genBCctlWrite | genBMbcRead | genBMbcWrite
  | genBMtcRead | genBMtcWrite | genBBccRead | genBBccWrite | genBTxdWrite | genBRxdRead => obtain rfl := Option.some.inj h; exact ⟨_, rfl⟩
  | _ => simp [rowVariant] at h

theorem rowAccess_gated {v : Variant} {g : Bool} {s : State} (h : s.plat.clkOn = false) :
    rowAccess v g s = .error (.refuse .accessWhileGated) := by
  simp [rowAccess, accessGate, h]

theorem rowAccess_softReset {v : Variant} {s : State} (hc : s.plat.clkOn = true) (hv : s.cfg.variant = .genB) (hr : s.eng.srstBusy = true) :
    rowAccess v false s = .error (.refuse .accessDuringSoftReset) := by
  simp [rowAccess, accessGate, hc, hv, hr]

theorem rowAccess_otherVariant {v : Variant} {g : Bool} {s : State} (hc : s.plat.clkOn = true)
    (hr : s.cfg.variant = .genB → s.eng.srstBusy = false) (hv : s.cfg.variant ≠ v) :
    rowAccess v g s = .error (.refuse .undecodedAccess) := by
  have hgate : accessGate g s = .ok () := accessGate_eq_ok.2 ⟨hc, fun e k => by simp [hr e] at k⟩
  have hne : (s.cfg.variant != v) = true := bne_iff_ne.2 hv
  rw [rowAccess, hgate, res_bind_ok, hne, refuseIf_true]

/-- An access whose check refuses it is refused so. -/
theorem exec_row_refused {i : Instr} {v : Variant} {s : State} {q : Refusal} (h : rowVariant i = some v)
    (hq : rowAccess v (decide (i = .genBGcrRead)) s = .error (.refuse q)) : exec i s = .refused q := by
  obtain ⟨f, hf⟩ := exec_row h s
  rw [hf, hq, res_bind_error, finish_refuse]

/-- Settles O15, by the three checks of an access in their order. -/
theorem accessPreconditions : Obligations.AccessPreconditions := by
  unfold Obligations.AccessPreconditions
  refine fun i v s hrow => ⟨fun hc => exec_row_refused hrow (rowAccess_gated hc), fun hc hv hr hi => ?_, fun hc hr hv => ?_⟩
  · exact exec_row_refused hrow (by rw [decide_eq_false hi]; exact rowAccess_softReset hc hv hr)
  · exact exec_row_refused hrow (rowAccess_otherVariant hc hr hv)

/-! ### The clock gate (41_transport.md R204) -/

theorem exec_disableClock (s : State) : exec .disableClock s = finish (disableClockOp s >>= fun t => pure (t.ret .nothing)) := rfl

theorem disableClockOp_active {s : State} (h : s.eng.busy = true ∨ s.eng.srstBusy = true) :
    disableClockOp s = .error (.refuse .gateDuringActivity) := by
  rcases h with h | h <;> simp [disableClockOp, h]

theorem disableClockOp_still {s : State} (h : Still s) : disableClockOp s = .ok { s with plat := { s.plat with clkOn := false } } := by
  obtain ⟨hb, hr⟩ := h
  simp [disableClockOp, hb, hr]

theorem exec_access_gated {i : Instr} {v : Variant} (h : rowVariant i = some v) {s : State} (hc : s.plat.clkOn = false) :
    exec i s = .refused .accessWhileGated := exec_row_refused h (rowAccess_gated hc)

/-- Settles O24, by whether something is in progress. -/
theorem disableClock : Obligations.DisableClock := by
  unfold Obligations.DisableClock
  refine fun s => ⟨fun h => ?_, fun hb hr => ⟨?_, fun i v h => exec_access_gated h rfl⟩⟩
  · rw [exec_disableClock, disableClockOp_active h]; rfl
  · rw [exec_disableClock, disableClockOp_still ⟨hb, hr⟩]; rfl

/-! ### Writes that may start a burst (40_registers.md R153, R163, R175) -/

/-- A burst start that ends a call: refused by its first check that fails, or started. -/
theorem finish_startBurst (s : State) : finish (startBurst s >>= fun t => pure (t.ret .nothing)) =
    match startRefusal s with | some q => .refused q | none => .next (startedBurst (s.ret .nothing)) := by
  rw [startBurst_eq]
  cases startRefusal s <;> rfl

/-- What a control write does to the register block, and whether it starts a burst then. -/
def writeThenStart (r : RegBlock) (start : Bool) (s : State) : Res State :=
  if start then startBurst { s with regs := r } else pure { s with regs := r }

/-- The three ends of such a write. -/
theorem finish_writeThenStart (r : RegBlock) (start : Bool) (s : State) {w : State} (hw : w = { s with regs := r, result := .nothing }) :
    (start = false → finish (writeThenStart r start s >>= fun t => pure (t.ret .nothing)) = .next w) ∧
    (start = true → startRefusal w = none →
      finish (writeThenStart r start s >>= fun t => pure (t.ret .nothing)) = .next (startedBurst w)) ∧
    (start = true → ∀ q, startRefusal w = some q →
      finish (writeThenStart r start s >>= fun t => pure (t.ret .nothing)) = .refused q) := by
  subst hw
  have hsame : startRefusal { s with regs := r, result := .nothing } = startRefusal { s with regs := r } := rfl
  refine ⟨?_, ?_, ?_⟩
  · rintro rfl
    rfl
  · rintro rfl hnone
    rw [hsame] at hnone
    rw [writeThenStart, if_pos rfl, finish_startBurst, hnone]
    rfl
  · rintro rfl q hq
    rw [hsame] at hq
    rw [writeThenStart, if_pos rfl, finish_startBurst, hq]

theorem writeCtl_refused {v : Word} {s : State} (hb : s.eng.busy = true) (ha : ctlActs v = true) :
    writeCtl v s = .error (.refuse .ctlActionDuringBurst) := by
  simp [writeCtl, hb, ha]

theorem writeCtl_eq {v : Word} {s : State} (h : (s.eng.busy && ctlActs v) = false) :
    writeCtl v s = writeThenStart (ctlWritten v s.regs) (v.getLsbD bitXchA) s := by
  rw [writeCtl, h, refuseIf_false, res_bind_ok]
  rfl

theorem exec_genACtlWrite {s : State} (h : Accessible .genA s) (v : Word) :
    exec (.genACtlWrite v) s = finish (writeCtl v s >>= fun t => pure (t.ret .nothing)) := congrArg finish (rowAccess_bind h _)

/-- Settles O9: an acting write is refused during a burst, and any other stores the named and the other bits and then starts
what XCH asks for. -/
theorem genACtlWrites : Obligations.GenACtlWrites := by
  unfold Obligations.GenACtlWrites
  refine ⟨hasKey_write (off := 0x008) (fun _ => rfl) (fun _ => rfl), fun s h v => ?_⟩
  rw [exec_genACtlWrite h, ← ctlActs_iff]
  refine ⟨fun hb ha => ?_, fun hn => ⟨v &&& ~~~ctlNamed, getLsbD_clear_ctlNamed v, fun w hw => ?_⟩⟩
  · rw [writeCtl_refused hb ha]; rfl
  · have hfree : (s.eng.busy && ctlActs v) = false := by
      rw [← Bool.not_eq_true, Bool.and_eq_true]
      exact hn
    rw [writeCtl_eq hfree]
    exact finish_writeThenStart (ctlWritten v s.regs) (v.getLsbD 10) s hw

theorem exec_genBTcrWrite {s : State} (h : Accessible .genB s) (v : Word) :
    exec (.genBTcrWrite v) s = finish (writeTcr v s >>= fun t => pure (t.ret .nothing)) := congrArg finish (rowAccess_bind h _)

theorem writeTcr_refused {v : Word} {s : State} (hb : s.eng.busy = true) : writeTcr v s = .error (.refuse .tcrWriteDuringBurst) := by
  simp [writeTcr, hb]

theorem writeTcr_eq {v : Word} {s : State} (h : s.eng.busy = false) :
    writeTcr v s = writeThenStart { s.regs with tcrOther := v &&& ~~~tcrNamed } (v.getLsbD bitXchB) s := by
  rw [writeTcr, h, refuseIf_false, res_bind_ok]
  rfl

/-- Settles O11: a write is refused during a burst, and otherwise stores the other bits and then starts what XCH asks for. -/
theorem genBTcrWrites : Obligations.GenBTcrWrites := by
  unfold Obligations.GenBTcrWrites
  refine ⟨hasKey_write (off := 0x008) (fun _ => rfl) (fun _ => rfl), fun s h v => ?_⟩
  rw [exec_genBTcrWrite h]
  refine ⟨fun hb => ?_, fun hb => ⟨v &&& ~~~tcrNamed, getLsbD_clear_tcrNamed v, fun w hw => ?_⟩⟩
  · rw [writeTcr_refused hb]; rfl
  · rw [writeTcr_eq hb]
    exact finish_writeThenStart { s.regs with tcrOther := v &&& ~~~tcrNamed } (v.getLsbD 31) s hw

/-! ### The GenB GCR write (R161) -/

theorem exec_genBGcrWrite {s : State} (h : Accessible .genB s) (v : Word) :
    exec (.genBGcrWrite v) s = finish (writeGcr v s >>= fun t => pure (t.ret .nothing)) := congrArg finish (rowAccess_bind h _)

theorem writeGcr_refused {v : Word} {s : State} (hb : s.eng.busy = true) : writeGcr v s = .error (.refuse .gcrWriteDuringBurst) := by
  simp [writeGcr, hb]

theorem writeGcr_srst {v : Word} {s : State} (hb : s.eng.busy = false) (hv : v.getLsbD 31 = true) : writeGcr v s = .ok (softReset s) := by
  have hbit : v.getLsbD bitSrst = true := hv
  simp [writeGcr, hb, hbit]

theorem writeGcr_plain {v : Word} {s : State} (hb : s.eng.busy = false) (hv : v.getLsbD 31 = false) :
    writeGcr v s = .ok { s with regs := { s.regs with enable := v.getLsbD 0, master := v.getLsbD 1, gcrOther := v &&& ~~~gcrNamed } } := by
  have hbit : v.getLsbD bitSrst = false := hv
  rw [writeGcr, hb, hbit]
  rfl

theorem engineTurn_srst {s : State} (h : s.eng.srstBusy = true) : engineTurn s = .ok { s with eng := { s.eng with srstBusy := false } } := by
  rw [engineTurn, if_pos h]

/-- Settles O10, by the three answers of a GCR write and the Engine's completion of a soft reset. -/
theorem genBGcrWrites : Obligations.GenBGcrWrites := by
  unfold Obligations.GenBGcrWrites
  refine ⟨hasKey_write (off := 0x004) (fun _ => rfl) (fun _ => rfl), fun s h v => ?_⟩
  rw [exec_genBGcrWrite h]
  refine ⟨fun hb => ?_, fun hb hv => ?_, fun hb hv => ⟨v &&& ~~~gcrNamed, getLsbD_clear_gcrNamed v, ?_⟩, fun u hu => engineTurn_srst hu⟩
  · rw [writeGcr_refused hb]; rfl
  · rw [writeGcr_srst hb hv]
    exact ⟨_, _, _, _, _, _, _, rfl⟩
  · rw [writeGcr_plain hb hv]; rfl

/-! ### FIFO_STA (R157, R164) -/

/-- The width of a count field. -/
def countWidth : Variant → Nat
  | .genA => 7
  | .genB => 8

theorem toNat_and_countMask (v : Variant) (w : Word) : (w &&& countMask v).toNat = w.toNat % 2 ^ countWidth v := by
  rw [BitVec.toNat_and]
  cases v
  · exact Nat.and_two_pow_sub_one_eq_mod _ 7
  · exact Nat.and_two_pow_sub_one_eq_mod _ 8

theorem rx_field (v : Variant) (d : Word) {rx : Nat} (tx : Nat) (h : rx ≤ 64) :
    (fifoStaWord v d rx tx).toNat % 2 ^ countWidth v = rx := by
  rw [← toNat_and_countMask]
  exact rxCnt_fifoStaWord v d rx tx h

theorem tx_field (v : Variant) (d : Word) (rx : Nat) {tx : Nat} (h : tx ≤ 64) :
    (fifoStaWord v d rx tx).toNat / 2 ^ 16 % 2 ^ countWidth v = tx := by
  rw [← Nat.shiftRight_eq_div_pow, ← BitVec.toNat_ushiftRight, ← toNat_and_countMask]
  exact txCnt_fifoStaWord v d rx tx h

/-- Outside the two count fields FIFO_STA reads the draw. -/
theorem getLsbD_fifoStaWord_other (v : Variant) (d : Word) (rx tx : Nat) {j : Nat} (hj : j < 32) (hlow : ¬ j < countWidth v)
    (hmid : ¬ (16 ≤ j ∧ j < 16 + countWidth v)) : (fifoStaWord v d rx tx).getLsbD j = d.getLsbD j := by
  have hwidth (i : Nat) (hi : i < 32) : (countMask v).getLsbD i = decide (i < countWidth v) := by
    rw [getLsbD_countMask v i hi]; cases v <;> rfl
  have hhigh : j < 16 ∨ ¬ j - 16 < countWidth v := by omega
  simp only [fifoStaWord, BitVec.getLsbD_or, BitVec.getLsbD_and, BitVec.getLsbD_not, BitVec.getLsbD_shiftLeft, hj, hwidth j hj,
    hwidth (j - 16) (by omega), hlow]
  rcases hhigh with h | h <;> simp [h]

theorem exec_fifoSta {s : State} {v : Variant} {i : Instr} (row : v = .genA ∧ i = .genAFifoStaRead ∨ v = .genB ∧ i = .genBFifoStaRead)
    (h : Accessible v s) : exec i s = .next { s with
      result := .word (fifoStaWord v (Config.draw s.draws) s.regs.rxFifo.length s.regs.txFifo.length), draws := s.draws + 1 } := by
  have hv : s.cfg.variant = v := h.1
  have hread : exec i s = .next ((readFifoSta s).2.ret (.word (readFifoSta s).1)) := by
    rcases row with ⟨rfl, rfl⟩ | ⟨rfl, rfl⟩ <;> exact congrArg finish (rowAccess_bind h _)
  rw [hread, readFifoSta, hv]
  rfl

/-- Settles O14, field by field. -/
theorem fifoStatus : Obligations.FifoStatus := by
  unfold Obligations.FifoStatus
  refine ⟨⟨rfl, rfl, rfl⟩, ⟨rfl, rfl, rfl⟩, fun s v i k row h hrx htx => ?_⟩
  have hrow : v = .genA ∧ i = .genAFifoStaRead ∨ v = .genB ∧ i = .genBFifoStaRead :=
    row.imp (fun ⟨hv, hi, _⟩ => ⟨hv, hi⟩) (fun ⟨hv, hi, _⟩ => ⟨hv, hi⟩)
  obtain rfl : k = countWidth v := by rcases row with ⟨rfl, -, rfl⟩ | ⟨rfl, -, rfl⟩ <;> rfl
  exact ⟨_, exec_fifoSta hrow h, rx_field v _ _ hrx, tx_field v _ _ htx, fun j hj => getLsbD_fifoStaWord_other v _ _ _ hj⟩

end Sys2Proof.Machine
end

section
/-! PROOFS. The Engine's byte step and whole bursts (40_registers.md R176, R177), and the Flash's page load and answers
(43_flash_commands.md R271 to R276). -/

namespace Sys2Proof.Machine

/-! ### The Engine (40_registers.md R176, R177) -/

section
variable {s : State}

/-- An Engine turn of a running burst is a byte step. -/
theorem engineTurn_running (hr : s.eng.srstBusy = false) (hb : s.eng.busy = true) (hn : 0 < s.eng.bRemain) : engineTurn s = byteStep s := by
  simp [engineTurn, hr, hb, hn]

theorem byteStep_full (h : fifoDepth ≤ s.regs.rxFifo.length) : byteStep s = .error (.fault .rxOverflow) := by
  simp [byteStep, h]

theorem byteStep_room (h : s.regs.rxFifo.length < fifoDepth) :
    byteStep s = .ok (if s.eng.bRemain - 1 = 0 then completeBurst (byteClocked s) else byteClocked s) := by
  rw [byteStep, decide_eq_false (Nat.not_le.2 h), faultIf_false, res_bind_ok]
  rfl

/-- A byte step with bytes still to come leaves the burst running. -/
theorem byteStep_more (h : s.regs.rxFifo.length < fifoDepth) (hn : 1 < s.eng.bRemain) : byteStep s = .ok (byteClocked s) := by
  rw [byteStep_room h, if_neg (by omega)]

/-- The last byte step completes the burst. -/
theorem byteStep_last (h : s.regs.rxFifo.length < fifoDepth) (hn : s.eng.bRemain = 1) : byteStep s = .ok (completeBurst (byteClocked s)) := by
  rw [byteStep_room h, if_pos (by omega)]

/-- What a byte step leaves in the TX FIFO. -/
def txAfterByte (s : State) : List Byte := if 0 < s.eng.tRemain then s.regs.txFifo.tail else s.regs.txFifo

/-- While header bytes are left, the byte sent is the TX FIFO's head. -/
theorem engineMosi_cons_txAfterByte (ht : 0 < s.eng.tRemain) (hne : s.regs.txFifo ≠ []) : s.regs.txFifo = engineMosi s :: txAfterByte s := by
  obtain ⟨b, rest, hb⟩ := List.exists_cons_of_ne_nil hne
  simp [engineMosi, txAfterByte, ht, hb]

/-- A byte step takes the header byte it sends off what is still to send. -/
theorem txAfterByte_length (htx : s.regs.txFifo.length = s.eng.tRemain) : (txAfterByte s).length = s.eng.tRemain - 1 := by
  unfold txAfterByte
  split_ifs
  · rw [List.length_tail, htx]
  · omega

/-- The header goes out first: the byte sent, before the bytes that begin with the rest of the header. -/
theorem take_engineMosi (htx : s.regs.txFifo.length = s.eng.tRemain) {sent : List Byte}
    (h : sent.take (s.eng.tRemain - 1) = txAfterByte s) : (engineMosi s :: sent).take s.eng.tRemain = s.regs.txFifo := by
  rcases Nat.eq_zero_or_pos s.eng.tRemain with h0 | hpos
  · rw [h0, List.take_zero, List.eq_nil_of_length_eq_zero (htx.trans h0)]
  · rw [engineMosi_cons_txAfterByte hpos (List.ne_nil_of_length_pos (htx ▸ hpos)), ← h, List.take_cons hpos]

/-- The byte received in an Engine step. -/
def engineMiso (s : State) : Byte := flashRespond s.cfg.storageKind s.cfg.nandPageSize s.flash s.eng.frame (drawByte s 1)

theorem byteClocked_eq (s : State) : byteClocked s = { s with
    regs := { s.regs with txFifo := txAfterByte s, rxFifo := s.regs.rxFifo ++ [engineMiso s] }
    eng := { s.eng with tRemain := s.eng.tRemain - 1, bRemain := s.eng.bRemain - 1, frame := s.eng.frame ++ [engineMosi s] }
    draws := s.draws + 2 } := rfl

theorem txAfterByte_of_sent (ht : s.eng.tRemain = 0) : txAfterByte s = s.regs.txFifo := by
  simp [txAfterByte, ht]

end

/-- Settles O16, by whether the RX FIFO is full and whether the byte is the burst's last. -/
theorem engineByteStep : Obligations.EngineByteStep := by
  unfold Obligations.EngineByteStep
  intro s hr hb hn
  rw [engineTurn_running hr hb hn]
  refine ⟨fun h => byteStep_full (by rw [h]; rfl), fun h => ?_⟩
  refine ⟨engineMosi s, drawByte s 1, txAfterByte s, engineMosi_cons_txAfterByte, txAfterByte_of_sent, ?_⟩
  rintro t rfl
  exact ⟨byteStep_more h, byteStep_last h⟩

/-- `s` when its burst has been clocked to its end, with the bytes `sent` and `got`, but not completed. -/
def burstClocked (s : State) (sent got : List Byte) : State :=
  { s with
    regs := { s.regs with txFifo := [], rxFifo := s.regs.rxFifo ++ got }
    eng := { s.eng with tRemain := 0, bRemain := 0, frame := s.eng.frame ++ sent }
    draws := s.draws + 2 * sent.length }

/-- What Engine turns make of a burst that runs: they send the header first, and take one answer for each byte sent. -/
theorem burst_turns : ∀ (k : Nat) (s : State), s.eng.srstBusy = false → s.eng.busy = true → s.eng.bRemain = k + 1 →
    s.regs.rxFifo.length + (k + 1) ≤ fifoDepth → s.eng.tRemain ≤ k + 1 → s.regs.txFifo.length = s.eng.tRemain →
    ∃ sent got : List Byte, sent.length = k + 1 ∧ got.length = k + 1 ∧ sent.take s.eng.tRemain = s.regs.txFifo ∧
      takeTurns (List.replicate (k + 1) .engine) s = .ok (completeBurst (burstClocked s sent got))
  | 0, s, hr, hb, hn, hroom, ht, htx => by
    have hlen := txAfterByte_length htx
    have hnil : txAfterByte s = [] := List.eq_nil_of_length_eq_zero (by omega)
    refine ⟨[engineMosi s], [engineMiso s], rfl, rfl, take_engineMosi htx (by rw [hnil, List.take_nil]), ?_⟩
    have hclocked : byteClocked s = burstClocked s [engineMosi s] [engineMiso s] := by
      rw [byteClocked_eq, hnil, hn, show s.eng.tRemain - 1 = 0 by omega]
      rfl
    rw [List.replicate_one, takeTurns, takeTurn, engineTurn_running hr hb (by omega), byteStep_last (by omega) hn, res_bind_ok, hclocked,
      takeTurns]
  | k + 1, s, hr, hb, hn, hroom, ht, htx => by
    obtain ⟨sent, got, hs, hg, hhdr, hturns⟩ := burst_turns k (byteClocked s) hr hb
      (show s.eng.bRemain - 1 = k + 1 by omega)
      (show (s.regs.rxFifo ++ [engineMiso s]).length + (k + 1) ≤ fifoDepth by rw [List.length_append, List.length_singleton]; omega)
      (show s.eng.tRemain - 1 ≤ k + 1 by omega) (txAfterByte_length htx)
    refine ⟨engineMosi s :: sent, engineMiso s :: got, congrArg (· + 1) hs, congrArg (· + 1) hg, take_engineMosi htx hhdr, ?_⟩
    have hclocked : burstClocked (byteClocked s) sent got = burstClocked s (engineMosi s :: sent) (engineMiso s :: got) := by
      simp only [byteClocked_eq, burstClocked, List.append_assoc, List.singleton_append, List.length_cons, Nat.mul_add, Nat.add_assoc,
        Nat.mul_one, Nat.add_comm 2]
    rw [List.replicate_succ, takeTurns, takeTurn, engineTurn_running hr hb (by omega), byteStep_more (by omega) (by omega), res_bind_ok,
      hturns, hclocked]

/-- Settles O17, by `burst_turns` from a burst that has clocked nothing. -/
theorem burstCompletes : Obligations.BurstCompletes := by
  unfold Obligations.BurstCompletes
  intro s B hr hb hn hpos hcap ht htx hrx hframe
  obtain ⟨k, rfl⟩ := Nat.exists_eq_add_of_lt hpos
  rw [Nat.zero_add] at *
  obtain ⟨sent, got, hs, hg, hhdr, hturns⟩ := burst_turns k s hr hb hn (by rw [hrx, List.length_nil, Nat.zero_add]; exact hcap) ht htx
  have hsent : (burstClocked s sent got).eng.frame = sent := by simp [burstClocked, hframe]
  have hgot : (burstClocked s sent got).regs.rxFifo = got := by simp [burstClocked, hrx]
  refine ⟨_, hturns, rfl, rfl, rfl, rfl, rfl, (congrArg _ hgot).trans hg, (congrArg _ hsent).trans hs, ?_, rfl, rfl, rfl, rfl, rfl, rfl, rfl⟩
  exact (congrArg _ hsent).trans hhdr

/-! ### The Flash (43_flash_commands.md R271 to R276) -/

/-- No frame ends with an effect on a NOR device (log 14). -/
theorem flashEndFrame_nor (f : FlashDevice) (fr : List Byte) : flashEndFrame .nor f fr = f := by
  unfold flashEndFrame
  split
  · exact if_neg fun h => by cases h.2
  · rfl

/-- Only a page-load frame has an effect on a NAND device (R276). -/
theorem flashEndFrame_nand_other (f : FlashDevice) {fr : List Byte}
    (h : ∀ (a b c : Byte) (more : List Byte), fr ≠ 0x13#8 :: a :: b :: c :: more) : flashEndFrame .nand f fr = f := by
  unfold flashEndFrame
  split
  · next op a b c more => exact if_neg fun hop => h a b c more (by rw [hop.1])
  · rfl

theorem flashTurn_of_busy {s : State} (h : s.flash.nandBusy = true) : flashTurn s = { s with flash := flashLoad s.flash } := by
  simp [flashTurn, h]

theorem flashTurn_of_notBusy {s : State} (h : s.flash.nandBusy = false) : flashTurn s = s := by
  simp [flashTurn, h]

/-- Settles O18, by the storage kind and the frame's shape, and by whether a page load is in progress. -/
theorem flashPageLoad : Obligations.FlashPageLoad := by
  unfold Obligations.FlashPageLoad
  refine ⟨fun f a b c more => by simp [flashEndFrame], fun k f fr h => ?_, fun s => flashTurn_of_notBusy, fun s hb => ?_⟩
  · cases k with
    | nor => exact flashEndFrame_nor f fr
    | nand => exact flashEndFrame_nand_other f fun a b c more e => h ⟨rfl, a, b, c, more, e⟩
  · refine ⟨pageOf s.flash.nandMem s.flash.pendingRow.toNat, flashTurn_of_busy hb, readByte_pageOf _ s.flash.pendingRow.isLt⟩

/-- Two bytes joined, as a number. -/
theorem toNat_append_byte {w : Nat} (x : BitVec w) (b : Byte) : (x ++ b).toNat = x.toNat * 2 ^ 8 + b.toNat := by
  rw [BitVec.toNat_append, ← Nat.shiftLeft_add_eq_or_of_lt b.isLt, Nat.shiftLeft_eq]

theorem toNat_append_bytes (a2 a1 a0 : Byte) : (a2 ++ a1 ++ a0).toNat = a2.toNat * 2 ^ 16 + a1.toNat * 2 ^ 8 + a0.toNat := by
  rw [toNat_append_byte, toNat_append_byte]
  omega

/-- Settles O19, a command at a time. -/
theorem flashAnswers : Obligations.FlashAnswers := by
  unfold Obligations.FlashAnswers
  refine fun f page k pay d => ⟨fun a2 a1 a0 => ?_, fun h => ?_, fun c1 c0 x hb hc hcol => ?_, oip_statusByte d f.nandBusy⟩
  · rw [← toNat_append_bytes]
    rfl
  · exact (List.getElem_eq_getD d).symm
  · have hcache : cacheByte f page c1 c0 pay.length d = readByte f.nandCache (c1.toNat * 2 ^ 8 + c0.toNat + pay.length) := by
      rw [cacheByte, toNat_append_byte, hb, hc, decide_eq_true hcol]
      rfl
    exact hcache

end Sys2Proof.Machine
end

section
/-! PROOFS. The Transport's calls (41_transport.md R201 to R207, 70_reset_and_hazards.md R402), the chip registry
(44_chip_registry.md R294 to R297), and the state at power-on (70_reset_and_hazards.md R401). -/

namespace Sys2Proof.Machine

/-! ### `init` (R201, R402) -/

theorem flashMay_iff {f g : FlashDevice} : FlashMay f g ↔ FlashAfter True f g := by
  simp [FlashMay, FlashAfter]

theorem FlashAfter.may {m : Prop} {f g : FlashDevice} (h : FlashAfter m f g) : FlashMay f g := flashMay_iff.2 (h.mono fun _ => trivial)

/-- Nothing is in progress while the clock is gated. -/
theorem still_of_gated {s : State} (h : stateOk s = true) (hc : s.plat.clkOn = false) : Still s := by
  obtain ⟨hok, -⟩ := stateOk_iff.1 h
  refine ⟨?_, ?_⟩
  · by_contra hb
    have hclk := (hok.runs (by simpa using hb)).clk
    simp [hc] at hclk
  · by_contra hr
    have hclk := (softResetOk_iff.1 hok.reset (by simpa using hr)).2
    simp [hc] at hclk

theorem exec_init (s : State) : exec .init s = finish (initOp s >>= fun t => pure (t.ret .nothing)) := rfl

/-- Settles O20, from `init_spec`. -/
theorem initCompletes : Obligations.InitCompletes := by
  unfold Obligations.InitCompletes
  intro s hok hh hc hw
  obtain ⟨t, ht, a⟩ := init_spec hh hc (still_of_gated hok hc) hw
  refine ⟨t.ret .nothing, ?_, a.ready, a.cctl, a.plat, a.seq, a.cfg, a.hostMem, a.program, a.flash.may, a.trace, rfl, a.sched, a.hw, a.fl⟩
  rw [exec_init, ht]
  rfl

/-! ### `deinit` (R202, R209) -/

theorem exec_deinit (s : State) : exec .deinit s = finish (deinitOp s >>= fun t => pure (t.ret .nothing)) := rfl

/-- With no turns scheduled `deinit` leaves the device alone. -/
theorem deinit_of_nil {s : State} (hh : s.seq.handle = true) (hc : s.plat.clkOn = true) (hs : Still s)
    (hp : s.cfg.pinFunctionInert ≠ s.cfg.pinFunctionSpi0) (hn : s.env.sched = []) : deinitOp s = .ok (afterDeinit s) := by
  have hclear : clearCtrl (mask bitEnable ||| mask bitMaster) s = .ok { s with regs := disabledRegs s.cfg.variant s.regs } := by
    simp only [clearCtrl, hostStep_of_nil hn]
    exact disableWrite_eq hc hs.2 hs.1
  rw [deinitOp, hh, Bool.not_true, refuseIf_false, res_bind_ok, hostStep_of_nil hn, hclear, res_bind_ok, hostStep_of_nil (by exact hn),
    disableClockOp_still (by exact hs), res_bind_ok, hostStep_of_nil (by exact hn), configurePinsOp_inert (by exact hp) (by rfl)]
  rfl

/-- `deinit` of an idle controller, with what the device is then where no turns were scheduled. -/
theorem deinit_moved {s : State} (hh : s.seq.handle = true) (hc : s.plat.clkOn = true) (hs : Still s)
    (hp : s.cfg.pinFunctionInert ≠ s.cfg.pinFunctionSpi0) :
    ∃ f l, Reaches s.env s.flash f l ∧ (s.env.sched = [] → f = s.flash) ∧ deinitOp s = .ok (moved (afterDeinit s) f l) := by
  by_cases hn : s.env.sched = []
  · exact ⟨s.flash, s.env.sched, .refl _ _, fun _ => rfl, deinit_of_nil hh hc hs hp hn⟩
  · obtain ⟨f, l, hr, hd⟩ := deinit_spec hh hc hs hp
    exact ⟨f, l, hr, fun h => absurd h hn, hd⟩

/-- What clearing ENABLE and MASTER leaves of a register block. -/
theorem disabledRegs_fields (v : Variant) (r : RegBlock) : ∃ q, q = disabledRegs v r ∧
    q = { r with enable := false, master := false, ctlOther := q.ctlOther, gcrOther := q.gcrOther } ∧
    q.ctlOther &&& ~~~ctlNamed = r.ctlOther &&& ~~~ctlNamed ∧ q.gcrOther &&& ~~~gcrNamed = r.gcrOther &&& ~~~gcrNamed := by
  refine ⟨_, rfl, ?_⟩
  cases v with
  | genA => exact ⟨rfl, by rw [disabledRegs, BitVec.and_assoc, BitVec.and_self], rfl⟩
  | genB => exact ⟨rfl, rfl, by rw [disabledRegs, BitVec.and_assoc, BitVec.and_self]⟩

/-- Turns among which there is none of the Engine's change the device only, by a page load completed. -/
theorem takeTurns_noEngine {m : Prop} : ∀ (ts : List Turn) {s : State}, Turn.engine ∉ ts → (Turn.flash ∈ ts → m) →
    ∃ f, FlashAfter m s.flash f ∧ takeTurns ts s = .ok { s with flash := f }
  | [], s, _, _ => ⟨s.flash, .refl _ _, rfl⟩
  | .engine :: ts, s, h, _ => absurd List.mem_cons_self h
  | .flash :: ts, s, h, hm => by
    obtain ⟨g, hg, hturn⟩ : ∃ g, FlashAfter m s.flash g ∧ flashTurn s = { s with flash := g } := by
      cases hb : s.flash.nandBusy with
      | true => exact ⟨_, FlashAfter.load (.refl _ _) (hm List.mem_cons_self) hb, flashTurn_of_busy hb⟩
      | false => exact ⟨_, .refl _ _, flashTurn_of_notBusy hb⟩
    obtain ⟨f, hf, ht⟩ := takeTurns_noEngine (m := m) ts (s := { s with flash := g }) (fun h' => h (List.mem_cons_of_mem _ h'))
      fun h' => hm (List.mem_cons_of_mem _ h')
    exact ⟨f, hg.trans hf, by rw [takeTurns, takeTurn, hturn, res_bind_ok, ht]⟩

/-- A Host step before which the Engine takes no turn. -/
theorem hostStep_noEngine {s : State} (h : ∀ ts ∈ s.env.sched.take 1, Turn.engine ∉ ts) :
    ∃ f, Reaches s.env s.flash f s.env.sched.tail ∧
      ∀ {α : Type} (act : State → Res α), hostStep act s = act (moved s f s.env.sched.tail) := by
  cases hs : s.env.sched with
  | nil =>
    refine ⟨s.flash, ⟨.refl _ _, List.nil_suffix⟩, fun act => ?_⟩
    rw [hostStep_of_nil hs, List.tail_nil, ← hs]
    rfl
  | cons ts rest =>
    obtain ⟨f, hf, ht⟩ := takeTurns_noEngine (m := FlashMoves s.env) ts (s := { s with env := { s.env with sched := rest } })
      (h ts (by simp [hs])) fun hm => .inr ⟨ts, by simp [hs], hm⟩
    exact ⟨f, ⟨hf, by rw [hs]; exact List.suffix_cons ts rest⟩, fun act => by rw [hostStep, gap, hs]; simp only [ht, res_bind_ok]; rfl⟩

/-- The write of CTRL_EN that clears ENABLE and MASTER is refused while a burst runs. -/
theorem disableWrite_busy {s : State} (hc : s.plat.clkOn = true) (hr : s.eng.srstBusy = false) (hb : s.eng.busy = true) (w : Word) :
    mmioWriteCtrl (w &&& ~~~(mask bitEnable ||| mask bitMaster)) s =
      .error (.refuse (match s.cfg.variant with | .genA => .ctlActionDuringBurst | .genB => .gcrWriteDuringBurst)) := by
  rw [mmioWriteCtrl, accessGate_of_open ⟨hc, fun _ => hr⟩, res_bind_ok]
  cases hv : s.cfg.variant with
  | genA =>
    have hen : (w &&& ~~~(mask bitEnable ||| mask bitMaster)).getLsbD bitEnable = false := by
      rw [BitVec.getLsbD_and]; exact Bool.and_false _
    exact writeCtl_refused hb (by simp [ctlActs, hen])
  | genB => exact writeGcr_refused hb

theorem deinitOp_busy {s : State} (hh : s.seq.handle = true) (hc : s.plat.clkOn = true) (hr : s.eng.srstBusy = false)
    (hb : s.eng.busy = true) (hturns : ∀ ts ∈ s.env.sched.take 2, Turn.engine ∉ ts) :
    deinitOp s = .error (.refuse (match s.cfg.variant with | .genA => .ctlActionDuringBurst | .genB => .gcrWriteDuringBurst)) := by
  obtain ⟨f, -, hfirst⟩ := hostStep_noEngine (s := s) fun ts h =>
    hturns ts ((List.take_prefix_take_left (by decide)).subset h)
  obtain ⟨g, -, hsecond⟩ := hostStep_noEngine (s := moved s f s.env.sched.tail) fun ts h => by
    refine hturns ts ?_
    rw [moved_env] at h
    cases hs : s.env.sched with
    | nil => simp [hs] at h
    | cons a l => rw [hs] at h; exact List.mem_cons_of_mem _ h
  have hread : mmioReadCtrl (moved s f s.env.sched.tail) = .ok (match s.cfg.variant with | .genA => readCtl s | .genB => readGcr s) := by
    rw [mmioReadCtrl, accessGate_of_open (by exact ⟨hc, fun _ => hr⟩), res_bind_ok]
    rfl
  rw [deinitOp, hh, Bool.not_true, refuseIf_false, res_bind_ok, hfirst, clearCtrl, hread, res_bind_ok, hsecond,
    disableWrite_busy (by exact hc) (by exact hr) (by exact hb)]
  rfl

/-- Settles O22, by whether a burst is in progress. -/
theorem deinitQuiesces : Obligations.DeinitQuiesces := by
  unfold Obligations.DeinitQuiesces
  intro s hh hc hr
  refine ⟨fun hb hp => ?_, fun hb hturns => ?_⟩
  · obtain ⟨f, l, hreach, hnil, hop⟩ := deinit_moved hh hc ⟨hb, hr⟩ hp
    obtain ⟨q, hq, hregs, hctl, hgcr⟩ := disabledRegs_fields s.cfg.variant s.regs
    refine ⟨q, f, l, hregs, hctl, hgcr, hreach.flash.may, hreach.sched, hnil, ?_⟩
    rintro t rfl
    refine ⟨?_, fun i v h => exec_access_gated h rfl⟩
    rw [exec_deinit, hop, hq]
    rfl
  · rw [exec_deinit, deinitOp_busy hh hc hr hb hturns]
    rfl

/-! ### `enableClock` (R203) -/

theorem exec_enableClock (s : State) : exec .enableClock s = finish (enableClockOp s >>= fun t => pure (t.ret .nothing)) := rfl

theorem enableClockOp_on {s : State} (h : s.plat.clkOn = true) : enableClockOp s = .error (.refuse .clockAlreadyOn) := by
  simp [enableClockOp, h]

/-- With no turns scheduled `enableClock` leaves the device alone. -/
theorem enableClock_of_nil {s : State} (hc : s.plat.clkOn = false) (hn : s.env.sched = []) :
    enableClockOp s = .ok (clockEnabled s) := by
  rw [enableClockOp, hc, refuseIf_false, res_bind_ok, hostStep_of_nil (by exact hn), gated_of_open (by exact ⟨rfl, fun _ => rfl⟩)]
  rfl

theorem enableClock_moved {s : State} (hc : s.plat.clkOn = false) :
    ∃ f l, Reaches s.env s.flash f l ∧ (s.env.sched = [] → f = s.flash) ∧ enableClockOp s = .ok (moved (clockEnabled s) f l) := by
  by_cases hn : s.env.sched = []
  · exact ⟨s.flash, s.env.sched, .refl _ _, fun _ => rfl, enableClock_of_nil hc hn⟩
  · obtain ⟨f, l, hr, hd⟩ := enableClockOp_spec hc
    exact ⟨f, l, hr, fun h => absurd h hn, hd⟩

/-- Settles O23, by whether the clock is on. -/
theorem enableClock : Obligations.EnableClock := by
  unfold Obligations.EnableClock
  refine fun s => ⟨fun h => by rw [exec_enableClock, enableClockOp_on h]; rfl, fun h => ?_⟩
  obtain ⟨f, l, hreach, hnil, hop⟩ := enableClock_moved h
  obtain ⟨regs, hregs⟩ : ∃ r, r = (powerOnBlock s).regs := ⟨_, rfl⟩
  refine ⟨regs.enable, regs.master, regs.ctlOther, regs.gcrOther, regs.tcrOther, regs.burstCnt, regs.xferCnt, regs.bcc, f, l, hreach.flash.may, hreach.sched, hnil, ?_⟩
  rw [exec_enableClock, hop, hregs]
  rfl

/-! ### `baseAddress` and `isGenB` (R206, R207) -/

theorem beq_genB (v : Variant) : (v == .genB) = decide (v = .genB) := by cases v <;> rfl

/-- Settles O26, from the two calls' definitions. -/
theorem pureTransport : Obligations.PureTransport := by
  unfold Obligations.PureTransport
  intro s
  have hgen : exec .isGenB s = .next (s.ret (.bool (s.cfg.variant == .genB))) := rfl
  rw [hgen, beq_genB]
  exact ⟨rfl, rfl⟩

/-! ### The registry (44_chip_registry.md R294 to R297) -/

theorem findChip_none {id : Word24} : ∀ {l : List FlashGeometry}, (∀ e ∈ l, e.jedecId ≠ id) → findChip id l = none
  | [], _ => rfl
  | e :: l, h => by
    rw [findChip, if_neg (h e List.mem_cons_self)]
    exact findChip_none fun x hx => h x (List.mem_cons_of_mem _ hx)

/-- The first entry with the identifier is found. -/
theorem findChip_first {id : Word24} {after : List FlashGeometry} {g : FlashGeometry} (hg : g.jedecId = id) :
    ∀ {before : List FlashGeometry}, (∀ e ∈ before, e.jedecId ≠ id) → findChip id (before ++ g :: after) = some g
  | [], _ => if_pos hg
  | e :: l, h => by
    rw [List.cons_append, findChip, if_neg (h e List.mem_cons_self)]
    exact findChip_first hg fun x hx => h x (List.mem_cons_of_mem _ hx)

theorem exec_resolve (s : State) (id : Word24) : exec (.resolve id) s = .next { s with result := .resolution (resolveId s.cfg id) } := rfl

theorem resolveId_known {p : Params} {id : Word24} {g : FlashGeometry} (h0 : id ≠ 0#24) (h : findChip id p.knownChips = some g) :
    resolveId p id = .known g := by
  rw [resolveId, if_neg h0, h]

theorem resolveId_notFound {p : Params} {id : Word24} (h0 : id ≠ 0#24) (h : findChip id p.knownChips = none) :
    resolveId p id = if p.allowGenericFallback then .genericFallback (genericGeometry id) else .unknown := by
  rw [resolveId, if_neg h0, h]

/-- Settles O37, by whether the identifier is 0, in the table, or in no entry. -/
theorem resolve : Obligations.Resolve := by
  unfold Obligations.Resolve
  refine fun s id => ⟨fun h0 => ?_, fun h0 before after g htable hbefore hg => ?_, fun h0 hnone => ?_⟩
  · rw [exec_resolve, h0]
    rfl
  · rw [exec_resolve, resolveId_known h0 (htable ▸ findChip_first hg hbefore)]
  · rw [exec_resolve, resolveId_notFound h0 (findChip_none hnone)]
    rfl

/-! ### Power-on (70_reset_and_hazards.md R401) -/

/-- Settles O53: the values are those of `State.reset`. -/
theorem powerOn : Obligations.PowerOn := by
  unfold Obligations.PowerOn
  exact ⟨rfl, rfl, rfl, rfl, rfl⟩

/-- Settles O54: no burst, no soft reset, empty memories and no session. -/
theorem invariantAtReset : Obligations.InvariantAtReset := by
  unfold Obligations.InvariantAtReset
  rfl

end Sys2Proof.Machine
end

section
/-! PROOFS. The exchange and the five flash commands from a ready controller under HW_PROGRESS (42_protocol_engine.md R232, R236,
43_flash_commands.md R260 to R264). -/

namespace Sys2Proof.Machine

/-! ### What a completed exchange leaves (42_protocol_engine.md R236) -/

theorem toNat_ofNat_counter {k : Nat} (h : k ≤ fifoDepth) : (BitVec.ofNat 24 k).toNat = k := by
  rw [BitVec.toNat_ofNat, Nat.mod_eq_of_lt (Nat.lt_of_le_of_lt h (by decide))]

/-- The counters after an exchange. -/
theorem counters_of_exchange {v : Variant} {total hdrLen : Nat} (ht : total ≤ fifoDepth) (hh : hdrLen ≤ fifoDepth) (r : RegBlock) :
    (startWritten v (countersSet v total hdrLen r)).burstCnt.toNat = total ∧
      (startWritten v (countersSet v total hdrLen r)).xferCnt.toNat = hdrLen ∧
      (match v with
        | .genA => (startWritten v (countersSet v total hdrLen r)).bcc = r.bcc
        | .genB => (startWritten v (countersSet v total hdrLen r)).bcc.toNat = hdrLen) := by
  cases v with
  | genA => exact ⟨toNat_ofNat_counter ht, toNat_ofNat_counter hh, rfl⟩
  | genB => exact ⟨toNat_ofNat_counter ht, toNat_ofNat_counter hh, toNat_ofNat_counter hh⟩

section
variable {hdr out : List Byte} {n : Nat} {A : FlashDevice → Nat → Byte → Prop} {s t : State}

/-- A completed exchange leaves the frame of 42_protocol_engine.md R236, whatever its call answers. -/
theorem AfterExchange.frame (h : AfterExchange hdr n (FlashAfter (FlashMoves s.env) s.flash) A out s t) (hr : Ready s)
    (hcap : hdr.length + n ≤ fifoDepth) (v : Returned) : ExchangeFrame hdr n s (t.ret v) := by
  have hcmd := h.commands hr fun f hf => hf.sameImage
  obtain ⟨pay, -, hlen, -, -, -, -, htrace⟩ := h.wire
  obtain ⟨hburst, hxfer, hbcc⟩ := counters_of_exchange (v := s.cfg.variant) hcap ((Nat.le_add_right _ _).trans hcap) s.regs
  rw [← h.regs] at hburst hxfer hbcc
  exact ⟨h.host, hcmd.ready, hcmd.sched, hcmd.control, hburst, hxfer, hbcc, hcmd.image, pay, hlen, htrace⟩

end

/-! ### The exchange (R232) -/

theorem exec_exchange {s t : State} {op : Byte} {addr out : List Byte} {d n : Nat} (h : exchangeOp op addr d n s = .ok (out, t)) :
    exec (.exchange op addr d n) s = .next (t.ret (.bytes out)) := by
  change finish (exchangeOp op addr d n s >>= fun r => pure (r.2.ret (.bytes r.1))) = _
  rw [h]
  rfl

/-- The obligations' conditions on an exchange are its own check. -/
theorem frameOk_of_known {op : Byte} {addr : List Byte} {d n : Nat} {hdr : List Byte} (ha : addr.length ≤ 3) (hd : d ≤ 1)
    (hh : hdr = op :: (addr ++ List.replicate d 0x00#8)) (hcap : hdr.length + n ≤ 64) (hk : KnownFrame hdr) :
    frameOk op addr d n = .ok () ∧ hdr = header op addr d := by
  rw [← header_eq_replicate op addr hd] at hh
  subst hh
  exact ⟨frameOk_eq_ok.2 ⟨ha, hd, hcap, (knownHeader_iff _).2 hk⟩, rfl⟩

/-- Payload byte `i` is one that the device, loaded or not, answers after the header and `i` bytes. -/
def AnsweredAfter (s : State) (hdr : List Byte) (i : Nat) (b : Byte) : Prop :=
  ∃ (f : FlashDevice) (pay : List Byte) (x : Byte), FlashMay s.flash f ∧ pay.length = i ∧
    b = flashRespond s.cfg.storageKind s.cfg.nandPageSize f (hdr ++ pay) x

/-- Settles O27, from `command_spec` with the answers of the device. -/
theorem exchangeCompletes : Obligations.ExchangeCompletes := by
  unfold Obligations.ExchangeCompletes
  intro s op addr d n hdr hr hw ha hd hh hcap hk
  obtain ⟨hf, rfl⟩ := frameOk_of_known ha hd hh hcap hk
  obtain ⟨out, t, hop, h⟩ := command_spec (fun _ => AnsweredAfter s (header op addr d)) hr hw hf (fun _ _ _ _ _ _ h => h)
    fun f pay x hfa _ => ⟨f, pay, x, hfa.may, rfl, rfl⟩
  obtain ⟨-, f, -, -, hanswers, -⟩ := h.wire
  exact ⟨out, _, exec_exchange hop, rfl, h.outLen, hanswers, h.frame hr hcap _, fun h13 => (h.flash h13).1.may⟩

/-! ### READ_ID (43_flash_commands.md R260) -/

theorem exec_readId {s t : State} {out : List Byte} (h : exchangeOp 0x9F#8 [] 1 3 s = .ok (out, t)) :
    exec .readId s = .next (t.ret (.identifier (jedecOf out))) := by
  change finish ((exchangeOp 0x9F#8 [] 1 3 s >>= fun r => pure (jedecOf r.1, r.2)) >>= fun r => pure (r.2.ret (.identifier r.1))) = _
  rw [h]
  rfl

/-- The identifier made of three bytes that are the first of a list is that of the list. -/
theorem jedecOf_answered {out bytes : List Byte} (hlen : out.length = 3) (h3 : 3 ≤ bytes.length)
    (h : ∀ i (_ : i < out.length) (k : i < bytes.length), out[i] = bytes[i]) : jedecOf out = jedecOf bytes := by
  have hbyte : ∀ i, i < 3 → out.getD i 0 = bytes.getD i 0 := fun i hi => by
    rw [List.getD_eq_getElem _ _ (by omega), List.getD_eq_getElem _ _ (by omega), h i (by omega) (by omega)]
  rw [jedecOf, jedecOf, hbyte 0 (by decide), hbyte 1 (by decide), hbyte 2 (by decide)]

/-- Settles O32, from `readId_spec`. -/
theorem readIdReturns : Obligations.ReadIdReturns := by
  unfold Obligations.ReadIdReturns
  intro s hr hw
  obtain ⟨out, t, hop, h⟩ := readId_spec hr hw
  obtain ⟨hflash, f, -, -, hid⟩ := h.flash (by decide)
  refine ⟨jedecOf out, _, exec_readId hop, rfl, fun b0 b1 b2 rest hbytes => ?_, h.frame hr (by decide) _, hflash.may⟩
  rw [jedecOf_answered h.outLen (by simp [hbytes]) hid, hbytes]
  rfl

/-! ### NOR READ_DATA (R261) -/

theorem exec_norReadData {s t : State} {a : Word} {n : Nat} {out : List Byte} (h : norReadDataOp a n s = .ok (out, t)) :
    exec (.norReadData a n) s = .next (t.ret (.bytes out)) := by
  change finish (norReadDataOp a n s >>= fun r => pure (r.2.ret (.bytes r.1))) = _
  rw [h]
  rfl

/-- An exchange whose payload does not fit is refused. -/
theorem exchangeOp_tooLong {s : State} {op : Byte} {addr : List Byte} {d n : Nat} (hh : s.seq.handle = true) (ha : addr.length ≤ 3)
    (hd : d ≤ 1) (hlen : 64 < 1 + addr.length + d + n) : exchangeOp op addr d n s = .error (.refuse .frameTooLong) := by
  rw [exchangeOp, hh, Bool.not_true, refuseIf_false, res_bind_ok, frameOk_tooLong ha hd hlen, res_bind_error]

theorem length_wire3 (a : Word) : (wire3 a).length = 3 := rfl

theorem length_wire2 (c : Word) : (wire2 c).length = 2 := rfl

/-- Settles O33, from `norReadData_spec`. -/
theorem norReadDataReturns : Obligations.NorReadDataReturns := by
  unfold Obligations.NorReadDataReturns
  refine fun s a n hr hw => ⟨fun hlong => ?_, fun hn => ?_⟩
  · change finish (exchangeOp 0x03#8 (wire3 a) 0 n s >>= fun r => pure (r.2.ret (.bytes r.1))) = _
    rw [exchangeOp_tooLong hr.1 (length_wire3 a).le (by decide) (by rw [length_wire3]; omega)]
    rfl
  · obtain ⟨out, t, hop, h⟩ := norReadData_spec hr hw a hn
    obtain ⟨hflash, f, -, -, hbytes⟩ := h.flash (by decide)
    refine ⟨out, _, exec_norReadData hop, rfl, h.outLen, fun hk i hi => hbytes i hi hk, h.frame hr ?_ _, hflash.may⟩
    rw [List.length_cons, length_wire3, fifoDepth]
    omega

/-! ### NAND PAGE_READ_TO_CACHE (R262) -/

theorem exec_pageReadToCache {s t : State} {r : Word} {out : List Byte} (h : exchangeOp 0x13#8 (wire3 r) 0 0 s = .ok (out, t)) :
    exec (.pageReadToCache r) s = .next (t.ret .nothing) := by
  change finish ((exchangeOp 0x13#8 (wire3 r) 0 0 s >>= fun o => pure o.2) >>= fun u => pure (u.ret .nothing)) = _
  rw [h]
  rfl

theorem frameOk_pageRead (r : Word) : frameOk 0x13#8 (wire3 r) 0 0 = .ok () :=
  frameOk_eq_ok.2 ⟨(length_wire3 r).le, by decide, by rw [length_header _ _ (by decide), length_wire3]; decide, rfl⟩

/-- Settles O34: by the storage kind, from `pageRead_spec` and from `command_spec`. -/
theorem pageReadStartsLoad : Obligations.PageReadStartsLoad := by
  unfold Obligations.PageReadStartsLoad
  intro s r hr hw
  have hcap : (header 0x13#8 (wire3 r) 0).length + 0 ≤ fifoDepth := by rw [length_header _ _ (by decide), length_wire3]; decide
  cases hk : s.cfg.storageKind with
  | nand =>
    obtain ⟨out, t, hop, h, f, hf, hload⟩ := pageRead_spec hr hw hk r
    rw [loading, ← BitVec.ofNat_toNat] at hload
    exact ⟨_, exec_pageReadToCache hop, rfl, h.frame hr hcap _, fun _ => ⟨f, hf.may, hload.may⟩, fun h => by cases h⟩
  | nor =>
    obtain ⟨out, t, hop, h⟩ := command_spec (fun _ _ _ => True) hr hw (frameOk_pageRead r) (fun _ _ _ _ _ _ h => h) fun _ _ _ _ _ => trivial
    obtain ⟨pay, f, -, hf, -, -, hend, -⟩ := h.wire
    rw [hk, flashEndFrame_nor] at hend
    exact ⟨_, exec_pageReadToCache hop, rfl, h.frame hr hcap _, fun h => by (cases h), fun _ => (hf.trans hend).may⟩

/-! ### NAND READ_STATUS (R263) -/

theorem exec_readStatus {s t : State} {out : List Byte} (h : exchangeOp 0x0F#8 [0xC0#8] 0 1 s = .ok (out, t)) :
    exec .readStatus s = .next (t.ret (.byte (out.headD 0#8))) := by
  change finish ((exchangeOp 0x0F#8 [0xC0#8] 0 1 s >>= fun r => pure (r.1.headD 0#8, r.2)) >>= fun r => pure (r.2.ret (.byte r.1))) = _
  rw [h]
  rfl

/-- Without Flash turns the device stays as it was. -/
theorem FlashAfter.eq_of_not {m : Prop} {f g : FlashDevice} (h : FlashAfter m f g) (hm : ¬ m) : g = f := by
  rcases h with h | ⟨k, -, -⟩
  · exact h
  · exact absurd k hm

theorem not_flashMoves {e : Environment} (hp : e.flashProgress = false) (hs : ∀ ts ∈ e.sched, Turn.flash ∉ ts) : ¬ FlashMoves e := by
  rintro (h | ⟨ts, hts, h⟩)
  · simp [hp] at h
  · exact hs ts hts h

/-- Settles O35: by the storage kind, from `readStatus_spec` and from `command_spec`. -/
theorem readStatusReturns : Obligations.ReadStatusReturns := by
  unfold Obligations.ReadStatusReturns
  intro s hr hw
  cases hk : s.cfg.storageKind with
  | nand =>
    obtain ⟨out, t, hop, h⟩ := readStatus_spec hr hw hk
    obtain ⟨hflash, f, hbefore, hafter, hbyte⟩ := h.flash (by decide)
    obtain ⟨b, rfl⟩ := List.length_eq_one_iff.1 h.outLen
    obtain ⟨hclear, hstill, hready⟩ := hbyte 0 (by simp)
    refine ⟨b, _, exec_readStatus hop, rfl, h.frame hr (by decide) _, hflash.may, fun _ => ⟨fun hb => ?_, hready, fun hbusy hp hs => ?_⟩⟩
    · have hnot := hclear hb
      show t.flash.nandBusy = false
      rw [hafter.eq_of_not_busy hnot, hnot]
    · have hm := not_flashMoves hp hs
      have hoip : oip b = f.nandBusy := hstill hm
      rw [hbefore.eq_of_not hm, hbusy] at hoip
      exact ⟨hoip, hflash.eq_of_not hm⟩
  | nor =>
    obtain ⟨out, t, hop, h⟩ := command_spec (fun _ _ _ => True) hr hw (op := 0x0F#8) (addr := [0xC0#8]) (d := 0) (n := 1) (by decide)
      (fun _ _ _ _ _ _ h => h) fun _ _ _ _ _ => trivial
    obtain ⟨hflash, -⟩ := h.flash (by decide)
    exact ⟨_, _, exec_readStatus hop, rfl, h.frame hr (by decide) _, hflash.may, fun h => by cases h⟩

/-! ### NAND READ_FROM_CACHE (R264) -/

theorem exec_readFromCache {s t : State} {c : Word} {n : Nat} {out : List Byte} (h : readFromCacheOp c n s = .ok (out, t)) :
    exec (.readFromCache c n) s = .next (t.ret (.bytes out)) := by
  change finish (readFromCacheOp c n s >>= fun r => pure (r.2.ret (.bytes r.1))) = _
  rw [h]
  rfl

/-- The command completes, and reads the cache of a device that is not busy and has a page cached. -/
theorem readFromCache_bytes {s : State} (hr : Ready s) (hw : s.env.hwProgress = true) (c : Word) {n : Nat} (hn : n ≤ fifoCap) :
    ∃ A out t, readFromCacheOp c n s = .ok (out, t) ∧
      AfterExchange (0x0B#8 :: (wire2 c ++ [0x00#8])) n (FlashAfter (FlashMoves s.env) s.flash) A out s t ∧
      (s.cfg.storageKind = .nand → s.flash.nandBusy = false → s.flash.nandCachedRow.isSome = true →
        ∀ i (h : i < out.length), c.toNat % 2 ^ 16 + i < s.cfg.nandPageSize → out[i] = readByte s.flash.nandCache (c.toNat % 2 ^ 16 + i)) := by
  by_cases hready : s.cfg.storageKind = .nand ∧ s.flash.nandBusy = false
  · obtain ⟨out, t, hop, h⟩ := readFromCache_spec hr hw hready.1 hready.2 c hn
    obtain ⟨-, f, -, -, hbytes, -⟩ := h.wire
    exact ⟨_, out, t, hop, h, fun _ _ hc i hi hcol => hbytes i hi hc hcol⟩
  · obtain ⟨out, t, hop, h⟩ := readFromCache_completes hr hw c hn
    exact ⟨_, out, t, hop, h, fun hk hb => absurd ⟨hk, hb⟩ hready⟩

/-- Settles O36, from `readFromCache_bytes`. -/
theorem readFromCacheReturns : Obligations.ReadFromCacheReturns := by
  unfold Obligations.ReadFromCacheReturns
  refine fun s c n hr hw => ⟨fun hlong => ?_, fun hn => ?_⟩
  · change finish (exchangeOp 0x0B#8 (wire2 c) 1 n s >>= fun r => pure (r.2.ret (.bytes r.1))) = _
    rw [exchangeOp_tooLong hr.1 (by rw [length_wire2]; decide) (by decide) (by rw [length_wire2]; omega)]
    rfl
  · obtain ⟨A, out, t, hop, h, hbytes⟩ := readFromCache_bytes hr hw c hn
    refine ⟨out, _, exec_readFromCache hop, rfl, h.outLen, hbytes, h.frame hr ?_ _, (h.flash (by decide)).1.may⟩
    rw [List.length_cons, List.length_append, length_wire2, List.length_singleton, fifoDepth]
    omega

end Sys2Proof.Machine
end

section
/-! PROOFS. The waits with no premise on progress: a well-formed exchange completes or hangs, and where the Engine takes no turn the
first wait of an exchange and the soft-reset wait of `init` hang (60_exceptions.md R362, R363, log 3). -/

namespace Sys2Proof.Machine

/-! ### The waits of a burst, with no premise on progress (42_protocol_engine.md R235) -/

/-- A round is a turn of the Engine and one of the Flash, each where the agent makes progress. -/
theorem fairRound_eq (s : State) : fairRound s = (if s.env.hwProgress then engineTurn s else .ok s) >>= fun u =>
    .ok (if u.env.flashProgress then flashTurn u else u) := by
  unfold fairRound
  split_ifs <;> rfl

/-- A wait of a burst hangs, or ends in a state of the burst in which `m` bytes have been clocked. -/
def HangsOrCounts (s0 : State) (hdr : List Byte) (n : Nat) (P : FlashDevice → Prop) (A : FlashDevice → Nat → Byte → Prop) (m : Nat)
    (r : Res State) : Prop :=
  r = .error (.fault .transportFault) ∨ ∃ t, r = .ok t ∧ InBurst s0 hdr n P A t ∧ m ≤ t.eng.frame.length

section
variable {s0 s : State} {hdr : List Byte} {n m : Nat} {P : FlashDevice → Prop} {A : FlashDevice → Nat → Byte → Prop} {poll : Poll}

/-- A round keeps the relation of a burst, whichever agents move. -/
theorem fairRound_inBurst (hA : Answers s0 hdr n P A) (hcap : hdr.length + n ≤ fifoDepth) (h : InBurst s0 hdr n P A s) :
    ∃ t, fairRound s = .ok t ∧ InBurst s0 hdr n P A t := by
  have engine : ∃ t, (if s.env.hwProgress then engineTurn s else .ok s) = .ok t ∧ InBurst s0 hdr n P A t := by
    split_ifs
    · obtain ⟨t, ht, hi, -⟩ := h.engineTurn hA hcap
      exact ⟨t, ht, hi⟩
    · exact ⟨s, rfl, h⟩
  obtain ⟨t, ht, hi⟩ := engine
  refine ⟨if t.env.flashProgress then flashTurn t else t, by rw [fairRound_eq, ht]; rfl, ?_⟩
  split_ifs with hf
  · exact hi.flashTurn hA (.inl (hi.fl ▸ hf))
  · exact hi

theorem waitFair_hangsOrCounts (hA : Answers s0 hdr n P A) (hcap : hdr.length + n ≤ fifoDepth) (hp : CountsTo s0 hdr n P A m poll) :
    ∀ (k : Nat) {s : State}, InBurst s0 hdr n P A s → HangsOrCounts s0 hdr n P A m (waitFair poll k s)
  | 0, s, h => by
    rw [waitFair, hp s h, res_bind_ok]
    by_cases hd : m ≤ s.eng.frame.length
    · exact .inr ⟨s.drew 1, by simp [hd], h.drew 1, hd⟩
    · exact .inl (by simp [hd])
  | k + 1, s, h => by
    rw [waitFair, hp s h, res_bind_ok]
    by_cases hd : m ≤ s.eng.frame.length
    · exact .inr ⟨s.drew 1, by simp [hd], h.drew 1, hd⟩
    · obtain ⟨t, ht, hi⟩ := fairRound_inBurst hA hcap (h.drew 1)
      have ih := waitFair_hangsOrCounts hA hcap hp k hi
      simpa only [hd, decide_false, Bool.false_eq_true, if_false, ht, res_bind_ok] using ih

theorem waitSched_hangsOrCounts (hA : Answers s0 hdr n P A) (hcap : hdr.length + n ≤ fifoDepth) (hp : CountsTo s0 hdr n P A m poll) :
    ∀ (l : List (List Turn)) {s : State}, s.env.sched = l → InBurst s0 hdr n P A s → HangsOrCounts s0 hdr n P A m (waitSched poll l s)
  | [], s, _, h => waitFair_hangsOrCounts hA hcap hp _ (h.of_env (e := { s.env with sched := [] }) (d := s.draws) List.nil_suffix rfl rfl)
  | ts :: rest, s, hl, h => by
    have h' : InBurst s0 hdr n P A { s with env := { s.env with sched := rest } } :=
      h.of_env (by rw [hl]; exact List.suffix_cons ts rest) rfl rfl
    obtain ⟨t, ht, hi, he⟩ := h'.takeTurns hA hcap ts fun hf => .inr ⟨ts, h.sched.subset (by simp [hl]), hf⟩
    rw [waitSched, ht, res_bind_ok, hp t hi, res_bind_ok]
    by_cases hd : m ≤ t.eng.frame.length
    · exact .inr ⟨t.drew 1, by simp [hd], hi.drew 1, hd⟩
    · have ih := waitSched_hangsOrCounts hA hcap hp rest (s := t.drew 1) (by simp [he]) (hi.drew 1)
      simpa only [hd, decide_false, Bool.false_eq_true, if_false] using ih

/-- The two waits of an exchange hang, or end with the whole burst clocked. -/
theorem awaitBurst_hangsOrCounts (hA : Answers s0 hdr n P A) (hcap : hdr.length + n ≤ fifoDepth) (hc : s0.plat.clkOn = true)
    (h : InBurst s0 hdr n P A s) : HangsOrCounts s0 hdr n P A (hdr.length + n) (awaitBurst (hdr.length + n) s) := by
  unfold awaitBurst
  rw [h.cfg]
  have first : HangsOrCounts s0 hdr n P A hdr.length (waitUntil (pollFifo (fun w => txCnt s0.cfg.variant w == 0)) s) :=
    waitSched_hangsOrCounts hA hcap (countsTo_txDrained hc hcap) _ rfl h
  rcases first with hang | ⟨t, ht, hi, -⟩
  · exact .inl (by simp only [hang, res_bind_error])
  · simp only [ht, res_bind_ok]
    exact waitSched_hangsOrCounts hA hcap (countsTo_rxArrived hc hcap) _ rfl hi

end

/-- From a ready controller a well-formed exchange completes or hangs. -/
theorem exchangeOp_completes_or_hangs {s : State} {op : Byte} {addr : List Byte} {d n : Nat} (hr : Ready s) (hf : frameOk op addr d n = .ok ()) :
    (∃ r, exchangeOp op addr d n s = .ok r) ∨ exchangeOp op addr d n s = .error (.fault .transportFault) := by
  obtain ⟨-, -, hcap, -⟩ := frameOk_eq_ok.1 hf
  obtain ⟨f, l, -, hop⟩ := exchangeOp_parts hr hf
  set hdr := header op addr d
  have hin : InBurst (burstStarted hdr n (moved s f l)) hdr n (fun _ => True) (fun _ _ _ => True) (burstStarted hdr n (moved s f l)) :=
    inBurst_start (by exact hr) (Nat.succ_pos _) trivial
  have hA : Answers (burstStarted hdr n (moved s f l)) hdr n (fun _ => True) (fun _ _ _ => True) :=
    ⟨fun _ _ _ _ => ⟨trivial, fun _ _ h => h⟩, fun _ _ _ _ _ => trivial⟩
  rw [hop]
  rcases awaitBurst_hangsOrCounts hA hcap (by exact hr.2.1) hin with hang | ⟨t, ht, hi, hclocked⟩
  · exact .inr (by rw [hang, res_bind_error])
  · have hlen : t.eng.frame.length = hdr.length + n := le_antisymm hi.bound hclocked
    have hstill : Still t := ⟨by rw [hi.busy, hlen]; exact decide_eq_false (lt_irrefl _), hi.srst⟩
    obtain ⟨g, k, -, hcollect⟩ := collect_spec (hi.gateOpen (by exact hr.2.1)) hstill (hi.rxLen.trans hlen)
    exact .inl ⟨_, by rw [ht, res_bind_ok]; exact hcollect⟩

/-- Settles O29, by whether the two waits of the exchange end. -/
theorem exchangeOnlyHangs : Obligations.ExchangeOnlyHangs := by
  unfold Obligations.ExchangeOnlyHangs
  intro s op addr d n hdr hr ha hd hh hcap hk
  obtain ⟨hf, -⟩ := frameOk_of_known ha hd hh hcap hk
  rcases exchangeOp_completes_or_hangs hr hf with ⟨⟨out, t⟩, hop⟩ | hang
  · exact .inl ⟨_, exec_exchange hop⟩
  · refine .inr ?_
    change finish (exchangeOp op addr d n s >>= fun r => pure (r.2.ret (.bytes r.1))) = _
    rw [hang]
    rfl

/-! ### Waits that no Engine turn can end (60_exceptions.md R362) -/

/-- `K` holds of states in which the Engine makes no progress by itself and the poll's condition is false; the poll and the turns
of the Flash keep it. -/
structure Stuck (poll : Poll) (K : State → Prop) : Prop where
  noProgress : ∀ s, K s → s.env.hwProgress = false
  turns : ∀ s f l, K s → K (moved s f l)
  poll : ∀ s, K s → ∃ t, poll s = .ok (false, t) ∧ K t ∧ t.env = s.env

section
variable {poll : Poll} {K : State → Prop}

theorem waitFair_stuck (h : Stuck poll K) : ∀ (k : Nat) {s : State}, K s → waitFair poll k s = .error (.fault .transportFault)
  | 0, s, hs => by
    obtain ⟨t, hp, -⟩ := h.poll s hs
    rw [waitFair, hp]
    rfl
  | k + 1, s, hs => by
    obtain ⟨t, hp, ht, -⟩ := h.poll s hs
    obtain ⟨u, hround, hu⟩ : ∃ u, fairRound t = .ok u ∧ K u := by
      rw [fairRound_eq, h.noProgress t ht]
      refine ⟨_, rfl, ?_⟩
      split_ifs
      · unfold flashTurn
        split_ifs
        · exact h.turns t _ t.env.sched ht
        · exact ht
      · exact ht
    rw [waitFair, hp, res_bind_ok]
    simpa only [Bool.false_eq_true, if_false, hround, res_bind_ok] using waitFair_stuck h k hu

theorem waitSched_stuck (h : Stuck poll K) : ∀ (l : List (List Turn)) {s : State}, (∀ ts ∈ l, Turn.engine ∉ ts) → K s →
    waitSched poll l s = .error (.fault .transportFault)
  | [], s, _, hs => waitFair_stuck h _ (h.turns s s.flash [] hs)
  | ts :: rest, s, hl, hs => by
    obtain ⟨f, -, hturns⟩ := takeTurns_noEngine (m := True) ts (s := { s with env := { s.env with sched := rest } })
      (hl ts List.mem_cons_self) fun _ => trivial
    obtain ⟨t, hp, ht, -⟩ := h.poll _ (h.turns s f rest hs)
    rw [waitSched, hturns, res_bind_ok]
    refine (congrArg (· >>= _) hp).trans ?_
    simpa only [res_bind_ok, Bool.false_eq_true, if_false] using waitSched_stuck h rest (fun ts h' => hl ts (List.mem_cons_of_mem _ h')) ht

end

/-- No scheduled turn is the Engine's. -/
def NoEngineTurn (s : State) : Prop := ∀ ts ∈ s.env.sched, Turn.engine ∉ ts

theorem NoEngineTurn.of_suffix {s : State} {l : List (List Turn)} (h : NoEngineTurn s) (hl : l <:+ s.env.sched) : ∀ ts ∈ l, Turn.engine ∉ ts :=
  fun ts hts => h ts (hl.subset hts)

/-- A burst whose header is in the TX FIFO, in a machine whose Engine takes no turn. -/
structure TxStuck (v : Variant) (s : State) : Prop where
  noProgress : s.env.hwProgress = false
  variant : s.cfg.variant = v
  gate : GateOpen s
  pending : 0 < s.regs.txFifo.length
  fits : s.regs.txFifo.length ≤ fifoDepth

theorem stuck_txDrained (v : Variant) : Stuck (pollFifo (fun w => txCnt v w == 0)) (TxStuck v) where
  noProgress s h := h.noProgress
  turns s f l h := { noProgress := h.noProgress, variant := h.variant, gate := h.gate, pending := h.pending, fits := h.fits }
  poll s h := by
    have hcount := txCnt_fifoStaWord v (drawWord s 0) s.regs.rxFifo.length s.regs.txFifo.length h.fits
    have hcond : (txCnt v (fifoStaWord v (drawWord s 0) s.regs.rxFifo.length s.regs.txFifo.length) == 0) = false := by
      refine beq_eq_false_iff_ne.2 fun h0 => ?_
      have hpos := h.pending
      rw [h0] at hcount
      exact absurd hcount.symm (Nat.ne_of_gt hpos)
    refine ⟨s.drew 1, ?_, { noProgress := h.noProgress, variant := h.variant, gate := h.gate, pending := h.pending, fits := h.fits }, rfl⟩
    simp only [pollFifo, accessGate_of_open h.gate, res_bind_ok, readFifoSta, h.variant, hcond, res_pure]

/-- Without Engine turns an exchange hangs in its first wait. -/
theorem exchangeOp_hangs {s : State} {op : Byte} {addr : List Byte} {d n : Nat} (hr : Ready s) (hf : frameOk op addr d n = .ok ())
    (hw : s.env.hwProgress = false) (hturns : NoEngineTurn s) : exchangeOp op addr d n s = .error (.fault .transportFault) := by
  obtain ⟨-, -, hcap, -⟩ := frameOk_eq_ok.1 hf
  obtain ⟨f, l, hreach, hop⟩ := exchangeOp_parts hr hf
  set hdr := header op addr d with hhdr
  have hstuck : TxStuck s.cfg.variant (burstStarted hdr n (moved s f l)) :=
    { noProgress := hw, variant := rfl, gate := ⟨hr.2.1, fun _ => hr.still.2⟩, pending := Nat.succ_pos _
      fits := (Nat.le_add_right _ _).trans hcap }
  have hang := waitSched_stuck (stuck_txDrained s.cfg.variant) l (hturns.of_suffix hreach.sched) hstuck
  have hang' : awaitBurst (hdr.length + n) (burstStarted hdr n (moved s f l)) = .error (.fault .transportFault) := by
    rw [awaitBurst]
    exact congrArg (· >>= _) hang
  rw [hop, hang', res_bind_error]

/-- A GenB soft reset in a machine whose Engine takes no turn. -/
structure ResetStuck (s : State) : Prop where
  noProgress : s.env.hwProgress = false
  variant : s.cfg.variant = .genB
  clkOn : s.plat.clkOn = true
  running : s.eng.srstBusy = true

theorem stuck_softReset : Stuck pollSrst ResetStuck where
  noProgress s h := h.noProgress
  turns s f l h := { noProgress := h.noProgress, variant := h.variant, clkOn := h.clkOn, running := h.running }
  poll s h := ⟨s, by rw [pollSrst_eq h.clkOn h.variant, h.running]; rfl, h, rfl⟩

/-- Without Engine turns the soft-reset handshake of `init` hangs. -/
theorem resetHandshake_hangs {s : State} (hv : s.cfg.variant = .genB) (hc : s.plat.clkOn = true) (hs : Still s) (hw : s.env.hwProgress = false)
    (hturns : NoEngineTurn s) : resetHandshake s = .error (.fault .transportFault) := by
  obtain ⟨f, hreach, hfirst⟩ := hostStep_still hs
  obtain ⟨g, hreach', hset⟩ := setCtrl_still (s := moved s f s.env.sched.tail) hs
  have hstuck : ResetStuck (softReset (moved (moved s f s.env.sched.tail) g s.env.sched.tail.tail)) :=
    { noProgress := hw, variant := hv, clkOn := hc, running := rfl }
  have hang := waitSched_stuck stuck_softReset s.env.sched.tail.tail (hturns.of_suffix ((List.tail_suffix _).trans (List.tail_suffix _))) hstuck
  have hwrite := srstWrite_eq (s := moved (moved s f s.env.sched.tail) g s.env.sched.tail.tail) hc hs.2 hv hs.1
  rw [resetHandshake, hv, hfirst, hset]
  exact (congrArg (· >>= waitUntil pollSrst) hwrite).trans hang

/-- Without Engine turns `init` on GenB hangs. -/
theorem initOp_hangs {s : State} (hv : s.cfg.variant = .genB) (hh : s.seq.handle = false) (hc : s.plat.clkOn = false)
    (hw : s.env.hwProgress = false) (hturns : NoEngineTurn s) : initOp s = .error (.fault .transportFault) := by
  obtain ⟨f, hreach, hfirst⟩ := hostStep_noEngine (s := s) fun ts h => hturns ts (List.mem_of_mem_take h)
  set s1 : State := { moved s f s.env.sched.tail with plat := { s.plat with pinFn := .spi0 } } with hs1
  have hpins : hostStep (configurePinsOp s.cfg.pinFunctionSpi0) s = .ok s1 := by
    rw [hfirst, configurePinsOp_spi0 (by rfl)]
    rfl
  have hturns1 : NoEngineTurn s1 := hturns.of_suffix hreach.sched
  obtain ⟨g, hreach', hsecond⟩ := hostStep_noEngine (s := s1) fun ts h => hturns1 ts (List.mem_of_mem_take h)
  obtain ⟨k, l, hreach'', hclock⟩ := enableClockOp_spec (s := moved s1 g s1.env.sched.tail) hc
  have hturns2 : NoEngineTurn (moved (clockEnabled (moved s1 g s1.env.sched.tail)) k l) :=
    hturns1.of_suffix (hreach''.sched.trans hreach'.sched)
  have hang := resetHandshake_hangs (s := moved (clockEnabled (moved s1 g s1.env.sched.tail)) k l) hv rfl ⟨rfl, rfl⟩ hw hturns2
  rw [initOp, hh, refuseIf_false, res_bind_ok, hpins, res_bind_ok, hsecond, hclock, res_bind_ok, hang, res_bind_error]

/-- Settles O30, from `initOp_hangs` and `exchangeOp_hangs`. -/
theorem hangsWithoutEngine : Obligations.HangsWithoutEngine := by
  unfold Obligations.HangsWithoutEngine
  refine fun s hw hturns => ⟨fun hv hh hc => ?_, fun hr op addr d n hdr ha hd hhdr hcap hk => ?_⟩
  · rw [exec_init, initOp_hangs hv hh hc hw hturns]
    rfl
  · change finish (exchangeOp op addr d n s >>= fun r => pure (r.2.ret (.bytes r.1))) = _
    rw [exchangeOp_hangs hr (frameOk_of_known ha hd hhdr hcap hk).1 hw hturns]
    rfl

end Sys2Proof.Machine
end

section
/-! PROOFS. The chunked reader: its chunks and geometries, the ready poll, the page load and the two reads (45_chunked_reader.md R324 to
R347). -/

namespace Sys2Proof.Machine

/-! ### Chunks and geometries (R328, R333, R346) -/

/-- A NAND burst ends at the boundary, at the FIFO's capacity or with the last byte. -/
theorem nandChunk_end (g : FlashGeometry) (a r : Nat) :
    nandChunk g a r = r ∨ nandChunk g a r = 60 ∨ a + nandChunk g a r = boundaryOf g a := by
  have hlt := lt_boundaryOf g a
  have hcap : fifoCap = 60 := rfl
  unfold nandChunk
  omega

/-- Settles O43, from `nandChunk_le` and `nandChunk_end`. -/
theorem nandBurstInPage : Obligations.NandBurstInPage := by
  unfold Obligations.NandBurstInPage
  intro g a r
  obtain ⟨hcap, hle, hpage, hpos⟩ := nandChunk_le g a r
  have hend := nandChunk_end g a r
  rw [boundaryOf_eq] at hpage hend
  exact ⟨hpos, hcap, hle, hpage, hend⟩

theorem toNat_and_low {w : Nat} (x m : BitVec w) {k : Nat} (hm : m.toNat = 2 ^ k - 1) : (x &&& m).toNat = x.toNat % 2 ^ k := by
  rw [BitVec.toNat_and, hm, Nat.and_two_pow_sub_one_eq_mod]

/-- A geometry of 2048-byte pages that masks no bit of a 32-bit address fits every range of them. -/
theorem geometryFits_2048 {g : FlashGeometry} (hs : g.pageSizeShift = 11#8) (hm : g.pageIndexMask = 0x00FFFFFF#32)
    (hc : g.columnMask = 0x7FF#32) (hz : g.columnShift = 0#8) {pageSize addr len : Nat} (hp : 2048 ≤ pageSize) (ha : addr + len ≤ 2 ^ 32) :
    GeometryFits g pageSize addr len := by
  have hshift : g.pageSizeShift.toNat = 11 := by rw [hs]; rfl
  refine ⟨by rw [hshift]; decide, by rw [hshift]; exact hp, fun a _ hlt => ?_⟩
  have hword : (BitVec.ofNat 32 a).toNat = a := by rw [BitVec.toNat_ofNat, Nat.mod_eq_of_lt (by omega)]
  rw [hshift]
  constructor
  · rw [rowOf, hshift, hm, toNat_and_low _ _ (k := 24) rfl, BitVec.toNat_ushiftRight, hword, Nat.shiftRight_eq_div_pow,
      Nat.mod_eq_of_lt (by omega)]
  · rw [colOf, hc, hz, toNat_and_low _ _ (k := 11) rfl, BitVec.toNat_ushiftRight, hword]
    rfl

/-- Settles O42: both geometries are of 2048-byte pages and mask no address bit. -/
theorem tableGeometriesFit : Obligations.TableGeometriesFit := by
  unfold Obligations.TableGeometriesFit
  exact fun id pageSize addr len hp ha => ⟨geometryFits_2048 rfl rfl rfl rfl hp ha, geometryFits_2048 rfl rfl rfl rfl hp ha⟩

/-! ### The ready poll and the page load (R341, R344) -/

theorem Commands.frame {s t : State} (h : Commands s t) : CommandFrame s t :=
  ⟨h.cfg, h.plat, h.program, h.hw, h.fl, h.sched, h.ready, h.control, h.bcc, h.image, h.trace⟩

theorem CommandFrame.ret {s t : State} (h : CommandFrame s t) (v : Returned) : CommandFrame s (t.ret v) := h

theorem exec_waitReady (s : State) : exec .waitReady s = finish (waitReadyOp s >>= fun t => pure (t.ret .nothing)) := rfl

/-- Settles O46, from `waitReady_spec` and `readyLoop_hang`. -/
theorem waitReady : Obligations.WaitReady := by
  unfold Obligations.WaitReady
  refine fun s hr hw hk => ⟨fun hready => ?_, fun hb hp hs => ?_⟩
  · obtain ⟨t, hop, h⟩ := waitReady_spec hr hw hk hready
    obtain ⟨polls, hne, htrace⟩ := h.polls
    refine ⟨t.ret .nothing, polls, ?_, rfl, h.commands.frame.ret _, h.seq, h.hostMem, h.notBusy, h.flash.may, hne, htrace⟩
    rw [exec_waitReady, hop]
    rfl
  · rw [exec_waitReady, waitReadyOp, readyLoop_hang _ hr hw hk hb (not_flashMoves hp hs)]
    rfl

theorem exec_loadPage (r : Word) (s : State) : exec (.loadPage r) s = finish (loadPageOp r s >>= fun t => pure (t.ret .nothing)) := rfl

/-- Settles O45, from `loadPage_spec`. -/
theorem loadPageCompletes : Obligations.LoadPageCompletes := by
  unfold Obligations.LoadPageCompletes
  intro s r hr hw hfl hk
  obtain ⟨t, hop, hcmd, hseq, hmem, hb, hrow, hcache, hpolls⟩ := loadPage_spec hr hw hfl hk r
  refine ⟨t.ret .nothing, ?_, rfl, hcmd.frame.ret _, hmem, hseq, hb, ?_, fun col => ?_, hpolls⟩
  · rw [exec_loadPage, hop]
    rfl
  · rw [BitVec.ofNat_toNat]
    exact hrow
  · have hlt : r.toNat % 2 ^ 24 < rowSpan := Nat.mod_lt _ (by decide)
    rw [← readByte_pageOf _ hlt]
    exact congrArg (readByte · col) hcache

/-! ### The reads (R330, R332, R346) -/

/-- What the invariant says of host memory and of the read session. -/
theorem reader_of_stateOk {s : State} (h : stateOk s = true) : memoryOk s.hostMem = true ∧ s.seq.cursor = none ∧ s.seq.nandState = none := by
  obtain ⟨hok, hsession⟩ := stateOk_iff.1 h
  exact ⟨(memoriesOk_iff.1 hok.mems).1, sessionOk_iff.1 hsession⟩

/-- A completed read fills its destination. -/
theorem AfterRead.fills {dst len : Nat} {B : Nat → Byte} {s t : State} (h : AfterRead dst len B s t) (hh : t.seq.handle = s.seq.handle) :
    ReadFills dst len B s t :=
  ⟨h.commands.frame, hh, h.geometry, h.session.1, h.session.2, h.memOk, h.mem⟩

/-- A completed reader, called as any of the read calls. -/
theorem finish_readWith {nand : Bool} {addr dst : Word} {len : Nat} {s t : State} (h : readWith nand addr len dst s = .ok t) (v : Returned) :
    finish (readWith nand addr len dst s >>= fun u => pure (u.ret v)) = .next { t with result := v } := by
  rw [h]
  rfl

/-- Settles O40, from `norRead_spec`. -/
theorem norReadFills : Obligations.NorReadFills := by
  unfold Obligations.NorReadFills
  intro s addr dst len hok hr hw ha hd
  obtain ⟨hmem, hsession⟩ := reader_of_stateOk hok
  obtain ⟨B, t, hop, hB, hread, hseq, mosi, hmosi, htrace⟩ := norRead_spec hr hw hmem hsession ha hd
  have hwith : readWith false addr len dst s = .ok t := hop
  refine ⟨t, B, mosi, hread.fills (by rw [hseq]), hseq, hmosi, htrace, norReadEvents_frames _ _ _ _, ?_, fun hk => ⟨hB hk, ?_⟩⟩
  · rw [exec_norRead]
    exact finish_readWith hwith _
  · have hnor : decide (s.cfg.storageKind = .nand) = false := by rw [hk]; rfl
    rw [exec_read, exec_fitRead, hnor]
    exact ⟨finish_readWith hwith _, finish_readWith hwith _⟩

/-! ### What a NAND read shows outside (R345, R347) -/

/-- The cache reads of some chunks, on pages of `p` bytes. -/
def chunkReads (c : Params) (p : Nat) (mosi : Nat → List Byte) (chunks : List (Nat × Nat)) : List Event :=
  chunks.flatMap fun k => cacheReadEvents c (BitVec.ofNat 32 (k.1 % p)) (mosi k.1)

/-- What a NAND read of a range shows of the page `q`: its load, and its cache reads. -/
def pageEvents (c : Params) (p addr len : Nat) (polls mosi : Nat → List Byte) (q : Nat) : List Event :=
  loadEvents c (BitVec.ofNat 32 q) (polls q) ++ chunkReads c p mosi (pageChunks p addr len q)

/-- The pages after the first that a range touches. -/
def laterPages (p addr len : Nat) : List Nat := List.range' (addr / p + 1) ((addr + len - 1) / p - addr / p)

theorem pagesTouched_eq {p addr len : Nat} (h : 0 < len) : pagesTouched p addr len = addr / p :: laterPages p addr len := by
  rw [pagesTouched, if_neg (by omega), laterPages, ← List.range'_succ, List.range'_eq_map_range]

/-- What a NAND read of a range shows outside, where its first page is loaded only if `load` says so. -/
def nandEvents (c : Params) (p addr len : Nat) (polls mosi : Nat → List Byte) (load : Bool) : List Event :=
  (if load then loadEvents c (BitVec.ofNat 32 (addr / p)) (polls (addr / p)) else []) ++
    chunkReads c p mosi (pageChunks p addr len (addr / p)) ++ (laterPages p addr len).flatMap (pageEvents c p addr len polls mosi)

theorem nandReadEvents_eq (c : Params) (p addr : Nat) {len : Nat} (h : 0 < len) (polls mosi : Nat → List Byte) :
    nandReadEvents c p addr len polls mosi = nandEvents c p addr len polls mosi true := by
  rw [nandReadEvents, pagesTouched_eq h, List.flatMap_cons, nandEvents, if_pos rfl]
  rfl

theorem pieces60_of_le {a e : Nat} (h : e ≤ a) : pieces60 a e = [] := by
  simp [pieces60, Nat.sub_eq_zero_of_le h]

theorem chunkReads_congr {c : Params} {p : Nat} {mosi mosi' : Nat → List Byte} {l : List (Nat × Nat)} (h : ∀ k ∈ l, mosi k.1 = mosi' k.1) :
    chunkReads c p mosi l = chunkReads c p mosi' l :=
  List.flatMap_congr fun k hk => by rw [h k hk]

/-- No chunk of a range starts before it. -/
theorem le_of_mem_pageChunks {p addr len q : Nat} {k : Nat × Nat} (h : k ∈ pageChunks p addr len q) : addr ≤ k.1 :=
  (Nat.le_max_left _ _).trans (le_of_mem_pieces60 h)

theorem pageChunks_nil (p addr q : Nat) : pageChunks p addr 0 q = [] :=
  pieces60_of_le ((Nat.min_le_left _ _).trans (Nat.le_max_left _ _))

/-- The chunks of a range in a page: the first burst where it is its page, and those of the rest of the range. -/
theorem pageChunks_step (g : FlashGeometry) {addr len : Nat} (h : 0 < len) (q : Nat) :
    pageChunks (2 ^ g.pageSizeShift.toNat) addr len q =
      (if q = addr / 2 ^ g.pageSizeShift.toNat then [(addr, nandChunk g addr len)] else []) ++
        pageChunks (2 ^ g.pageSizeShift.toNat) (addr + nandChunk g addr len) (len - nandChunk g addr len) q := by
  obtain ⟨-, hle, hpage, -⟩ := nandChunk_le g addr len
  have hlt := lt_boundaryOf g addr
  have hchunk : nandChunk g addr len = min 60 (min (addr + len) (boundaryOf g addr) - addr) := by
    have hcap : fifoCap = 60 := rfl
    unfold nandChunk
    omega
  rw [boundaryOf_eq] at hpage hlt hchunk
  generalize nandChunk g addr len = n at *
  generalize hp : 2 ^ g.pageSizeShift.toNat = p at *
  have hstart : addr / p * p ≤ addr := Nat.div_mul_le_self addr p
  have hend : addr + n + (len - n) = addr + len := by omega
  unfold pageChunks
  rw [hend]
  rcases Nat.lt_trichotomy q (addr / p) with hq | rfl | hq
  · have hbefore : (q + 1) * p ≤ addr := (Nat.mul_le_mul_right p hq).trans hstart
    rw [if_neg (Nat.ne_of_lt hq), pieces60_of_le (by omega), pieces60_of_le (by omega)]
    rfl
  · rw [if_pos rfl, Nat.max_eq_left hstart, Nat.max_eq_left (hstart.trans (Nat.le_add_right _ _)), pieces60_cons (by omega), ← hchunk]
    rfl
  · have hafter : (addr / p + 1) * p ≤ q * p := Nat.mul_le_mul_right p hq
    rw [if_neg (Nat.ne_of_gt hq), Nat.max_eq_right (by omega), Nat.max_eq_right (by omega)]
    rfl

/-- Before the pages that follow, a range's chunks in a page are those of the rest of the range. -/
theorem pageEvents_step (c : Params) (g : FlashGeometry) {addr len : Nat} (h : 0 < len) (polls mosi : Nat → List Byte) {q : Nat}
    (hq : q ≠ addr / 2 ^ g.pageSizeShift.toNat) :
    pageEvents c (2 ^ g.pageSizeShift.toNat) addr len polls mosi q =
      pageEvents c (2 ^ g.pageSizeShift.toNat) (addr + nandChunk g addr len) (len - nandChunk g addr len) polls mosi q := by
  rw [pageEvents, pageEvents, pageChunks_step g h, if_neg hq, List.nil_append]

theorem lt_of_mem_laterPages {p addr len q : Nat} (h : q ∈ laterPages p addr len) : addr / p < q :=
  (List.mem_range'_1.1 h).1

theorem flatMap_laterPages_step (c : Params) (g : FlashGeometry) {addr len : Nat} (h : 0 < len) (polls mosi : Nat → List Byte)
    {l : List Nat} (hl : ∀ q ∈ l, addr / 2 ^ g.pageSizeShift.toNat < q) :
    l.flatMap (pageEvents c (2 ^ g.pageSizeShift.toNat) addr len polls mosi) =
      l.flatMap (pageEvents c (2 ^ g.pageSizeShift.toNat) (addr + nandChunk g addr len) (len - nandChunk g addr len) polls mosi) :=
  List.flatMap_congr fun q hq => pageEvents_step c g h polls mosi (Nat.ne_of_gt (hl q hq))

/-- The cache reads of a range in its first page: that of its first burst, and those of the rest of the range. -/
theorem chunkReads_step (c : Params) (g : FlashGeometry) {addr len : Nat} (h : 0 < len) (mosi : Nat → List Byte) :
    chunkReads c (2 ^ g.pageSizeShift.toNat) mosi
        (pageChunks (2 ^ g.pageSizeShift.toNat) addr len (addr / 2 ^ g.pageSizeShift.toNat)) =
      cacheReadEvents c (BitVec.ofNat 32 (addr % 2 ^ g.pageSizeShift.toNat)) (mosi addr) ++
        chunkReads c (2 ^ g.pageSizeShift.toNat) mosi (pageChunks (2 ^ g.pageSizeShift.toNat) (addr + nandChunk g addr len)
          (len - nandChunk g addr len) (addr / 2 ^ g.pageSizeShift.toNat)) := by
  rw [pageChunks_step g h, if_pos rfl]
  rfl

/-- Nothing is read of a page that lies before the range. -/
theorem pageChunks_before {p addr q : Nat} (hq : (q + 1) * p ≤ addr) (len : Nat) : pageChunks p addr len q = [] :=
  pieces60_of_le ((Nat.min_le_right _ _).trans (hq.trans (Nat.le_max_left _ _)))

/-- What a NAND read shows outside: the load of its first page where there is one, its first cache read, and what the rest of the
range shows, a page load first where the rest starts a page. -/
theorem nandEvents_step (c : Params) (g : FlashGeometry) {addr len : Nat} (h : nandChunk g addr len < len)
    (polls mosi : Nat → List Byte) (load : Bool) :
    nandEvents c (2 ^ g.pageSizeShift.toNat) addr len polls mosi load =
      (if load then loadEvents c (BitVec.ofNat 32 (addr / 2 ^ g.pageSizeShift.toNat)) (polls (addr / 2 ^ g.pageSizeShift.toNat)) else []) ++
        cacheReadEvents c (BitVec.ofNat 32 (addr % 2 ^ g.pageSizeShift.toNat)) (mosi addr) ++
        nandEvents c (2 ^ g.pageSizeShift.toNat) (addr + nandChunk g addr len) (len - nandChunk g addr len) polls mosi
          (decide (addr / 2 ^ g.pageSizeShift.toNat < (addr + nandChunk g addr len) / 2 ^ g.pageSizeShift.toNat)) := by
  obtain ⟨-, -, hpage, hpos⟩ := nandChunk_le g addr len
  have h0 : 0 < len := Nat.zero_lt_of_lt h
  have hlast : addr + nandChunk g addr len + (len - nandChunk g addr len) - 1 = addr + len - 1 := by omega
  rw [boundaryOf_eq] at hpage
  rw [nandEvents, chunkReads_step c g h0, flatMap_laterPages_step c g h0 polls mosi fun q => lt_of_mem_laterPages, nandEvents]
  have hle : addr / 2 ^ g.pageSizeShift.toNat ≤ (addr + nandChunk g addr len) / 2 ^ g.pageSizeShift.toNat :=
    Nat.div_le_div_right (Nat.le_add_right _ _)
  rcases Nat.eq_or_lt_of_le hle with hsame | hnew
  · have hlater : laterPages (2 ^ g.pageSizeShift.toNat) (addr + nandChunk g addr len) (len - nandChunk g addr len) =
        laterPages (2 ^ g.pageSizeShift.toNat) addr len := by
      rw [laterPages, laterPages, hlast, ← hsame]
    rw [hlater, ← hsame, decide_eq_false (lt_irrefl _), if_neg Bool.false_ne_true, List.nil_append]
    simp only [List.append_assoc]
  · have hnext : (addr + nandChunk g addr len) / 2 ^ g.pageSizeShift.toNat = addr / 2 ^ g.pageSizeShift.toNat + 1 :=
      le_antisymm ((Nat.div_le_div_right hpage).trans_eq (Nat.mul_div_cancel _ (Nat.two_pow_pos _))) hnew
    have hstart : (addr / 2 ^ g.pageSizeShift.toNat + 1) * 2 ^ g.pageSizeShift.toNat ≤ addr + nandChunk g addr len := by
      rw [← hnext]; exact Nat.div_mul_le_self _ _
    have hend : addr / 2 ^ g.pageSizeShift.toNat + 1 ≤ (addr + len - 1) / 2 ^ g.pageSizeShift.toNat := by
      rw [← hnext]; exact Nat.div_le_div_right (by omega)
    have hlater : laterPages (2 ^ g.pageSizeShift.toNat) addr len = (addr / 2 ^ g.pageSizeShift.toNat + 1) ::
        laterPages (2 ^ g.pageSizeShift.toNat) (addr + nandChunk g addr len) (len - nandChunk g addr len) := by
      rw [laterPages, laterPages, hlast, hnext, ← List.range'_succ]
      congr 1
      omega
    rw [hlater, List.flatMap_cons, pageChunks_before hstart, hnext, decide_eq_true (Nat.lt_succ_self _), if_pos rfl, pageEvents]
    simp only [chunkReads, List.flatMap_nil, List.append_nil, List.append_assoc]

/-- What a NAND read of one burst shows outside. -/
theorem nandEvents_last (c : Params) (g : FlashGeometry) {addr len : Nat} (h0 : 0 < len) (h : nandChunk g addr len = len)
    (polls mosi : Nat → List Byte) (load : Bool) :
    nandEvents c (2 ^ g.pageSizeShift.toNat) addr len polls mosi load =
      (if load then loadEvents c (BitVec.ofNat 32 (addr / 2 ^ g.pageSizeShift.toNat)) (polls (addr / 2 ^ g.pageSizeShift.toNat)) else []) ++
        cacheReadEvents c (BitVec.ofNat 32 (addr % 2 ^ g.pageSizeShift.toNat)) (mosi addr) := by
  obtain ⟨-, -, hpage, -⟩ := nandChunk_le g addr len
  rw [boundaryOf_eq, h] at hpage
  have hlast : (addr + len - 1) / 2 ^ g.pageSizeShift.toNat = addr / 2 ^ g.pageSizeShift.toNat := by
    rw [Nat.add_sub_assoc h0]
    exact (page_of_chunk (Nat.two_pow_pos _) (by omega)).1
  rw [nandEvents, chunkReads_step c g h0, h, Nat.sub_self, pageChunks_nil, laterPages, hlast, Nat.sub_self]
  simp only [chunkReads, List.flatMap_nil, List.append_nil, List.range'_zero]

/-- What a NAND read shows outside depends on the status bytes of the pages it loads and on the bytes sent from its first address on. -/
theorem nandEvents_congr (c : Params) {p addr len : Nat} {polls polls' mosi mosi' : Nat → List Byte} {load : Bool}
    (hfirst : load = true → polls (addr / p) = polls' (addr / p)) (hlater : ∀ q, addr / p < q → polls q = polls' q)
    (hmosi : ∀ x, addr ≤ x → mosi x = mosi' x) : nandEvents c p addr len polls mosi load = nandEvents c p addr len polls' mosi' load := by
  have hreads : ∀ q, chunkReads c p mosi (pageChunks p addr len q) = chunkReads c p mosi' (pageChunks p addr len q) :=
    fun q => chunkReads_congr fun k hk => hmosi _ (le_of_mem_pageChunks hk)
  have hpages : (laterPages p addr len).flatMap (pageEvents c p addr len polls mosi) =
      (laterPages p addr len).flatMap (pageEvents c p addr len polls' mosi') :=
    List.flatMap_congr fun q hq => by rw [pageEvents, pageEvents, hlater q (lt_of_mem_laterPages hq), hreads]
  rw [nandEvents, nandEvents, hreads, hpages]
  cases load with
  | false => rfl
  | true => rw [hfirst rfl]

/-- The row and the column of every address of a range are its page and its place in the page (R346). -/
def AddressesFit (g : FlashGeometry) (addr len : Nat) : Prop :=
  ∀ a, addr ≤ a → a < addr + len → (rowOf g (BitVec.ofNat 32 a)).toNat = a / 2 ^ g.pageSizeShift.toNat ∧
    (colOf g (BitVec.ofNat 32 a)).toNat = a % 2 ^ g.pageSizeShift.toNat

theorem ofNat_of_toNat_eq {x : Word} {n : Nat} (h : x.toNat = n) : x = BitVec.ofNat 32 n := by
  rw [← h, BitVec.ofNat_toNat, BitVec.setWidth_eq]

/-- The chunks of a NAND read, taken one after the other, show outside what the rule says of its pages. -/
theorem chunkEvents_eq_nandEvents (c : Params) (g : FlashGeometry) : ∀ (l : List (List Byte × List Byte)) {addr len : Nat} (load : Bool),
    0 < len → ChunkBytes g l addr len → AddressesFit g addr len →
    ∃ polls mosi : Nat → List Byte, (∀ q, polls q ≠ []) ∧
      (∀ q, ∀ k ∈ pageChunks (2 ^ g.pageSizeShift.toNat) addr len q, (mosi k.1).length = k.2) ∧
      chunkEvents c g l addr len load = nandEvents c (2 ^ g.pageSizeShift.toNat) addr len polls mosi load
  | [], addr, len, load, h0, hb, _ => absurd hb (Nat.ne_of_gt h0)
  | (bytes, sent) :: more, addr, len, load, h0, ⟨_, hne, hsent, hmore⟩, hfit => by
    obtain ⟨-, hle, -, hpos⟩ := nandChunk_le g addr len
    obtain ⟨hrow, hcol⟩ := hfit addr (le_refl _) (by omega)
    rw [chunkEvents, ofNat_of_toNat_eq hrow, ofNat_of_toNat_eq hcol]
    rcases Nat.eq_or_lt_of_le hle with hlast | hrest
    · refine ⟨fun _ => bytes, fun _ => sent, fun _ => hne, fun q k hk => ?_, ?_⟩
      · rw [pageChunks_step g h0, hlast, Nat.sub_self, pageChunks_nil, List.append_nil] at hk
        split_ifs at hk with hq
        · obtain rfl := List.mem_singleton.1 hk
          exact hsent.trans hlast
        · cases hk
      · rw [hlast, Nat.sub_self] at hmore ⊢
        have hnil : more = [] := by
          cases more with
          | nil => rfl
          | cons x l => exact absurd hmore.1 (lt_irrefl _)
        rw [nandEvents_last c g h0 hlast, hnil, chunkEvents, List.append_nil]
    · obtain ⟨hrow', -⟩ := hfit (addr + nandChunk g addr len) (Nat.le_add_right _ _) (by omega)
      obtain ⟨polls, mosi, hpolls, hmosi, hevents⟩ := chunkEvents_eq_nandEvents c g more
        (decide (addr / 2 ^ g.pageSizeShift.toNat < (addr + nandChunk g addr len) / 2 ^ g.pageSizeShift.toNat))
        (by omega) hmore fun a ha hlt => hfit a (by omega) (by omega)
      have hload : decide (BitVec.ofNat 32 (addr / 2 ^ g.pageSizeShift.toNat) < rowOf g (BitVec.ofNat 32 (addr + nandChunk g addr len))) =
          decide (addr / 2 ^ g.pageSizeShift.toNat < (addr + nandChunk g addr len) / 2 ^ g.pageSizeShift.toNat) := by
        rw [← ofNat_of_toNat_eq hrow]
        exact decide_eq_decide.2 (by rw [BitVec.lt_def, hrow, hrow'])
      have hfirst := hpos h0
      refine ⟨fun q => if q = addr / 2 ^ g.pageSizeShift.toNat then bytes else polls q, fun x => if x = addr then sent else mosi x,
        fun q => ?_, fun q k hk => ?_, ?_⟩
      · dsimp only
        split_ifs
        · exact hne
        · exact hpolls q
      · rw [pageChunks_step g h0] at hk
        rcases List.mem_append.1 hk with hk | hk
        · split_ifs at hk with hq
          · obtain rfl := List.mem_singleton.1 hk
            simpa using hsent
          · cases hk
        · have hge := le_of_mem_pageChunks hk
          have hk1 : k.1 ≠ addr := by omega
          simpa only [hk1, if_false] using hmosi q k hk
      · rw [nandEvents_step c g hrest, hload, hevents, if_pos rfl, if_pos rfl]
        refine congrArg (_ ++ ·) (nandEvents_congr c (fun hnew => ?_) (fun q hq => ?_) fun x hx => ?_)
        · exact (if_neg (Nat.ne_of_gt (of_decide_eq_true hnew))).symm
        · have hmono : addr / 2 ^ g.pageSizeShift.toNat ≤ (addr + nandChunk g addr len) / 2 ^ g.pageSizeShift.toNat :=
            Nat.div_le_div_right (Nat.le_add_right _ _)
          exact (if_neg (Nat.ne_of_gt (Nat.lt_of_le_of_lt hmono hq))).symm
        · exact (if_neg (by omega)).symm

/-- What a completed NAND read shows outside, by pages. -/
theorem chunkEvents_eq_nandReadEvents (c : Params) {g : FlashGeometry} {l : List (List Byte × List Byte)} {addr len : Nat}
    (hb : ChunkBytes g l addr len) (hfit : AddressesFit g addr len) :
    ∃ polls mosi : Nat → List Byte, (∀ q, polls q ≠ []) ∧
      (∀ q, ∀ k ∈ pageChunks (2 ^ g.pageSizeShift.toNat) addr len q, (mosi k.1).length = k.2) ∧
      chunkEvents c g l addr len true = nandReadEvents c (2 ^ g.pageSizeShift.toNat) addr len polls mosi := by
  rcases Nat.eq_zero_or_pos len with rfl | h0
  · have hnil : l = [] := by
      cases l with
      | nil => rfl
      | cons x l => exact absurd hb.1 (lt_irrefl _)
    refine ⟨fun _ => [0#8], fun _ => [], fun _ => List.cons_ne_nil _ _, fun q k hk => ?_, ?_⟩
    · rw [pageChunks_nil] at hk
      cases hk
    · rw [hnil]
      rfl
  · obtain ⟨polls, mosi, hpolls, hmosi, hevents⟩ := chunkEvents_eq_nandEvents c g l true h0 hb hfit
    exact ⟨polls, mosi, hpolls, hmosi, by rw [hevents, nandReadEvents_eq c _ _ h0]⟩

/-- Settles O41, from `nandRead_spec` and the reading of its chunks by pages. -/
theorem nandReadFills : Obligations.NandReadFills := by
  unfold Obligations.NandReadFills
  intro s g addr dst len hok hr hw hfl hk hgeo ha hd hfit
  obtain ⟨hmem, hsession⟩ := reader_of_stateOk hok
  obtain ⟨t, hop, hread, hhandle, hcached, l, hbytes, htrace⟩ := nandRead_spec hr hw hfl hk hgeo hmem hsession ha hd hfit
  obtain ⟨polls, mosi, hpolls, hmosi, hevents⟩ := chunkEvents_eq_nandReadEvents s.cfg hbytes hfit.2.2
  have hwith : readWith true addr len dst s = .ok t := hop
  have hnand : decide (s.cfg.storageKind = .nand) = true := decide_eq_true hk
  refine ⟨t, polls, mosi, hread.fills (hhandle.trans hr.1.symm), hcached, hpolls, hmosi, by rw [htrace, hevents], ?_, ?_, ?_⟩
  · rw [exec_nandRead]
    exact finish_readWith hwith _
  · rw [exec_read, hnand]
    exact finish_readWith hwith _
  · rw [exec_fitRead, hnand]
    exact finish_readWith hwith _

end Sys2Proof.Machine
end

section
/-! PROOFS. The boot attempt from a machine that may start it: its identification of the chip, the header it reads, and its ways to end
(70_reset_and_hazards.md R410 to R413). -/

namespace Sys2Proof.Machine

/-! ### The teardown (41_transport.md R202, 60_exceptions.md R368) -/

/-- What the teardown of a ready controller leaves. -/
structure TornDown (s t : State) : Prop where
  quiescent : Quiescent t
  cfg : t.cfg = s.cfg
  seq : t.seq = { s.seq with handle := false }
  hostMem : t.hostMem = s.hostMem
  image : SameImage s.flash t.flash
  trace : t.trace = s.trace ++ [.deinitDone]

theorem disabledRegs_off (v : Variant) (r : RegBlock) : (disabledRegs v r).enable = false ∧ (disabledRegs v r).master = false := by
  cases v <;> exact ⟨rfl, rfl⟩

theorem deinitOp_tornDown {s : State} (hr : Ready s) (hp : s.cfg.pinFunctionInert ≠ s.cfg.pinFunctionSpi0) :
    ∃ t, deinitOp s = .ok t ∧ TornDown s t := by
  obtain ⟨f, l, hreach, hop⟩ := deinit_spec hr.1 hr.2.1 hr.still hp
  obtain ⟨hen, hma⟩ := disabledRegs_off s.cfg.variant s.regs
  exact ⟨_, hop, ⟨rfl, rfl, rfl, hen, hma, hr.still.1, hr.still.2⟩, rfl, rfl, rfl, hreach.flash.sameImage, rfl⟩

/-- An error raised in a ready controller is returned after its teardown. -/
theorem raiseError_tornDown {s : State} (hr : Ready s) (hp : s.cfg.pinFunctionInert ≠ s.cfg.pinFunctionSpi0) (k : ErrorKind) :
    ∃ t, raiseError k s = .ok (bootReturn t (.error k)) ∧ TornDown s t := by
  obtain ⟨t, hop, h⟩ := deinitOp_tornDown hr hp
  exact ⟨t, by rw [raiseError, hop]; rfl, h⟩

theorem returnOk_tornDown {s : State} (hr : Ready s) (hp : s.cfg.pinFunctionInert ≠ s.cfg.pinFunctionSpi0) :
    ∃ t, returnOk s = .ok (bootReturn t .ok) ∧ TornDown s t := by
  obtain ⟨t, hop, h⟩ := deinitOp_tornDown hr hp
  exact ⟨t, by rw [returnOk, hop]; rfl, h⟩

/-! ### The identification of the chip (R410) -/

theorem BootReady.pins {s : State} (h : BootReady s) : s.cfg.pinFunctionInert ≠ s.cfg.pinFunctionSpi0 := by
  obtain ⟨-, -, hpins, -⟩ := h
  exact hpins

theorem BootReady.progress {s : State} (h : BootReady s) : s.env.hwProgress = true := by
  obtain ⟨-, -, -, hw⟩ := h
  exact hw

/-- A boot attempt that started in `s` has brought the controller up and read the identifier. -/
structure Identified (s t : State) : Prop where
  ready : Ready t
  cfg : t.cfg = s.cfg
  seq : t.seq = { s.seq with handle := true }
  hostMem : t.hostMem = s.hostMem
  hw : t.env.hwProgress = s.env.hwProgress
  fl : t.env.flashProgress = s.env.flashProgress
  image : SameImage s.flash t.flash
  trace : ∃ pay : List Byte, pay.length = 3 ∧
    t.trace = s.trace ++ [.initDone, .frame ([0x9F#8, 0x00#8] ++ pay), .delay s.cfg.delayNs s.cfg.delayGranularity]

theorem readIdOp_of_exchange {s t : State} {out : List Byte} (h : exchangeOp 0x9F#8 [] 1 3 s = .ok (out, t)) :
    readIdOp s = .ok (jedecOf out, t) := by
  rw [readIdOp, h]
  rfl

/-- A boot attempt that may start goes on with the identifier of the device. -/
theorem bootAttemptOp_identified {s : State} (hok : stateOk s = true) (hb : BootReady s) :
    ∃ id t, bootAttemptOp s = bootResolved (resolveId s.cfg id) t ∧ Identified s t ∧
      (3 ≤ s.flash.idBytes.length → id = deviceId s.flash) := by
  obtain ⟨hh, hc, -, hw⟩ := hb
  obtain ⟨t, hinit, a⟩ := init_spec hh hc (still_of_gated hok hc) fun _ => hw
  obtain ⟨out, u, hexch, h⟩ := readId_spec a.ready (a.hw.trans hw)
  have hcmd := h.commands a.ready fun f hf => hf.sameImage
  obtain ⟨-, -, hseq, hmem, -⟩ := h.host
  obtain ⟨pay, f, hpay, -, hid, -, -, htrace⟩ := h.wire
  have himg : t.flash.idBytes = s.flash.idBytes := a.flash.sameImage.2.2
  refine ⟨jedecOf out, u, ?_, ⟨hcmd.ready, hcmd.cfg.trans a.cfg, hseq.trans a.seq, hmem.trans a.hostMem, hcmd.hw.trans a.hw,
    hcmd.fl.trans a.fl, a.flash.sameImage.trans hcmd.image, pay, hpay, ?_⟩, fun h3 => ?_⟩
  · rw [bootAttemptOp, hinit, res_bind_ok, readIdOp_of_exchange hexch, res_bind_ok]
    show bootResolved (resolveId u.cfg (jedecOf out)) u = _
    rw [hcmd.cfg.trans a.cfg]
  · rw [htrace, a.trace, a.cfg, List.append_assoc]
    rfl
  · exact jedecOf_answered h.outLen h3 fun i hi hk => by
      rw [hid i hi (himg ▸ hk)]
      simp only [himg]

theorem exec_bootAttempt (s : State) : exec .bootAttempt s = finish (bootAttemptOp s) := rfl

/-- What a boot attempt that finds no usable chip leaves and shows. -/
structure NoChipLoaded (s : State) (k : ErrorKind) (message : String) (t : State) (pay : List Byte) : Prop where
  result : t.result = .boot (.error k) (some s.cfg.errStatus)
  quiescent : Quiescent t
  payLen : pay.length = 3
  trace : t.trace = s.trace ++ [.initDone, .frame ([0x9F#8, 0x00#8] ++ pay), .delay s.cfg.delayNs s.cfg.delayGranularity, .deinitDone,
    .report message]
  hostMem : t.hostMem = s.hostMem
  seq : t.seq = s.seq
  cfg : t.cfg = s.cfg
  image : SameImage s.flash t.flash

/-- An identified controller whose chip is not used: the error, and then the report. -/
theorem Identified.noChip {s u : State} (h : Identified s u) (hb : BootReady s) (k : ErrorKind) (message : String) :
    ∃ t pay, (raiseError k u >>= fun v => pure (v.log (.report message))) = .ok t ∧ NoChipLoaded s k message t pay := by
  obtain ⟨hh, -, hp, -⟩ := hb
  obtain ⟨pay, hpay, htrace⟩ := h.trace
  obtain ⟨v, hraise, htorn⟩ := raiseError_tornDown h.ready (by rw [h.cfg]; exact hp) k
  have hcfg : v.cfg = s.cfg := htorn.cfg.trans h.cfg
  refine ⟨(bootReturn v (.error k)).log (.report message), pay, by rw [hraise]; rfl, ?_, htorn.quiescent, hpay, ?_,
    htorn.hostMem.trans h.hostMem, ?_, hcfg, h.image.trans htorn.image⟩
  · show Returned.boot (.error k) (some v.cfg.errStatus) = _
    rw [hcfg]
  · show v.trace ++ [.report message] = _
    rw [htorn.trace, htrace, List.append_assoc, List.append_assoc]
    rfl
  · show v.seq = s.seq
    rw [htorn.seq, h.seq, ← hh]

/-- Settles O47: the identifier is 0, which is no chip. -/
theorem bootNoChip : Obligations.BootNoChip := by
  unfold Obligations.BootNoChip
  intro s hok hb hzero
  have h3 : 3 ≤ s.flash.idBytes.length := by
    have := congrArg List.length hzero
    rw [List.length_take] at this
    simp only [List.length_cons, List.length_nil] at this
    omega
  have hid : deviceId s.flash = 0#24 := by
    have hsplit : s.flash.idBytes = [0x00#8, 0x00#8, 0x00#8] ++ s.flash.idBytes.drop 3 := by
      rw [← hzero, List.take_append_drop]
    rw [deviceId, hsplit]
    show (0x00#8 ++ 0x00#8 ++ 0x00#8 : Word24) = 0#24
    decide
  obtain ⟨id, u, hop, h, hdev⟩ := bootAttemptOp_identified hok hb
  obtain ⟨t, pay, ht, k⟩ := h.noChip hb .noChipDetected "no device attached"
  have hres : resolveId s.cfg id = .noChip := by rw [hdev h3, hid, resolveId, if_pos rfl]
  refine ⟨t, pay, ?_, k.result, k.quiescent, k.payLen, k.trace, k.hostMem, k.seq, k.cfg, k.image⟩
  rw [exec_bootAttempt, hop, hres, bootResolved, ht]
  rfl

/-- Settles O48: the identifier is in no entry, and there is no fallback. -/
theorem bootUnsupportedChip : Obligations.BootUnsupportedChip := by
  unfold Obligations.BootUnsupportedChip
  intro s hok hb h3 hne hnone hfall
  obtain ⟨id, u, hop, h, hdev⟩ := bootAttemptOp_identified hok hb
  obtain ⟨t, pay, ht, k⟩ := h.noChip hb .unsupportedChip "unsupported chip"
  have hres : resolveId s.cfg id = .unknown := by
    rw [hdev h3, resolveId_notFound hne (findChip_none hnone), hfall]
    rfl
  refine ⟨t, pay, ?_, k.result, k.quiescent, k.payLen, k.trace, k.hostMem, k.seq, k.cfg, k.image⟩
  rw [exec_bootAttempt, hop, hres, bootResolved, ht]
  rfl

/-! ### The header (R410) -/

/-- A boot attempt that started in `s` makes its reads in `t`: the geometry `g` is stored, host memory is `m`, and the FIT collaborator
has been called as `calls` say. -/
structure Loaded (s : State) (g : FlashGeometry) (m : Nat → Byte) (calls : List Event) (t : State) : Prop where
  loading : Loading g t
  cfg : t.cfg = s.cfg
  fl : t.env.flashProgress = s.env.flashProgress
  image : SameImage s.flash t.flash
  mem : readByte t.hostMem = m
  trace : ∃ ev, t.trace = s.trace ++ ev ∧ ev.filter isFitLoad = calls

section
variable {s t u : State} {g : FlashGeometry} {m m' : Nat → Byte} {calls : List Event}

theorem isFitLoad_of_command {e : Event} (h : isCommandEvent e = true) : isFitLoad e = false := by
  cases e with
  | frame _ | delay _ _ => rfl
  | initDone | deinitDone | report _ | fitLoad _ _ => simp [isCommandEvent] at h

theorem Loaded.of_commands (h : Loaded s g m calls t) (hc : Commands t u) (hl : Loading g u) (hm : readByte u.hostMem = m') :
    Loaded s g m' calls u := by
  obtain ⟨ev, htrace, hcalls⟩ := h.trace
  obtain ⟨ev', htrace', hcmd⟩ := hc.trace
  have hnone : ev'.filter isFitLoad = [] := List.filter_eq_nil_iff.2 fun e he => by rw [isFitLoad_of_command (hcmd e he)]; decide
  refine ⟨hl, hc.cfg.trans h.cfg, hc.fl.trans h.fl, h.image.trans hc.image, hm, ev ++ ev', ?_, ?_⟩
  · rw [htrace', htrace, List.append_assoc]
  · rw [List.filter_append, hcalls, hnone, List.append_nil]

theorem Loaded.log (h : Loaded s g m calls t) (e : Event) : Loaded s g m (calls ++ [e].filter isFitLoad) (t.log e) := by
  obtain ⟨ev, htrace, hcalls⟩ := h.trace
  refine ⟨{ h.loading with ready := h.loading.ready }, h.cfg, h.fl, h.image, h.mem, ev ++ [e], ?_, ?_⟩
  · rw [log_trace, htrace, List.append_assoc]
  · rw [List.filter_append, hcalls]

theorem Loaded.drew (h : Loaded s g m calls t) (n : Nat) : Loaded s g m calls (t.drew n) :=
  { h with loading := { h.loading with ready := h.loading.ready } }

/-- A read of the resolved geometry, wherever the attempt stands. -/
theorem Loaded.read {addr dst : Word} {len : Nat} (h : Loaded s g m calls t) (hr : Readable s g addr dst len) :
    ∃ u, readOp addr len dst t = .ok u ∧
      Loaded s g (filled m dst.toNat len fun j => flashByteAt s.cfg.storageKind s.flash g (addr.toNat + j)) calls u := by
  have hr' : Readable t g addr dst len := by simpa only [Readable, h.cfg, h.fl] using hr
  obtain ⟨u, hop, hc, hl, hm⟩ := readOp_spec h.loading hr'
  refine ⟨u, hop, h.of_commands hc hl ?_⟩
  rw [hm, h.mem, h.cfg]
  simp only [flashByteAt_image h.image]

end

theorem filled_inside {m : Nat → Byte} {dst len j : Nat} {B : Nat → Byte} (h : j < len) : filled m dst len B (dst + j) = B j := by
  rw [filled, if_pos (by omega), Nat.add_sub_cancel_left]

/-- The header the host reads back is the one in flash. -/
theorem Loaded.header {s t : State} {g : FlashGeometry} {calls : List Event} (h : Loaded s g (headerLoaded s g) calls t)
    (hr : Readable s g (bootOffset s.cfg) s.cfg.hdrBuf 64) : (hostBytes t.cfg.hdrBuf.toNat bootHdrLen t).1 = flashHeader s g := by
  obtain ⟨-, -, hback, -⟩ := hr
  rw [hostBytes_of_backed (by rw [h.cfg]; exact hback), h.mem, h.cfg]
  exact List.map_congr_left fun j hj => filled_inside (List.mem_range.1 hj)

/-- With a resolved geometry the attempt reads the header and goes on with it. -/
theorem bootAttemptOp_loaded {s : State} {g : FlashGeometry} (hok : stateOk s = true) (hb : BootReady s) (hg : BootsWith s g)
    (hr : Readable s g (bootOffset s.cfg) s.cfg.hdrBuf 64) :
    ∃ t, bootAttemptOp s = loadWithHeader (bootOffset s.cfg) (flashHeader s g) t ∧ Loaded s g (headerLoaded s g) [] t := by
  obtain ⟨id, u, hop, h, hdev⟩ := bootAttemptOp_identified hok hb
  obtain ⟨hmem, hcursor, hnand⟩ := reader_of_stateOk hok
  obtain ⟨h3, hres⟩ := hg
  rw [← hdev h3] at hres
  have hload : bootAttemptOp s = loadImage (bootOffset s.cfg) (setGeometry g u) := by
    rcases hres with hres | hres <;> rw [hop, hres, bootResolved, h.cfg]
  have hstart : Loaded s g (readByte s.hostMem) [] (setGeometry g u) := by
    obtain ⟨pay, -, htrace⟩ := h.trace
    refine ⟨⟨h.ready, h.hw.trans hb.progress, by rw [setGeometry, h.hostMem]; exact hmem, ?_, rfl⟩, h.cfg, h.fl, h.image,
      congrArg readByte h.hostMem, _, htrace, rfl⟩
    rw [setGeometry, h.seq]
    exact ⟨hcursor, hnand⟩
  obtain ⟨t, hread, hloaded⟩ := hstart.read hr
  have hcfg : (setGeometry g u).cfg = s.cfg := h.cfg
  refine ⟨t.drew bootHdrLen, ?_, hloaded.drew _⟩
  rw [hload, loadImage_eq, hcfg, show readOp (bootOffset s.cfg) bootHdrLen s.cfg.hdrBuf (setGeometry g u) = .ok t from hread, res_bind_ok,
    hloaded.header hr]

/-! ### The ways to end (R411, R412) -/

/-- What a boot attempt with a resolved geometry leaves. -/
structure BootEnds (s : State) (g : FlashGeometry) (m : Nat → Byte) (calls : List Event) (r : BootResult) (t : State) : Prop where
  result : t.result = .boot r (match r with | .ok => none | .error _ => some s.cfg.errStatus)
  quiescent : Quiescent t
  cfg : t.cfg = s.cfg
  geometry : t.seq.geometry = some g
  image : SameImage s.flash t.flash
  trace : ∃ ev, t.trace = s.trace ++ ev ∧ ev.filter isFitLoad = calls
  mem : ∀ x, readByte t.hostMem x = m x

section
variable {s t u : State} {g : FlashGeometry} {m : Nat → Byte} {calls : List Event}

theorem Loaded.tornDown (h : Loaded s g m calls t) (htorn : TornDown t u) (r : BootResult) : BootEnds s g m calls r (bootReturn u r) := by
  obtain ⟨ev, htrace, hcalls⟩ := h.trace
  have hcfg : u.cfg = s.cfg := htorn.cfg.trans h.cfg
  refine ⟨?_, htorn.quiescent, hcfg, ?_, h.image.trans htorn.image, ⟨ev ++ [.deinitDone], ?_, ?_⟩, fun x => ?_⟩
  · show Returned.boot r (match r with | .ok => none | .error _ => some u.cfg.errStatus) = _
    rw [hcfg]
  · show u.seq.geometry = some g
    rw [htorn.seq]
    exact h.loading.geometry
  · show u.trace = _
    rw [htorn.trace, htrace, List.append_assoc]
  · rw [List.filter_append, hcalls]
    exact List.append_nil _
  · show readByte u.hostMem x = m x
    rw [htorn.hostMem, h.mem]

theorem Loaded.raises (h : Loaded s g m calls t) (hp : s.cfg.pinFunctionInert ≠ s.cfg.pinFunctionSpi0) (k : ErrorKind) :
    ∃ u, raiseError k t = .ok u ∧ BootEnds s g m calls (.error k) u := by
  obtain ⟨u, hop, htorn⟩ := raiseError_tornDown h.loading.ready (by rw [h.cfg]; exact hp) k
  exact ⟨_, hop, h.tornDown htorn _⟩

theorem Loaded.returns (h : Loaded s g m calls t) (hp : s.cfg.pinFunctionInert ≠ s.cfg.pinFunctionSpi0) :
    ∃ u, returnOk t = .ok u ∧ BootEnds s g m calls .ok u := by
  obtain ⟨u, hop, htorn⟩ := returnOk_tornDown h.loading.ready (by rw [h.cfg]; exact hp)
  exact ⟨_, hop, h.tornDown htorn _⟩

end

/-- The path of a header that is valid and not a FIT's. -/
theorem loadWithHeader_raw {s : State} {hdr : List Byte} (offset : Word) (hvalid : headerValid s.cfg hdr = true)
    (hraw : ¬ (isFitHeader s.cfg hdr = true ∧ s.cfg.allowFit = true)) : loadWithHeader offset hdr s = rawPath offset hdr s := by
  have hfit : (isFitHeader s.cfg hdr && s.cfg.allowFit) = false := by
    rw [← Bool.not_eq_true, Bool.and_eq_true]
    exact hraw
  rw [loadWithHeader, hvalid, if_pos rfl, hfit, if_neg Bool.false_ne_true]

/-- Settles O49: the header is invalid, or the raw path's parser refuses it. -/
theorem bootHeaderErrors : Obligations.BootHeaderErrors := by
  unfold Obligations.BootHeaderErrors
  intro s g hok hb hg hr kind hkind
  obtain ⟨t, hop, h⟩ := bootAttemptOp_loaded hok hb hg hr
  obtain ⟨u, calls, hend, k⟩ : ∃ u calls, loadWithHeader (bootOffset s.cfg) (flashHeader s g) t = .ok u ∧
      BootEnds s g (headerLoaded s g) calls (.error kind) u := by
    obtain ⟨rfl, hinvalid⟩ | ⟨rfl, hvalid, hraw, hparse⟩ := hkind
    · obtain ⟨u, hraise, k⟩ := (h.log (.report "image CRC error")).raises hb.pins .checksumInvalid
      exact ⟨u, _, by rw [loadWithHeader, h.cfg, hinvalid, if_neg Bool.false_ne_true, hraise], k⟩
    · obtain ⟨u, hraise, k⟩ := h.raises hb.pins .imageParseError
      refine ⟨u, _, ?_, k⟩
      rw [loadWithHeader_raw _ (by rw [h.cfg]; exact hvalid) (by rw [h.cfg]; exact hraw), rawPath, h.cfg, hparse]
      exact hraise
  refine ⟨u, ?_, k.result, k.quiescent, k.cfg, k.geometry, k.image, k.mem⟩
  rw [exec_bootAttempt, hop, hend]
  rfl

/-- Settles O50: the parser accepts the header, and the image is read. -/
theorem bootRawImage : Obligations.BootRawImage := by
  unfold Obligations.BootRawImage
  intro s g img hok hb hg hr hvalid hraw hparse himg
  obtain ⟨t, hop, h⟩ := bootAttemptOp_loaded hok hb hg hr
  obtain ⟨u, hread, hu⟩ := h.read himg
  obtain ⟨v, hret, k⟩ := hu.returns hb.pins
  refine ⟨v, ?_, k.result, k.quiescent, k.cfg, k.geometry, k.image, k.mem⟩
  rw [exec_bootAttempt, hop, loadWithHeader_raw _ (by rw [h.cfg]; exact hvalid) (by rw [h.cfg]; exact hraw), rawPath, h.cfg, hparse]
  simp only [hread, res_bind_ok, hret, finish_ok]

/-! ### The FIT path (R412) -/

section
variable {s t : State} {g : FlashGeometry}

/-- What a FIT read leaves depends on the device's contents and the storage kind only. -/
theorem fitReadBytes_congr (hc : t.cfg = s.cfg) (hi : SameImage s.flash t.flash) : fitReadBytes t g = fitReadBytes s g := by
  funext sector count buffer m
  simp only [fitReadBytes, hc, flashByteAt_image hi]

theorem fitOutcome_congr (hc : t.cfg = s.cfg) (hi : SameImage s.flash t.flash) :
    ∀ (r : FitRun) (got : List Byte) (m : Nat → Byte), fitOutcome t g r got m = fitOutcome s g r got m
  | .done _, _, _ => rfl
  | .write _ _ next, _, _ => fitOutcome_congr hc hi next _ _
  | .read _ _ _ next, _, _ => by
    rw [fitOutcome, fitOutcome, fitReadBytes_congr hc hi]
    exact fitOutcome_congr hc hi next _ _
  | .ifDelivered bytes yes no, got, m => by
    rw [fitOutcome, fitOutcome, fitOutcome_congr hc hi yes, fitOutcome_congr hc hi no]

theorem fitReadable_congr (hc : t.cfg = s.cfg) (hf : t.env.flashProgress = s.env.flashProgress) (hi : SameImage s.flash t.flash) :
    ∀ (r : FitRun) (got : List Byte) (m : Nat → Byte), FitReadable t g r got m = FitReadable s g r got m
  | .done _, _, _ => rfl
  | .write _ _ next, got, _ => by
    rw [FitReadable, FitReadable, hc, fitReadable_congr hc hf hi next]
  | .read _ _ _ next, _, _ => by
    rw [FitReadable, FitReadable, fitReadBytes_congr hc hi, fitReadable_congr hc hf hi next, Readable, Readable, hc, hf]
  | .ifDelivered bytes yes no, got, m => by
    rw [FitReadable, FitReadable, fitReadable_congr hc hf hi yes, fitReadable_congr hc hf hi no]

end

/-- Settles O51, from `fitActs_spec` after the call of the collaborator. -/
theorem bootFitImage : Obligations.BootFitImage := by
  unfold Obligations.BootFitImage
  rintro s g hok hb hg hr hvalid hfit hallow hreadable out rfl
  obtain ⟨t, hop, h⟩ := bootAttemptOp_loaded hok hb hg hr
  have hcall := h.log (.fitLoad (flashHeader s g) 1)
  have hreadable' : FitReadable (t.log (.fitLoad (flashHeader s g) 1)) g (fitRunOf s.cfg (flashHeader s g)) []
      (readByte (t.log (.fitLoad (flashHeader s g) 1)).hostMem) := by
    rw [hcall.mem, fitReadable_congr hcall.cfg hcall.fl hcall.image]
    exact hreadable
  obtain ⟨u, hacts, hc, hl, hm⟩ := fitActs_spec _ (.refl hcall.loading.ready) hcall.loading hreadable'
  rw [hcall.mem, fitOutcome_congr hcall.cfg hcall.image] at hacts hm
  have hu := hcall.of_commands hc hl hm
  obtain ⟨v, hend, k⟩ : ∃ v, fitPath (flashHeader s g) t = .ok v ∧
      BootEnds s g (fitOutcome s g (fitRunOf s.cfg (flashHeader s g)) [] (headerLoaded s g)).2 [.fitLoad (flashHeader s g) 1]
        (if (fitOutcome s g (fitRunOf s.cfg (flashHeader s g)) [] (headerLoaded s g)).1 then .ok else .error .fitLoadFailed) v := by
    rw [fitPath, h.cfg, hacts, res_bind_ok]
    cases (fitOutcome s g (fitRunOf s.cfg (flashHeader s g)) [] (headerLoaded s g)).1 with
    | true => exact hu.returns hb.pins
    | false => exact hu.raises hb.pins .fitLoadFailed
  have hpath : loadWithHeader (bootOffset s.cfg) (flashHeader s g) t = fitPath (flashHeader s g) t := by
    rw [loadWithHeader, h.cfg, hvalid, hfit, hallow]
    rfl
  refine ⟨v, ?_, k.quiescent, k.cfg, k.geometry, k.image, ?_, k.trace, k.mem⟩
  · rw [exec_bootAttempt, hop, hpath, hend]
    rfl
  · rw [k.result]
    cases (fitOutcome s g (fitRunOf s.cfg (flashHeader s g)) [] (headerLoaded s g)).1 <;> rfl

end Sys2Proof.Machine
end

section
/-! PROOFS. An exchange on the two generations (42_protocol_engine.md R239): the same device and turns where its burst starts, though
GenB makes an access more, and from there on two runs that differ in the variant and in three registers. -/

namespace Sys2Proof.Machine

/-! ### The device and the turns to come, over the accesses of an idle controller -/

/-- The device and the environment: what the turns before an access of an idle controller can change. -/
def agents (s : State) : FlashDevice × Environment := (s.flash, s.env)

/-- The device after some turns, while the Engine has nothing to do. -/
def turnsFlash : List Turn → FlashDevice → FlashDevice
  | [], f => f
  | .engine :: ts, f => turnsFlash ts f
  | .flash :: ts, f => turnsFlash ts (if f.nandBusy then flashLoad f else f)

theorem takeTurns_eq_of_still : ∀ (ts : List Turn) {s : State}, Still s → takeTurns ts s = .ok { s with flash := turnsFlash ts s.flash }
  | [], _, _ => rfl
  | .engine :: ts, s, h => by
    have hturn : engineTurn s = .ok s := by simp [engineTurn, h.1, h.2]
    rw [takeTurns, takeTurn, hturn, res_bind_ok, takeTurns_eq_of_still ts h]
    rfl
  | .flash :: ts, s, h => by
    have hturn : flashTurn s = { s with flash := if s.flash.nandBusy then flashLoad s.flash else s.flash } := by
      unfold flashTurn
      split_ifs <;> rfl
    rw [takeTurns, takeTurn, hturn, res_bind_ok, takeTurns_eq_of_still ts (by exact h)]
    rfl

/-- What the turns before one access make of the device and the environment. -/
def gapAgents (x : FlashDevice × Environment) : FlashDevice × Environment :=
  (turnsFlash (x.2.sched.headD []) x.1, { x.2 with sched := x.2.sched.tail })

theorem gap_eq_of_still {s : State} (h : Still s) :
    gap s = .ok { s with flash := (gapAgents (agents s)).1, env := (gapAgents (agents s)).2 } := by
  unfold gap
  cases hs : s.env.sched with
  | nil =>
    simp only [gapAgents, agents, hs, List.headD_nil, List.tail_nil, turnsFlash]
    rw [← hs]
  | cons ts rest =>
    simp only [gapAgents, agents, hs, List.headD_cons, List.tail_cons]
    exact takeTurns_eq_of_still ts (s := { s with env := { s.env with sched := rest } }) h

/-- An access that leaves the other agents and the Engine alone. -/
def KeepsAgents (act : State → Res State) : Prop := ∀ s t, act s = .ok t → agents t = agents s ∧ t.eng = s.eng ∧ t.cfg = s.cfg

/-- `t` is an idle state `k` accesses after the idle state `s`. -/
structure AfterAccesses (k : Nat) (s t : State) : Prop where
  agents : agents t = gapAgents^[k] (agents s)
  still : Still t
  cfg : t.cfg = s.cfg

theorem AfterAccesses.trans {j k : Nat} {s t u : State} (h : AfterAccesses j s t) (h' : AfterAccesses k t u) : AfterAccesses (j + k) s u :=
  ⟨by rw [h'.agents, h.agents, Nat.add_comm, Function.iterate_add_apply], h'.still, h'.cfg.trans h.cfg⟩

theorem hostStep_afterAccess {act : State → Res State} (hk : KeepsAgents act) {s t : State} (hs : Still s) (h : hostStep act s = .ok t) :
    AfterAccesses 1 s t := by
  rw [hostStep, gap_eq_of_still hs, res_bind_ok] at h
  obtain ⟨hagents, heng, hcfg⟩ := hk _ _ h
  refine ⟨hagents, ?_, hcfg⟩
  rw [Still, heng]
  exact hs

theorem keepsAgents_gated {act : State → Res State} (hk : KeepsAgents act) : KeepsAgents (gated act) := fun s t h => by
  obtain ⟨_, -, h⟩ := res_bind_eq_ok.1 h
  exact hk s t h

/-- An access that checks something and then writes the register block. -/
theorem keepsAgents_of_regs {act : State → Res State} (h : ∀ s t, act s = .ok t → ∃ r, t = { s with regs := r }) : KeepsAgents act := fun s t ht => by
  obtain ⟨r, rfl⟩ := h s t ht
  exact ⟨rfl, rfl, rfl⟩

theorem keepsAgents_writeBurstCnt (v : Word) : KeepsAgents (writeBurstCnt v) := keepsAgents_of_regs fun s t h => by
  obtain ⟨_, -, h⟩ := res_bind_eq_ok.1 h
  exact ⟨_, (Except.ok.inj h).symm⟩

theorem keepsAgents_writeXferCnt (v : Word) : KeepsAgents (writeXferCnt v) := keepsAgents_of_regs fun s t h => by
  obtain ⟨_, -, h⟩ := res_bind_eq_ok.1 h
  exact ⟨_, (Except.ok.inj h).symm⟩

theorem keepsAgents_writeBcc (v : Word) : KeepsAgents (writeBcc v) := keepsAgents_of_regs fun s t h => by
  obtain ⟨_, -, h⟩ := res_bind_eq_ok.1 h
  exact ⟨_, (Except.ok.inj h).symm⟩

theorem keepsAgents_pushTx (b : Byte) : KeepsAgents (pushTx b) := keepsAgents_of_regs fun s t h => by
  obtain ⟨_, -, h⟩ := res_bind_eq_ok.1 h
  obtain ⟨_, -, h⟩ := res_bind_eq_ok.1 h
  exact ⟨_, (Except.ok.inj h).symm⟩

/-- How many accesses program the counters: GenB writes BURSTCNT_ALT too (42_protocol_engine.md R232). -/
def counterAccesses : Variant → Nat
  | .genA => 2
  | .genB => 3

theorem programCounters_afterAccesses {a b : Nat} {s t : State} (hs : Still s) (h : programCounters a b s = .ok t) :
    AfterAccesses (counterAccesses s.cfg.variant) s t := by
  obtain ⟨u, hu, h⟩ := res_bind_eq_ok.1 h
  obtain ⟨v, hv, h⟩ := res_bind_eq_ok.1 h
  have h1 := hostStep_afterAccess (keepsAgents_gated (keepsAgents_writeBurstCnt _)) hs hu
  have h2 := h1.trans (hostStep_afterAccess (keepsAgents_gated (keepsAgents_writeXferCnt _)) h1.still hv)
  rw [h2.cfg] at h
  cases hvar : s.cfg.variant with
  | genA =>
    rw [hvar] at h
    obtain rfl := Except.ok.inj h
    exact h2
  | genB =>
    rw [hvar] at h
    exact h2.trans (hostStep_afterAccess (keepsAgents_gated (keepsAgents_writeBcc _)) h2.still h)

theorem pushAll_afterAccesses : ∀ (bs : List Byte) {s t : State}, Still s → pushAll bs s = .ok t → AfterAccesses bs.length s t
  | [], s, t, hs, h => by
    obtain rfl := Except.ok.inj h
    exact ⟨rfl, hs, rfl⟩
  | b :: bs, s, t, hs, h => by
    obtain ⟨u, hu, h⟩ := res_bind_eq_ok.1 h
    have h1 := hostStep_afterAccess (keepsAgents_gated (keepsAgents_pushTx b)) hs hu
    have h2 := h1.trans (pushAll_afterAccesses bs h1.still h)
    rwa [Nat.add_comm] at h2

theorem startBurst_agents {s t : State} (h : startBurst s = .ok t) : agents t = agents s := by
  rw [startBurst_eq] at h
  split at h
  · cases h
  · obtain rfl := Except.ok.inj h
    rfl

theorem mmioWriteXch_agents {v : Word} {s t : State} (h : mmioWriteXch v s = .ok t) : agents t = agents s := by
  obtain ⟨_, -, h⟩ := res_bind_eq_ok.1 h
  split at h
  all_goals
    obtain ⟨_, -, h⟩ := res_bind_eq_ok.1 h
    dsimp only at h
    split at h
    · have hstart := startBurst_agents h
      exact hstart
    · obtain rfl := Except.ok.inj h
      rfl

/-- The two accesses that start a burst. -/
theorem setXch_agents {m : Word} {s t : State} (hs : Still s) (h : hostStep (setXch m) s = .ok t) :
    agents t = gapAgents^[2] (agents s) := by
  rw [hostStep, gap_eq_of_still hs, res_bind_ok] at h
  obtain ⟨_, -, h⟩ := res_bind_eq_ok.1 h
  rw [hostStep, gap_eq_of_still (by exact hs), res_bind_ok] at h
  exact mmioWriteXch_agents h

/-! ### The start of an exchange and the rest of it (R232) -/

/-- An exchange up to the start of its burst. -/
def exchangeStart (hdr : List Byte) (n : Nat) (s : State) : Res State := do
  let s ← programCounters (hdr.length + n) hdr.length s
  let s ← pushAll hdr s
  hostStep (setXch (mask (xchBit s.cfg.variant))) s

/-- An exchange from the start of its burst on. -/
def exchangeRest (h n : Nat) (s : State) : Res (List Byte × State) := do
  let s ← awaitBurst (h + n) s
  let (_, s) ← popAll h s
  let (out, s) ← popAll n s
  let s ← delayStep s
  pure (out, s)

theorem exchangeOp_eq {s : State} {op : Byte} {addr : List Byte} {d n : Nat} (hh : s.seq.handle = true) (hf : frameOk op addr d n = .ok ()) :
    exchangeOp op addr d n s = exchangeStart (header op addr d) n s >>= exchangeRest (header op addr d).length n := by
  unfold exchangeOp exchangeStart exchangeRest
  simp only [hh, Bool.not_true, refuseIf_false, res_bind_ok, hf, bind_assoc]

/-- The burst of an exchange starts with the device and the turns that the accesses before it leave. -/
theorem exchangeStart_spec {s : State} {hdr : List Byte} {n : Nat} (hr : Ready s) (h0 : 0 < hdr.length) (hcap : hdr.length + n ≤ fifoDepth)
    (hk : knownHeader hdr = true) {f : FlashDevice} {e : Environment}
    (he : gapAgents^[counterAccesses s.cfg.variant + hdr.length + 2] (agents s) = (f, e)) :
    exchangeStart hdr n s = .ok (burstStarted hdr n { s with flash := f, env := e }) := by
  obtain ⟨g, l, -, hop⟩ := start_spec hr h0 hcap hk
  obtain ⟨t, ht, hstart⟩ := res_bind_eq_ok.1 hop
  obtain ⟨u, hu, hstart⟩ := res_bind_eq_ok.1 hstart
  have h1 := programCounters_afterAccesses hr.still ht
  have h2 := h1.trans (pushAll_afterAccesses hdr h1.still hu)
  have hagents : agents (burstStarted hdr n (moved s g l)) = (f, e) := by
    rw [setXch_agents h2.still hstart, h2.agents, ← Function.iterate_add_apply, Nat.add_comm 2, he]
  obtain ⟨rfl, rfl⟩ := Prod.mk.inj hagents
  exact hop

/-- The schedule that has no turns before GenB's access more is used up to the same place. -/
theorem gapAgents_extra (f : FlashDevice) (e : Environment) :
    gapAgents^[3] (f, { e with sched := e.sched.take 2 ++ [] :: e.sched.drop 2 }) = gapAgents^[2] (f, e) := by
  obtain ⟨sched, hw, fl⟩ := e
  match sched with
  | [] | [_] | _ :: _ :: _ => rfl

/-! ### Two runs that differ in the variant and in three registers -/

/-- `s` on GenB, with other values in the registers that only one generation writes in an exchange. -/
def twin (o t : Word) (c : Word24) (s : State) : State :=
  { s with cfg := { s.cfg with variant := .genB }, regs := { s.regs with ctlOther := o, tcrOther := t, bcc := c } }

/-- If a step commutes with `g`, so does what follows it. -/
theorem map_bind_of {α β : Type} {g : α → α} {k : β → β} {x : Res α} {f f' : α → Res β} (h : ∀ u, x = .ok u → f' (g u) = k <$> f u) :
    ((g <$> x) >>= f') = k <$> (x >>= f) := by
  cases x with
  | error e => rfl
  | ok u => exact h u rfl

/-- A GenA state of an exchange in which its polls and pops can be made: the gate is open and the FIFO counts fit the poll's fields. -/
structure Pollable (s : State) : Prop where
  variant : s.cfg.variant = .genA
  clkOn : s.plat.clkOn = true
  srst : s.eng.srstBusy = false
  rx : s.regs.rxFifo.length ≤ fifoDepth
  tx : s.regs.txFifo.length ≤ fifoDepth

theorem Pollable.gate {s : State} (h : Pollable s) : GateOpen s := ⟨h.clkOn, fun _ => h.srst⟩

section
variable {o t : Word} {c : Word24}

theorem Pollable.twinGate {s : State} (h : Pollable s) : GateOpen (twin o t c s) := ⟨h.clkOn, fun _ => h.srst⟩

/-! ### Turns -/

theorem byteStep_twin (s : State) : byteStep (twin o t c s) = twin o t c <$> byteStep s := by
  by_cases h : fifoDepth ≤ s.regs.rxFifo.length
  · rw [byteStep_full h, byteStep_full (by exact h)]
    rfl
  · rw [byteStep_room (Nat.lt_of_not_le h), byteStep_room (s := twin o t c s) (Nat.lt_of_not_le h)]
    show Except.ok (if s.eng.bRemain - 1 = 0 then _ else _) = _
    split_ifs <;> rfl

theorem byteStep_pollable {s u : State} (h : Pollable s) (hu : byteStep s = .ok u) : Pollable u := by
  obtain ⟨_, hroom, hu⟩ := res_bind_eq_ok.1 hu
  obtain rfl := Except.ok.inj hu
  have hroom : s.regs.rxFifo.length < fifoDepth := Nat.lt_of_not_le (of_decide_eq_false (faultIf_eq_ok.1 hroom))
  have hclocked : Pollable (byteClocked s) := by
    refine ⟨h.variant, h.clkOn, h.srst, ?_, ?_⟩
    · rw [byteClocked_eq, List.length_append, List.length_singleton]
      exact hroom
    · show (txAfterByte s).length ≤ fifoDepth
      unfold txAfterByte
      split_ifs
      · exact (List.length_tail ▸ Nat.sub_le _ _).trans h.tx
      · exact h.tx
  split_ifs
  · exact ⟨hclocked.variant, hclocked.clkOn, hclocked.srst, hclocked.rx, hclocked.tx⟩
  · exact hclocked

theorem engineTurn_twin (s : State) : engineTurn (twin o t c s) = twin o t c <$> engineTurn s := by
  unfold engineTurn
  show (if s.eng.srstBusy then _ else if s.eng.busy && decide (0 < s.eng.bRemain) then _ else _) = _
  split_ifs
  · rfl
  · exact byteStep_twin s
  · rfl

theorem engineTurn_pollable {s u : State} (h : Pollable s) (hu : engineTurn s = .ok u) : Pollable u := by
  rw [engineTurn, h.srst, if_neg Bool.false_ne_true] at hu
  split_ifs at hu
  · exact byteStep_pollable h hu
  · obtain rfl := Except.ok.inj hu
    exact h

theorem flashTurn_twin (s : State) : flashTurn (twin o t c s) = twin o t c (flashTurn s) := by
  unfold flashTurn
  show (if s.flash.nandBusy then _ else _) = _
  split_ifs <;> rfl

theorem flashTurn_pollable {s : State} (h : Pollable s) : Pollable (flashTurn s) := by
  unfold flashTurn
  split_ifs
  · exact ⟨h.variant, h.clkOn, h.srst, h.rx, h.tx⟩
  · exact h

theorem takeTurn_twin (turn : Turn) (s : State) : takeTurn turn (twin o t c s) = twin o t c <$> takeTurn turn s := by
  cases turn with
  | engine => exact engineTurn_twin s
  | flash => exact congrArg Except.ok (flashTurn_twin s)

theorem takeTurn_pollable {turn : Turn} {s u : State} (h : Pollable s) (hu : takeTurn turn s = .ok u) : Pollable u := by
  cases turn with
  | engine => exact engineTurn_pollable h hu
  | flash =>
    obtain rfl := Except.ok.inj hu
    exact flashTurn_pollable h

theorem takeTurns_twin : ∀ (ts : List Turn) (s : State), takeTurns ts (twin o t c s) = twin o t c <$> takeTurns ts s
  | [], _ => rfl
  | turn :: ts, s => by
    rw [takeTurns, takeTurns, takeTurn_twin]
    exact map_bind_of fun u _ => takeTurns_twin ts u

theorem takeTurns_pollable : ∀ (ts : List Turn) {s u : State}, Pollable s → takeTurns ts s = .ok u → Pollable u
  | [], _, _, h, hu => by
    obtain rfl := Except.ok.inj hu
    exact h
  | turn :: ts, s, u, h, hu => by
    obtain ⟨v, hv, hu⟩ := res_bind_eq_ok.1 hu
    exact takeTurns_pollable ts (takeTurn_pollable h hv) hu

theorem Pollable.env {s : State} (h : Pollable s) (e : Environment) : Pollable { s with env := e } := ⟨h.variant, h.clkOn, h.srst, h.rx, h.tx⟩

theorem gap_of_cons {s : State} {ts : List Turn} {rest : List (List Turn)} (h : s.env.sched = ts :: rest) :
    gap s = takeTurns ts { s with env := { s.env with sched := rest } } := by
  rw [gap, h]

theorem gap_twin (s : State) : gap (twin o t c s) = twin o t c <$> gap s := by
  cases hs : s.env.sched with
  | nil =>
    rw [gap_of_nil hs, gap_of_nil (by exact hs)]
    rfl
  | cons ts rest =>
    rw [gap_of_cons hs, gap_of_cons (s := twin o t c s) hs]
    exact takeTurns_twin ts { s with env := { s.env with sched := rest } }

theorem gap_pollable {s u : State} (h : Pollable s) (hu : gap s = .ok u) : Pollable u := by
  unfold gap at hu
  split at hu
  · obtain rfl := Except.ok.inj hu
    exact h
  · exact takeTurns_pollable _ (h.env _) hu

/-- A Host step commutes where its access does, at the state the turns before it leave. -/
theorem hostStep_twin {β : Type} {k : β → β} {act : State → Res β} {s : State} (h : Pollable s)
    (hact : ∀ u, Pollable u → act (twin o t c u) = k <$> act u) : hostStep act (twin o t c s) = k <$> hostStep act s := by
  rw [hostStep, hostStep, gap_twin]
  exact map_bind_of fun u hu => hact u (gap_pollable h hu)

theorem fairRound_twin (s : State) : fairRound (twin o t c s) = twin o t c <$> fairRound s := by
  have hengine : (if (twin o t c s).env.hwProgress then engineTurn (twin o t c s) else .ok (twin o t c s)) =
      twin o t c <$> (if s.env.hwProgress then engineTurn s else .ok s) := by
    show (if s.env.hwProgress then _ else _) = _
    split_ifs
    · exact engineTurn_twin s
    · rfl
  rw [fairRound_eq, fairRound_eq, hengine]
  refine map_bind_of fun u _ => ?_
  show Except.ok (if u.env.flashProgress then _ else _) = _
  split_ifs
  · exact congrArg Except.ok (flashTurn_twin u)
  · rfl

theorem fairRound_pollable {s u : State} (h : Pollable s) (hu : fairRound s = .ok u) : Pollable u := by
  rw [fairRound_eq] at hu
  obtain ⟨v, hv, hu⟩ := res_bind_eq_ok.1 hu
  obtain rfl := Except.ok.inj hu
  have hpoll : Pollable v := by
    split_ifs at hv
    · exact engineTurn_pollable h hv
    · obtain rfl := Except.ok.inj hv
      exact h
  split_ifs
  · exact flashTurn_pollable hpoll
  · exact hpoll

/-! ### Waits (R235) -/

/-- Two polls that read the same FIFO counts, each in its generation's field. -/
def PollsAgree (o t : Word) (c : Word24) (pa pb : Poll) : Prop :=
  ∀ s, Pollable s → ∃ d, pa s = .ok (d, s.drew 1) ∧ pb (twin o t c s) = .ok (d, twin o t c (s.drew 1))

theorem Pollable.drew {s : State} (h : Pollable s) (n : Nat) : Pollable (s.drew n) := ⟨h.variant, h.clkOn, h.srst, h.rx, h.tx⟩

theorem waitFair_twin {pa pb : Poll} (hp : PollsAgree o t c pa pb) : ∀ (k : Nat) {s : State}, Pollable s →
    waitFair pb k (twin o t c s) = twin o t c <$> waitFair pa k s ∧ ∀ u, waitFair pa k s = .ok u → Pollable u
  | 0, s, h => by
    obtain ⟨d, ha, hb⟩ := hp s h
    rw [waitFair, waitFair, ha, hb, res_bind_ok, res_bind_ok]
    cases d with
    | true => exact ⟨rfl, fun u hu => by obtain rfl := Except.ok.inj hu; exact h.drew 1⟩
    | false => exact ⟨rfl, fun u hu => by cases hu⟩
  | k + 1, s, h => by
    obtain ⟨d, ha, hb⟩ := hp s h
    rw [waitFair, waitFair, ha, hb, res_bind_ok, res_bind_ok]
    cases d with
    | true => exact ⟨rfl, fun u hu => by obtain rfl := Except.ok.inj hu; exact h.drew 1⟩
    | false =>
      simp only [Bool.false_eq_true, if_false]
      rw [fairRound_twin]
      refine ⟨map_bind_of fun u hu => (waitFair_twin hp k (fairRound_pollable (h.drew 1) hu)).1, fun u hu => ?_⟩
      obtain ⟨v, hv, hu⟩ := res_bind_eq_ok.1 hu
      exact (waitFair_twin hp k (fairRound_pollable (h.drew 1) hv)).2 u hu

theorem waitSched_twin {pa pb : Poll} (hp : PollsAgree o t c pa pb) : ∀ (l : List (List Turn)) {s : State}, Pollable s →
    waitSched pb l (twin o t c s) = twin o t c <$> waitSched pa l s ∧ ∀ u, waitSched pa l s = .ok u → Pollable u
  | [], s, h => waitFair_twin hp _ (h.env { s.env with sched := [] })
  | ts :: rest, s, h => by
    have hturns := takeTurns_twin (o := o) (t := t) (c := c) ts { s with env := { s.env with sched := rest } }
    have hpollable : ∀ u, takeTurns ts { s with env := { s.env with sched := rest } } = .ok u → Pollable u :=
      fun u => takeTurns_pollable ts (h.env _)
    rw [waitSched, waitSched]
    refine ⟨(congrArg (· >>= _) hturns).trans (map_bind_of fun u hu => ?_), fun w hw => ?_⟩
    · obtain ⟨d, ha, hb⟩ := hp u (hpollable u hu)
      rw [ha, hb, res_bind_ok, res_bind_ok]
      cases d with
      | true => rfl
      | false => exact (waitSched_twin hp rest ((hpollable u hu).drew 1)).1
    · obtain ⟨u, hu, hw⟩ := res_bind_eq_ok.1 hw
      obtain ⟨d, ha, -⟩ := hp u (hpollable u hu)
      rw [ha, res_bind_ok] at hw
      cases d with
      | true =>
        obtain rfl := Except.ok.inj hw
        exact (hpollable u hu).drew 1
      | false => exact (waitSched_twin hp rest ((hpollable u hu).drew 1)).2 w hw

theorem pollsAgree_txDrained : PollsAgree o t c (pollFifo (fun w => txCnt .genA w == 0)) (pollFifo (fun w => txCnt .genB w == 0)) := by
  intro s h
  have hcount : ∀ v, (txCnt v (fifoStaWord v (drawWord s 0) s.regs.rxFifo.length s.regs.txFifo.length) == 0) =
      decide (s.regs.txFifo.length = 0) := fun v => by
    rw [Bool.eq_iff_iff, beq_iff_eq, decide_eq_true_iff, ← BitVec.toNat_inj, txCnt_fifoStaWord v _ _ _ h.tx]
    rfl
  refine ⟨decide (s.regs.txFifo.length = 0), ?_, ?_⟩
  · simp only [pollFifo, accessGate_of_open h.gate, res_bind_ok, readFifoSta, h.variant, hcount, res_pure]
  · rw [pollFifo, accessGate_of_open h.twinGate, res_bind_ok, ← hcount .genB]
    rfl

theorem pollsAgree_rxArrived (n : Nat) : PollsAgree o t c (pollFifo (fun w => decide (n ≤ (rxCnt .genA w).toNat)))
    (pollFifo (fun w => decide (n ≤ (rxCnt .genB w).toNat))) := by
  intro s h
  have hcount : ∀ v, (rxCnt v (fifoStaWord v (drawWord s 0) s.regs.rxFifo.length s.regs.txFifo.length)).toNat = s.regs.rxFifo.length :=
    fun v => rxCnt_fifoStaWord v _ _ _ h.rx
  refine ⟨decide (n ≤ s.regs.rxFifo.length), ?_, ?_⟩
  · simp only [pollFifo, accessGate_of_open h.gate, res_bind_ok, readFifoSta, h.variant, hcount, res_pure]
  · rw [pollFifo, accessGate_of_open h.twinGate, res_bind_ok, ← hcount .genB]
    rfl

theorem awaitBurst_twin {n : Nat} {s : State} (h : Pollable s) :
    awaitBurst n (twin o t c s) = twin o t c <$> awaitBurst n s ∧ ∀ u, awaitBurst n s = .ok u → Pollable u := by
  obtain ⟨hfirst, hpoll⟩ := waitSched_twin (o := o) (t := t) (c := c) pollsAgree_txDrained s.env.sched h
  unfold awaitBurst
  rw [h.variant]
  refine ⟨(congrArg (· >>= _) hfirst).trans (map_bind_of fun u hu => ?_), fun w hw => ?_⟩
  · exact (waitSched_twin (pollsAgree_rxArrived n) u.env.sched (hpoll u hu)).1
  · obtain ⟨u, hu, hw⟩ := res_bind_eq_ok.1 hw
    exact (waitSched_twin (o := o) (t := t) (c := c) (pollsAgree_rxArrived n) u.env.sched (hpoll u hu)).2 w hw

/-! ### Pops and the delay (R232, R237) -/

theorem popRx_twin {s : State} (h : Pollable s) : gated popRx (twin o t c s) = Prod.map id (twin o t c) <$> gated popRx s := by
  rw [gated_of_open h.gate, gated_of_open h.twinGate]
  cases hrx : s.regs.rxFifo with
  | nil => rw [popRx, popRx, hrx, show (twin o t c s).regs.rxFifo = [] from hrx]; rfl
  | cons b rest => rw [popRx, popRx, hrx, show (twin o t c s).regs.rxFifo = b :: rest from hrx]; rfl

theorem popRx_pollable {s u : State} {b : Byte} (h : Pollable s) (hu : gated popRx s = .ok (b, u)) : Pollable u := by
  rw [gated_of_open h.gate, popRx] at hu
  split at hu
  · cases hu
  · next b' rest hrx =>
    obtain ⟨-, rfl⟩ := Prod.mk.inj (Except.ok.inj hu)
    have hlen := h.rx
    rw [hrx] at hlen
    exact ⟨h.variant, h.clkOn, h.srst, (Nat.le_succ _).trans hlen, h.tx⟩

theorem popAll_twin : ∀ (n : Nat) {s : State}, Pollable s →
    popAll n (twin o t c s) = Prod.map id (twin o t c) <$> popAll n s ∧ ∀ r, popAll n s = .ok r → Pollable r.2
  | 0, s, h => ⟨rfl, fun r hr => by obtain rfl := Except.ok.inj hr; exact h⟩
  | n + 1, s, h => by
    have hpop : hostStep (gated popRx) (twin o t c s) = Prod.map id (twin o t c) <$> hostStep (gated popRx) s :=
      hostStep_twin h fun u hu => popRx_twin hu
    have hpoll : ∀ r, hostStep (gated popRx) s = .ok r → Pollable r.2 := fun r hr => by
      obtain ⟨u, hu, hr⟩ := res_bind_eq_ok.1 hr
      exact popRx_pollable (gap_pollable h hu) hr
    rw [popAll, popAll, hpop]
    refine ⟨map_bind_of fun r hr => ?_, fun r hr => ?_⟩
    · show (popAll n (twin o t c r.2) >>= _) = _
      rw [(popAll_twin n (hpoll r hr)).1]
      exact map_bind_of fun q _ => rfl
    · obtain ⟨r1, hr1, hr⟩ := res_bind_eq_ok.1 hr
      obtain ⟨r2, hr2, hr⟩ := res_bind_eq_ok.1 hr
      obtain rfl := Except.ok.inj hr
      exact (popAll_twin n (hpoll r1 hr1)).2 r2 hr2

theorem exchangeRest_twin (h n : Nat) {s : State} (hs : Pollable s) :
    exchangeRest h n (twin o t c s) = Prod.map id (twin o t c) <$> exchangeRest h n s := by
  obtain ⟨hawait, hpoll⟩ := awaitBurst_twin (o := o) (t := t) (c := c) (n := h + n) hs
  rw [exchangeRest, exchangeRest, hawait]
  refine map_bind_of fun u hu => ?_
  obtain ⟨hecho, hpoll'⟩ := popAll_twin (o := o) (t := t) (c := c) h (hpoll u hu)
  rw [hecho]
  refine map_bind_of fun r hr => ?_
  obtain ⟨hpay, hpoll''⟩ := popAll_twin (o := o) (t := t) (c := c) n (hpoll' r hr)
  show (popAll n (twin o t c r.2) >>= _) = _
  rw [hpay]
  refine map_bind_of fun q hq => ?_
  have hdelay : delayStep (twin o t c q.2) = twin o t c <$> delayStep q.2 := hostStep_twin (hpoll'' q hq) fun _ _ => rfl
  show (delayStep (twin o t c q.2) >>= _) = _
  rw [hdelay]
  exact map_bind_of fun _ _ => rfl

end

/-! ### The two generations (R239) -/

/-- `s` on a generation. -/
def onVariant (v : Variant) (s : State) : State := { s with cfg := { s.cfg with variant := v } }

/-- `s` on GenB, where no turn comes before the access that GenA does not make. -/
def onGenB (s : State) : State :=
  { s with cfg := { s.cfg with variant := .genB }, env := { s.env with sched := s.env.sched.take 2 ++ [] :: s.env.sched.drop 2 } }

/-- Both generations start the burst of an exchange with the same device and the same turns to come. -/
theorem gapAgents_onGenB (k : Nat) (s : State) :
    gapAgents^[counterAccesses .genB + k + 2] (agents (onGenB s)) = gapAgents^[counterAccesses .genA + k + 2] (agents (onVariant .genA s)) := by
  have hfirst : gapAgents^[3] (agents (onGenB s)) = gapAgents^[2] (agents (onVariant .genA s)) := gapAgents_extra s.flash s.env
  rw [show counterAccesses .genB + k + 2 = (k + 2) + 3 by simp only [counterAccesses]; omega,
    show counterAccesses .genA + k + 2 = (k + 2) + 2 by simp only [counterAccesses]; omega,
    Function.iterate_add_apply, hfirst, ← Function.iterate_add_apply]

/-- The burst that an exchange of a ready controller starts can be polled. -/
theorem pollable_burstStarted {s : State} (hr : Ready s) {hdr : List Byte} {n : Nat} (hcap : hdr.length + n ≤ fifoDepth) (f : FlashDevice)
    (e : Environment) : Pollable (burstStarted hdr n { onVariant .genA s with flash := f, env := e }) := by
  obtain ⟨-, hclk, -, -, -, ⟨-, -, -, -, hsrst⟩, -, hrx⟩ := hr
  refine ⟨rfl, hclk, hsrst, ?_, (Nat.le_add_right _ _).trans hcap⟩
  show s.regs.rxFifo.length ≤ fifoDepth
  rw [hrx]
  exact Nat.zero_le _

/-- An exchange that GenA completes, GenB completes with the same payload, in the twin of its state. -/
theorem exchangeOp_onGenB {s t : State} {op : Byte} {addr out : List Byte} {d n : Nat} (hr : Ready s) (hf : frameOk op addr d n = .ok ())
    (h : exchangeOp op addr d n (onVariant .genA s) = .ok (out, t)) :
    ∃ o x c, exchangeOp op addr d n (onGenB s) = .ok (out, twin o x c t) := by
  obtain ⟨-, -, hcap, hk⟩ := frameOk_eq_ok.1 hf
  have h0 : 0 < (header op addr d).length := Nat.succ_pos _
  obtain ⟨f, e, he⟩ : ∃ f e, gapAgents^[counterAccesses .genA + (header op addr d).length + 2] (agents (onVariant .genA s)) = (f, e) :=
    ⟨_, _, rfl⟩
  have hstartA := exchangeStart_spec (s := onVariant .genA s) hr h0 hcap hk he
  have hstartB := exchangeStart_spec (s := onGenB s) hr h0 hcap hk ((gapAgents_onGenB _ s).trans he)
  rw [exchangeOp_eq (s := onVariant .genA s) hr.1 hf, hstartA, res_bind_ok] at h
  obtain ⟨o, x, c, htwin⟩ : ∃ o x c, burstStarted (header op addr d) n { onGenB s with flash := f, env := e } =
      twin o x c (burstStarted (header op addr d) n { onVariant .genA s with flash := f, env := e }) :=
    ⟨s.regs.ctlOther, s.regs.tcrOther &&& ~~~tcrNamed, BitVec.ofNat 24 (header op addr d).length, rfl⟩
  refine ⟨o, x, c, ?_⟩
  rw [exchangeOp_eq (s := onGenB s) hr.1 hf, hstartB, res_bind_ok, htwin, exchangeRest_twin _ _ (pollable_burstStarted hr hcap f e), h]
  rfl

/-- Settles O31: GenA completes, and GenB's run is its twin. -/
theorem sameOnBothGenerations : Obligations.SameOnBothGenerations := by
  unfold Obligations.SameOnBothGenerations
  intro s op addr d n hdr hr hw ha hd hh hcap hk
  obtain ⟨hf, -⟩ := frameOk_of_known ha hd hh hcap hk
  obtain ⟨out, t, hA, -⟩ := command_spec (s := onVariant .genA s) (fun _ _ _ => True) hr hw hf (fun _ _ _ _ _ _ h => h)
    fun _ _ _ _ _ => trivial
  obtain ⟨o, x, c, hB⟩ := exchangeOp_onGenB hr hf hA
  exact ⟨_, _, exec_exchange hA, exec_exchange hB, rfl, rfl, rfl, rfl, rfl, rfl, rfl, rfl, rfl⟩

end Sys2Proof.Machine
end
